-- ==== Sys2Proof/Word.lean ====
section
/-! DEFINITION. The words of the links (bytes, two-byte values, positions) and saturating counts. -/

namespace Sys2Proof

/-- One byte of a frame (R162). -/
abbrev Byte := BitVec 8

/-- A two-byte value of a frame (R162). -/
abbrev Half := BitVec 16

/-- A position: a 32-bit unsigned count of steps that wraps (Units and conventions; R5). -/
abbrev Pos := BitVec 32

/-- A saturating count: it stops at `max` rather than wrapping (Quantities, counters and capacities). -/
def satAdd (max n k : Nat) : Nat := if n + k ≤ max then n + k else max

end Sys2Proof
end

