-- ==== Sys2Proof/Syntax.lean ====
section
/-! DEFINITION. The commands the part takes: one constructor for each row of spec/opcode_table.json. Operands carry the
fields of the frames in their wire widths (R162, R163), so that a value outside its range can be sent and refused. -/

namespace Sys2Proof

/-- A sensor station, and the port and Sensor Link that serve it (Connections). -/
inductive Station where
  | s0 | s1 | s2 | s3
deriving DecidableEq, Repr

/-- An ejector bar, with its Valve Bus and fault line (Connections). -/
inductive Bar where
  | bar0 | bar1 | bar2
deriving DecidableEq, Repr

/-- The fields of a SYNC frame with its check (11.3). -/
structure SyncFrame where
  station : Byte
  seq     : Byte
  lSync   : Pos
  check   : Half
deriving DecidableEq, Repr

/-- The fields of a DETECT frame with its check (11.3): the optional parts as its length declares them (R164). -/
structure DetectFrame where
  station : Byte
  seq     : Byte
  lLead   : Pos
  lTrail  : Pos
  first   : Byte
  last    : Byte
  cls     : Byte
  conf    : Byte
  area    : Option Half
  metal   : Option Byte
  check   : Half
deriving DecidableEq, Repr

/-- The body of SET_BELT (R15, R163). -/
structure BeltRequest where
  encDiv : Byte
  revMax : Half
  stallW : Byte
  guardW : Byte
deriving DecidableEq, Repr

/-- The body of SET_STATION (R33, R163). -/
structure StationRequest where
  station     : Byte
  enabled     : Byte
  D           : Half
  rate        : Byte
  slipTol     : Byte
  silentSteps : Half
deriving DecidableEq, Repr

/-- The body of SET_TRACKING (R56, R163). -/
structure TrackingRequest where
  lMax     : Half
  assocTol : Byte
  laneTol  : Byte
  minArea  : Half
  settle   : Half
deriving DecidableEq, Repr

/-- One triple of WRITE_DESTINATIONS: destination, rank and metal attribute (R94). -/
structure DestRow where
  dest : Byte
  rank : Byte
  attr : Byte
deriving DecidableEq, Repr

/-- One pair of WRITE_CLASSMAP: material and weight (R93). -/
structure ClassRow where
  material : Byte
  weight   : Byte
deriving DecidableEq, Repr

/-- The body of WRITE_DESTINATIONS (R94, R163). -/
structure DestinationsRequest where
  bank         : Byte
  rows         : List DestRow
  minScore     : Half
  minMargin    : Half
  degradedDest : Byte
  conflictDest : Byte
deriving DecidableEq, Repr

/-- The body of SET_BAR (R99, R163). -/
structure BarRequest where
  bar     : Byte
  enabled : Byte
  E       : Half
  A       : Half
  tOpen   : Half
  tClose  : Half
  mFront  : Byte
  mBack   : Byte
  widen   : Byte
  maxNoz  : Byte
  guarded : Byte
  maxon   : BitVec 32
  minoff  : Half
deriving DecidableEq, Repr

/-- The body of SET_ZONE (R102, R163). -/
structure ZoneRequest where
  bar   : Byte
  zone  : Byte
  first : Byte
  last  : Byte
  key   : Byte
deriving DecidableEq, Repr

/-- A handle as a request carries it: slot index and generation (R38, R162). -/
structure HandleField where
  slot : Half
  gen  : Byte
deriving DecidableEq, Repr

/-- The body of INSERT (R144, R163). -/
structure InsertRequest where
  X     : Pos
  Xt    : Pos
  first : Byte
  last  : Byte
  dest  : Byte
deriving DecidableEq, Repr

/-- The commands, in the order of spec/opcode_table.json. -/
inductive Instr where
  /-- ENCODER_TRANSITION (R1): the levels on ENC_A and ENC_B become `a` and `b`. -/
  | encoderTransition (a b : Bool)
  /-- LCLK_PULSE_START (R7). -/
  | lclkPulseStart
  /-- LCLK_PULSE_END (R7). -/
  | lclkPulseEnd
  /-- WINDOW_END (R9). -/
  | windowEnd
  /-- SYNC (R17): a SYNC frame arrives at a port. -/
  | sync (port : Station) (f : SyncFrame)
  /-- DETECT (R17): a DETECT frame arrives at a port. -/
  | detect (port : Station) (f : DetectFrame)
  /-- BAD_FRAME (R164): the length and kind bytes of a station frame have been received and do not fit the table. -/
  | badFrame (port : Station) (length kind : Byte)
  /-- ASSOC_TAKE (R58). -/
  | assocTake
  /-- MAXON_CUT (R125): the on-time counter of a nozzle reaches MAXON. -/
  | maxonCut (bar : Bar) (nozzle : Fin 160)
  /-- COOLING_END (R126): the cooling timer of a nozzle reaches MINOFF. -/
  | coolingEnd (bar : Bar) (nozzle : Fin 160)
  /-- VALVE_FRAME_START (R128). -/
  | valveFrameStart (bar : Bar)
  /-- VALVE_FRAME_END (R128). -/
  | valveFrameEnd (bar : Bar)
  /-- REFRESH_EXPIRY (R129). -/
  | refreshExpiry (bar : Bar)
  /-- DRIVER_FAULT (R119): the fault line of a bar becomes active. -/
  | driverFault (bar : Bar)
  /-- FAULT_LINE_INACTIVE (R119): the fault line of a bar becomes inactive. -/
  | faultLineInactive (bar : Bar)
  /-- RESET_PIN (R161): release of the RESET pin. -/
  | resetPin
  /-- OVERLONG_FRAME (R133): a supervisor frame's length field has been received and exceeds the longest body. -/
  | overlongFrame (length : Half)
  /-- GARBLED_FRAME (R134): a supervisor frame arrives whole, as its bytes are. -/
  | garbledFrame (kind : Byte) (body : List Byte) (check : Half)
  /-- REPLY_SENT (R136): the last byte of the head reply is sent. -/
  | replySent
  /-- SET_BELT (R15). -/
  | setBelt (r : BeltRequest)
  /-- ENABLE_GUARD (R13). -/
  | enableGuard
  /-- SET_STATION (R33). -/
  | setStation (r : StationRequest)
  /-- READ_PORT_COUNTERS (R32). -/
  | readPortCounters (port : Byte)
  /-- SET_TRACKING (R56). -/
  | setTracking (r : TrackingRequest)
  /-- WRITE_CLASSMAP (R93). -/
  | writeClassmap (bank station first : Byte) (entries : List ClassRow)
  /-- WRITE_DESTINATIONS (R94). -/
  | writeDestinations (r : DestinationsRequest)
  /-- READ_BANK (R95). -/
  | readBank (bank sect : Byte)
  /-- SWITCH_BANK (R96). -/
  | switchBank (target : Byte) (c : Pos)
  /-- SET_BAR (R99). -/
  | setBar (r : BarRequest)
  /-- SET_ZONE (R102). -/
  | setZone (r : ZoneRequest)
  /-- ENABLE_BAR (R120). -/
  | enableBar (bar : Byte)
  /-- LOOKUP (R138). -/
  | lookup (h : HandleField)
  /-- FIND (R139). -/
  | find (c1 c2 : Pos) (first last : Byte)
  /-- SCAN (R140). -/
  | scan (start : Pos) (count : Byte)
  /-- OVERRIDE (R141). -/
  | override (h : HandleField) (dest : Byte)
  /-- FORGET (R143). -/
  | forget (h : HandleField)
  /-- INSERT (R144). -/
  | insert (r : InsertRequest)
  /-- START (R148). -/
  | start
  /-- STOP (R150). -/
  | stop
  /-- RESET (R153): the RESET request. -/
  | reset
  /-- CLEAR (R155). -/
  | clear
  /-- READ_STATUS (R159). -/
  | readStatus
  /-- READ_NOTICES (R157). -/
  | readNotices
  /-- ACK_NOTICES (R157). -/
  | ackNotices (kinds : Half)
  /-- SET_MASK (R157). -/
  | setMask (kinds : Half)
  /-- READ_FAULT (R158). -/
  | readFault
  /-- READ_TALLIES (R160). -/
  | readTallies (block : Byte)
  /-- CLEAR_TALLIES (R160). -/
  | clearTallies
  /-- START_MARK (R133): a start mark is received on the Supervisor Link. -/
  | startMark
  /-- PORT_START_MARK (R164): a start mark is received at a station port. -/
  | portStartMark (port : Station)
  /-- RESET_PIN_ASSERTED (R146). -/
  | resetPinAsserted
deriving DecidableEq, Repr

end Sys2Proof
end

