-- ==== Sys2Proof/Decode.lean ====
section
/-! DEFINITION. Words of the opcode table: spec/opcode_table.json gives no row any bits, so no word spells a command. The
frames of the links are read by Machine/Frames.lean and Machine/Wire.lean. -/

namespace Sys2Proof

/-- The command a table word spells: none, since no row of the table has bits (entry 26). -/
def decodeTableWord (_nbits _w : Nat) : Option Instr := none

end Sys2Proof
end

