-- ==== Sys2Proof/Machine/Position.lean ====
section
/-! DEFINITION. The comparison of positions (R5) and the arithmetic on them. -/

namespace Sys2Proof.Machine

/-- The difference A − B modulo 2^32 read as a signed 32-bit number (R5). -/
def signedDiff (a b : Pos) : Int := (a - b).toInt

/-- A is ahead of B (R5). -/
def ahead (a b : Pos) : Bool := decide (0 < signedDiff a b)

/-- A is behind B: B is ahead of A (R5). -/
def behind (a b : Pos) : Bool := ahead b a

/-- A is at or ahead of B (R5). -/
def atOrAhead (a b : Pos) : Bool := decide (0 ≤ signedDiff a b)

/-- A is at or behind B: B is at or ahead of A (R5). -/
def atOrBehind (a b : Pos) : Bool := atOrAhead b a

/-- The distance from B to A, for A at or ahead of B: A − B modulo 2^32 (R5). -/
def stepsTo (b a : Pos) : Nat := (a - b).toNat

/-- The position `n` steps ahead, modulo 2^32. -/
def fwd (p : Pos) (n : Nat) : Pos := p + BitVec.ofNat 32 n

/-- The position `n` steps behind, modulo 2^32. -/
def back (p : Pos) (n : Nat) : Pos := p - BitVec.ofNat 32 n

/-- The behind-most of two positions (R67). -/
def behindMost (a b : Pos) : Pos := if behind b a then b else a

/-- The ahead-most of two positions (R67). -/
def aheadMost (a b : Pos) : Pos := if ahead b a then b else a

/-- Two ranges [a, b] and [c, d] overlap when each one's start is at or behind the other's end (R63, R139). -/
def rangesMeet (a b c d : Pos) : Bool := atOrBehind a d && atOrBehind c b

/-- Two lane ranges share at least one lane (R64, R111, R139). -/
def lanesMeet (f l f' l' : Nat) : Bool := decide (f ≤ l') && decide (f' ≤ l)

end Sys2Proof.Machine
end

