-- ==== Sys2Proof/Config.lean ====
section
/-! DEFINITION. The part's fixed capacities and periods, and the choices the manual leaves open. -/

namespace Sys2Proof.Config

/-- Slots of the Fragment Table (R37). -/
def slots : Nat := 1024
/-- Entries a receive queue holds (R28, R29). -/
def queueCap : Nat := 32
/-- Occupancy at which a joining entry asserts HOLD (R30). -/
def holdAt : Nat := 24
/-- Occupancy at or below which a removal releases HOLD (R30). -/
def releaseAt : Nat := 8
/-- Highest lane and highest nozzle (Lanes). -/
def lastLane : Nat := 159
/-- Nozzles of a bar (R121). -/
def nozzles : Nat := 160
/-- Intervals a nozzle holds (R112). -/
def intervalCap : Nat := 4
/-- Frames the reply queue holds (R136). -/
def replyCap : Nat := 16
/-- Longest request body in bytes (R163). -/
def maxBody : Nat := 132
/-- Largest reverse depth, 2^20 − 1 (R4). -/
def maxDepth : Nat := 1048575
/-- Bound on distances, 2^20 (R5). -/
def span : Nat := 1048576
/-- A speed window in microseconds (R9). -/
def windowUs : Nat := 8192
/-- The refresh period of the Valve Bus in microseconds (R129). -/
def refreshUs : Nat := 1024
/-- Largest value of a 32-bit saturating counter (R32, R115, R125, R160). -/
def countMax : Nat := 4294967295
/-- Largest value of a 16-bit saturating count (R1, R9, R10). -/
def halfMax : Nat := 65535
/-- Largest value of an 8-bit saturating count (R7, R11, R14, R26, R158). -/
def byteMax : Nat := 255
/-- Cap of a lead in steps (R107). -/
def leadMax : Nat := 4095

/-- FREE VALUE (entry 8). The place of an item within one event of the part: the manual gives no order among the events of
different records at one T advance, nor between them and a station falling silent (R43, R49), nor among the slots that one
merge frees (R55, R70). `draw` numbers the event. -/
opaque orderKey (draw item : Nat) : Nat

/-- FREE VALUE (entry 9). Which of the part's own events, due at the same time, is taken first. -/
opaque pick (draw : Nat) : Nat

end Sys2Proof.Config
end

