-- ==== Sys2Proof/Machine/State.lean ====
section
/-! DEFINITION. The state of the STC-840, block by block, as plain data, and the state at the release of the RESET pin. -/

namespace Sys2Proof.Machine

/-- One value for each station. -/
structure PerStation (α : Type) where
  s0 : α
  s1 : α
  s2 : α
  s3 : α
deriving DecidableEq, Repr

/-- One value for each bar. -/
structure PerBar (α : Type) where
  bar0 : α
  bar1 : α
  bar2 : α
deriving DecidableEq, Repr

/-- The two recipe banks (R90). -/
inductive Bank where
  | a | b
deriving DecidableEq, Repr

/-- One value for each bank. -/
structure PerBank (α : Type) where
  a : α
  b : α
deriving DecidableEq, Repr

/-- The line modes (R147), in the manual's order. -/
inductive Mode where
  | config | run | draining | halted
deriving DecidableEq, Repr

/-- The condition (R154), in order of severity. -/
inductive Condition where
  | normal | degraded | halted
deriving DecidableEq, Repr

/-- A receiving side: hunting for a start mark, or collecting a frame, with the bytes received since its start mark (R133,
R164). -/
inductive Rx where
  | hunting
  | collecting (got : List Byte)
deriving DecidableEq, Repr

/-- A destination: a bar or PASS (Terms). -/
inductive Dest where
  | bar (b : Bar)
  | pass
deriving DecidableEq, Repr

/-- The outcomes of a retired record (R48). -/
inductive RecOutcome where
  | fired | passed | suppressed | dropped | masked | forgotten
deriving DecidableEq, Repr

/-- A handle: a slot index with a generation (R38). -/
structure Handle where
  slot : Nat
  gen  : Byte
deriving DecidableEq, Repr

/-! ### Belt Position Unit (chapter 1) -/

/-- The levels of ENC_A and ENC_B. -/
structure Levels where
  a : Bool
  b : Bool
deriving DecidableEq, Repr

/-- The counts of the last four completed windows (R9). -/
structure History where
  oldest : Nat
  older  : Nat
  newer  : Nat
  newest : Nat
deriving DecidableEq, Repr

/-- The state of the BPU (R16). `lclkHeld` counts the microseconds LCLK has kept its level, up to 1 (R7). -/
structure Bpu where
  ref         : Levels
  encErr      : Nat
  sub         : Nat
  P           : Pos
  T           : Pos
  owed        : Nat
  lclk        : Bool
  lclkHeld    : Nat
  windowTime  : Nat
  windowCount : Nat
  history     : History
  V           : Nat
  Z           : Nat
  stalled     : Bool
  guard       : Bool
  G           : Nat
  encDiv      : Nat
  revMax      : Nat
  stallW      : Nat
  guardW      : Nat
deriving DecidableEq, Repr

/-! ### Station Ports (chapter 2) -/

/-- The states of a station (2.1). -/
inductive StationState where
  | disabled | waiting | up | silent
deriving DecidableEq, Repr

/-- A relocated detection, as a receive queue holds it (R29). -/
structure Detection where
  station : Station
  X       : Pos
  Xt      : Pos
  first   : Nat
  last    : Nat
  cls     : Nat
  conf    : Nat
  area    : Option Nat
  metal   : Option Bool
deriving DecidableEq, Repr

/-- The nine counters of a port, in the order of R32. -/
structure PortCounters where
  accepted  : Nat
  badFrame  : Nat
  duplicate : Nat
  seqGap    : Nat
  stormDrop : Nat
  queueDrop : Nat
  noBase    : Nat
  dust      : Nat
  late      : Nat
deriving DecidableEq, Repr

/-- One port: its station's table entry (2.1), its receive queue and HOLD line (R29, R30), its counters (R32) and its
receiver (R164). -/
structure Port where
  enabled     : Bool
  D           : Nat
  rate        : Nat
  slipTol     : Nat
  silentSteps : Nat
  state       : StationState
  base        : Option Pos
  lastSeq     : Option Byte
  silence     : Nat
  rateCount   : Nat
  queue       : List Detection
  hold        : Bool
  counters    : PortCounters
  rx          : Rx
deriving DecidableEq, Repr

/-! ### Fragment Table (chapter 3) -/

/-- An evidence entry, at its station's place (R39). -/
structure Entry where
  cls   : Nat
  conf  : Nat
  area  : Option Nat
  metal : Option Bool
deriving DecidableEq, Repr

/-- The verdict: material, top score and margin (R79, R80). -/
structure Verdict where
  material : Nat
  top      : Nat
  margin   : Nat
deriving DecidableEq, Repr

/-- The record flags, in the order of R40. -/
structure Flags where
  clipped  : Bool
  merged   : Bool
  degraded : Bool
  conflict : Bool
  weak     : Bool
  lateFire : Bool
  inserted : Bool
deriving DecidableEq, Repr

/-- The schedule of an ARMED record (R113). -/
structure Schedule where
  bar         : Bar
  fireOn      : Pos
  fireOff     : Pos
  firstNozzle : Nat
  lastNozzle  : Nat
deriving DecidableEq, Repr

/-- The state of a record with the fields that belong to it (R39, R44): verdict and destination from DECIDED onward, the
schedule in ARMED, the pending outcome in PASSING. A COMMITTED or ARMED record's destination is a bar. -/
inductive RecState where
  | opened
  | decided (v : Verdict) (d : Dest)
  | committed (v : Verdict) (b : Bar)
  | armed (v : Verdict) (sch : Schedule)
  | passing (v : Verdict) (d : Dest) (o : RecOutcome)
deriving DecidableEq, Repr

/-- A fragment record (R39). Evidence has one place per station, in station order. -/
structure Record where
  st       : RecState
  X        : Pos
  Xt       : Pos
  first    : Nat
  last     : Nat
  bank     : Bank
  evidence : PerStation (Option Entry)
  flags    : Flags
  ovr      : Option Dest
deriving DecidableEq, Repr

/-- A live slot and the record it holds. -/
structure Live where
  slot   : Nat
  record : Record
deriving DecidableEq, Repr

/-- The Fragment Table: the live records in belt order (R41), the live count and free list (R37), and the generations
of the slots (R38). -/
structure FragTable where
  live      : List Live
  liveCount : Nat
  freeList  : List Nat
  gens      : List Byte
deriving DecidableEq, Repr

/-- The tracking settings (R56). -/
structure Tracking where
  lMax     : Nat
  assocTol : Nat
  laneTol  : Nat
  minArea  : Nat
  settle   : Nat
deriving DecidableEq, Repr

/-- The Association Engine: the service pointer (R59) and whether it is free (R58). -/
structure Engine where
  pointer : Station
  free    : Bool
deriving DecidableEq, Repr

/-! ### Recipe Banks (chapter 6) -/

/-- A Class Map entry (R77). -/
structure ClassEntry where
  material : Nat
  weight   : Nat
deriving DecidableEq, Repr

/-- A metal attribute (R83). -/
inductive MetalAttr where
  | metal | nonmetal | either
deriving DecidableEq, Repr

/-- A Destination Table entry (R83). -/
structure DestEntry where
  dest : Dest
  rank : Nat
  attr : MetalAttr
deriving DecidableEq, Repr

/-- A Destination Table with the four bank thresholds (R83): what WRITE_DESTINATIONS replaces. -/
structure DestTable where
  rows         : List DestEntry
  minScore     : Nat
  minMargin    : Nat
  degradedDest : Dest
  conflictDest : Dest
deriving DecidableEq, Repr

/-- The contents of a bank (R90): 64 Class Map entries for each station, and the Destination Table. -/
structure BankData where
  classMap : PerStation (List ClassEntry)
  table    : DestTable
deriving DecidableEq, Repr

/-- A pending switch (R96). -/
structure Switch where
  target : Bank
  c      : Pos
deriving DecidableEq, Repr

/-- The Recipe Banks (R90, R91, R96). -/
structure Banks where
  data          : PerBank BankData
  active        : Bank
  pendingSwitch : Option Switch
  refs          : PerBank Nat
deriving DecidableEq, Repr

/-! ### Arming Unit and Valve Bars (chapters 7 and 8) -/

/-- The twelve settings of a bar (7.1). -/
structure BarSettings where
  enabled : Bool
  E       : Nat
  A       : Nat
  tOpen   : Nat
  tClose  : Nat
  mFront  : Nat
  mBack   : Nat
  widen   : Nat
  maxNoz  : Nat
  guarded : Bool
  maxon   : Nat
  minoff  : Nat
deriving DecidableEq, Repr

/-- A zone's key (R101). -/
inductive ZoneKey where
  | off | watch | normal
deriving DecidableEq, Repr

/-- A zone (R101). -/
structure Zone where
  first : Nat
  last  : Nat
  key   : ZoneKey
  fired : Bool
deriving DecidableEq, Repr

/-- The states of a bar (R118). -/
inductive BarState where
  | disabled | ready | faulted
deriving DecidableEq, Repr

/-- The states of a nozzle (R121). -/
inductive NozzleState where
  | closed | opened | cooling
deriving DecidableEq, Repr

/-- An interval [fire-on, fire-off) of a nozzle with the handle of its owner (R121). -/
structure Interval where
  fireOn  : Pos
  fireOff : Pos
  owner   : Handle
deriving DecidableEq, Repr

/-- A nozzle (R121). -/
structure Nozzle where
  st     : NozzleState
  ivals  : List Interval
  onTime : Nat
  cool   : Nat
deriving DecidableEq, Repr

/-- A Valve Bus frame as it was when its sending began (R127): the frame count and the nozzle states. -/
structure ValveFrame where
  count : Byte
  open_ : List Bool
deriving DecidableEq, Repr

/-- The sending state of a Valve Bus (R127 to R129). -/
structure Bus where
  sending : Option ValveFrame
  owed    : Bool
  count   : Byte
  refresh : Nat
deriving DecidableEq, Repr

/-- One bar: what the Arming Unit and the Valve Bars own for it (7.1, R101, R115, R118, R121, R125, R128). -/
structure BarUnit where
  settings  : BarSettings
  zones     : List Zone
  lateFire  : Nat
  state     : BarState
  nozzles   : List Nozzle
  maxonCuts : Nat
  bus       : Bus
deriving DecidableEq, Repr

/-! ### Line Control and Condition (chapter 10) -/

/-- The notice kinds, in the order of R156. -/
inductive NoticeKind where
  | stationUp | stationSilent | stationSlip | queueDrop | storm | tableFull | lateEvidence | valveFull
  | lateFire | zoneWatch | driverFault | stall | beltMoving | halted | bankSwitched | drained
deriving DecidableEq, Repr

/-- A set of notice kinds as the link carries it: kind k is present when bit k is 1 (R162). -/
abbrev NoticeSet := BitVec 16

/-- The source of a notice (R156). -/
inductive Source where
  | station (s : Station)
  | bar (b : Bar)
  | none
deriving DecidableEq, Repr

/-- A full fault capture (R158). -/
structure Capture where
  kind   : NoticeKind
  time   : Pos
  source : Source
  handle : Option Handle
  later  : Nat
deriving DecidableEq, Repr

/-- One list of 16 tallies for each outcome (R160). -/
structure Tallies where
  fired      : List Nat
  passed     : List Nat
  suppressed : List Nat
  dropped    : List Nat
  masked     : List Nat
  forgotten  : List Nat
deriving DecidableEq, Repr

/-- Line Control (R147, R152, R154, R156 to R158, R160). -/
structure LineControl where
  mode       : Mode
  condition  : Condition
  pendingSet : NoticeSet
  mask       : NoticeSet
  attn       : Bool
  faultLine  : Bool
  capture    : Option Capture
  tallies    : Tallies
deriving DecidableEq, Repr

/-! ### Supervisor Link (chapter 9) -/

/-- The reply codes, in the order of R137. -/
inductive ReplyCode where
  | ok | busy | badCheck | unknown | badLength | badValue | wrongMode | stale
  | tooLate | full | bankActive | pending | bankBusy | geometry | belt | faulted
deriving DecidableEq, Repr

/-- One record of a SCAN reply (R140): material and destination where the record has a verdict. -/
structure Summary where
  handle  : Handle
  state   : RecState
  X       : Pos
  Xt      : Pos
  first   : Nat
  last    : Nat
  verdict : Option (Nat × Dest)
deriving DecidableEq, Repr

/-- A bar's values in READ_STATUS (R159). -/
structure BarReport where
  state     : BarState
  lateFire  : Nat
  maxonCuts : Nat
deriving DecidableEq, Repr

/-- The values of READ_STATUS, in the order of R159. -/
structure StatusReport where
  mode      : Mode
  condition : Condition
  faultLine : Bool
  attn      : Bool
  T         : Pos
  P         : Pos
  V         : Nat
  Z         : Nat
  stalled   : Bool
  guard     : Bool
  encErr    : Nat
  encDiv    : Nat
  revMax    : Nat
  stallW    : Nat
  guardW    : Nat
  stations  : PerStation StationState
  bars      : PerBar BarReport
  active    : Bank
  switch    : Option Switch
  refs      : PerBank Nat
  liveCount : Nat
deriving DecidableEq, Repr

/-- The bodies of OK replies (R163). -/
inductive ReplyBody where
  | empty
  | counters (c : PortCounters)
  | classMap (entries : List ClassEntry)
  | destinations (t : DestTable)
  | fired (was : Bool)
  | record (h : Handle) (r : Record)
  | found (more : Bool) (handles : List Handle)
  | scanned (more : Bool) (summaries : List Summary)
  | handle (h : Handle)
  | status (r : StatusReport)
  | notices (pending mask : NoticeSet)
  | pendingSet (pending : NoticeSet)
  | capture (c : Option Capture)
  | tallies (counts : List Nat)
deriving DecidableEq, Repr

/-- A reply in the reply queue (R136). `own` marks the reply of the request in progress (R135). -/
structure Reply where
  kind : Byte
  code : ReplyCode
  body : ReplyBody
  own  : Bool
deriving DecidableEq, Repr

/-- The request in progress, and whether its reply has been formed (R135, R136). -/
structure InProgress where
  kind   : Byte
  formed : Bool
deriving DecidableEq, Repr

/-- The Supervisor Link (R133, R135, R136); the head of `replies` is the frame being sent. -/
structure Link where
  rx         : Rx
  inProgress : Option InProgress
  replies    : List Reply
deriving DecidableEq, Repr

/-! ### The whole part -/

/-- The input pins as they stand (Connections) and whether the RESET pin holds the part in reset (R146). -/
structure Pins where
  levels     : Levels
  faultLines : PerBar Bool
  inReset    : Bool
deriving DecidableEq, Repr

/-- The state of the part. `pending` is the queue of waiting commands and `draws` counts the free choices made so far
(entry 10): these two are the model's own. -/
structure State where
  pins     : Pins
  bpu      : Bpu
  ports    : PerStation Port
  ft       : FragTable
  tracking : Tracking
  ae       : Engine
  banks    : Banks
  bars     : PerBar BarUnit
  link     : Link
  lc       : LineControl
  draws    : Nat
  pending  : List Instr
deriving DecidableEq, Repr

/-- The spec names no event on which the part stops: HALTED is a line mode and a refused request is a reply code. So no
meaning faults, and this type has no constructor (entry 18). -/
inductive Fault where
deriving DecidableEq, Repr

/-- Why a command has no meaning. -/
inductive Refusal where
  /-- Raised by `exec` alone, for a command that has no meaning yet: safe, since nothing is claimed of it. -/
  | notModelled (mnemonic : String)
deriving DecidableEq, Repr

/-! ### Reset values -/

/-- The BPU at release (R16); the reference is the phase of the levels then present. -/
def Bpu.atRelease (levels : Levels) : Bpu where
  ref := levels
  encErr := 0
  sub := 0
  P := 0
  T := 0
  owed := 0
  lclk := false
  lclkHeld := 1
  windowTime := 0
  windowCount := 0
  history := ⟨0, 0, 0, 0⟩
  V := 0
  Z := 0
  stalled := false
  guard := false
  G := 0
  encDiv := 4
  revMax := 256
  stallW := 2
  guardW := 61

/-- A port at release (R36, R164). -/
def Port.atRelease : Port where
  enabled := false
  D := 0
  rate := 0
  slipTol := 2
  silentSteps := 8192
  state := .disabled
  base := none
  lastSeq := none
  silence := 0
  rateCount := 0
  queue := []
  hold := false
  counters := ⟨0, 0, 0, 0, 0, 0, 0, 0, 0⟩
  rx := .hunting

/-- The Fragment Table at release (R57). -/
def FragTable.atRelease : FragTable where
  live := []
  liveCount := 0
  freeList := List.range Config.slots
  gens := List.replicate Config.slots 0

/-- The tracking settings at release (R56). -/
def Tracking.atRelease : Tracking where
  lMax := 2048
  assocTol := 16
  laneTol := 1
  minArea := 0
  settle := 64

/-- A bank's contents at release (R98). -/
def BankData.atRelease : BankData where
  classMap :=
    let row := List.replicate 64 ⟨0, 0⟩
    ⟨row, row, row, row⟩
  table :=
    { rows := List.replicate 16 ⟨.pass, 0, .either⟩
      minScore := 1
      minMargin := 0
      degradedDest := .pass
      conflictDest := .pass }

/-- The Recipe Banks at release (R98). -/
def Banks.atRelease : Banks where
  data := ⟨BankData.atRelease, BankData.atRelease⟩
  active := .a
  pendingSwitch := none
  refs := ⟨0, 0⟩

/-- A nozzle at release (R132). -/
def Nozzle.atRelease : Nozzle where
  st := .closed
  ivals := []
  onTime := 0
  cool := 0

/-- A bar at release (R117, R132). -/
def BarUnit.atRelease : BarUnit where
  settings :=
    { enabled := false, E := 0, A := 1024, tOpen := 0, tClose := 0, mFront := 0, mBack := 0, widen := 0
      maxNoz := 24, guarded := false, maxon := 30000, minoff := 5000 }
  zones := List.replicate 8 ⟨0, 159, .normal, false⟩
  lateFire := 0
  state := .disabled
  nozzles := List.replicate Config.nozzles Nozzle.atRelease
  maxonCuts := 0
  bus := { sending := none, owed := false, count := 0, refresh := 0 }

/-- 96 tallies at 0 (R160, R161). -/
def Tallies.zero : Tallies :=
  let row := List.replicate 16 0
  ⟨row, row, row, row, row, row⟩

/-- Line Control at release (R161). -/
def LineControl.atRelease : LineControl where
  mode := .config
  condition := .normal
  pendingSet := 0
  mask := 0
  attn := false
  faultLine := false
  capture := none
  tallies := Tallies.zero

/-- The whole part at the release of the RESET pin, the levels on its input pins being what they are (R161). -/
def State.atRelease (levels : Levels) (faultLines : PerBar Bool) : State where
  pins := { levels, faultLines, inReset := false }
  bpu := Bpu.atRelease levels
  ports := ⟨Port.atRelease, Port.atRelease, Port.atRelease, Port.atRelease⟩
  ft := FragTable.atRelease
  tracking := Tracking.atRelease
  ae := { pointer := .s0, free := true }
  banks := Banks.atRelease
  bars := ⟨BarUnit.atRelease, BarUnit.atRelease, BarUnit.atRelease⟩
  link := { rx := .hunting, inProgress := none, replies := [] }
  lc := LineControl.atRelease
  draws := 0
  pending := []

/-- The machine right after reset: both encoder levels low and every fault line inactive (entries 6 and 7). -/
def State.reset : State := State.atRelease ⟨false, false⟩ ⟨false, false, false⟩

end Sys2Proof.Machine
end

