-- ==== Sys2Proof/Machine/Ops.lean ====
section
/-! DEFINITION. Named access to the parts of the state that several blocks share. -/

namespace Sys2Proof.Machine

/-! ### One value per station, bar, bank -/

/-- The value of a station. -/
def PerStation.get {α : Type} (v : PerStation α) : Station → α
  | .s0 => v.s0
  | .s1 => v.s1
  | .s2 => v.s2
  | .s3 => v.s3

/-- Replace the value of one station. -/
def PerStation.set {α : Type} (v : PerStation α) (p : Station) (x : α) : PerStation α :=
  match p with
  | .s0 => { v with s0 := x }
  | .s1 => { v with s1 := x }
  | .s2 => { v with s2 := x }
  | .s3 => { v with s3 := x }

/-- The same change at every station. -/
def PerStation.map {α β : Type} (f : α → β) (v : PerStation α) : PerStation β :=
  ⟨f v.s0, f v.s1, f v.s2, f v.s3⟩

/-- The value of a bar. -/
def PerBar.get {α : Type} (v : PerBar α) : Bar → α
  | .bar0 => v.bar0
  | .bar1 => v.bar1
  | .bar2 => v.bar2

/-- Replace the value of one bar. -/
def PerBar.set {α : Type} (v : PerBar α) (b : Bar) (x : α) : PerBar α :=
  match b with
  | .bar0 => { v with bar0 := x }
  | .bar1 => { v with bar1 := x }
  | .bar2 => { v with bar2 := x }

/-- The same change at every bar. -/
def PerBar.map {α β : Type} (f : α → β) (v : PerBar α) : PerBar β :=
  ⟨f v.bar0, f v.bar1, f v.bar2⟩

/-- The value of a bank. -/
def PerBank.get {α : Type} (v : PerBank α) : Bank → α
  | .a => v.a
  | .b => v.b

/-- Replace the value of one bank. -/
def PerBank.set {α : Type} (v : PerBank α) (k : Bank) (x : α) : PerBank α :=
  match k with
  | .a => { v with a := x }
  | .b => { v with b := x }

/-- The stations in the order S0 to S3. -/
def stations : List Station := [.s0, .s1, .s2, .s3]

/-- The bars in number order. -/
def allBars : List Bar := [.bar0, .bar1, .bar2]

/-- The number of a station. -/
def stationNo : Station → Nat
  | .s0 => 0
  | .s1 => 1
  | .s2 => 2
  | .s3 => 3

/-- The number of a bar. -/
def barNo : Bar → Nat
  | .bar0 => 0
  | .bar1 => 1
  | .bar2 => 2

/-- The port after a port, S0 after S3 (R59). -/
def nextStation : Station → Station
  | .s0 => .s1
  | .s1 => .s2
  | .s2 => .s3
  | .s3 => .s0

/-! ### Ports and bars of the state -/

/-- A port of the state. -/
def State.port (s : State) (p : Station) : Port := s.ports.get p

/-- Replace a port of the state. -/
def State.setPort (s : State) (p : Station) (x : Port) : State := { s with ports := s.ports.set p x }

/-- A bar of the state. -/
def State.bar (s : State) (b : Bar) : BarUnit := s.bars.get b

/-- Replace a bar of the state. -/
def State.setBar (s : State) (b : Bar) (x : BarUnit) : State := { s with bars := s.bars.set b x }

/-- The line is in RUN or DRAINING: the modes in which it sorts (R43, R58, R122). -/
def State.running (s : State) : Bool := s.lc.mode == .run || s.lc.mode == .draining

/-- The reverse depth, T − P (R3). -/
def Bpu.depth (b : Bpu) : Nat := stepsTo b.P b.T

/-! ### The line's geometry -/

/-- The enabled bars in number order (R42). -/
def State.enabledBars (s : State) : List Bar := allBars.filter fun b => (s.bar b).settings.enabled

/-- f, the lowest-numbered enabled bar (R42). -/
def State.lowBar (s : State) : Option Bar := s.enabledBars.head?

/-- l, the highest-numbered enabled bar (R42). -/
def State.highBar (s : State) : Option Bar := s.enabledBars.getLast?

/-- D_max, the largest D_s among enabled stations (R42); 0 where none is enabled (entry 13). -/
def State.dMax (s : State) : Nat :=
  (stations.filter fun p => (s.port p).enabled).foldl (fun m p => max m (s.port p).D) 0

/-! ### The tables -/

/-- The live record in a slot. -/
def FragTable.find (ft : FragTable) (slot : Nat) : Option Record :=
  (ft.live.find? fun l => l.slot == slot).map (·.record)

/-- The generation of a slot (R38). -/
def FragTable.gen (ft : FragTable) (slot : Nat) : Byte := ft.gens.getD slot 0

/-- The handle of the record in a slot: the slot with its generation, which no creation changes (R38). -/
def FragTable.handle (ft : FragTable) (slot : Nat) : Handle := ⟨slot, ft.gen slot⟩

/-- The tallies of an outcome (R160). -/
def Tallies.get (t : Tallies) : RecOutcome → List Nat
  | .fired => t.fired
  | .passed => t.passed
  | .suppressed => t.suppressed
  | .dropped => t.dropped
  | .masked => t.masked
  | .forgotten => t.forgotten

/-- Replace the tallies of an outcome. -/
def Tallies.set (t : Tallies) (o : RecOutcome) (x : List Nat) : Tallies :=
  match o with
  | .fired => { t with fired := x }
  | .passed => { t with passed := x }
  | .suppressed => { t with suppressed := x }
  | .dropped => { t with dropped := x }
  | .masked => { t with masked := x }
  | .forgotten => { t with forgotten := x }

/-- Add one to the tally of a material and outcome, saturating (R48, R160). -/
def Tallies.bump (t : Tallies) (o : RecOutcome) (material : Nat) : Tallies :=
  t.set o ((t.get o).modify material fun n => satAdd Config.countMax n 1)

/-- The verdict a record has, from DECIDED onward (R39). -/
def RecState.verdict : RecState → Option Verdict
  | .opened => none
  | .decided v _ => some v
  | .committed v _ => some v
  | .armed v _ => some v
  | .passing v _ _ => some v

/-- The destination a record has, from DECIDED onward (R39). -/
def RecState.dest : RecState → Option Dest
  | .opened => none
  | .decided _ d => some d
  | .committed _ b => some (.bar b)
  | .armed _ sch => some (.bar sch.bar)
  | .passing _ d _ => some d

/-- The schedule a record has, in ARMED (R39). -/
def RecState.schedule : RecState → Option Schedule
  | .armed _ sch => some sch
  | _ => none

/-- The pending outcome a record has, in PASSING (R39). -/
def RecState.outcome : RecState → Option RecOutcome
  | .passing _ _ o => some o
  | _ => none

/-- The record can still take evidence: OPEN or DECIDED (R44, R64). -/
def RecState.takesEvidence : RecState → Bool
  | .opened => true
  | .decided _ _ => true
  | _ => false

/-- The material under which a record is tallied and ranked: that of its verdict, or 0 without one (R48). -/
def RecState.material (r : RecState) : Nat := (r.verdict.map (·.material)).getD 0

/-! ### Clearing and taking -/

/-- An event that acts only while the part is not held in reset (R146; entry 12). -/
def State.awake (s : State) (f : State → State) : State := if s.pins.inReset then s else f s

end Sys2Proof.Machine
end

