-- ==== Sys2Proof/Machine/Flags.lean ====
section
/-! DEFINITION. Flags and sets: notice kinds and their classes (R156), the ATTN line (R157), and the record flags (R40). -/

namespace Sys2Proof.Machine

/-- The number of a notice kind, from 0 in the order of R156 (R162). -/
def NoticeKind.no : NoticeKind → Nat
  | .stationUp => 0
  | .stationSilent => 1
  | .stationSlip => 2
  | .queueDrop => 3
  | .storm => 4
  | .tableFull => 5
  | .lateEvidence => 6
  | .valveFull => 7
  | .lateFire => 8
  | .zoneWatch => 9
  | .driverFault => 10
  | .stall => 11
  | .beltMoving => 12
  | .halted => 13
  | .bankSwitched => 14
  | .drained => 15

/-- The condition a kind raises the line to by its class: NORMAL for a notice of ordinary class (R154, R156). -/
def NoticeKind.level : NoticeKind → Condition
  | .stationSilent | .stationSlip | .queueDrop | .tableFull | .valveFull | .driverFault => .degraded
  | .halted => .halted
  | .stationUp | .storm | .lateEvidence | .lateFire | .zoneWatch | .stall | .beltMoving | .bankSwitched
  | .drained => .normal

/-- The set that holds one kind (R162). -/
def NoticeKind.bit (k : NoticeKind) : NoticeSet := BitVec.twoPow 16 k.no

/-- The more severe of two conditions (R154). -/
def Condition.worse : Condition → Condition → Condition
  | .halted, _ => .halted
  | _, .halted => .halted
  | .degraded, _ => .degraded
  | _, .degraded => .degraded
  | .normal, .normal => .normal

/-- ATTN is asserted while the pending set holds a kind that is not in the mask (R157). -/
def attnOf (pendingSet mask : NoticeSet) : Bool := pendingSet &&& ~~~mask != 0

/-- Line Control with another pending set, and ATTN set again (R157). -/
def LineControl.setPending (lc : LineControl) (p : NoticeSet) : LineControl :=
  { lc with pendingSet := p, attn := attnOf p lc.mask }

/-- Line Control with another mask, and ATTN set again (R157). -/
def LineControl.withMask (lc : LineControl) (m : NoticeSet) : LineControl :=
  { lc with mask := m, attn := attnOf lc.pendingSet m }

/-- No flag. -/
def Flags.none : Flags := ⟨false, false, false, false, false, false, false⟩

/-- Every flag either record carries (R40, R70). -/
def Flags.union (a b : Flags) : Flags where
  clipped := a.clipped || b.clipped
  merged := a.merged || b.merged
  degraded := a.degraded || b.degraded
  conflict := a.conflict || b.conflict
  weak := a.weak || b.weak
  lateFire := a.lateFire || b.lateFire
  inserted := a.inserted || b.inserted

end Sys2Proof.Machine
end

