-- ==== Sys2Proof/Machine/Line.lean ====
section
/-! DEFINITION. Line Control: raising a notice (R154, R156, R158), halting (R152) and completing a drain (R151). -/

namespace Sys2Proof.Machine

/-- The fault capture after a notice of DEGRADED or HALTED class (R158): filled where it was empty, otherwise one more
later fault. -/
def captureNext (c : Option Capture) (time : Pos) (k : NoticeKind) (src : Source) (h : Option Handle) : Capture :=
  match c with
  | none => { kind := k, time, source := src, handle := h, later := 0 }
  | some x => { x with later := satAdd Config.byteMax x.later 1 }

/-- A notice is raised (R156): the kind joins the pending set, and where its class is DEGRADED or HALTED it raises the
condition (R154) and fills or adds to the capture (R158); ATTN is set again (R157). -/
def LineControl.raise (lc : LineControl) (time : Pos) (k : NoticeKind) (src : Source) (h : Option Handle) :
    LineControl :=
  let lc' := lc.setPending (lc.pendingSet ||| k.bit)
  match k.level with
  | .normal => lc'
  | level =>
    { lc' with
      condition := lc.condition.worse level
      capture := some (captureNext lc.capture time k src h) }

/-- A notice is raised in the state, at the present T (R156). -/
def State.raise (s : State) (k : NoticeKind) (src : Source) (h : Option Handle) : State :=
  { s with lc := s.lc.raise s.bpu.T k src h }

/-- A halt request (R152): in RUN or DRAINING the line enters HALTED; in CONFIG and HALTED nothing changes. -/
def State.halt (s : State) : State :=
  if s.running then
    { s with
      bpu := { s.bpu with G := 0 }
      lc := { s.lc.raise s.bpu.T .halted .none none with mode := .halted, faultLine := true } }
  else s

/-- A port's queue emptied whole and its HOLD released (R31). -/
def Port.emptied (p : Port) : Port := { p with queue := [], hold := false }

/-- The drain completes (R151): CONFIG, every queue emptied, the guard countdown 0, DRAINED raised. -/
def State.completeDrain (s : State) : State :=
  { s with
    bpu := { s.bpu with G := 0 }
    ports := s.ports.map Port.emptied
    lc := { s.lc.raise s.bpu.T .drained .none none with mode := .config } }

/-- In DRAINING, an event that has brought the live count to 0 completes the drain (R151). -/
def State.drainIfEmpty (s : State) : State :=
  if s.lc.mode = .draining ∧ s.ft.liveCount = 0 then s.completeDrain else s

end Sys2Proof.Machine
end

