-- ==== Sys2Proof/Machine/Valves.lean ====
section
/-! DEFINITION. Valve Bars: interval lists (R121), the open condition (R122, R123), zones at an opening (R103), the Valve
Bus (R127, R128). -/

namespace Sys2Proof.Machine

/-! ### Zones -/

/-- A zone covers a lane (R101). -/
def Zone.covers (z : Zone) (lane : Nat) : Bool := decide (z.first ≤ lane) && decide (lane ≤ z.last)

/-- The number of the zone that governs a lane: the lowest-numbered zone that covers it (R101). -/
def governing (zones : List Zone) (lane : Nat) : Option Nat := zones.findIdx? fun z => z.covers lane

/-- The key of a lane: that of its governing zone, NORMAL where none governs it (R101). -/
def keyAt (zones : List Zone) (lane : Nat) : ZoneKey :=
  match zones.find? fun z => z.covers lane with
  | some z => z.key
  | none => .normal

/-- The zone table after nozzles over the given lanes have opened: FIRED set on each governing zone (R103). -/
def markFired (zones : List Zone) (lanes : List Nat) : List Zone :=
  zones.zipIdx.map fun zi =>
    { zi.1 with fired := zi.1.fired || lanes.any fun lane => governing zones lane == some zi.2 }

/-! ### Intervals -/

/-- Add an interval to a list kept in order of fire-on; one whose fire-on equals that of one in the list stands after
it (R121). -/
def insertInterval (iv : Interval) : List Interval → List Interval
  | [] => [iv]
  | x :: xs => if behind iv.fireOn x.fireOn then iv :: x :: xs else x :: insertInterval iv xs

/-- An interval covers T: T is at or ahead of its fire-on and its fire-off is ahead of T (R122). -/
def Interval.covers (iv : Interval) (T : Pos) : Bool := atOrAhead T iv.fireOn && ahead iv.fireOff T

/-- A nozzle without the intervals of one record. -/
def Nozzle.without (n : Nozzle) (h : Handle) : Nozzle :=
  { n with ivals := n.ivals.filter fun iv => iv.owner != h }

/-- A bar without the intervals of one record (R124, R54). -/
def BarUnit.without (u : BarUnit) (h : Handle) : BarUnit :=
  { u with nozzles := u.nozzles.map fun n => n.without h }

/-- One interval placed on each nozzle of a set (R113). -/
def BarUnit.place (u : BarUnit) (set : List Nat) (iv : Interval) : BarUnit :=
  { u with
    nozzles := u.nozzles.zipIdx.map fun ni =>
      if set.contains ni.2 then { ni.1 with ivals := insertInterval iv ni.1.ivals } else ni.1 }

/-! ### The open condition -/

/-- The terms of the open condition that are the same for every nozzle: RUN or DRAINING, not stalled, P equal to T (R122). -/
def State.lineOpen (s : State) : Bool := s.running && !s.bpu.stalled && s.bpu.P == s.bpu.T

/-- The terms that are the same for every nozzle of a bar: those of the line, and a READY bar (R122). -/
def State.barOpen (s : State) (u : BarUnit) : Bool := s.lineOpen && u.state == .ready

/-- Some interval of the nozzle covers T (R122). -/
def Nozzle.covered (n : Nozzle) (T : Pos) : Bool := n.ivals.any fun iv => iv.covers T

/-- The open condition, `go` standing for the terms of the line and the bar (R122). -/
def Nozzle.openCond (n : Nozzle) (go : Bool) (T : Pos) : Bool := go && n.covered T && n.st != .cooling

/-- A nozzle after its open condition has been evaluated: a CLOSED nozzle opens with its on-time counter from 0, an OPEN
nozzle closes and its counter returns to 0, a COOLING nozzle stays COOLING (R122, R123). -/
def Nozzle.eval (n : Nozzle) (go : Bool) (T : Pos) : Nozzle :=
  match n.st with
  | .closed => if n.openCond go T then { n with st := .opened, onTime := 0 } else n
  | .opened => if n.openCond go T then n else { n with st := .closed, onTime := 0 }
  | .cooling => n

/-- The nozzle opens when its condition is evaluated. -/
def Nozzle.willOpen (n : Nozzle) (go : Bool) (T : Pos) : Bool := n.st == .closed && n.openCond go T

/-- The nozzle closes when its condition is evaluated. -/
def Nozzle.willClose (n : Nozzle) (go : Bool) (T : Pos) : Bool := n.st == .opened && !n.openCond go T

/-- A bar after the open condition of its nozzles `which` has been evaluated (R122): FIRED is set for each opening (R103),
and any change of the open nozzles owes a frame (R123, R128). -/
def BarUnit.evalWhere (u : BarUnit) (which : Nat → Bool) (go : Bool) (T : Pos) : BarUnit :=
  let opening := u.nozzles.zipIdx.filterMap fun ni =>
    if which ni.2 && ni.1.willOpen go T then some ni.2 else none
  let closing := u.nozzles.zipIdx.any fun ni => which ni.2 && ni.1.willClose go T
  { u with
    nozzles := u.nozzles.zipIdx.map fun ni => if which ni.2 then ni.1.eval go T else ni.1
    zones := markFired u.zones opening
    bus := { u.bus with owed := u.bus.owed || !opening.isEmpty || closing } }

/-- A bar after the open condition of every nozzle has been evaluated. -/
def BarUnit.evalAll (u : BarUnit) (go : Bool) (T : Pos) : BarUnit := u.evalWhere (fun _ => true) go T

/-- The open condition of every nozzle of the part is evaluated, at the end of an event that may have changed one of its
terms (R122; entry 11). -/
def State.settle (s : State) : State :=
  { s with bars := s.bars.map fun u => u.evalAll (s.barOpen u) s.bpu.T }

/-- A state whose line terms of the open condition an event has changed: every nozzle is evaluated (R122). -/
def State.settleFrom (s' s : State) : State := if s'.lineOpen = s.lineOpen then s' else s'.settle

/-! ### Cut, cooling and driver fault -/

/-- A nozzle changed at its place. -/
def BarUnit.modNozzle (u : BarUnit) (n : Nat) (f : Nozzle → Nozzle) : BarUnit :=
  { u with nozzles := u.nozzles.modify n f }

/-- A nozzle of the bar. -/
def BarUnit.nozzle (u : BarUnit) (n : Nat) : Nozzle := u.nozzles.getD n Nozzle.atRelease

/-- The cut of a nozzle at MAXON (R125): COOLING, both counters from 0, MAXON_CUT counted, a frame owed. -/
def BarUnit.cut (u : BarUnit) (n : Nat) : BarUnit :=
  { u.modNozzle n fun z => { z with st := .cooling, onTime := 0, cool := 0 } with
    maxonCuts := satAdd Config.countMax u.maxonCuts 1
    bus := { u.bus with owed := true } }

/-- Every nozzle of a faulted bar: OPEN nozzles close with their counters at 0, COOLING goes on, no interval stays
(R119, steps 1 and 2). -/
def Nozzle.faulted (n : Nozzle) : Nozzle :=
  { n with
    st := if n.st = .opened then .closed else n.st
    onTime := 0
    ivals := [] }

/-- A bar at the first two steps of a driver fault (R119): FAULTED, nozzles closed, intervals removed; a change of the
open nozzles owes a frame (R130). -/
def BarUnit.faultNow (u : BarUnit) : BarUnit :=
  { u with
    state := .faulted
    nozzles := u.nozzles.map Nozzle.faulted
    bus := { u.bus with owed := u.bus.owed || u.nozzles.any fun n => n.st == .opened } }

/-- A nozzle at a RESET request (R131). -/
def Nozzle.cleared (_ : Nozzle) : Nozzle := Nozzle.atRelease

/-- A bar at a RESET request (R131): every nozzle CLOSED and empty; nozzles that were open owe a frame. -/
def BarUnit.cleared (u : BarUnit) : BarUnit :=
  { u with
    nozzles := u.nozzles.map Nozzle.cleared
    bus := { u.bus with owed := u.bus.owed || u.nozzles.any fun n => n.st == .opened } }

/-! ### The Valve Bus -/

/-- A frame starts (R127, R128, R129): the nozzle states and the count at this moment; the debt is cleared, the count goes
up by one and the refresh timer restarts. -/
def BarUnit.startFrame (u : BarUnit) : BarUnit :=
  { u with
    bus :=
      { sending := some { count := u.bus.count, open_ := u.nozzles.map fun n => n.st == .opened }
        owed := false
        count := u.bus.count + 1
        refresh := 0 } }

/-- A frame owed on an idle bus starts (R128). -/
def BarUnit.startIfOwed (u : BarUnit) : BarUnit :=
  if u.bus.owed && u.bus.sending.isNone then u.startFrame else u

end Sys2Proof.Machine
end

