-- ==== Sys2Proof/Machine/Verdicts.lean ====
section
/-! DEFINITION. The Verdict Engine (chapter 5): scores, material, DEGRADED, CONFLICT and destination. -/

namespace Sys2Proof.Machine

/-- The evidence of a record as a list in station order (R39). -/
def evidenceList (ev : PerStation (Option Entry)) : List (Station × Entry) :=
  stations.filterMap fun p => (ev.get p).map fun e => (p, e)

/-- The Class Map entry of a station and class code (R77). -/
def BankData.classEntry (k : BankData) (p : Station) (cls : Nat) : ClassEntry :=
  (k.classMap.get p).getD cls ⟨0, 0⟩

/-- The Destination Table entry of a material (R83). -/
def BankData.destEntry (k : BankData) (material : Nat) : DestEntry :=
  k.table.rows.getD material ⟨.pass, 0, .either⟩

/-- The vote of an evidence entry for a material: weight times confidence where material and weight are above 0
(R77, R78). -/
def vote (k : BankData) (p : Station) (e : Entry) (material : Nat) : Nat :=
  let c := k.classEntry p e.cls
  if c.material = material ∧ 0 < c.material ∧ 0 < c.weight then c.weight * e.conf else 0

/-- The score of a material (R78). -/
def score (k : BankData) (ev : PerStation (Option Entry)) (material : Nat) : Nat :=
  ((evidenceList ev).map fun pe => vote k pe.1 pe.2 material).sum

/-- The sixteen scores in material order (R78). -/
def scores (k : BankData) (ev : PerStation (Option Entry)) : List Nat := (List.range 16).map (score k ev)

/-- The largest of a list of scores, 0 for none. -/
def largest (xs : List Nat) : Nat := xs.foldl max 0

/-- top (R79). -/
def topScore (xs : List Nat) : Nat := largest xs

/-- The best material: the smallest material number whose score equals top (R79). -/
def bestMaterial (xs : List Nat) : Nat := xs.idxOf (topScore xs)

/-- second: the largest score among the other materials (R79). -/
def secondScore (xs : List Nat) : Nat := largest (xs.eraseIdx (bestMaterial xs))

/-- margin: top less second (R79). -/
def marginOf (xs : List Nat) : Nat := topScore xs - secondScore xs

/-- A lead that falls short of the bank's thresholds: the record is WEAK (R80). -/
def isWeak (k : BankData) (xs : List Nat) : Bool :=
  decide (0 < topScore xs) &&
    (decide (topScore xs < k.table.minScore) || decide (marginOf xs < k.table.minMargin))

/-- The material chosen (R80). -/
def chosenMaterial (k : BankData) (xs : List Nat) : Nat :=
  if topScore xs = 0 ∨ isWeak k xs = true then 0 else bestMaterial xs

/-- The verdict of some evidence through a bank (R79, R80). -/
def verdictOf (k : BankData) (ev : PerStation (Option Entry)) : Verdict :=
  let xs := scores k ev
  { material := chosenMaterial k xs, top := topScore xs, margin := marginOf xs }

/-- DEGRADED: an enabled station is not UP and the record holds no evidence from it (R81). -/
def isDegraded (ports : PerStation Port) (ev : PerStation (Option Entry)) : Bool :=
  stations.any fun p => (ports.get p).enabled && (ports.get p).state != .up && (ev.get p).isNone

/-- A metal flag disagrees with an attribute (R82). -/
def disagrees : MetalAttr → Bool → Bool
  | .metal, flag => !flag
  | .nonmetal, flag => flag
  | .either, _ => false

/-- CONFLICT: some entry's metal flag disagrees with the chosen material's attribute (R82). -/
def isConflict (k : BankData) (ev : PerStation (Option Entry)) (material : Nat) : Bool :=
  (evidenceList ev).any fun pe =>
    match pe.2.metal with
    | some flag => disagrees (k.destEntry material).attr flag
    | none => false

/-- The destination, from the first case that applies (R84). -/
def chooseDest (k : BankData) (ovr : Option Dest) (degraded conflict : Bool) (material : Nat) : Dest :=
  match ovr with
  | some d => d
  | none =>
    if degraded then k.table.degradedDest
    else if conflict then k.table.conflictDest
    else (k.destEntry material).dest

/-- A record decided or re-decided (R76): verdict and destination replaced whole, DEGRADED, CONFLICT and WEAK set or
cleared, the state DECIDED; every other field as it stands. -/
def decideRecord (s : State) (r : Record) : Record :=
  let k := s.banks.data.get r.bank
  let v := verdictOf k r.evidence
  let degraded := isDegraded s.ports r.evidence
  let conflict := isConflict k r.evidence v.material
  { r with
    st := .decided v (chooseDest k r.ovr degraded conflict v.material)
    flags := { r.flags with degraded, conflict, weak := isWeak k (scores k r.evidence) } }

/-- The rank of a record: that of its material's entry in its own bank (R83, R111). -/
def State.rankOf (s : State) (r : Record) : Nat := ((s.banks.data.get r.bank).destEntry r.st.material).rank

end Sys2Proof.Machine
end

