-- ==== Sys2Proof/Machine/Records.lean ====
section
/-! DEFINITION. The Fragment Table (chapter 3): belt order (R41), the points of a record (R42), creation (R45, R46),
retirement (R48) and absorption (R55). -/

namespace Sys2Proof.Machine

/-! ### Belt order -/

/-- A live record stands before another (R41): by X, then first lane, then slot index. -/
def Live.before (x y : Live) : Bool :=
  behind x.record.X y.record.X ||
    x.record.X == y.record.X &&
      (decide (x.record.first < y.record.first) || x.record.first == y.record.first && decide (x.slot < y.slot))

/-- A record joins the belt-order list at its place (R41). -/
def insertLive (x : Live) : List Live → List Live
  | [] => [x]
  | y :: ys => if x.before y then x :: y :: ys else y :: insertLive x ys

/-- The list without the record of a slot. -/
def removeSlot (live : List Live) (slot : Nat) : List Live := live.filter fun l => l.slot != slot

/-- A change of a record that leaves its X and first lane: its place stays (R41). -/
def FragTable.modRecord (ft : FragTable) (slot : Nat) (f : Record → Record) : FragTable :=
  { ft with live := ft.live.map fun l => if l.slot == slot then { l with record := f l.record } else l }

/-- A record with other contents, moved to its place in belt order (R41). -/
def FragTable.placeRecord (ft : FragTable) (slot : Nat) (r : Record) : FragTable :=
  { ft with live := insertLive ⟨slot, r⟩ (removeSlot ft.live slot) }

/-- A slot leaves the table (R37, R38): out of belt order, to the tail of the free list, its generation advanced, the live
count down by one. -/
def FragTable.freeSlot (ft : FragTable) (slot : Nat) : FragTable where
  live := removeSlot ft.live slot
  liveCount := ft.liveCount - 1
  freeList := ft.freeList ++ [slot]
  gens := ft.gens.modify slot fun g => g + 1

/-- A change of a record in the state. -/
def State.modRecord (s : State) (slot : Nat) (f : Record → Record) : State :=
  { s with ft := s.ft.modRecord slot f }

/-- A record's state changed. -/
def State.setRecState (s : State) (slot : Nat) (st : RecState) : State :=
  s.modRecord slot fun r => { r with st }

/-! ### The points of a record -/

/-- The decision point, X_t + D_max + SETTLE (R42). -/
def State.decisionPoint (s : State) (r : Record) : Pos := fwd r.Xt (s.dMax + s.tracking.settle)

/-- The freeze point of an object with leading edge X, X + E_f − A_f (R42); none where no bar is enabled (entry 13). -/
def State.freezePoint (s : State) (x : Pos) : Option Pos :=
  s.lowBar.map fun f => back (fwd x (s.bar f).settings.E) (s.bar f).settings.A

/-- The arm point of a bar, X + E_b − A_b, or the freeze point for a bar that is not enabled (R42). -/
def State.armPoint (s : State) (x : Pos) (b : Bar) : Option Pos :=
  if (s.bar b).settings.enabled then some (back (fwd x (s.bar b).settings.E) (s.bar b).settings.A)
  else s.freezePoint x

/-- The retire line, X_t + E_l + M_back of bar l (R42). -/
def State.retireLine (s : State) (xt : Pos) : Option Pos :=
  s.highBar.map fun l => fwd (fwd xt (s.bar l).settings.E) (s.bar l).settings.mBack

/-- The point a record awaits in its state (R42, R43), the fire-off of an ARMED record among them (R124). -/
def State.awaited (s : State) (r : Record) : Option Pos :=
  match r.st with
  | .opened => some (s.decisionPoint r)
  | .decided _ _ => s.freezePoint r.X
  | .committed _ b => s.armPoint r.X b
  | .armed _ sch => some sch.fireOff
  | .passing _ _ _ => s.retireLine r.Xt

/-! ### Entering and leaving the table -/

/-- A record is created in the slot at the head of the free list, in the ACTIVE bank (R37, R45, R90): the slot and the
state, or none where the free list is empty (R47). -/
def State.create (s : State) (r : Record) : Option (Nat × State) :=
  match s.ft.freeList with
  | [] => none
  | slot :: rest =>
    some
      (slot,
        { s with
          ft :=
            { s.ft with
              live := insertLive ⟨slot, { r with bank := s.banks.active }⟩ s.ft.live
              liveCount := s.ft.liveCount + 1
              freeList := rest }
          banks :=
            { s.banks with
              refs := s.banks.refs.set s.banks.active (s.banks.refs.get s.banks.active + 1) } })

/-- The record of a slot is freed and its bank's reference count goes down by one (R48, R55, R91). -/
def State.freeRecord (s : State) (slot : Nat) (r : Record) : State :=
  { s with
    ft := s.ft.freeSlot slot
    banks := { s.banks with refs := s.banks.refs.set r.bank (s.banks.refs.get r.bank - 1) } }

/-- A record retires with an outcome (R48): freed, tallied, and in DRAINING the last one completes the drain (R151). -/
def State.retire (s : State) (slot : Nat) (o : RecOutcome) : State :=
  match s.ft.find slot with
  | none => s
  | some r =>
    let s' := s.freeRecord slot r
    State.drainIfEmpty { s' with lc := { s'.lc with tallies := s'.lc.tallies.bump o r.st.material } }

/-- A record is absorbed by a merge (R55): freed without a tally. -/
def State.absorb (s : State) (slot : Nat) : State :=
  match s.ft.find slot with
  | none => s
  | some r => s.freeRecord slot r

/-- A RESET request frees every live record in belt order, without a tally (R57). -/
def State.freeAll (s : State) : State :=
  { s with
    ft :=
      { live := []
        liveCount := 0
        freeList := s.ft.freeList ++ s.ft.live.map (·.slot)
        gens := s.ft.live.foldl (fun g l => g.modify l.slot fun x => x + 1) s.ft.gens }
    banks := { s.banks with refs := ⟨0, 0⟩ } }

end Sys2Proof.Machine
end

