-- ==== Sys2Proof/Machine/Arming.lean ====
section
/-! DEFINITION. Arming and the fire window (7.3, R104 to R113). -/

namespace Sys2Proof.Machine

/-! ### Nozzle set and zones -/

/-- The first nozzle of the set: the first lane less WIDEN, or 0 (R105). -/
def firstNozzle (st : BarSettings) (r : Record) : Nat := r.first - st.widen

/-- The last nozzle of the set: the last lane plus WIDEN, or 159 (R105). -/
def lastNozzle (st : BarSettings) (r : Record) : Nat := min (r.last + st.widen) Config.lastLane

/-- The count of the nozzle set (R105). -/
def nozzleCount (st : BarSettings) (r : Record) : Nat := lastNozzle st r + 1 - firstNozzle st r

/-- The committed set: the nozzles of the set whose governing zone is not OFF (R106). -/
def committedSet (u : BarUnit) (r : Record) : List Nat :=
  (List.range' (firstNozzle u.settings r) (nozzleCount u.settings r)).filter fun n => keyAt u.zones n != .off

/-- Some nozzle of the committed set lies under WATCH (R106). -/
def watched (u : BarUnit) (set : List Nat) : Bool := set.any fun n => keyAt u.zones n == .watch

/-! ### Leads and window -/

/-- lead_on: T_open × V / 32,768 rounded up, held at 4,095 (R107). -/
def leadOn (st : BarSettings) (V : Nat) : Nat := min ((st.tOpen * V + 32767) / 32768) Config.leadMax

/-- lead_off: T_close × V / 32,768 rounded down, held at 4,095 (R107). -/
def leadOff (st : BarSettings) (V : Nat) : Nat := min (st.tClose * V / 32768) Config.leadMax

/-- fire-on before the clamp: X + E_b − M_front − lead_on (R108). -/
def rawFireOn (st : BarSettings) (V : Nat) (r : Record) : Pos :=
  back (back (fwd r.X st.E) st.mFront) (leadOn st V)

/-- The arming is late: fire-on is behind T (R108). -/
def isLate (st : BarSettings) (V : Nat) (T : Pos) (r : Record) : Bool := behind (rawFireOn st V r) T

/-- fire-on, set to T where the arming is late (R108). -/
def fireOnOf (st : BarSettings) (V : Nat) (T : Pos) (r : Record) : Pos :=
  if isLate st V T r then T else rawFireOn st V r

/-- fire-off before the adjustment: X_t + E_b + M_back − lead_off (R109). -/
def rawFireOff (st : BarSettings) (V : Nat) (r : Record) : Pos :=
  back (fwd (fwd r.Xt st.E) st.mBack) (leadOff st V)

/-- fire-off, one step past fire-on where it is not ahead of it (R109). -/
def fireOffOf (st : BarSettings) (V : Nat) (T : Pos) (r : Record) : Pos :=
  if ahead (rawFireOff st V r) (fireOnOf st V T r) then rawFireOff st V r else fwd (fireOnOf st V T r) 1

/-! ### Guard arbitration -/

/-- The start of a record's presence window at a bar (R111). -/
def presenceStart (st : BarSettings) (r : Record) : Pos := back (fwd r.X st.E) st.mFront

/-- The end of a record's presence window at a bar, excluded (R111). -/
def presenceEnd (st : BarSettings) (r : Record) : Pos := fwd (fwd r.Xt st.E) st.mBack

/-- A record is a guard contender at bar b: it has a verdict and its destination is not bar b (R110). -/
def contends (b : Bar) (c : Record) : Bool :=
  match c.st.dest with
  | some d => d != .bar b
  | none => false

/-- Contender C suppresses A at a bar (R111): windows meet, widened lanes meet, and C ranks strictly higher. -/
def State.suppresses (s : State) (st : BarSettings) (c a : Record) : Bool :=
  behind (presenceStart st a) (presenceEnd st c) && behind (presenceStart st c) (presenceEnd st a) &&
    lanesMeet (firstNozzle st a) (lastNozzle st a) (firstNozzle st c) (lastNozzle st c) &&
    decide (s.rankOf a < s.rankOf c)

/-- At a GUARDED bar some contender suppresses the record (R110, R111). -/
def State.isSuppressed (s : State) (b : Bar) (slot : Nat) (r : Record) : Bool :=
  (s.bar b).settings.guarded &&
    s.ft.live.any fun c =>
      c.slot != slot && contends b c.record && s.suppresses (s.bar b).settings c.record r

/-! ### Capacity -/

/-- Some nozzle of the set already holds four intervals (R112). -/
def anyFull (u : BarUnit) (set : List Nat) : Bool :=
  set.any fun n => decide (Config.intervalCap ≤ (u.nozzle n).ivals.length)

/-! ### The arming -/

/-- The arming ends without a commit: PASSING with an outcome (R104). -/
def State.pass (s : State) (slot : Nat) (v : Verdict) (b : Bar) (o : RecOutcome) : State :=
  s.setRecState slot (.passing v (.bar b) o)

/-- ZONE_WATCH, where the committed set reaches a WATCH lane (R106). -/
def State.reportWatch (s : State) (b : Bar) (slot : Nat) (set : List Nat) : State :=
  if watched (s.bar b) set then s.raise .zoneWatch (.bar b) (some (s.ft.handle slot)) else s

/-- A late arming: the record's flag, the bar's count and the notice (R108). -/
def State.reportLate (s : State) (b : Bar) (slot : Nat) (late : Bool) : State :=
  if late then
    let u := s.bar b
    let s1 := s.setBar b { u with lateFire := satAdd Config.countMax u.lateFire 1 }
    let s2 := s1.modRecord slot fun r => { r with flags := { r.flags with lateFire := true } }
    s2.raise .lateFire (.bar b) (some (s.ft.handle slot))
  else s

/-- The commit (R113): one interval on each nozzle of the committed set, the record ARMED with its schedule. -/
def State.commit (s : State) (slot : Nat) (v : Verdict) (sch : Schedule) (set : List Nat) : State :=
  let s' := s.setBar sch.bar ((s.bar sch.bar).place set ⟨sch.fireOn, sch.fireOff, s.ft.handle slot⟩)
  s'.setRecState slot (.armed v sch)

/-- The last two steps of an arming, guard and capacity, and the commit (R110 to R113). -/
def State.guardAndCommit (s : State) (slot : Nat) (r : Record) (v : Verdict) (sch : Schedule) (set : List Nat) : State :=
  if s.isSuppressed sch.bar slot r then s.pass slot v sch.bar .suppressed
  else if anyFull (s.bar sch.bar) set then
    (s.raise .valveFull (.bar sch.bar) (some (s.ft.handle slot))).pass slot v sch.bar .dropped
  else s.commit slot v sch set

/-- The arming of a COMMITTED record for its destination bar, step by step (R104). T and V are read once. -/
def State.arm (s : State) (slot : Nat) (r : Record) (v : Verdict) (b : Bar) : State :=
  let u := s.bar b
  let st := u.settings
  let set := committedSet u r
  if u.state ≠ .ready then s.pass slot v b .dropped
  else if st.maxNoz < nozzleCount st r then s.pass slot v b .dropped
  else if set.isEmpty then s.pass slot v b .masked
  else
    let sch : Schedule :=
      { bar := b
        fireOn := fireOnOf st s.bpu.V s.bpu.T r
        fireOff := fireOffOf st s.bpu.V s.bpu.T r
        firstNozzle := set.headD 0
        lastNozzle := set.getLastD 0 }
    ((s.reportWatch b slot set).reportLate b slot (isLate st s.bpu.V s.bpu.T r)).guardAndCommit slot r v sch set

end Sys2Proof.Machine
end

