-- ==== Sys2Proof/Machine/Points.lean ====
section
/-! DEFINITION. The events of a record's life (R43, R49 to R53): the point a record awaits, taken at the record, and the
overdue points that follow in the same event. -/

namespace Sys2Proof.Machine

/-- Freeze (R50): PASS makes the record PASSING with PASSED; a bar makes it COMMITTED. (Its arm point, where it is reached
already, is taken next by `runDue`.) -/
def freezeState (v : Verdict) : Dest → RecState
  | .pass => .passing v .pass .passed
  | .bar b => .committed v b

/-- The event of the point a record awaits in its state: decision (R49), freeze (R50), arming (R51), interval end (R52,
R124) or retire line (R53). -/
def State.takePoint (s : State) (slot : Nat) (r : Record) : State :=
  match r.st with
  | .opened => s.modRecord slot (decideRecord s)
  | .decided v d => s.setRecState slot (freezeState v d)
  | .committed v b => s.arm slot r v b
  | .armed _ sch => (s.setBar sch.bar ((s.bar sch.bar).without (s.ft.handle slot))).retire slot .fired
  | .passing _ _ o => s.retire slot o

/-- Points at or behind T taken in turn at one record, in RUN and DRAINING, until it awaits a point ahead of T or has left
the table (R43). No record has more than four left to take, since its state only moves forward (R44). -/
def State.runDue : Nat → State → Nat → State
  | 0, s, _ => s
  | n + 1, s, slot =>
    match s.ft.find slot with
    | none => s
    | some r =>
      match s.awaited r with
      | none => s
      | some p => if s.running && atOrBehind p s.bpu.T then (s.takePoint slot r).runDue n slot else s

/-- Overdue points of a record, taken at once (R43, R72). -/
def State.takeOverdue (s : State) (slot : Nat) : State := s.runDue 5 slot

/-- The record awaits a point that T has just reached (R43). -/
def State.reaches (s : State) (r : Record) : Bool := s.awaited r == some s.bpu.T

/-- The event of a point that the new T equals, with what follows it, where the record still awaits it (R43). -/
def State.takeReached (s : State) (slot : Nat) : State :=
  match s.ft.find slot with
  | none => s
  | some r => if s.running && s.reaches r then s.takeOverdue slot else s

/-! ### The free order of events taken in one event of the part -/

/-- Something that happens within one event in an order the manual leaves open (entry 8): a station falling silent, the
event of a record, or the freeing of a record's slot. -/
inductive AdvancePart where
  | silence (p : Station)
  | point (slot : Nat)
deriving DecidableEq, Repr

/-- The number of a part, by which the free order knows it. -/
def AdvancePart.no : AdvancePart → Nat
  | .silence p => stationNo p
  | .point slot => 4 + slot

/-- The parts in the free order of this draw (entry 8). -/
def orderParts (draw : Nat) (parts : List AdvancePart) : List AdvancePart :=
  parts.insertionSort fun a b => Config.orderKey draw a.no ≤ Config.orderKey draw b.no

end Sys2Proof.Machine
end

