-- ==== Sys2Proof/Machine/Operands.lean ====
section
/-! DEFINITION. The operands of requests and frames: what each byte means (R162) and the range each value is held to.
A byte with no meaning gives `none`, and the owning block refuses it with BAD_VALUE. -/

namespace Sys2Proof.Machine

/-- yes is 1 and no is 0 (R162). -/
def yesNo (b : Byte) : Option Bool :=
  match b.toNat with
  | 0 => some false
  | 1 => some true
  | _ => none

/-- A station number (R33). -/
def stationOf (b : Byte) : Option Station :=
  match b.toNat with
  | 0 => some .s0
  | 1 => some .s1
  | 2 => some .s2
  | 3 => some .s3
  | _ => none

/-- A bar number (R99). -/
def barOf (b : Byte) : Option Bar :=
  match b.toNat with
  | 0 => some .bar0
  | 1 => some .bar1
  | 2 => some .bar2
  | _ => none

/-- Bank A is 0 and bank B is 1 (R162). -/
def bankOf (b : Byte) : Option Bank :=
  match b.toNat with
  | 0 => some .a
  | 1 => some .b
  | _ => none

/-- BAR0, BAR1, BAR2 and PASS are 0 to 3 (R162). -/
def destOf (b : Byte) : Option Dest :=
  match b.toNat with
  | 0 => some (.bar .bar0)
  | 1 => some (.bar .bar1)
  | 2 => some (.bar .bar2)
  | 3 => some .pass
  | _ => none

/-- METAL, NONMETAL and EITHER count from 0 in the order of R83 (R162). -/
def attrOf (b : Byte) : Option MetalAttr :=
  match b.toNat with
  | 0 => some .metal
  | 1 => some .nonmetal
  | 2 => some .either
  | _ => none

/-- OFF, WATCH and NORMAL are 0 to 2 (R162). -/
def keyOf (b : Byte) : Option ZoneKey :=
  match b.toNat with
  | 0 => some .off
  | 1 => some .watch
  | 2 => some .normal
  | _ => none

/-- The outcome of a READ_TALLIES block number, in the order of R160. -/
def outcomeOf (b : Byte) : Option RecOutcome :=
  match b.toNat with
  | 0 => some .fired
  | 1 => some .passed
  | 2 => some .suppressed
  | 3 => some .dropped
  | 4 => some .masked
  | 5 => some .forgotten
  | _ => none

/-- A lane range: the first lane not above the last, and the last not above 159. -/
def lanesOk (first last : Byte) : Bool :=
  decide (first.toNat ≤ last.toNat) && decide (last.toNat ≤ Config.lastLane)

/-- The ranges of SET_BELT (R15). -/
def beltInRange (r : BeltRequest) : Bool :=
  decide (1 ≤ r.encDiv.toNat) && decide (r.encDiv.toNat ≤ 16) && decide (r.revMax.toNat ≤ 1023) &&
    decide (1 ≤ r.stallW.toNat) && decide (1 ≤ r.guardW.toNat)

/-- The ranges of SET_TRACKING (R56). -/
def trackingInRange (r : TrackingRequest) : Bool :=
  decide (64 ≤ r.lMax.toNat) && decide (r.lMax.toNat ≤ 4095) && decide (r.laneTol.toNat ≤ 7) &&
    decide (r.settle.toNat ≤ 4095)

/-- The ranges of the last two values of SET_STATION (R33); every D_s and RATE_s is in range. -/
def stationInRange (r : StationRequest) : Bool :=
  decide (r.slipTol.toNat ≤ 15) && decide (256 ≤ r.silentSteps.toNat)

/-- The settings a SET_BAR carries, where every one is in its range (R99, 7.1). -/
def settingsOf (r : BarRequest) : Option BarSettings :=
  match yesNo r.enabled, yesNo r.guarded with
  | some enabled, some guarded =>
    if decide (16 ≤ r.A.toNat) && decide (r.A.toNat ≤ 4095) && decide (r.tOpen.toNat ≤ 20000) &&
        decide (r.tClose.toNat ≤ 20000) && decide (r.widen.toNat ≤ 3) && decide (1 ≤ r.maxNoz.toNat) &&
        decide (r.maxNoz.toNat ≤ 64) && decide (1000 ≤ r.maxon.toNat) && decide (r.maxon.toNat ≤ 100000) &&
        decide (r.minoff.toNat ≤ 50000) then
      some
        { enabled, E := r.E.toNat, A := r.A.toNat, tOpen := r.tOpen.toNat, tClose := r.tClose.toNat
          mFront := r.mFront.toNat, mBack := r.mBack.toNat, widen := r.widen.toNat
          maxNoz := r.maxNoz.toNat, guarded, maxon := r.maxon.toNat, minoff := r.minoff.toNat }
    else none
  | _, _ => none

/-- The zone a SET_ZONE writes, with its FIRED flag clear, where lanes and key are in range (R102). -/
def zoneOf (r : ZoneRequest) : Option Zone :=
  match keyOf r.key with
  | some key =>
    if lanesOk r.first r.last then
      some { first := r.first.toNat, last := r.last.toNat, key, fired := false }
    else none
  | none => none

/-- A Class Map entry, where material and weight are in range (R93). -/
def classEntryOf (r : ClassRow) : Option ClassEntry :=
  if decide (r.material.toNat ≤ 15) && decide (r.weight.toNat ≤ 15) then some ⟨r.material.toNat, r.weight.toNat⟩
  else none

/-- A Destination Table entry, where its three values are in range (R94). -/
def destEntryOf (r : DestRow) : Option DestEntry :=
  match destOf r.dest, attrOf r.attr with
  | some dest, some attr => if r.rank.toNat ≤ 7 then some ⟨dest, r.rank.toNat, attr⟩ else none
  | _, _ => none

/-- Every member of a list put through a check, or none where one fails it. -/
def allOf {α β : Type} (f : α → Option β) : List α → Option (List β)
  | [] => some []
  | x :: xs =>
    match f x, allOf f xs with
    | some y, some ys => some (y :: ys)
    | _, _ => none

/-- The Destination Table and thresholds a WRITE_DESTINATIONS carries, where all are in range (R94). -/
def destTableOf (r : DestinationsRequest) : Option DestTable :=
  match allOf destEntryOf r.rows, destOf r.degradedDest, destOf r.conflictDest with
  | some rows, some degradedDest, some conflictDest =>
    if decide (r.minScore.toNat ≤ 15300) && decide (r.minMargin.toNat ≤ 15300) then
      some { rows, minScore := r.minScore.toNat, minMargin := r.minMargin.toNat, degradedDest, conflictDest }
    else none
  | _, _, _ => none

/-- The Class Map entries a WRITE_CLASSMAP carries, where first code, entry count and every value are in range (R93). -/
def classRunOf (first : Byte) (entries : List ClassRow) : Option (List ClassEntry) :=
  if decide (1 ≤ entries.length) && decide (entries.length ≤ 64) && decide (first.toNat + entries.length ≤ 64) then
    allOf classEntryOf entries
  else none

/-- The slot and generation of a handle operand. -/
def handleOf (h : HandleField) : Handle := ⟨h.slot.toNat, h.gen⟩

/-- The reply to a handle's check: BAD_VALUE above 1,023, STALE where it names a free slot or another generation,
otherwise the record (R38). -/
def checkHandle (ft : FragTable) (h : HandleField) : Except ReplyCode Record :=
  if h.slot.toNat < Config.slots then
    match ft.find h.slot.toNat with
    | some r => if ft.gen h.slot.toNat = h.gen then .ok r else .error .stale
    | none => .error .stale
  else .error .badValue

end Sys2Proof.Machine
end

