-- ==== Sys2Proof/Machine/Wire.lean ====
section
/-! DEFINITION. The conventions common to every link (R162): byte order, the check, start marks, and the station frames
of 11.3. -/

namespace Sys2Proof.Machine

/-- A two-byte value, most significant byte first (R162). -/
def halfBytes (h : Half) : List Byte := [h.extractLsb' 8 8, h.extractLsb' 0 8]

/-- A four-byte value, most significant byte first (R162). -/
def wordBytes (w : BitVec 32) : List Byte :=
  [w.extractLsb' 24 8, w.extractLsb' 16 8, w.extractLsb' 8 8, w.extractLsb' 0 8]

/-- The two-byte value of two bytes. -/
def halfOf (hi lo : Byte) : Half := hi ++ lo

/-- The four-byte value of four bytes. -/
def wordOf (b3 b2 b1 b0 : Byte) : BitVec 32 := b3 ++ b2 ++ b1 ++ b0

/-- A number sent in one byte. -/
def byte (n : Nat) : Byte := BitVec.ofNat 8 n

/-- A number sent in two bytes. -/
def bytes2 (n : Nat) : List Byte := halfBytes (BitVec.ofNat 16 n)

/-- A number sent in four bytes. -/
def bytes4 (n : Nat) : List Byte := wordBytes (BitVec.ofNat 32 n)

/-- yes is 1 and no is 0 (R162). -/
def yesByte (b : Bool) : Byte := if b then 1 else 0

/-- The check: the sum of the bytes modulo 65,536 (R162). -/
def checkSum (bs : List Byte) : Half := bs.foldl (fun acc b => acc + b.setWidth 16) 0

/-- The start marks (R162). -/
def supervisorMark : Byte := 165
/-- The start mark of the Sensor Links (R162). -/
def sensorMark : Byte := 126
/-- The start mark of the Valve Bus (R162). -/
def valveMark : Byte := 195

/-! ### Receiving sides -/

/-- The receiver stands where a frame begins: it hunts, or has taken a start mark and no byte since (R133, R164; entry 4). -/
def Rx.atStart : Rx → Bool
  | .hunting => true
  | .collecting got => got.isEmpty

/-- The bytes a frame brings to a receiver: all of them, or without the start mark where that has been taken already
(entry 4). -/
def Rx.incoming (rx : Rx) (frame : List Byte) : List Byte := if rx = .collecting [] then frame.tail else frame

/-- The two-byte value at the end of a frame, its check. -/
def lastHalf : List Byte → Half
  | hi :: lo :: _ => halfOf hi lo
  | _ => 0

/-! ### Station frames (11.3) -/

/-- The kind byte of a SYNC (11.3). -/
def syncKind : Byte := 1
/-- The kind byte of a DETECT (11.3). -/
def detectKind : Byte := 2

/-- The body of a SYNC: station, sequence, L_sync (11.3). -/
def syncBody (f : SyncFrame) : List Byte := f.station :: f.seq :: wordBytes f.lSync

/-- The body of a DETECT (11.3): the area and the metal flag stand last, where present. -/
def detectBody (f : DetectFrame) : List Byte :=
  f.station :: f.seq :: (wordBytes f.lLead ++ (wordBytes f.lTrail ++
    f.first :: f.last :: f.cls :: f.conf ::
      ((f.area.map halfBytes).getD [] ++ (f.metal.map fun m => [m]).getD [])))

/-- The check of a station frame over its length, kind and body (11.3, R162). -/
def stationCheck (kind : Byte) (body : List Byte) : Half := checkSum (byte body.length :: kind :: body)

/-- A station frame as it is sent (11.3), with the check it carries. -/
def stationFrame (kind : Byte) (body : List Byte) (check : Half) : List Byte :=
  sensorMark :: byte body.length :: kind :: (body ++ halfBytes check)

/-- The length is one the table allows for the kind (11.3, R164). -/
def stationLengthOk (length kind : Byte) : Bool :=
  (kind == syncKind && length == 6) ||
    (kind == detectKind && decide (14 ≤ length.toNat) && decide (length.toNat ≤ 17))

/-- The optional parts of a DETECT, as its length declares them (R164): 14 none, 15 metal flag, 16 area, 17 both. -/
def optionalParts : List Byte → Option (Option Half × Option Byte)
  | [] => some (none, none)
  | [m] => some (none, some m)
  | [h, l] => some (some (halfOf h l), none)
  | [h, l, m] => some (some (halfOf h l), some m)
  | _ => none

/-- The command a station frame stands for, as a port's receiver collects it (R164): length, kind, the body of that
length, check. A kind or length that does not fit is a BAD_FRAME at once; a body of another length than declared is no
frame. -/
def stationCommand (port : Station) (length kind : Byte) (body : List Byte) (check : Half) : Option Instr :=
  if stationLengthOk length kind then
    if body.length = length.toNat then
      match body with
      | [station, seq, l3, l2, l1, l0] =>
        some (.sync port { station, seq, lSync := wordOf l3 l2 l1 l0, check })
      | station :: seq :: l3 :: l2 :: l1 :: l0 :: t3 :: t2 :: t1 :: t0 :: first :: last :: cls :: conf :: rest =>
        match optionalParts rest with
        | some (area, metal) =>
          some
            (.detect port
              { station, seq, lLead := wordOf l3 l2 l1 l0, lTrail := wordOf t3 t2 t1 t0, first, last, cls, conf
                area, metal, check })
        | none => none
      | _ => none
    else none
  else some (.badFrame port length kind)

/-! ### Valve Bus frames (11.4) -/

/-- Eight nozzle states in one byte, the first in the least significant bit (11.4). -/
def packByte (bits : List Bool) : Byte :=
  BitVec.ofNat 8 ((bits.take 8).zipIdx.foldl (fun acc bi => if bi.1 then acc + 2 ^ bi.2 else acc) 0)

/-- The 20 state bytes: nozzle n in byte n ÷ 8, bit n mod 8 (11.4). -/
def stateBytes (bits : List Bool) : List Byte :=
  (List.range 20).map fun k => packByte ((bits.drop (8 * k)).take 8)

/-- A Valve Bus frame as it is sent (11.4): start mark, count, 20 state bytes, check. -/
def ValveFrame.bytes (f : ValveFrame) : List Byte :=
  let inner := f.count :: stateBytes f.open_
  valveMark :: (inner ++ halfBytes (checkSum inner))

end Sys2Proof.Machine
end

