-- ==== Sys2Proof/Machine/Ports.lean ====
section
/-! DEFINITION. The Station Ports (chapter 2): arrival checks, Base and slip, the treatment of a DETECT; and the meanings
of SYNC, DETECT, BAD_FRAME and PORT_START_MARK. -/

namespace Sys2Proof.Machine

/-! ### Counters -/

/-- A port with its counters changed (R32). -/
def Port.count (p : Port) (f : PortCounters → PortCounters) : Port := { p with counters := f p.counters }

/-- ACCEPTED (R24, R28). -/
def PortCounters.addAccepted (c : PortCounters) : PortCounters := { c with accepted := satAdd Config.countMax c.accepted 1 }
/-- BAD_FRAME (R18, R19). -/
def PortCounters.addBadFrame (c : PortCounters) : PortCounters := { c with badFrame := satAdd Config.countMax c.badFrame 1 }
/-- DUPLICATE (R20). -/
def PortCounters.addDuplicate (c : PortCounters) : PortCounters :=
  { c with duplicate := satAdd Config.countMax c.duplicate 1 }
/-- SEQ_GAP grows by the size of the gap (R20). -/
def PortCounters.addSeqGap (c : PortCounters) (gap : Nat) : PortCounters :=
  { c with seqGap := satAdd Config.countMax c.seqGap gap }
/-- STORM_DROP (R26). -/
def PortCounters.addStorm (c : PortCounters) : PortCounters := { c with stormDrop := satAdd Config.countMax c.stormDrop 1 }
/-- QUEUE_DROP (R28). -/
def PortCounters.addQueueDrop (c : PortCounters) : PortCounters :=
  { c with queueDrop := satAdd Config.countMax c.queueDrop 1 }
/-- NOBASE (R25). -/
def PortCounters.addNoBase (c : PortCounters) : PortCounters := { c with noBase := satAdd Config.countMax c.noBase 1 }
/-- DUST (R61). -/
def PortCounters.addDust (c : PortCounters) : PortCounters := { c with dust := satAdd Config.countMax c.dust 1 }
/-- LATE (R65). -/
def PortCounters.addLate (c : PortCounters) : PortCounters := { c with late := satAdd Config.countMax c.late 1 }

/-! ### Arrival checks -/

/-- The rest of the format check of a frame whose kind and length fit: the check matches and the station number is the
port's (R18). -/
def formatOk (port : Station) (station : Byte) (check sum : Half) : Bool :=
  check == sum && station == byte (stationNo port)

/-- The content check of a DETECT (R19, R164). -/
def contentOk (f : DetectFrame) : Bool :=
  lanesOk f.first f.last && decide (f.cls.toNat ≤ 63) &&
    (match f.area with | some a => decide (1 ≤ a.toNat) | none => true) &&
    (match f.metal with | some m => (yesNo m).isSome | none => true) &&
    atOrAhead f.lTrail f.lLead && decide (stepsTo f.lLead f.lTrail < Config.span)

/-- The sequence check (R20): none for a duplicate, otherwise the gap to add to SEQ_GAP. -/
def seqGap (last : Option Byte) (n : Byte) : Option Nat :=
  match last with
  | none => some 0
  | some l => if n = l then none else some (n - l - 1).toNat

/-- A port that has taken a frame past the sequence check (R17 steps 3 and 4, R20, R21). -/
def Port.sequenced (p : Port) (n : Byte) (gap : Nat) : Port :=
  { p.count (·.addSeqGap gap) with lastSeq := some n, silence := 0 }

/-- The receiver of a port hunts again after a frame (R164). -/
def Port.hunting (p : Port) : Port := { p with rx := .hunting }

/-- The handling of a frame that arrives at a port (R17): discarded at a DISABLED station, counted BAD_FRAME where it
fails the format or content check, counted DUPLICATE where it repeats the last sequence, and otherwise handed on. -/
def State.arrive (s : State) (port : Station) (seq : Byte) (sound : Bool) (handle : State → Port → State) : State :=
  let p := (s.port port).hunting
  if p.state = .disabled then s.setPort port p
  else if sound then
    match seqGap p.lastSeq seq with
    | none => s.setPort port (p.count (·.addDuplicate))
    | some gap => handle s (p.sequenced seq gap)
  else s.setPort port (p.count (·.addBadFrame))

/-! ### SYNC -/

/-- A SYNC at a WAITING or SILENT station latches a Base (R22). -/
def State.latchBase (s : State) (port : Station) (p : Port) (lSync : Pos) : State :=
  (s.setPort port { p with base := some (s.bpu.T - lSync), state := .up }).raise .stationUp (.station port) none

/-- A candidate Base lies within the slip tolerance of the Base (R23). -/
def withinSlip (tol : Nat) (candidate base : Pos) : Bool :=
  decide (-(tol : Int) ≤ signedDiff candidate base) && decide (signedDiff candidate base ≤ tol)

/-- A SYNC at step 5 of R17: slip test at an UP station (R23), otherwise the latch (R22). -/
def State.handleSync (lSync : Pos) (port : Station) (s : State) (p : Port) : State :=
  match p.state, p.base with
  | .up, some base =>
    if withinSlip p.slipTol (s.bpu.T - lSync) base then s.setPort port p
    else (s.setPort port { p with base := some (s.bpu.T - lSync) }).raise .stationSlip (.station port) none
  | _, _ => s.latchBase port p lSync

/-! ### DETECT -/

/-- The rate test of R26. -/
def Port.passesRate (p : Port) : Bool := p.rate == 0 || decide (p.rateCount < p.rate)

/-- A DETECT relocated into belt coordinates (R27), with the contents it carries over (R29). -/
def relocate (port : Station) (p : Port) (base : Pos) (f : DetectFrame) : Detection where
  station := port
  X := f.lLead + base - BitVec.ofNat 32 p.D
  Xt := f.lTrail + base - BitVec.ofNat 32 p.D
  first := f.first.toNat
  last := f.last.toNat
  cls := f.cls.toNat
  conf := f.conf.toNat
  area := f.area.map (·.toNat)
  metal := f.metal.bind yesNo

/-- A detection joins the tail of the queue (R28), and HOLD is asserted when the occupancy comes to 24 (R30). -/
def Port.join (p : Port) (d : Detection) : Port :=
  { p.count (·.addAccepted) with
    queue := p.queue ++ [d]
    hold := p.hold || p.queue.length + 1 == Config.holdAt }

/-- A relocated detection is placed in the queue, or dropped where it holds 32 entries (R28). -/
def State.enqueue (s : State) (port : Station) (p : Port) (d : Detection) : State :=
  if p.queue.length < Config.queueCap then s.setPort port (p.join d)
  else (s.setPort port (p.count (·.addQueueDrop))).raise .queueDrop (.station port) none

/-- A good DETECT (R24 to R28). DESIGN CHOICE, unsafe: in CONFIG and HALTED a WAITING or SILENT station counts ACCEPTED, as
R24 has it, and not the NOBASE of the last paragraphs of R21 and R35 (entry 32). -/
def State.handleDetect (f : DetectFrame) (port : Station) (s : State) (p : Port) : State :=
  if s.running then
    match p.state, p.base with
    | .up, some base =>
      if p.passesRate then
        let p' := { p with rateCount := satAdd Config.byteMax p.rateCount 1 }
        s.enqueue port p' (relocate port p base f)
      else (s.setPort port (p.count (·.addStorm))).raise .storm (.station port) none
    | _, _ => s.setPort port (p.count (·.addNoBase))
  else s.setPort port (p.count (·.addAccepted))

/-! ### The receiver (R164) -/

/-- A SYNC frame has arrived at a port (R17). -/
def State.syncArrives (s : State) (port : Station) (f : SyncFrame) : State :=
  s.arrive port f.seq (formatOk port f.station f.check (stationCheck syncKind (syncBody f)))
    (State.handleSync f.lSync port)

/-- A DETECT frame has arrived at a port (R17). -/
def State.detectArrives (s : State) (port : Station) (f : DetectFrame) : State :=
  s.arrive port f.seq (formatOk port f.station f.check (stationCheck detectKind (detectBody f)) && contentOk f)
    (State.handleDetect f port)

/-- A kind or length the table does not allow fails the format check at once (R164), as R17 applies it. -/
def State.badFrameArrives (s : State) (port : Station) : State :=
  let p := (s.port port).hunting
  s.setPort port (if p.state = .disabled then p else p.count (·.addBadFrame))

/-- The receiver of a port with the bytes it has collected since the start mark (R164): a kind or length that does not fit
is judged at once, a whole frame arrives, and anything less is collected on. -/
def State.portCollected (s : State) (port : Station) (got : List Byte) : State :=
  let onward := s.setPort port { s.port port with rx := .collecting got }
  match got with
  | length :: kind :: rest =>
    if !stationLengthOk length kind then s.badFrameArrives port
    else if rest.length = length.toNat + 2 then
      match stationCommand port length kind (rest.take length.toNat) (lastHalf (rest.drop length.toNat)) with
      | some (.sync _ f) => s.syncArrives port f
      | some (.detect _ f) => s.detectArrives port f
      | _ => onward
    else onward
  | _ => onward

/-- One byte on a Sensor Link (R164): a hunting receiver takes a start mark and discards any other byte; a collecting one
collects it, a start mark like any other (R162). -/
def State.portByte (s : State) (port : Station) (b : Byte) : State :=
  match (s.port port).rx with
  | .hunting => if b = sensorMark then s.setPort port { s.port port with rx := .collecting [] } else s
  | .collecting got => s.portCollected port (got ++ [b])

/-- Bytes on a Sensor Link, one after another. -/
def State.portBytes (s : State) (port : Station) (bytes : List Byte) : State :=
  bytes.foldl (fun t b => t.portByte port b) s

/-- A frame on a Sensor Link: taken as the frame it is where the receiver stands at its start; its bytes go into the frame
being collected otherwise (R164; entry 4). -/
def State.portFrame (s : State) (port : Station) (bytes : List Byte) (taken : State → State) : State :=
  if (s.port port).rx.atStart then taken s else s.portBytes port bytes

/-! ### Meanings -/

/-- SYNC: a SYNC frame has arrived at a port (R17). -/
def execSync (port : Station) (f : SyncFrame) (s : State) : Host.Outcome State Fault Refusal :=
  .next (s.awake fun t =>
    t.portFrame port (stationFrame syncKind (syncBody f) f.check) fun u => u.syncArrives port f)

/-- DETECT: a DETECT frame has arrived at a port (R17). -/
def execDetect (port : Station) (f : DetectFrame) (s : State) : Host.Outcome State Fault Refusal :=
  .next (s.awake fun t =>
    t.portFrame port (stationFrame detectKind (detectBody f) f.check) fun u => u.detectArrives port f)

/-- BAD_FRAME: the start mark, length and kind of a frame; a kind or length the table does not allow fails the format check
at once (R164). Ones that fit are no bad frame: the receiver collects on (entry 23). -/
def execBadFrame (port : Station) (length kind : Byte) (s : State) : Host.Outcome State Fault Refusal :=
  .next (s.awake fun t => t.portBytes port ((t.port port).rx.incoming [sensorMark, length, kind]))

/-- PORT_START_MARK: a hunting receiver begins a frame; inside a frame the byte is ordinary data (R162, R164). -/
def execPortStartMark (port : Station) (s : State) : Host.Outcome State Fault Refusal :=
  .next (s.awake fun t => t.portByte port sensorMark)

end Sys2Proof.Machine
end

