-- ==== Sys2Proof/Machine/Assoc.lean ====
section
/-! DEFINITION. The Association Engine (chapter 4): service of the queues, the treatment of a detection, and the meaning of
ASSOC_TAKE. -/

namespace Sys2Proof.Machine

/-! ### First tests -/

/-- A detection is dust: it carries an area below MIN_AREA (R61). -/
def isDust (tr : Tracking) (d : Detection) : Bool :=
  match d.area with
  | some a => decide (a < tr.minArea)
  | none => false

/-- A detection is longer than L_MAX (R62). -/
def needsClip (tr : Tracking) (d : Detection) : Bool := decide (tr.lMax < stepsTo d.X d.Xt)

/-- A detection clipped to L_MAX where it is longer (R62). -/
def clip (tr : Tracking) (d : Detection) : Detection :=
  if needsClip tr d then { d with Xt := fwd d.X tr.lMax } else d

/-! ### Candidates -/

/-- The start of the detection's widened range (R63). -/
def wideStart (tr : Tracking) (d : Detection) : Pos := back d.X tr.assocTol
/-- The end of the detection's widened range (R63). -/
def wideEnd (tr : Tracking) (d : Detection) : Pos := fwd d.Xt tr.assocTol
/-- The first of the detection's widened lanes (R64). -/
def wideFirst (tr : Tracking) (d : Detection) : Nat := d.first - tr.laneTol
/-- The last of the detection's widened lanes (R64). -/
def wideLast (tr : Tracking) (d : Detection) : Nat := min (d.last + tr.laneTol) Config.lastLane

/-- A record passes the position test and the lane test (R63, R64). -/
def isMatch (tr : Tracking) (d : Detection) (r : Record) : Bool :=
  rangesMeet r.X r.Xt (wideStart tr d) (wideEnd tr d) && lanesMeet r.first r.last (wideFirst tr d) (wideLast tr d)

/-- The position overlap of a match (R63). -/
def posOverlap (tr : Tracking) (d : Detection) (r : Record) : Nat :=
  stepsTo (aheadMost r.X (wideStart tr d)) (behindMost r.Xt (wideEnd tr d)) + 1

/-- The lane overlap of a match (R64). -/
def laneOverlap (tr : Tracking) (d : Detection) (r : Record) : Nat :=
  min r.last (wideLast tr d) + 1 - max r.first (wideFirst tr d)

/-- The overlap of a candidate (R71). -/
def overlap (tr : Tracking) (d : Detection) (r : Record) : Nat := posOverlap tr d r * laneOverlap tr d r

/-- The matches of a detection, in belt order (R64). -/
def State.matchesOf (s : State) (d : Detection) : List Live :=
  s.ft.live.filter fun l => isMatch s.tracking d l.record

/-- The candidates: matches in OPEN or DECIDED, in belt order (R64). -/
def State.candidates (s : State) (d : Detection) : List Live :=
  (s.matchesOf d).filter fun l => l.record.st.takesEvidence

/-- Some match is past its freeze point (R64). -/
def State.hasFrozen (s : State) (d : Detection) : Bool :=
  (s.matchesOf d).any fun l => !l.record.st.takesEvidence

/-- The candidate with the largest overlap, the first in belt order between equals (R71). -/
def bestOf (tr : Tracking) (d : Detection) (c : Live) : List Live → Live
  | [] => c
  | x :: xs => if overlap tr d c.record < overlap tr d x.record then bestOf tr d x xs else bestOf tr d c xs

/-! ### No candidate -/

/-- The detection's would-be freeze point is at or behind T (R65). -/
def State.pastFreeze (s : State) (d : Detection) : Bool :=
  match s.freezePoint d.X with
  | some p => atOrBehind p s.bpu.T
  | none => false

/-- A late detection (R65): LATE counted at its port, LATE_EVIDENCE raised. -/
def State.countLate (s : State) (d : Detection) : State :=
  (s.setPort d.station ((s.port d.station).count (·.addLate))).raise .lateEvidence (.station d.station) none

/-- The evidence entry made from a detection (R66). -/
def Detection.entry (d : Detection) : Entry := ⟨d.cls, d.conf, d.area, d.metal⟩

/-- The record a detection makes (R45): its bank is set at creation. -/
def newRecord (d : Detection) (clipped : Bool) : Record where
  st := .opened
  X := d.X
  Xt := d.Xt
  first := d.first
  last := d.last
  bank := .a
  evidence := (⟨none, none, none, none⟩ : PerStation (Option Entry)).set d.station (some d.entry)
  flags := { Flags.none with clipped }
  ovr := none

/-- A new record from a detection (R66), decided at once where its decision point is overdue (R43); TABLE_FULL where no
slot is free (R47). -/
def State.makeRecord (s : State) (d : Detection) (clipped : Bool) : State :=
  match s.create (newRecord d clipped) with
  | some (slot, s') => (s'.takeOverdue slot).settle
  | none => s.raise .tableFull (.station d.station) none

/-- A detection treated as having no candidate (R65, R66); in DRAINING no record is made. -/
def State.noCandidate (s : State) (d : Detection) (clipped frozen : Bool) : State :=
  if frozen || s.pastFreeze d then s.countLate d
  else if s.lc.mode = .run then s.makeRecord d clipped
  else s

/-! ### One candidate -/

/-- The area of an entry, an absent one counting as 0 (R68). -/
def Entry.size (e : Entry) : Nat := e.area.getD 0

/-- Of the entry held and a later one, the entry kept: the later only with the greater area (R68, R70). -/
def keepLarger (held later : Option Entry) : Option Entry :=
  match held, later with
  | none, e => e
  | some h, none => some h
  | some h, some e => if h.size < e.size then some e else some h

/-- The evidence with the detection's entry added at its station's place, or kept against the one there (R67, R68). -/
def addEvidence (ev : PerStation (Option Entry)) (d : Detection) : PerStation (Option Entry) :=
  ev.set d.station (keepLarger (ev.get d.station) (some d.entry))

/-- The union of a record and a detection fits within L_MAX (R67). -/
def unionFits (tr : Tracking) (r : Record) (d : Detection) : Bool :=
  decide (stepsTo (behindMost r.X d.X) (aheadMost r.Xt d.Xt) ≤ tr.lMax)

/-- A record with a detection attached (R67, R68). -/
def attached (r : Record) (d : Detection) (clipped : Bool) : Record :=
  { r with
    X := behindMost r.X d.X
    Xt := aheadMost r.Xt d.Xt
    first := min r.first d.first
    last := max r.last d.last
    evidence := addEvidence r.evidence d
    flags := { r.flags with clipped := r.flags.clipped || clipped } }

/-- The end of a treatment at a record (R72): a DECIDED record is re-decided, and its overdue points are taken. -/
def State.complete (s : State) (slot : Nat) (redecide : Bool) : State :=
  let s' := if redecide then s.modRecord slot (decideRecord s) else s
  (s'.takeOverdue slot).settle

/-- The record is DECIDED. -/
def RecState.isDecided : RecState → Bool
  | .decided _ _ => true
  | _ => false

/-- A detection given to one candidate (R67, R68, R71). -/
def State.giveTo (s : State) (d : Detection) (clipped frozen : Bool) (c : Live) : State :=
  if unionFits s.tracking c.record d then
    State.complete { s with ft := s.ft.placeRecord c.slot (attached c.record d clipped) } c.slot c.record.st.isDecided
  else s.noCandidate d clipped frozen

/-! ### Two or more candidates -/

/-- Every candidate names the bank of the first (R69). -/
def sameBank (c : Live) (cs : List Live) : Bool := cs.all fun x => x.record.bank == c.record.bank

/-- The union of all the candidates and the detection: X and X_t (R69). -/
def mergedX (d : Detection) (cs : List Live) : Pos := cs.foldl (fun x l => behindMost x l.record.X) d.X
/-- The ahead-most X_t of the union (R69). -/
def mergedXt (d : Detection) (cs : List Live) : Pos := cs.foldl (fun x l => aheadMost x l.record.Xt) d.Xt

/-- The entry a merge keeps for a station (R70): the greatest area; on equal areas the survivor's first, then the other
candidates' in belt order, and the detection's last. -/
def mergedEntry (cs : List Live) (d : Detection) (p : Station) : Option Entry :=
  keepLarger (cs.foldl (fun e l => keepLarger e (l.record.evidence.get p)) none)
    (if d.station = p then some d.entry else none)

/-- The survivor of a merge of candidates `c :: cs` (R70); `c` stands first in belt order. Its state is left OPEN, for the
re-decision to write where any candidate was DECIDED. -/
def merged (d : Detection) (clipped : Bool) (c : Live) (cs : List Live) : Record where
  st := .opened
  X := mergedX d (c :: cs)
  Xt := mergedXt d (c :: cs)
  first := cs.foldl (fun n l => min n l.record.first) (min c.record.first d.first)
  last := cs.foldl (fun n l => max n l.record.last) (max c.record.last d.last)
  bank := c.record.bank
  evidence := ⟨mergedEntry (c :: cs) d .s0, mergedEntry (c :: cs) d .s1, mergedEntry (c :: cs) d .s2,
    mergedEntry (c :: cs) d .s3⟩
  flags :=
    let f := cs.foldl (fun f l => f.union l.record.flags) c.record.flags
    { f with merged := true, clipped := f.clipped || clipped }
  ovr := ((c :: cs).findSome? fun l => l.record.ovr)

/-- One record absorbed (R55). -/
def State.absorbPart (s : State) : AdvancePart → State
  | .silence _ => s
  | .point slot => s.absorb slot

/-- The candidates are merged (R69, R70): the others absorbed (R55), each slot going to the tail of the free list in the
free order of entry 8, since the manual gives none; the survivor completed (R72). -/
def State.merge (s : State) (d : Detection) (clipped : Bool) (c : Live) (cs : List Live) : State :=
  let s0 := { s with draws := s.draws + 1 }
  let s1 := (orderParts s.draws (cs.map fun l => .point l.slot)).foldl State.absorbPart s0
  State.complete { s1 with ft := s1.ft.placeRecord c.slot (merged d clipped c cs) } c.slot
    ((c :: cs).any fun l => l.record.st.isDecided)

/-- The candidates may be merged (R69). -/
def canMerge (tr : Tracking) (d : Detection) (c : Live) (cs : List Live) : Bool :=
  sameBank c cs && decide (stepsTo (mergedX d (c :: cs)) (mergedXt d (c :: cs)) ≤ tr.lMax)

/-! ### The treatment -/

/-- A clipped or unclipped detection matched and treated (R64 to R71). -/
def State.matchAndTreat (s : State) (d : Detection) (clipped : Bool) : State :=
  let frozen := s.hasFrozen d
  match s.candidates d with
  | [] => s.noCandidate d clipped frozen
  | [c] => s.giveTo d clipped frozen c
  | c :: cs =>
    if canMerge s.tracking d c cs then s.merge d clipped c cs
    else s.giveTo d clipped frozen (bestOf s.tracking d c cs)

/-- The treatment of a detection, one event (R60): dust (R61), length (R62), then the match. -/
def State.treat (s : State) (d : Detection) : State :=
  if isDust s.tracking d then s.setPort d.station ((s.port d.station).count (·.addDust))
  else s.matchAndTreat (clip s.tracking d) (needsClip s.tracking d)

/-! ### Service of the queues -/

/-- The ports in the order of the search from the service pointer (R59). -/
def searchOrder (p : Station) : List Station :=
  [p, nextStation p, nextStation (nextStation p), nextStation (nextStation (nextStation p))]

/-- The port served at the next take: the first in the search whose queue holds an entry (R59). -/
def State.served (s : State) : Option Station :=
  (searchOrder s.ae.pointer).find? fun p => !(s.port p).queue.isEmpty

/-- A port whose head entry has been removed (R29); HOLD is released where the occupancy comes to 8 or fewer (R30). -/
def Port.removeHead (p : Port) : Port :=
  { p with
    queue := p.queue.tail
    hold := p.hold && decide (Config.releaseAt < p.queue.tail.length) }

/-- The take of the head entry of a port and its treatment (R58, R59). -/
def State.take (s : State) (p : Station) : State :=
  match (s.port p).queue with
  | [] => s
  | d :: _ =>
    let s1 := { (s.setPort p (s.port p).removeHead) with ae := { pointer := nextStation p, free := false } }
    let s2 := s1.treat d
    { s2 with ae := { s2.ae with free := true } }

/-- The engine may take an entry: RUN or DRAINING, free, and a queue holds one (R58). -/
def State.canTake (s : State) : Bool := s.running && s.ae.free && s.served.isSome

/-- ASSOC_TAKE (R58). -/
def execAssocTake (s : State) : Host.Outcome State Fault Refusal :=
  .next (s.awake fun t =>
    if t.running && t.ae.free then
      match t.served with
      | some p => t.take p
      | none => t
    else t)

end Sys2Proof.Machine
end

