-- ==== Sys2Proof/Machine/BarEvents.lean ====
section
/-! DEFINITION. The events of the bars (chapter 8): the meanings of MAXON_CUT, COOLING_END, VALVE_FRAME_START,
VALVE_FRAME_END, REFRESH_EXPIRY, DRIVER_FAULT and FAULT_LINE_INACTIVE. -/

namespace Sys2Proof.Machine

/-- MAXON_CUT: an OPEN nozzle is cut (R125); a nozzle that is not OPEN has no counter running, and nothing happens
(R131; entries 2 and 3). -/
def execMaxonCut (b : Bar) (n : Fin 160) (s : State) : Host.Outcome State Fault Refusal :=
  .next (s.awake fun t =>
    if ((t.bar b).nozzle n).st = .opened then t.setBar b ((t.bar b).cut n) else t)

/-- COOLING_END: a COOLING nozzle becomes CLOSED and its open condition is evaluated at once (R126); at another nozzle
nothing happens (R131). The cooling timer, which no longer counts, stands at 0 (entry 31). -/
def execCoolingEnd (b : Bar) (n : Fin 160) (s : State) : Host.Outcome State Fault Refusal :=
  .next (s.awake fun t =>
    let u := t.bar b
    if (u.nozzle n).st = .cooling then
      let u' := u.modNozzle n fun z => { z with st := .closed, cool := 0 }
      t.setBar b (u'.evalWhere (fun k => k == n.val) (t.barOpen u') t.bpu.T)
    else t)

/-- VALVE_FRAME_START: a frame owed on an idle Valve Bus starts (R128). -/
def execValveFrameStart (b : Bar) (s : State) : Host.Outcome State Fault Refusal :=
  .next (s.awake fun t => t.setBar b (t.bar b).startIfOwed)

/-- VALVE_FRAME_END: the frame being sent ends, and a frame owed starts at once (R128; entry 17). -/
def execValveFrameEnd (b : Bar) (s : State) : Host.Outcome State Fault Refusal :=
  .next (s.awake fun t =>
    let u := t.bar b
    if u.bus.sending.isSome then t.setBar b (BarUnit.startIfOwed { u with bus := { u.bus with sending := none } }) else t)

/-- REFRESH_EXPIRY: the refresh timer has run its period, and a frame is owed (R129). -/
def execRefreshExpiry (b : Bar) (s : State) : Host.Outcome State Fault Refusal :=
  .next (s.awake fun t =>
    let u := t.bar b
    t.setBar b { u with bus := { u.bus with owed := true, refresh := Config.refreshUs } })

/-- The ARMED records of a bar, in belt order. -/
def State.armedAt (s : State) (b : Bar) : List Nat :=
  (s.ft.live.filter fun l =>
    match l.record.st.schedule with
    | some sch => sch.bar == b
    | none => false).map (·.slot)

/-- An ARMED record dropped by the fault of its bar (R52, R119): PASSING with DROPPED, and retired at once where its retire
line is at or behind T in RUN or DRAINING. -/
def State.dropArmed (s : State) : AdvancePart → State
  | .silence _ => s
  | .point slot =>
    match s.ft.find slot with
    | none => s
    | some r =>
      match r.st with
      | .armed v sch => (s.setRecState slot (.passing v (.bar sch.bar) .dropped)).takeOverdue slot
      | _ => s

/-- A READY bar is found faulted (R119): nozzles close, intervals go, its ARMED records are dropped (in the free order of
entry 8), DRIVER_FAULT is raised; where the last retirement completes a drain, the mode has changed and the nozzles are
evaluated (R122). -/
def State.faultBar (s : State) (b : Bar) : State :=
  let s1 := { (s.setBar b (s.bar b).faultNow) with draws := s.draws + 1 }
  let s2 := (orderParts s.draws ((s.armedAt b).map .point)).foldl State.dropArmed s1
  (s2.raise .driverFault (.bar b) none).settleFrom s

/-- DRIVER_FAULT: the fault line of a bar becomes active; a READY bar is faulted, any other is not touched (R119). The
line stands on the pin in reset too (R132). -/
def execDriverFault (b : Bar) (s : State) : Host.Outcome State Fault Refusal :=
  let s1 := { s with pins := { s.pins with faultLines := s.pins.faultLines.set b true } }
  .next (s1.awake fun t => if (t.bar b).state = .ready then t.faultBar b else t)

/-- FAULT_LINE_INACTIVE: the line goes inactive and changes nothing by itself (R119). -/
def execFaultLineInactive (b : Bar) (s : State) : Host.Outcome State Fault Refusal :=
  .next { s with pins := { s.pins with faultLines := s.pins.faultLines.set b false } }

end Sys2Proof.Machine
end

