-- ==== Sys2Proof/Machine/Belt.lean ====
section
/-! DEFINITION. The Belt Position Unit (chapter 1): the encoder, the step divider, T advances, the Line Clock, the speed
window, stall and guard; and the meanings of ENCODER_TRANSITION, LCLK_PULSE_START, LCLK_PULSE_END and WINDOW_END. -/

namespace Sys2Proof.Machine

/-! ### A T advance -/

/-- The BPU at a T advance (R3, R7, R9): P and T advance together, a pulse is owed, the window counts the advance. -/
def Bpu.advance (b : Bpu) : Bpu :=
  { b with
    P := b.P + 1
    T := b.T + 1
    owed := satAdd Config.byteMax b.owed 1
    windowCount := satAdd Config.halfMax b.windowCount 1 }

/-- A T advance ends a stall (R12). -/
def State.endStall (s : State) : State :=
  if s.bpu.stalled then
    State.raise { s with bpu := { s.bpu with stalled := false, Z := 0, G := 0 } } .beltMoving .none none
  else s

/-- A port at a T advance: the silence count of an UP station goes up by one (R21), and a new block of 256 steps sets the
rate count to 0 (R26). -/
def Port.advance (T : Pos) (p : Port) : Port :=
  { p with
    silence := if p.state = .up then satAdd Config.halfMax p.silence 1 else p.silence
    rateCount := if T.toNat % 256 = 0 then 0 else p.rateCount }

/-- The station is UP and its silence count stands at or above SILENT_STEPS (R21). -/
def Port.fallsSilent (p : Port) : Bool := p.state == .up && decide (p.silentSteps ≤ p.silence)

/-- A station goes SILENT (R21). -/
def State.goSilent (s : State) (p : Station) : State :=
  if (s.port p).fallsSilent then
    (s.setPort p { s.port p with state := .silent }).raise .stationSilent (.station p) none
  else s

/-- The parts of this T advance: stations that fall silent, and live records whose awaited point T has reached. -/
def State.advanceParts (s : State) : List AdvancePart :=
  ((stations.filter fun p => (s.port p).fallsSilent).map .silence) ++
    (if s.running then (s.ft.live.filter fun l => s.reaches l.record).map fun l => .point l.slot else [])

/-- One part is taken. -/
def State.takePart (s : State) : AdvancePart → State
  | .silence p => s.goSilent p
  | .point slot => s.takeReached slot

/-- The parts of this T advance are taken, each whole, in the free order (R43; entry 8). -/
def State.takeParts (s : State) : State :=
  let parts := orderParts s.draws s.advanceParts
  parts.foldl State.takePart { s with draws := s.draws + 1 }

/-- A pending switch takes effect when T reaches its coordinate (R97). -/
def State.switchIfReached (s : State) : State :=
  match s.banks.pendingSwitch with
  | some sw =>
    if sw.c = s.bpu.T then
      State.raise { s with banks := { s.banks with active := sw.target, pendingSwitch := none } } .bankSwitched .none
        none
    else s
  | none => s

/-- A T advance, delivered to every block (R6); the nozzles are evaluated at the new T (R122). -/
def State.advance (s : State) : State :=
  let s1 := State.endStall { s with bpu := s.bpu.advance }
  let s2 := { s1 with ports := s1.ports.map (Port.advance s1.bpu.T) }
  s2.takeParts.switchIfReached.settle

/-! ### Steps and counts -/

/-- A forward step of P (R3): a T advance where P equals T, otherwise a step of recovery. -/
def State.forwardStep (s : State) : State :=
  if s.bpu.P = s.bpu.T then s.advance
  else State.settle { s with bpu := { s.bpu with P := s.bpu.P + 1 } }

/-- A reverse step of P (R3), with the halt of R8. -/
def State.reverseStep (s : State) : State :=
  let s1 := { s with bpu := { s.bpu with P := s.bpu.P - 1 } }
  let s2 := if s1.bpu.revMax < s1.bpu.depth then s1.halt else s1
  s2.settle

/-- A forward count (R2). -/
def State.forwardCount (s : State) : State :=
  if s.bpu.sub + 1 = s.bpu.encDiv then State.forwardStep { s with bpu := { s.bpu with sub := 0 } }
  else { s with bpu := { s.bpu with sub := s.bpu.sub + 1 } }

/-- A reverse count (R2); one that would take the depth beyond 2^20 − 1 is not taken (R4). -/
def State.reverseCount (s : State) : State :=
  if 0 < s.bpu.sub then { s with bpu := { s.bpu with sub := s.bpu.sub - 1 } }
  else if Config.maxDepth < s.bpu.depth + 1 then s
  else State.reverseStep { s with bpu := { s.bpu with sub := s.bpu.encDiv - 1 } }

/-- The phase of a pair of levels (1.1). -/
def Levels.phase : Levels → Nat
  | ⟨false, false⟩ => 0
  | ⟨true, false⟩ => 1
  | ⟨true, true⟩ => 2
  | ⟨false, true⟩ => 3

/-- The decoder acts on a pair of levels (R1); the new phase becomes the reference in every case. -/
def State.decodeLevels (s : State) (l : Levels) : State :=
  let s1 := { s with bpu := { s.bpu with ref := l } }
  match (l.phase + 4 - s.bpu.ref.phase) % 4 with
  | 0 => s
  | 1 => if l.phase = 0 then s1.forwardCount else s1
  | 3 => if l.phase = 3 then s1.reverseCount else s1
  | _ => { s1 with bpu := { s1.bpu with encErr := satAdd Config.halfMax s.bpu.encErr 1 } }

/-! ### The end of a window -/

/-- The history with a count at its newest end (R9). -/
def History.shift (h : History) (count : Nat) : History := ⟨h.older, h.newer, h.newest, count⟩

/-- V, the sum of the four counts, saturating (R10). -/
def History.speed (h : History) : Nat := min (h.oldest + h.older + h.newer + h.newest) Config.halfMax

/-- The stall count after a window (R11). -/
def nextZ (z count : Nat) : Nat := if count = 0 then satAdd Config.byteMax z 1 else 0

/-- The window end declares a stall (R11). -/
def Bpu.declaresStall (b : Bpu) : Bool := !b.stalled && decide (b.stallW ≤ nextZ b.Z b.windowCount)

/-- The window end counts toward the guard: empty, already stalled, latch set, RUN or DRAINING (R14). -/
def State.guardCounts (s : State) : Bool :=
  s.bpu.windowCount == 0 && s.bpu.stalled && s.bpu.guard && s.running

/-- Steps 1 to 3 of the window end, and step 5 (R9): history, V, stall count, next window. -/
def Bpu.closeWindow (b : Bpu) : Bpu :=
  { b with
    history := b.history.shift b.windowCount
    V := (b.history.shift b.windowCount).speed
    Z := nextZ b.Z b.windowCount
    stalled := b.stalled || b.declaresStall
    windowCount := 0
    windowTime := 0 }

/-- STALL raised where the window end declares one (R11). -/
def State.reportStall (s : State) (declared : Bool) : State :=
  if declared then s.raise .stall .none none else s

/-- Step 4 of the window end: the guard countdown, and the halt at its expiry (R14). -/
def State.countGuard (s : State) (counts : Bool) : State :=
  if counts then
    let g := satAdd Config.byteMax s.bpu.G 1
    let s1 := { s with bpu := { s.bpu with G := g } }
    if s.bpu.guardW ≤ g then s1.halt else s1
  else s

/-- The end of a speed window (R9). -/
def State.endWindow (s : State) : State :=
  let s1 := { s with bpu := s.bpu.closeWindow }
  ((s1.reportStall s.bpu.declaresStall).countGuard s.guardCounts).settleFrom s

/-! ### Meanings -/

/-- ENCODER_TRANSITION: the levels stand on the pins, and outside reset the decoder acts on them (R1). -/
def execEncoderTransition (a b : Bool) (s : State) : Host.Outcome State Fault Refusal :=
  let s1 := { s with pins := { s.pins with levels := ⟨a, b⟩ } }
  .next (s1.awake fun t => t.decodeLevels ⟨a, b⟩)

/-- LCLK_PULSE_START: while a pulse is owed and the line is low, LCLK goes high (R7). -/
def execLclkPulseStart (s : State) : Host.Outcome State Fault Refusal :=
  .next (s.awake fun t =>
    if 0 < t.bpu.owed ∧ t.bpu.lclk = false then { t with bpu := { t.bpu with lclk := true, lclkHeld := 0 } } else t)

/-- LCLK_PULSE_END: LCLK goes low and the pulse is no longer owed (R7). -/
def execLclkPulseEnd (s : State) : Host.Outcome State Fault Refusal :=
  .next (s.awake fun t =>
    if t.bpu.lclk = true then
      { t with bpu := { t.bpu with lclk := false, lclkHeld := 0, owed := t.bpu.owed - 1 } }
    else t)

/-- WINDOW_END (R9). -/
def execWindowEnd (s : State) : Host.Outcome State Fault Refusal := .next (s.awake State.endWindow)

end Sys2Proof.Machine
end

