-- ==== Sys2Proof/Machine/Clock.lean ====
section
/-! DEFINITION. The part's own clock (entry 1): the events due by themselves, and one microsecond of time. What step does
on an empty queue is made of these. -/

namespace Sys2Proof.Machine

/-! ### Events due -/

/-- The event of one nozzle that is due: MAXON for an OPEN one (R125), MINOFF for a COOLING one (R126). A timer that stands
beyond its value, as a SET_BAR with a smaller MINOFF may leave it, is due at once (entry 30). -/
def nozzleDue (b : Bar) (u : BarUnit) (n : Fin 160) : Option Instr :=
  match (u.nozzle n).st with
  | .opened => if u.settings.maxon ≤ (u.nozzle n).onTime then some (.maxonCut b n) else none
  | .cooling => if u.settings.minoff ≤ (u.nozzle n).cool then some (.coolingEnd b n) else none
  | .closed => none

/-- The events of a bar's nozzles that are due. -/
def nozzlesDue (b : Bar) (u : BarUnit) : List Instr := (List.finRange 160).filterMap (nozzleDue b u)

/-- The refresh timer of a bar has run its period since its last frame started (R129). -/
def Bus.expired (x : Bus) : Bool := decide (Config.refreshUs ≤ x.refresh)

/-- An owed frame of a bar starts at once on an idle bus (R128). One that the refresh timer has made due waits for the
changes that are due together with its expiry, `changes` standing for them, so that one frame carries the state after
them (R129). -/
def frameDue (b : Bar) (u : BarUnit) (changes : List Instr) : List Instr :=
  if u.bus.owed && u.bus.sending.isNone && !(u.bus.expired && !changes.isEmpty) then [.valveFrameStart b] else []

/-- The events of one bar that are due, `line` standing for those of the line that may change its nozzles: its owed frame,
the refresh timer at its period while no frame is owed (R129), and its nozzles' events. -/
def barDue (b : Bar) (u : BarUnit) (line : List Instr) : List Instr :=
  frameDue b u (line ++ nozzlesDue b u) ++ (if u.bus.expired && !u.bus.owed then [.refreshExpiry b] else []) ++
    nozzlesDue b u

/-- The events of the Line Clock that are due (R7). DESIGN CHOICE, unsafe: R7 asks for at least 1 microsecond low between
owed pulses, and the next owed pulse is due as soon as that one microsecond has passed (entry 33). -/
def lclkDue (b : Bpu) : List Instr :=
  (if !b.lclk && decide (0 < b.owed) && decide (1 ≤ b.lclkHeld) then [.lclkPulseStart] else []) ++
    (if b.lclk && decide (1 ≤ b.lclkHeld) then [.lclkPulseEnd] else [])

/-- The events of the line that are due and may change the nozzles of any bar: the end of a speed window (R9) and a take of
the Association Engine (R58). -/
def State.lineDue (s : State) : List Instr :=
  (if Config.windowUs ≤ s.bpu.windowTime then [.windowEnd] else []) ++ (if s.canTake then [.assocTake] else [])

/-- Every event of the part that is due by itself. -/
def State.dueEvents (s : State) : List Instr :=
  if s.pins.inReset then []
  else
    lclkDue s.bpu ++ s.lineDue ++
      (barDue .bar0 s.bars.bar0 s.lineDue ++ barDue .bar1 s.bars.bar1 s.lineDue ++ barDue .bar2 s.bars.bar2 s.lineDue)

/-- The due event that is taken: the only one there is, or a free choice among several (entry 9). -/
def chooseDue (draw : Nat) : List Instr → Option Instr
  | [] => none
  | [c] => some c
  | cs => cs[Config.pick draw % cs.length]?

/-! ### One microsecond -/

/-- A nozzle one microsecond later: the on-time counter of an OPEN nozzle and the cooling timer of a COOLING nozzle count
(R125, R126). -/
def Nozzle.tick (n : Nozzle) : Nozzle :=
  match n.st with
  | .opened => { n with onTime := n.onTime + 1 }
  | .cooling => { n with cool := n.cool + 1 }
  | .closed => n

/-- A bar one microsecond later: the refresh timer runs to its period (R129). -/
def BarUnit.tick (u : BarUnit) : BarUnit :=
  { u with
    nozzles := u.nozzles.map Nozzle.tick
    bus := { u.bus with refresh := satAdd Config.refreshUs u.bus.refresh 1 } }

/-- The BPU one microsecond later (R7, R9). -/
def Bpu.tick (b : Bpu) : Bpu :=
  { b with
    windowTime := satAdd Config.windowUs b.windowTime 1
    lclkHeld := satAdd 1 b.lclkHeld 1 }

/-- The part one microsecond later; no time runs while it is held in reset, since the timers start at release (R9, R129). -/
def State.tick (s : State) : State :=
  s.awake fun t => { t with bpu := t.bpu.tick, bars := t.bars.map BarUnit.tick }

end Sys2Proof.Machine
end

