-- ==== Sys2Proof/Machine/Link.lean ====
section
/-! DEFINITION. The Supervisor Link's handling of frames (R133 to R137): one request at a time, the reply queue. -/

namespace Sys2Proof.Machine

/-- What carrying out a request gives: the state after it, the reply code and the body of the reply (R137). -/
abbrev Answer := State × ReplyCode × ReplyBody

/-- A refused request changes nothing and its reply carries no body (R137). -/
def refuse (s : State) (code : ReplyCode) : Answer := (s, code, .empty)

/-- An accepted request without a body in its reply. -/
def done (s : State) : Answer := (s, .ok, .empty)

/-- A BUSY or framing reply finds a place: 16 frames, and while the request in progress awaits its own reply the last place
is kept for that (R136). -/
def Link.hasRoom (l : Link) : Bool :=
  match l.inProgress with
  | some ⟨_, false⟩ => decide (l.replies.length < Config.replyCap - 1)
  | _ => decide (l.replies.length < Config.replyCap)

/-- The receiving side goes back to hunting (R133). -/
def Link.hunting (l : Link) : Link := { l with rx := .hunting }

/-- A BUSY or framing reply joins the tail of the queue, where it finds a place (R134, R135, R136). -/
def Link.answer (l : Link) (kind : Byte) (code : ReplyCode) : Link :=
  if l.hasRoom then { l with replies := l.replies ++ [⟨kind, code, .empty, false⟩] } else l

/-- A frame that is answered and handed to no block (R134, R135). -/
def State.frameReply (s : State) (kind : Byte) (code : ReplyCode) : State :=
  { s with link := s.link.hunting.answer kind code }

/-- The reply of the request in progress is formed and joins the tail of the queue (R136, R137). -/
def Link.form (l : Link) (kind : Byte) (code : ReplyCode) (body : ReplyBody) : Link :=
  { l with inProgress := some ⟨kind, true⟩, replies := l.replies ++ [⟨kind, code, body, true⟩] }

/-- The link with a request taken up as the request in progress (R135). -/
def Link.takeUp (l : Link) (kind : Byte) : Link := { l.hunting with inProgress := some ⟨kind, false⟩ }

/-- The request in progress is carried out as one event and its reply is formed at that event (R137). -/
def State.carryOut (s : State) (kind : Byte) (op : State → Answer) : State :=
  let a := op { s with link := s.link.takeUp kind }
  { a.1 with link := a.1.link.form kind a.2.1 a.2.2 }

/-- A well-formed request is taken (R135, R136): BUSY while another is in progress; not carried out and without reply where
the queue is full; otherwise carried out. -/
def State.takeRequest (s : State) (kind : Byte) (op : State → Answer) : State :=
  match s.link.inProgress with
  | some _ => s.frameReply kind .busy
  | none =>
    if s.link.replies.length < Config.replyCap then s.carryOut kind op
    else { s with link := s.link.hunting }

end Sys2Proof.Machine
end

