-- ==== Sys2Proof/Machine/BankRequests.lean ====
section
/-! DEFINITION. The requests of the Recipe Banks (chapter 6): WRITE_CLASSMAP (R92, R93), WRITE_DESTINATIONS (R92, R94),
READ_BANK (R95), SWITCH_BANK (R96). -/

namespace Sys2Proof.Machine

/-- A switch to the bank is pending (R92). -/
def Banks.switchTo (rb : Banks) (k : Bank) : Bool :=
  match rb.pendingSwitch with
  | some sw => sw.target == k
  | none => false

/-- Steps 3 to 5 of a bank write: why the bank is locked, if it is (R92). -/
def Banks.locked (rb : Banks) (k : Bank) : Option ReplyCode :=
  if rb.active = k then some .bankActive
  else if rb.switchTo k then some .pending
  else if 0 < rb.refs.get k then some .bankBusy
  else none

/-- A change of a bank's contents. -/
def State.modBank (s : State) (k : Bank) (f : BankData → BankData) : State :=
  { s with banks := { s.banks with data := s.banks.data.set k (f (s.banks.data.get k)) } }

/-- A bank write, in the order of R92: mode, ranges, lock, write. `change` is none where a value is out of range. -/
def writeBank (bank : Byte) (change : Option (BankData → BankData)) (s : State) : Answer :=
  if s.lc.mode = .halted then refuse s .wrongMode
  else
    match bankOf bank, change with
    | some k, some f =>
      match s.banks.locked k with
      | some code => refuse s code
      | none => done (s.modBank k f)
    | _, _ => refuse s .badValue

/-- A run of entries written over a row, the first at index `at_`; the others stay as they were (R93). -/
def overwrite (row : List ClassEntry) (at_ : Nat) (run : List ClassEntry) : List ClassEntry :=
  row.take at_ ++ run ++ row.drop (at_ + run.length)

/-- A bank with a run of one station's Class Map replaced (R93). -/
def BankData.writeClassmap (d : BankData) (p : Station) (first : Nat) (run : List ClassEntry) : BankData :=
  { d with classMap := d.classMap.set p (overwrite (d.classMap.get p) first run) }

/-- The change a WRITE_CLASSMAP asks for, where every value is in range (R93). -/
def classmapChange (station first : Byte) (entries : List ClassRow) : Option (BankData → BankData) :=
  match stationOf station, classRunOf first entries with
  | some p, some run => some fun d => d.writeClassmap p first.toNat run
  | _, _ => none

/-- WRITE_CLASSMAP carried out (R92, R93). -/
def writeClassmapOp (bank station first : Byte) (entries : List ClassRow) (s : State) : Answer :=
  writeBank bank (classmapChange station first entries) s

/-- WRITE_DESTINATIONS carried out (R92, R94): the whole table and the thresholds are replaced. -/
def writeDestinationsOp (r : DestinationsRequest) (s : State) : Answer :=
  writeBank r.bank ((destTableOf r).map fun table d => { d with table }) s

/-- A section of a bank: S0 to S3 are 0 to 3 and DESTINATIONS is 4 (R95, R162). -/
def sectionOf (d : BankData) (sect : Byte) : Option ReplyBody :=
  match sect.toNat with
  | 0 => some (.classMap d.classMap.s0)
  | 1 => some (.classMap d.classMap.s1)
  | 2 => some (.classMap d.classMap.s2)
  | 3 => some (.classMap d.classMap.s3)
  | 4 => some (.destinations d.table)
  | _ => none

/-- READ_BANK carried out (R95). -/
def readBankOp (bank sect : Byte) (s : State) : Answer :=
  match bankOf bank with
  | some k =>
    match sectionOf (s.banks.data.get k) sect with
    | some body => (s, .ok, body)
    | none => refuse s .badValue
  | none => refuse s .badValue

/-- A switch coordinate lies 1 to 2^20 − 1 steps ahead of T (R96). -/
def coordinateOk (T c : Pos) : Bool := decide (1 ≤ stepsTo T c) && decide (stepsTo T c < Config.span)

/-- SWITCH_BANK carried out (R96). -/
def switchBankOp (target : Byte) (c : Pos) (s : State) : Answer :=
  if s.lc.mode = .halted then refuse s .wrongMode
  else
    match bankOf target with
    | none => refuse s .badValue
    | some k =>
      if k = s.banks.active then refuse s .badValue
      else if s.banks.pendingSwitch.isSome then refuse s .pending
      else if s.lc.mode = .config then done { s with banks := { s.banks with active := k } }
      else if coordinateOk s.bpu.T c then
        done { s with banks := { s.banks with pendingSwitch := some { target := k, c } } }
      else refuse s .badValue

end Sys2Proof.Machine
end

