-- ==== Sys2Proof/Machine/BarRequests.lean ====
section
/-! DEFINITION. The requests of the Arming Unit and the Valve Bars: SET_BAR (R99), SET_ZONE (R102), ENABLE_BAR (R120). -/

namespace Sys2Proof.Machine

/-- The bar state after SET_BAR has written `enabled`, before the fault line is looked at (R99). -/
def barStateAfter (before : BarState) (enabled : Bool) : BarState :=
  match before, enabled with
  | .disabled, true => .ready
  | .ready, true => .ready
  | .faulted, true => .faulted
  | _, false => .disabled

/-- A bar that is READY while its fault line is active is faulted in the same event (R118, R119). -/
def State.faultIfActive (s : State) (b : Bar) : State :=
  if (s.bar b).state = .ready ∧ s.pins.faultLines.get b = true then s.faultBar b else s

/-- A bar's settings written and its state changed (R99); the open condition of its nozzles is evaluated (R122). -/
def State.configureBar (s : State) (b : Bar) (st : BarSettings) : State :=
  let u := { s.bar b with settings := st, state := barStateAfter (s.bar b).state st.enabled }
  (s.setBar b (u.evalAll (s.barOpen u) s.bpu.T)).faultIfActive b

/-- SET_BAR carried out (R99): the mode, then the values (entry 15). -/
def setBarOp (r : BarRequest) (s : State) : Answer :=
  if s.lc.mode ≠ .config then refuse s .wrongMode
  else
    match barOf r.bar, settingsOf r with
    | some b, some st => done (s.configureBar b st)
    | _, _ => refuse s .badValue

/-- SET_ZONE carried out (R102): the mode, then the values (entry 15); the reply gives FIRED as it stood before. -/
def setZoneOp (r : ZoneRequest) (s : State) : Answer :=
  if s.lc.mode = .halted then refuse s .wrongMode
  else
    match barOf r.bar, zoneOf r with
    | some b, some z =>
      match (s.bar b).zones[r.zone.toNat]? with
      | some old => (s.setBar b { s.bar b with zones := (s.bar b).zones.set r.zone.toNat z }, .ok, .fired old.fired)
      | none => refuse s .badValue
    | _, _ => refuse s .badValue

/-- A FAULTED bar with its line inactive returns to READY, and its nozzles are evaluated (R120, R122). -/
def State.returnToReady (s : State) (b : Bar) : State :=
  let u := { s.bar b with state := .ready }
  s.setBar b (u.evalAll (s.barOpen u) s.bpu.T)

/-- ENABLE_BAR carried out (R120). -/
def enableBarOp (bar : Byte) (s : State) : Answer :=
  match barOf bar with
  | none => refuse s .badValue
  | some b =>
    if s.lc.mode = .halted then refuse s .wrongMode
    else
      match (s.bar b).state with
      | .disabled => refuse s .badValue
      | .ready => done s
      | .faulted => if s.pins.faultLines.get b then refuse s .faulted else done (s.returnToReady b)

end Sys2Proof.Machine
end

