-- ==== Sys2Proof/Machine/Frames.lean ====
section
/-! DEFINITION. The frames of the Supervisor Link (11.2): the layout of every request body, the tests of R134 against the
table of R163, and the layout of every reply body. -/

namespace Sys2Proof.Machine

/-! ### Requests -/

/-- A Destination Table triple as it is sent (R163). -/
def DestRow.bytes (r : DestRow) : List Byte := [r.dest, r.rank, r.attr]

/-- A Class Map pair as it is sent (R163). -/
def ClassRow.bytes (r : ClassRow) : List Byte := [r.material, r.weight]

/-- A handle as a request carries it: the slot, then the generation (R162). -/
def HandleField.bytes (h : HandleField) : List Byte := halfBytes h.slot ++ [h.gen]

/-- The kind number of a request command and its body as it is sent (R163); none for the other commands. -/
def requestFrame : Instr → Option (Byte × List Byte)
  | .setBelt r => some (1, r.encDiv :: (halfBytes r.revMax ++ [r.stallW, r.guardW]))
  | .enableGuard => some (2, [])
  | .setStation r =>
    some (3, r.station :: r.enabled :: (halfBytes r.D ++ (r.rate :: r.slipTol :: halfBytes r.silentSteps)))
  | .readPortCounters port => some (4, [port])
  | .setTracking r =>
    some (5, halfBytes r.lMax ++ (r.assocTol :: r.laneTol :: (halfBytes r.minArea ++ halfBytes r.settle)))
  | .writeClassmap bank station first entries =>
    some (6, bank :: station :: first :: byte entries.length :: entries.flatMap ClassRow.bytes)
  | .writeDestinations r =>
    some (7, r.bank :: (r.rows.flatMap DestRow.bytes ++
      (halfBytes r.minScore ++ (halfBytes r.minMargin ++ [r.degradedDest, r.conflictDest]))))
  | .readBank bank sect => some (8, [bank, sect])
  | .switchBank target c => some (9, target :: wordBytes c)
  | .setBar r =>
    some (10, r.bar :: r.enabled :: (halfBytes r.E ++ (halfBytes r.A ++ (halfBytes r.tOpen ++ (halfBytes r.tClose ++
      (r.mFront :: r.mBack :: r.widen :: r.maxNoz :: r.guarded :: (wordBytes r.maxon ++ halfBytes r.minoff)))))))
  | .setZone r => some (11, [r.bar, r.zone, r.first, r.last, r.key])
  | .enableBar bar => some (12, [bar])
  | .lookup h => some (13, HandleField.bytes h)
  | .find c1 c2 first last => some (14, wordBytes c1 ++ (wordBytes c2 ++ [first, last]))
  | .scan start count => some (15, wordBytes start ++ [count])
  | .override h dest => some (16, HandleField.bytes h ++ [dest])
  | .forget h => some (17, HandleField.bytes h)
  | .insert r => some (18, wordBytes r.X ++ (wordBytes r.Xt ++ [r.first, r.last, r.dest]))
  | .start => some (19, [])
  | .stop => some (20, [])
  | .reset => some (21, [])
  | .clear => some (22, [])
  | .readStatus => some (23, [])
  | .readNotices => some (24, [])
  | .ackNotices kinds => some (25, halfBytes kinds)
  | .setMask kinds => some (26, halfBytes kinds)
  | .readFault => some (27, [])
  | .readTallies block => some (28, [block])
  | .clearTallies => some (29, [])
  | .encoderTransition _ _ | .lclkPulseStart | .lclkPulseEnd | .windowEnd | .sync _ _ | .detect _ _ | .badFrame _ _ _
  | .assocTake | .maxonCut _ _ | .coolingEnd _ _ | .valveFrameStart _ | .valveFrameEnd _ | .refreshExpiry _
  | .driverFault _ | .faultLineInactive _ | .resetPin | .overlongFrame _ | .garbledFrame _ _ _ | .replySent
  | .startMark | .portStartMark _ | .resetPinAsserted => none

/-- The check of a request over its length, kind and body (R162, 11.2). -/
def requestCheck (kind : Byte) (body : List Byte) : Half := checkSum (bytes2 body.length ++ kind :: body)

/-- A frame of the supervisor as it is sent (11.2), with the check it carries. -/
def frameBytes (kind : Byte) (body : List Byte) (check : Half) : List Byte :=
  supervisorMark :: (bytes2 body.length ++ kind :: (body ++ halfBytes check))

/-- A request command as it is sent (11.2); nothing for the other commands. -/
def requestBytes (c : Instr) : List Byte :=
  match requestFrame c with
  | some (kind, body) => frameBytes kind body (requestCheck kind body)
  | none => []

/-- The kind is one of the 29 request kinds (R163). -/
def knownKind (kind : Byte) : Bool := decide (1 ≤ kind.toNat) && decide (kind.toNat ≤ 29)

/-- The one body length a kind allows, in kind order (R163); WRITE_CLASSMAP's, kind 6, stands as 0 and is not used. -/
def fixedLengths : List Nat :=
  [0, 5, 0, 8, 1, 8, 0, 55, 2, 5, 21, 5, 1, 3, 10, 5, 4, 3, 11, 0, 0, 0, 0, 0, 0, 2, 2, 0, 1, 0]

/-- The length of the body is one the kind allows (R134, R163): for WRITE_CLASSMAP the length that agrees with the entry
count the body carries. -/
def lengthOk (kind : Byte) (body : List Byte) : Bool :=
  if kind.toNat = 6 then
    match body with
    | _ :: _ :: _ :: n :: rest => rest.length == 2 * n.toNat
    | _ => false
  else fixedLengths[kind.toNat]? == some body.length

/-- The first test of R134 that a frame fails, as its reply code; none for a well-formed request. -/
def frameFault (kind : Byte) (body : List Byte) (check : Half) : Option ReplyCode :=
  if check ≠ requestCheck kind body then some .badCheck
  else if !knownKind kind then some .unknown
  else if !lengthOk kind body then some .badLength
  else none

/-- Pairs read off a body. -/
def readPairs : List Byte → List ClassRow
  | m :: w :: rest => ⟨m, w⟩ :: readPairs rest
  | _ => []

/-- A given number of triples read off a body, with what follows them. -/
def readTriples : Nat → List Byte → List DestRow × List Byte
  | n + 1, d :: r :: a :: rest =>
    let t := readTriples n rest
    (⟨d, r, a⟩ :: t.1, t.2)
  | _, rest => ([], rest)

/-- The command a well-formed request's kind and body stand for (R163). -/
def decodeRequest (kind : Byte) (body : List Byte) : Option Instr :=
  match kind.toNat, body with
  | 1, [d, r1, r0, w, g] => some (.setBelt ⟨d, halfOf r1 r0, w, g⟩)
  | 2, [] => some .enableGuard
  | 3, [p, e, d1, d0, r, t, n1, n0] => some (.setStation ⟨p, e, halfOf d1 d0, r, t, halfOf n1 n0⟩)
  | 4, [p] => some (.readPortCounters p)
  | 5, [l1, l0, a, n, m1, m0, t1, t0] => some (.setTracking ⟨halfOf l1 l0, a, n, halfOf m1 m0, halfOf t1 t0⟩)
  | 6, bank :: station :: first :: _ :: rest => some (.writeClassmap bank station first (readPairs rest))
  | 7, bank :: rest =>
    match readTriples 16 rest with
    | (rows, [s1, s0, m1, m0, d, c]) => some (.writeDestinations ⟨bank, rows, halfOf s1 s0, halfOf m1 m0, d, c⟩)
    | _ => none
  | 8, [bank, sect] => some (.readBank bank sect)
  | 9, [t, c3, c2, c1, c0] => some (.switchBank t (wordOf c3 c2 c1 c0))
  | 10, [b, e, e1, e0, a1, a0, o1, o0, c1, c0, mf, mb, w, mn, g, x3, x2, x1, x0, n1, n0] =>
    some
      (.setBar
        { bar := b, enabled := e, E := halfOf e1 e0, A := halfOf a1 a0, tOpen := halfOf o1 o0, tClose := halfOf c1 c0
          mFront := mf, mBack := mb, widen := w, maxNoz := mn, guarded := g, maxon := wordOf x3 x2 x1 x0
          minoff := halfOf n1 n0 })
  | 11, [b, z, f, l, k] => some (.setZone ⟨b, z, f, l, k⟩)
  | 12, [b] => some (.enableBar b)
  | 13, [s1, s0, g] => some (.lookup ⟨halfOf s1 s0, g⟩)
  | 14, [a3, a2, a1, a0, b3, b2, b1, b0, f, l] => some (.find (wordOf a3 a2 a1 a0) (wordOf b3 b2 b1 b0) f l)
  | 15, [a3, a2, a1, a0, n] => some (.scan (wordOf a3 a2 a1 a0) n)
  | 16, [s1, s0, g, d] => some (.override ⟨halfOf s1 s0, g⟩ d)
  | 17, [s1, s0, g] => some (.forget ⟨halfOf s1 s0, g⟩)
  | 18, [a3, a2, a1, a0, b3, b2, b1, b0, f, l, d] =>
    some (.insert ⟨wordOf a3 a2 a1 a0, wordOf b3 b2 b1 b0, f, l, d⟩)
  | 19, [] => some .start
  | 20, [] => some .stop
  | 21, [] => some .reset
  | 22, [] => some .clear
  | 23, [] => some .readStatus
  | 24, [] => some .readNotices
  | 25, [k1, k0] => some (.ackNotices (halfOf k1 k0))
  | 26, [k1, k0] => some (.setMask (halfOf k1 k0))
  | 27, [] => some .readFault
  | 28, [n] => some (.readTallies n)
  | 29, [] => some .clearTallies
  | _, _ => none

/-! ### Reply bodies -/

/-- The number of a reply code, in the order of R137 (R162). -/
def ReplyCode.no : ReplyCode → Nat
  | .ok => 0
  | .busy => 1
  | .badCheck => 2
  | .unknown => 3
  | .badLength => 4
  | .badValue => 5
  | .wrongMode => 6
  | .stale => 7
  | .tooLate => 8
  | .full => 9
  | .bankActive => 10
  | .pending => 11
  | .bankBusy => 12
  | .geometry => 13
  | .belt => 14
  | .faulted => 15

/-- BAR0, BAR1, BAR2 and PASS are 0 to 3 (R162). -/
def Dest.no : Dest → Nat
  | .bar b => barNo b
  | .pass => 3

/-- Bank A is 0 and bank B is 1 (R162). -/
def Bank.no : Bank → Nat
  | .a => 0
  | .b => 1

/-- The metal attributes in the order of R83 (R162). -/
def MetalAttr.no : MetalAttr → Nat
  | .metal => 0
  | .nonmetal => 1
  | .either => 2

/-- The modes in the order of R147 (R162). -/
def Mode.no : Mode → Nat
  | .config => 0
  | .run => 1
  | .draining => 2
  | .halted => 3

/-- The conditions in the order of R154 (R162). -/
def Condition.no : Condition → Nat
  | .normal => 0
  | .degraded => 1
  | .halted => 2

/-- The record states in the order of R44 (R162). -/
def RecState.no : RecState → Nat
  | .opened => 0
  | .decided _ _ => 1
  | .committed _ _ => 2
  | .armed _ _ => 3
  | .passing _ _ _ => 4

/-- The outcomes in the order of R48 (R162). -/
def RecOutcome.no : RecOutcome → Nat
  | .fired => 0
  | .passed => 1
  | .suppressed => 2
  | .dropped => 3
  | .masked => 4
  | .forgotten => 5

/-- The station states in the order of 2.1 (R162). -/
def StationState.no : StationState → Nat
  | .disabled => 0
  | .waiting => 1
  | .up => 2
  | .silent => 3

/-- The bar states in the order of R118 (R162). -/
def BarState.no : BarState → Nat
  | .disabled => 0
  | .ready => 1
  | .faulted => 2

/-- A handle: two bytes of slot, one of generation (R162). -/
def Handle.bytes (h : Handle) : List Byte := bytes2 h.slot ++ [h.gen]

/-- An optional part: a presence byte, then the part or zeros of its width (R162). -/
def optBytes {α : Type} (width : Nat) (f : α → List Byte) : Option α → List Byte
  | some x => 1 :: f x
  | none => 0 :: List.replicate width 0

/-- Unused places after `n` used ones are zeros (R163). -/
def padTo (width : Nat) (bs : List Byte) : List Byte := bs ++ List.replicate (width - bs.length) 0

/-- An evidence place of LOOKUP (R163). -/
def evidenceBytes (pe : Station × Entry) : List Byte :=
  byte (stationNo pe.1) :: byte pe.2.cls :: byte pe.2.conf ::
    (optBytes 2 bytes2 pe.2.area ++ optBytes 1 (fun m => [yesByte m]) pe.2.metal)

/-- The seven flags, one byte each, in the order of R40 (R163). -/
def Flags.bytes (f : Flags) : List Byte :=
  [yesByte f.clipped, yesByte f.merged, yesByte f.degraded, yesByte f.conflict, yesByte f.weak, yesByte f.lateFire,
    yesByte f.inserted]

/-- The evidence of a record as the list LOOKUP returns (R138). -/
def Record.evidenceEntries (r : Record) : List (Station × Entry) :=
  stations.filterMap fun p => (r.evidence.get p).map fun e => (p, e)

/-- A schedule: bar, fire-on, fire-off, first and last nozzle (R163). -/
def Schedule.bytes (x : Schedule) : List Byte :=
  [byte (barNo x.bar)] ++ wordBytes x.fireOn ++ wordBytes x.fireOff ++ [byte x.firstNozzle, byte x.lastNozzle]

/-- The body of a LOOKUP reply (R163). -/
def recordBytes (h : Handle) (r : Record) : List Byte :=
  Handle.bytes h ++ [byte r.st.no] ++ wordBytes r.X ++ wordBytes r.Xt ++ [byte r.first, byte r.last, byte r.bank.no] ++
    r.flags.bytes ++ [byte r.evidenceEntries.length] ++ padTo 32 (r.evidenceEntries.flatMap evidenceBytes) ++
    optBytes 5 (fun v : Verdict => [byte v.material] ++ bytes2 v.top ++ bytes2 v.margin) r.st.verdict ++
    optBytes 1 (fun d : Dest => [byte d.no]) r.st.dest ++ optBytes 1 (fun d : Dest => [byte d.no]) r.ovr ++
    optBytes 11 Schedule.bytes r.st.schedule ++ optBytes 1 (fun o : RecOutcome => [byte o.no]) r.st.outcome

/-- A SCAN summary of 17 bytes (R163). -/
def Summary.bytes (x : Summary) : List Byte :=
  Handle.bytes x.handle ++ byte x.state.no :: (wordBytes x.X ++ (wordBytes x.Xt ++ (byte x.first :: byte x.last ::
    optBytes 2 (fun v : Nat × Dest => [byte v.1, byte v.2.no]) x.verdict)))

/-- A Class Map entry as it is sent (R163). -/
def ClassEntry.bytes (c : ClassEntry) : List Byte := [byte c.material, byte c.weight]

/-- A Destination Table entry as it is sent (R163). -/
def DestEntry.bytes (d : DestEntry) : List Byte := [byte d.dest.no, byte d.rank, byte d.attr.no]

/-- The DESTINATIONS section (R163): the WRITE_DESTINATIONS body less its bank byte. -/
def DestTable.bytes (t : DestTable) : List Byte :=
  t.rows.flatMap DestEntry.bytes ++ (bytes2 t.minScore ++ (bytes2 t.minMargin ++
    [byte t.degradedDest.no, byte t.conflictDest.no]))

/-- The nine counters in the order of R32 (R163). -/
def PortCounters.bytes (c : PortCounters) : List Byte :=
  [c.accepted, c.badFrame, c.duplicate, c.seqGap, c.stormDrop, c.queueDrop, c.noBase, c.dust, c.late].flatMap bytes4

/-- A bar's values in READ_STATUS (R163). -/
def BarReport.bytes (b : BarReport) : List Byte := byte b.state.no :: (bytes4 b.lateFire ++ bytes4 b.maxonCuts)

/-- The values of READ_STATUS in the order of R159 (R163). -/
def StatusReport.bytes (r : StatusReport) : List Byte :=
  [byte r.mode.no, byte r.condition.no, yesByte r.faultLine, yesByte r.attn] ++ wordBytes r.T ++ wordBytes r.P ++
    bytes2 r.V ++ [byte r.Z, yesByte r.stalled, yesByte r.guard] ++ bytes2 r.encErr ++ [byte r.encDiv] ++
    bytes2 r.revMax ++ [byte r.stallW, byte r.guardW] ++
    [byte r.stations.s0.no, byte r.stations.s1.no, byte r.stations.s2.no, byte r.stations.s3.no] ++
    r.bars.bar0.bytes ++ r.bars.bar1.bytes ++ r.bars.bar2.bytes ++ [byte r.active.no] ++
    optBytes 5 (fun w : Switch => [byte w.target.no] ++ wordBytes w.c) r.switch ++
    bytes2 r.refs.a ++ bytes2 r.refs.b ++ bytes2 r.liveCount

/-- The type and number of a source: station, bar, none are 0 to 2 (R163); the number of none is sent as 0 (entry 25). -/
def Source.bytes : Source → List Byte
  | .station p => [0, byte (stationNo p)]
  | .bar b => [1, byte (barNo b)]
  | .none => [2, 0]

/-- The body of a READ_FAULT reply (R163). -/
def captureBytes : Option Capture → List Byte :=
  optBytes 12 fun c =>
    byte c.kind.no :: (wordBytes c.time ++ (c.source.bytes ++ (optBytes 3 Handle.bytes c.handle ++ [byte c.later])))

/-- The body of a reply as it is sent (R163). -/
def ReplyBody.bytes : ReplyBody → List Byte
  | .empty => []
  | .counters c => c.bytes
  | .classMap entries => entries.flatMap ClassEntry.bytes
  | .destinations t => t.bytes
  | .fired was => [yesByte was]
  | .record h r => recordBytes h r
  | .found more handles => byte handles.length :: yesByte more :: padTo 48 (handles.flatMap Handle.bytes)
  | .scanned more xs => byte xs.length :: yesByte more :: padTo 272 (xs.flatMap Summary.bytes)
  | .handle h => h.bytes
  | .status r => r.bytes
  | .notices p m => halfBytes p ++ halfBytes m
  | .pendingSet p => halfBytes p
  | .capture c => captureBytes c
  | .tallies counts => counts.flatMap bytes4

/-- A reply as it is sent (11.2): start mark, length of the body, kind, code, body, check. -/
def Reply.bytes (r : Reply) : List Byte :=
  let inner := bytes2 r.body.bytes.length ++ r.kind :: byte r.code.no :: r.body.bytes
  supervisorMark :: (inner ++ halfBytes (checkSum inner))

end Sys2Proof.Machine
end

