-- ==== Sys2Proof/Machine/LineRequests.lean ====
section
/-! DEFINITION. The requests of Line Control (chapter 10): START (R148, R149), STOP (R150), RESET (R153), CLEAR (R155),
READ_STATUS (R159), the notices (R157), READ_FAULT (R158) and the tallies (R160). -/

namespace Sys2Proof.Machine

/-! ### START and STOP -/

/-- Each member is less than the next. -/
def strictlyRising : List Nat → Bool
  | a :: b :: rest => decide (a < b) && strictlyRising (b :: rest)
  | _ => true

/-- E_b − A_b of a bar, as a whole number with its sign (R149). -/
def BarSettings.lead (st : BarSettings) : Int := (st.E : Int) - st.A

/-- The geometry check (R149). -/
def State.geometryOk (s : State) : Bool :=
  match s.lowBar with
  | none => false
  | some f =>
    let sf := (s.bar f).settings
    (stations.any fun p => (s.port p).enabled) &&
      strictlyRising (s.enabledBars.map fun b => (s.bar b).settings.E) &&
      (stations.all fun p => !(s.port p).enabled || decide ((s.port p).D < sf.E)) &&
      (s.enabledBars.all fun b => decide (sf.lead ≤ (s.bar b).settings.lead)) &&
      decide (2 * (s.tracking.lMax : Int) ≤ sf.lead - s.dMax - s.tracking.settle)

/-- The mode changed, and the nozzles evaluated where that changes the open condition (R122, R147). -/
def State.withMode (s : State) (m : Mode) : State := State.settleFrom { s with lc := { s.lc with mode := m } } s

/-- START carried out (R148). -/
def startOp (s : State) : Answer :=
  match s.lc.mode with
  | .halted => refuse s .wrongMode
  | .run => done s
  | .draining => done (s.withMode .run)
  | .config =>
    if s.bpu.revMax < s.bpu.depth then refuse s .belt
    else if s.geometryOk then done (s.withMode .run)
    else refuse s .geometry

/-- STOP carried out (R150). -/
def stopOp (s : State) : Answer :=
  match s.lc.mode with
  | .halted => refuse s .wrongMode
  | .run =>
    done (State.settleFrom (State.drainIfEmpty { s with lc := { s.lc with mode := .draining } }) s)
  | .draining => done s
  | .config => done s

/-! ### RESET and CLEAR -/

/-- A port at a RESET request (R35). -/
def Port.afterReset (p : Port) : Port :=
  let q := p.emptied
  if p.enabled then
    { q with state := .waiting, base := none, lastSeq := none, silence := 0, rateCount := 0 }
  else { q with base := none, lastSeq := none, silence := 0, rateCount := 0 }

/-- Line Control at a RESET request (R153). -/
def LineControl.afterReset (lc : LineControl) : LineControl :=
  { lc with
    mode := .config
    condition := .normal
    pendingSet := 0
    attn := false
    faultLine := false
    capture := none }

/-- The state after a RESET request (R153). -/
def State.afterReset (s : State) : State :=
  let t := s.freeAll
  { t with
    bpu := { t.bpu with G := 0 }
    ports := t.ports.map Port.afterReset
    ae := { pointer := .s0, free := true }
    banks := { t.banks with pendingSwitch := none }
    bars := t.bars.map BarUnit.cleared
    lc := t.lc.afterReset }

/-- RESET carried out (R153). -/
def resetOp (s : State) : Answer := done s.afterReset

/-- CLEAR carried out (R155). -/
def clearOp (s : State) : Answer :=
  done
    { s with
      lc :=
        { s.lc with
          condition := if s.lc.mode = .halted then .halted else .normal
          capture := none } }

/-! ### Status, notices, fault and tallies -/

/-- A bar's values in READ_STATUS (R159). -/
def BarUnit.report (u : BarUnit) : BarReport := ⟨u.state, u.lateFire, u.maxonCuts⟩

/-- The values of READ_STATUS (R159). -/
def State.status (s : State) : StatusReport where
  mode := s.lc.mode
  condition := s.lc.condition
  faultLine := s.lc.faultLine
  attn := s.lc.attn
  T := s.bpu.T
  P := s.bpu.P
  V := s.bpu.V
  Z := s.bpu.Z
  stalled := s.bpu.stalled
  guard := s.bpu.guard
  encErr := s.bpu.encErr
  encDiv := s.bpu.encDiv
  revMax := s.bpu.revMax
  stallW := s.bpu.stallW
  guardW := s.bpu.guardW
  stations := s.ports.map (·.state)
  bars := s.bars.map BarUnit.report
  active := s.banks.active
  switch := s.banks.pendingSwitch
  refs := s.banks.refs
  liveCount := s.ft.liveCount

/-- READ_STATUS carried out (R159). -/
def readStatusOp (s : State) : Answer := (s, .ok, .status s.status)

/-- READ_NOTICES carried out (R157). -/
def readNoticesOp (s : State) : Answer := (s, .ok, .notices s.lc.pendingSet s.lc.mask)

/-- ACK_NOTICES carried out (R157): the reply gives the pending set after the removal. -/
def ackNoticesOp (kinds : Half) (s : State) : Answer :=
  ({ s with lc := s.lc.setPending (s.lc.pendingSet &&& ~~~kinds) }, .ok, .pendingSet (s.lc.pendingSet &&& ~~~kinds))

/-- SET_MASK carried out (R157). -/
def setMaskOp (kinds : Half) (s : State) : Answer := done { s with lc := s.lc.withMask kinds }

/-- READ_FAULT carried out (R158). -/
def readFaultOp (s : State) : Answer := (s, .ok, .capture s.lc.capture)

/-- READ_TALLIES carried out (R160). -/
def readTalliesOp (block : Byte) (s : State) : Answer :=
  match outcomeOf block with
  | some o => (s, .ok, .tallies (s.lc.tallies.get o))
  | none => refuse s .badValue

/-- CLEAR_TALLIES carried out (R160, R32). -/
def clearTalliesOp (s : State) : Answer :=
  done
    { s with
      ports := s.ports.map fun p => { p with counters := ⟨0, 0, 0, 0, 0, 0, 0, 0, 0⟩ }
      lc := { s.lc with tallies := Tallies.zero } }

end Sys2Proof.Machine
end

