-- ==== Sys2Proof/Machine/RecordRequests.lean ====
section
/-! DEFINITION. The record requests (chapter 9): LOOKUP (R138), FIND (R139), SCAN (R140), OVERRIDE (R141), FORGET (R143),
INSERT (R144). -/

namespace Sys2Proof.Machine

/-- LOOKUP carried out (R138). -/
def lookupOp (h : HandleField) (s : State) : Answer :=
  match checkHandle s.ft h with
  | .error code => refuse s code
  | .ok r => (s, .ok, .record (handleOf h) r)

/-- A record overlaps a coordinate range and a lane range (R139). -/
def overlapsRange (c1 c2 : Pos) (first last : Nat) (r : Record) : Bool :=
  rangesMeet r.X r.Xt c1 c2 && lanesMeet r.first r.last first last

/-- FIND carried out (R139): the first 16 matching handles in belt order, and whether there are more. -/
def findOp (c1 c2 : Pos) (first last : Byte) (s : State) : Answer :=
  if behind c2 c1 || decide (Config.span ≤ stepsTo c1 c2) || !lanesOk first last then refuse s .badValue
  else
    let hits := s.ft.live.filter fun l => overlapsRange c1 c2 first.toNat last.toNat l.record
    (s, .ok, .found (decide (16 < hits.length)) ((hits.take 16).map fun l => s.ft.handle l.slot))

/-- The material and destination of a record that has a verdict (R140). -/
def RecState.summary (st : RecState) : Option (Nat × Dest) :=
  match st.verdict, st.dest with
  | some v, some d => some (v.material, d)
  | _, _ => none

/-- What SCAN gives of a record (R140). -/
def FragTable.summary (ft : FragTable) (l : Live) : Summary where
  handle := ft.handle l.slot
  state := l.record.st
  X := l.record.X
  Xt := l.record.Xt
  first := l.record.first
  last := l.record.last
  verdict := l.record.st.summary

/-- SCAN carried out (R140). -/
def scanOp (start : Pos) (count : Byte) (s : State) : Answer :=
  if decide (1 ≤ count.toNat) && decide (count.toNat ≤ 16) then
    let hits := s.ft.live.filter fun l => atOrAhead l.record.X start
    (s, .ok, .scanned (decide (count.toNat < hits.length)) ((hits.take count.toNat).map s.ft.summary))
  else refuse s .badValue

/-- The override of a record set, and a DECIDED record re-decided (R141 step 5, R86). -/
def State.setOverride (s : State) (slot : Nat) (d : Dest) : State :=
  s.modRecord slot fun r =>
    let r' := { r with ovr := some d }
    match r.st with
    | .decided _ _ => decideRecord s r'
    | _ => r'

/-- OVERRIDE carried out (R141). -/
def overrideOp (h : HandleField) (dest : Byte) (s : State) : Answer :=
  match checkHandle s.ft h with
  | .error code => refuse s code
  | .ok r =>
    if !s.running then refuse s .wrongMode
    else
      match destOf dest with
      | none => refuse s .badValue
      | some d => if r.st.takesEvidence then done (s.setOverride h.slot.toNat d) else refuse s .tooLate

/-- The intervals of an ARMED record removed (R54). -/
def State.dropIntervals (s : State) (slot : Nat) (r : Record) : State :=
  match r.st with
  | .armed _ sch => s.setBar sch.bar ((s.bar sch.bar).without (s.ft.handle slot))
  | _ => s

/-- FORGET carried out (R143, R54); a nozzle open for the removed intervals alone closes. -/
def forgetOp (h : HandleField) (s : State) : Answer :=
  match checkHandle s.ft h with
  | .error code => refuse s code
  | .ok r =>
    if !s.running then refuse s .wrongMode
    else done ((s.dropIntervals h.slot.toNat r).retire h.slot.toNat .forgotten).settle

/-- The freeze point of an INSERT lies ahead of T by 2^20 steps or more (R144 step 2). -/
def State.freezeTooFar (s : State) (x : Pos) : Bool :=
  match s.freezePoint x with
  | some p => ahead p s.bpu.T && decide (Config.span ≤ stepsTo s.bpu.T p)
  | none => false

/-- The freeze point of an INSERT is not ahead of T (R144 step 3, R46; entry 14). -/
def State.freezePassed (s : State) (x : Pos) : Bool :=
  match s.freezePoint x with
  | some p => !ahead p s.bpu.T
  | none => false

/-- The values of an INSERT are out of range (R144 step 2), its destination apart. -/
def State.insertBad (s : State) (r : InsertRequest) : Bool :=
  !atOrAhead r.Xt r.X || decide (s.tracking.lMax < stepsTo r.X r.Xt) || !lanesOk r.first r.last || s.freezeTooFar r.X

/-- The record an INSERT makes, before it is decided (R46, R145). -/
def insertedRecord (r : InsertRequest) (d : Dest) : Record where
  st := .opened
  X := r.X
  Xt := r.Xt
  first := r.first.toNat
  last := r.last.toNat
  bank := .a
  evidence := ⟨none, none, none, none⟩
  flags := { Flags.none with inserted := true }
  ovr := some d

/-- INSERT carried out (R144): the record is created and decided in the same event. -/
def insertOp (r : InsertRequest) (s : State) : Answer :=
  if s.lc.mode ≠ .run then refuse s .wrongMode
  else
    match destOf r.dest with
    | none => refuse s .badValue
    | some d =>
      if s.insertBad r then refuse s .badValue
      else if s.freezePassed r.X then refuse s .tooLate
      else
        match s.create (insertedRecord r d) with
        | none => refuse s .full
        | some (slot, s') => (s'.modRecord slot (decideRecord s'), .ok, .handle (s.ft.handle slot))

end Sys2Proof.Machine
end

