-- ==== Sys2Proof/Machine/Settings.lean ====
section
/-! DEFINITION. The settings requests of the BPU, the Station Ports and the tracking: SET_BELT (R15), ENABLE_GUARD (R13),
SET_STATION (R33, R34), SET_TRACKING (R56), and READ_PORT_COUNTERS (R32). -/

namespace Sys2Proof.Machine

/-- SET_BELT carried out (R15): the mode, then the ranges (entry 15). -/
def setBeltOp (r : BeltRequest) (s : State) : Answer :=
  if s.lc.mode ≠ .config then refuse s .wrongMode
  else if beltInRange r then
    done
      { s with
        bpu :=
          { s.bpu with
            encDiv := r.encDiv.toNat
            revMax := r.revMax.toNat
            stallW := r.stallW.toNat
            guardW := r.guardW.toNat
            sub := 0 } }
  else refuse s .badValue

/-- ENABLE_GUARD carried out (R13). -/
def enableGuardOp (s : State) : Answer := done { s with bpu := { s.bpu with guard := true } }

/-- The running state of a port after an accepted SET_STATION has written `enabled` (R34). -/
def Port.setEnabled (p : Port) (enabled : Bool) : Port :=
  if enabled && !p.enabled then
    { p with enabled, state := .waiting, base := none, lastSeq := none, silence := 0, rateCount := 0 }
  else if !enabled && p.enabled then
    { p.emptied with enabled, state := .disabled, base := none, lastSeq := none }
  else p

/-- A port after an accepted SET_STATION (R33 step 4, R34). -/
def Port.configure (p : Port) (enabled : Bool) (r : StationRequest) : Port :=
  { p.setEnabled enabled with
    D := r.D.toNat
    rate := r.rate.toNat
    slipTol := r.slipTol.toNat
    silentSteps := r.silentSteps.toNat }

/-- SET_STATION carried out (R33). -/
def setStationOp (r : StationRequest) (s : State) : Answer :=
  if s.lc.mode = .halted then refuse s .wrongMode
  else
    match stationOf r.station, yesNo r.enabled with
    | some p, some enabled =>
      if !stationInRange r then refuse s .badValue
      else if s.running && ((s.port p).enabled != enabled || (s.port p).D != r.D.toNat) then refuse s .wrongMode
      else done (s.setPort p ((s.port p).configure enabled r))
    | _, _ => refuse s .badValue

/-- READ_PORT_COUNTERS carried out (R32). -/
def readPortCountersOp (port : Byte) (s : State) : Answer :=
  match stationOf port with
  | some p => (s, .ok, .counters (s.port p).counters)
  | none => refuse s .badValue

/-- SET_TRACKING carried out (R56): the mode, then the ranges (entry 15). -/
def setTrackingOp (r : TrackingRequest) (s : State) : Answer :=
  if s.lc.mode ≠ .config then refuse s .wrongMode
  else if trackingInRange r then
    done
      { s with
        tracking :=
          { lMax := r.lMax.toNat
            assocTol := r.assocTol.toNat
            laneTol := r.laneTol.toNat
            minArea := r.minArea.toNat
            settle := r.settle.toNat } }
  else refuse s .badValue

end Sys2Proof.Machine
end

