-- ==== Sys2Proof/Machine/Receive.lean ====
section
/-! DEFINITION. The receiving side of the Supervisor Link (R133, R134): the bytes of a frame, the frame taken, and the
request it spells. -/

namespace Sys2Proof.Machine

/-- The kind of a request command and what carrying it out does (9.7); none for the other commands. -/
def requestOf : Instr → Option (Byte × (State → Answer))
  | .setBelt r => some (1, setBeltOp r)
  | .enableGuard => some (2, enableGuardOp)
  | .setStation r => some (3, setStationOp r)
  | .readPortCounters port => some (4, readPortCountersOp port)
  | .setTracking r => some (5, setTrackingOp r)
  | .writeClassmap bank station first entries => some (6, writeClassmapOp bank station first entries)
  | .writeDestinations r => some (7, writeDestinationsOp r)
  | .readBank bank sect => some (8, readBankOp bank sect)
  | .switchBank target c => some (9, switchBankOp target c)
  | .setBar r => some (10, setBarOp r)
  | .setZone r => some (11, setZoneOp r)
  | .enableBar bar => some (12, enableBarOp bar)
  | .lookup h => some (13, lookupOp h)
  | .find c1 c2 first last => some (14, findOp c1 c2 first last)
  | .scan start count => some (15, scanOp start count)
  | .override h dest => some (16, overrideOp h dest)
  | .forget h => some (17, forgetOp h)
  | .insert r => some (18, insertOp r)
  | .start => some (19, startOp)
  | .stop => some (20, stopOp)
  | .reset => some (21, resetOp)
  | .clear => some (22, clearOp)
  | .readStatus => some (23, readStatusOp)
  | .readNotices => some (24, readNoticesOp)
  | .ackNotices kinds => some (25, ackNoticesOp kinds)
  | .setMask kinds => some (26, setMaskOp kinds)
  | .readFault => some (27, readFaultOp)
  | .readTallies block => some (28, readTalliesOp block)
  | .clearTallies => some (29, clearTalliesOp)
  | .encoderTransition _ _ | .lclkPulseStart | .lclkPulseEnd | .windowEnd | .sync _ _ | .detect _ _ | .badFrame _ _ _
  | .assocTake | .maxonCut _ _ | .coolingEnd _ _ | .valveFrameStart _ | .valveFrameEnd _ | .refreshExpiry _
  | .driverFault _ | .faultLineInactive _ | .resetPin | .overlongFrame _ | .garbledFrame _ _ _ | .replySent
  | .startMark | .portStartMark _ | .resetPinAsserted => none

/-- A length field beyond the longest request body (R133): BAD_LENGTH at once, echoing kind 0. -/
def State.overlong (s : State) : State := s.frameReply 0 .badLength

/-- A frame taken by the link as its bytes are (R133, R134): the first test it fails decides its reply; one that passes
every test is the request it spells (entry 24). -/
def State.takeFrame (s : State) (kind : Byte) (body : List Byte) (check : Half) : State :=
  match frameFault kind body check with
  | some code => s.frameReply kind code
  | none =>
    match (decodeRequest kind body).bind requestOf with
    | some (k, op) => s.takeRequest k op
    | none => s.frameReply kind .badLength

/-- The receiving side with the bytes it has collected since the start mark (R133): an overlong length is answered at once,
a whole frame is taken, and anything less is collected on. -/
def State.linkCollected (s : State) (got : List Byte) : State :=
  let onward := { s with link := { s.link with rx := .collecting got } }
  match got with
  | hi :: lo :: rest =>
    let n := (halfOf hi lo).toNat
    if Config.maxBody < n then s.overlong
    else if rest.length = n + 3 then
      s.takeFrame (rest.headD 0) ((rest.drop 1).take n) (lastHalf (rest.drop (n + 1)))
    else onward
  | _ => onward

/-- One byte on the Supervisor Link (R133): a hunting side takes a start mark and discards any other byte; a collecting one
collects it, a start mark like any other (R162). -/
def State.linkByte (s : State) (b : Byte) : State :=
  match s.link.rx with
  | .hunting => if b = supervisorMark then { s with link := { s.link with rx := .collecting [] } } else s
  | .collecting got => s.linkCollected (got ++ [b])

/-- Bytes on the Supervisor Link, one after another. -/
def State.linkBytes (s : State) (bytes : List Byte) : State := bytes.foldl State.linkByte s

/-- A frame on the Supervisor Link: taken as the frame it is where the receiving side stands at its start; otherwise its
bytes are taken for the missing ones of the frame being collected (R133; entry 4). -/
def State.linkFrame (s : State) (bytes : List Byte) (taken : State → State) : State :=
  if s.link.rx.atStart then taken s else s.linkBytes bytes

/-- The meaning of a request command, outside reset (R146): the frame is taken and its request is answered BUSY, lost or
carried out. -/
def request (c : Instr) (kind : Byte) (op : State → Answer) (s : State) : Host.Outcome State Fault Refusal :=
  .next (s.awake fun t => t.linkFrame (requestBytes c) fun u => u.takeRequest kind op)

/-- The meaning of a request command whose entry counts no request has: its bytes alone (entry 23). -/
def miscounted (c : Instr) (s : State) : Host.Outcome State Fault Refusal :=
  .next (s.awake fun t => t.linkBytes (t.link.rx.incoming (requestBytes c)))

end Sys2Proof.Machine
end

