-- ==== Sys2Proof/Machine/LinkEvents.lean ====
section
/-! DEFINITION. The events of the Supervisor Link (chapter 9): the meanings of START_MARK, OVERLONG_FRAME, GARBLED_FRAME
and REPLY_SENT; and of the RESET pin, RESET_PIN and RESET_PIN_ASSERTED. -/

namespace Sys2Proof.Machine

/-- START_MARK: a hunting receiving side begins a frame; inside a frame the byte is ordinary data (R133, R162). -/
def execStartMark (s : State) : Host.Outcome State Fault Refusal :=
  .next (s.awake fun t => t.linkByte supervisorMark)

/-- OVERLONG_FRAME: the start mark and the length of a frame, answered at once where it is beyond the longest body (R133);
a length that a request may have leaves the link collecting (entry 23). -/
def execOverlongFrame (length : Half) (s : State) : Host.Outcome State Fault Refusal :=
  .next (s.awake fun t => t.linkBytes (t.link.rx.incoming (supervisorMark :: halfBytes length)))

/-- GARBLED_FRAME (R134): a frame with its declared body; a body beyond the longest makes its length overlong (R133;
entry 23). -/
def execGarbledFrame (kind : Byte) (body : List Byte) (check : Half) (s : State) :
    Host.Outcome State Fault Refusal :=
  .next (s.awake fun t =>
    if body.length ≤ Config.maxBody then t.linkFrame (frameBytes kind body check) fun u => u.takeFrame kind body check
    else t.linkBytes (t.link.rx.incoming (frameBytes kind body check)))

/-- The head reply has been sent (R136): it leaves the queue, and the request in progress ends where the reply was its
own (R135). -/
def Link.sent (l : Link) : Link :=
  match l.replies with
  | [] => l
  | r :: rest => { l with replies := rest, inProgress := if r.own then none else l.inProgress }

/-- REPLY_SENT (R136). -/
def execReplySent (s : State) : Host.Outcome State Fault Refusal :=
  .next (s.awake fun t => { t with link := t.link.sent })

/-- RESET_PIN: the pin is released and every block takes its starting state (R161 and the reset tables); the levels on the
input pins are what they are. The model's own fields stay. -/
def execResetPin (s : State) : Host.Outcome State Fault Refusal :=
  .next { State.atRelease s.pins.levels s.pins.faultLines with draws := s.draws, pending := s.pending }

/-- A bus whose frame has been cut off: the link is silent (R130, R146). -/
def Bus.silenced (x : Bus) : Bus := { x with sending := none }

/-- RESET_PIN_ASSERTED (R146): the reply being sent is cut off, a request being received is lost, and the part is held in
reset with its links silent (entry 12). -/
def execResetPinAsserted (s : State) : Host.Outcome State Fault Refusal :=
  .next
    { s with
      pins := { s.pins with inReset := true }
      link := { rx := .hunting, inProgress := none, replies := [] }
      ports := s.ports.map Port.hunting
      bars := s.bars.map fun u => { u with bus := u.bus.silenced } }

end Sys2Proof.Machine
end

