-- ==== Sys2Proof/Machine/Requests.lean ====
section
/-! DEFINITION. One meaning for each request of the supervisor (9.7): its frame is taken, and its operation is carried out
where the link takes it up. -/

namespace Sys2Proof.Machine

/-- SET_BELT (R15). -/
def execSetBelt (r : BeltRequest) (s : State) : Host.Outcome State Fault Refusal :=
  request (.setBelt r) 1 (setBeltOp r) s

/-- ENABLE_GUARD (R13). -/
def execEnableGuard (s : State) : Host.Outcome State Fault Refusal := request .enableGuard 2 enableGuardOp s

/-- SET_STATION (R33). -/
def execSetStation (r : StationRequest) (s : State) : Host.Outcome State Fault Refusal :=
  request (.setStation r) 3 (setStationOp r) s

/-- READ_PORT_COUNTERS (R32). -/
def execReadPortCounters (port : Byte) (s : State) : Host.Outcome State Fault Refusal :=
  request (.readPortCounters port) 4 (readPortCountersOp port) s

/-- SET_TRACKING (R56). -/
def execSetTracking (r : TrackingRequest) (s : State) : Host.Outcome State Fault Refusal :=
  request (.setTracking r) 5 (setTrackingOp r) s

/-- WRITE_CLASSMAP (R93); of more entries than any request has, its bytes (R133; entry 23). -/
def execWriteClassmap (bank station first : Byte) (entries : List ClassRow) (s : State) :
    Host.Outcome State Fault Refusal :=
  if entries.length ≤ 64 then request (.writeClassmap bank station first entries) 6 (writeClassmapOp bank station first entries) s
  else miscounted (.writeClassmap bank station first entries) s

/-- WRITE_DESTINATIONS (R94); without its 16 entries, its bytes (R133, R134; entry 23). -/
def execWriteDestinations (r : DestinationsRequest) (s : State) : Host.Outcome State Fault Refusal :=
  if r.rows.length = 16 then request (.writeDestinations r) 7 (writeDestinationsOp r) s
  else miscounted (.writeDestinations r) s

/-- READ_BANK (R95). -/
def execReadBank (bank sect : Byte) (s : State) : Host.Outcome State Fault Refusal :=
  request (.readBank bank sect) 8 (readBankOp bank sect) s

/-- SWITCH_BANK (R96). -/
def execSwitchBank (target : Byte) (c : Pos) (s : State) : Host.Outcome State Fault Refusal :=
  request (.switchBank target c) 9 (switchBankOp target c) s

/-- SET_BAR (R99). -/
def execSetBar (r : BarRequest) (s : State) : Host.Outcome State Fault Refusal := request (.setBar r) 10 (setBarOp r) s

/-- SET_ZONE (R102). -/
def execSetZone (r : ZoneRequest) (s : State) : Host.Outcome State Fault Refusal :=
  request (.setZone r) 11 (setZoneOp r) s

/-- ENABLE_BAR (R120). -/
def execEnableBar (bar : Byte) (s : State) : Host.Outcome State Fault Refusal :=
  request (.enableBar bar) 12 (enableBarOp bar) s

/-- LOOKUP (R138). -/
def execLookup (h : HandleField) (s : State) : Host.Outcome State Fault Refusal := request (.lookup h) 13 (lookupOp h) s

/-- FIND (R139). -/
def execFind (c1 c2 : Pos) (first last : Byte) (s : State) : Host.Outcome State Fault Refusal :=
  request (.find c1 c2 first last) 14 (findOp c1 c2 first last) s

/-- SCAN (R140). -/
def execScan (start : Pos) (count : Byte) (s : State) : Host.Outcome State Fault Refusal :=
  request (.scan start count) 15 (scanOp start count) s

/-- OVERRIDE (R141). -/
def execOverride (h : HandleField) (dest : Byte) (s : State) : Host.Outcome State Fault Refusal :=
  request (.override h dest) 16 (overrideOp h dest) s

/-- FORGET (R143). -/
def execForget (h : HandleField) (s : State) : Host.Outcome State Fault Refusal := request (.forget h) 17 (forgetOp h) s

/-- INSERT (R144). -/
def execInsert (r : InsertRequest) (s : State) : Host.Outcome State Fault Refusal :=
  request (.insert r) 18 (insertOp r) s

/-- START (R148). -/
def execStart (s : State) : Host.Outcome State Fault Refusal := request .start 19 startOp s

/-- STOP (R150). -/
def execStop (s : State) : Host.Outcome State Fault Refusal := request .stop 20 stopOp s

/-- RESET (R153). -/
def execReset (s : State) : Host.Outcome State Fault Refusal := request .reset 21 resetOp s

/-- CLEAR (R155). -/
def execClear (s : State) : Host.Outcome State Fault Refusal := request .clear 22 clearOp s

/-- READ_STATUS (R159). -/
def execReadStatus (s : State) : Host.Outcome State Fault Refusal := request .readStatus 23 readStatusOp s

/-- READ_NOTICES (R157). -/
def execReadNotices (s : State) : Host.Outcome State Fault Refusal := request .readNotices 24 readNoticesOp s

/-- ACK_NOTICES (R157). -/
def execAckNotices (kinds : Half) (s : State) : Host.Outcome State Fault Refusal :=
  request (.ackNotices kinds) 25 (ackNoticesOp kinds) s

/-- SET_MASK (R157). -/
def execSetMask (kinds : Half) (s : State) : Host.Outcome State Fault Refusal :=
  request (.setMask kinds) 26 (setMaskOp kinds) s

/-- READ_FAULT (R158). -/
def execReadFault (s : State) : Host.Outcome State Fault Refusal := request .readFault 27 readFaultOp s

/-- READ_TALLIES (R160). -/
def execReadTallies (block : Byte) (s : State) : Host.Outcome State Fault Refusal :=
  request (.readTallies block) 28 (readTalliesOp block) s

/-- CLEAR_TALLIES (R160). -/
def execClearTallies (s : State) : Host.Outcome State Fault Refusal := request .clearTallies 29 clearTalliesOp s

end Sys2Proof.Machine
end

