-- ==== Sys2Proof/Machine/Dispatch.lean ====
section
/-! DEFINITION. One meaning for each command of spec/opcode_table.json. -/

namespace Sys2Proof.Machine

/-- The effect of a command on everything but the queue. -/
def exec (i : Instr) (s : State) : Host.Outcome State Fault Refusal :=
  match i with
  | .encoderTransition a b => Sys2Proof.Machine.execEncoderTransition a b s
  | .lclkPulseStart => Sys2Proof.Machine.execLclkPulseStart s
  | .lclkPulseEnd => Sys2Proof.Machine.execLclkPulseEnd s
  | .windowEnd => Sys2Proof.Machine.execWindowEnd s
  | .sync port f => Sys2Proof.Machine.execSync port f s
  | .detect port f => Sys2Proof.Machine.execDetect port f s
  | .badFrame port length kind => Sys2Proof.Machine.execBadFrame port length kind s
  | .assocTake => Sys2Proof.Machine.execAssocTake s
  | .maxonCut bar nozzle => Sys2Proof.Machine.execMaxonCut bar nozzle s
  | .coolingEnd bar nozzle => Sys2Proof.Machine.execCoolingEnd bar nozzle s
  | .valveFrameStart bar => Sys2Proof.Machine.execValveFrameStart bar s
  | .valveFrameEnd bar => Sys2Proof.Machine.execValveFrameEnd bar s
  | .refreshExpiry bar => Sys2Proof.Machine.execRefreshExpiry bar s
  | .driverFault bar => Sys2Proof.Machine.execDriverFault bar s
  | .faultLineInactive bar => Sys2Proof.Machine.execFaultLineInactive bar s
  | .resetPin => Sys2Proof.Machine.execResetPin s
  | .overlongFrame length => Sys2Proof.Machine.execOverlongFrame length s
  | .garbledFrame kind body check => Sys2Proof.Machine.execGarbledFrame kind body check s
  | .replySent => Sys2Proof.Machine.execReplySent s
  | .setBelt r => Sys2Proof.Machine.execSetBelt r s
  | .enableGuard => Sys2Proof.Machine.execEnableGuard s
  | .setStation r => Sys2Proof.Machine.execSetStation r s
  | .readPortCounters port => Sys2Proof.Machine.execReadPortCounters port s
  | .setTracking r => Sys2Proof.Machine.execSetTracking r s
  | .writeClassmap bank station first entries => Sys2Proof.Machine.execWriteClassmap bank station first entries s
  | .writeDestinations r => Sys2Proof.Machine.execWriteDestinations r s
  | .readBank bank sect => Sys2Proof.Machine.execReadBank bank sect s
  | .switchBank target c => Sys2Proof.Machine.execSwitchBank target c s
  | .setBar r => Sys2Proof.Machine.execSetBar r s
  | .setZone r => Sys2Proof.Machine.execSetZone r s
  | .enableBar bar => Sys2Proof.Machine.execEnableBar bar s
  | .lookup h => Sys2Proof.Machine.execLookup h s
  | .find c1 c2 first last => Sys2Proof.Machine.execFind c1 c2 first last s
  | .scan start count => Sys2Proof.Machine.execScan start count s
  | .override h dest => Sys2Proof.Machine.execOverride h dest s
  | .forget h => Sys2Proof.Machine.execForget h s
  | .insert r => Sys2Proof.Machine.execInsert r s
  | .start => Sys2Proof.Machine.execStart s
  | .stop => Sys2Proof.Machine.execStop s
  | .reset => Sys2Proof.Machine.execReset s
  | .clear => Sys2Proof.Machine.execClear s
  | .readStatus => Sys2Proof.Machine.execReadStatus s
  | .readNotices => Sys2Proof.Machine.execReadNotices s
  | .ackNotices kinds => Sys2Proof.Machine.execAckNotices kinds s
  | .setMask kinds => Sys2Proof.Machine.execSetMask kinds s
  | .readFault => Sys2Proof.Machine.execReadFault s
  | .readTallies block => Sys2Proof.Machine.execReadTallies block s
  | .clearTallies => Sys2Proof.Machine.execClearTallies s
  | .startMark => Sys2Proof.Machine.execStartMark s
  | .portStartMark port => Sys2Proof.Machine.execPortStartMark port s
  | .resetPinAsserted => Sys2Proof.Machine.execResetPinAsserted s

end Sys2Proof.Machine
end

