-- ==== Sys2Proof/Machine/Step.lean ====
section
/-! DEFINITION. One step of the part: the command at the front of the queue, or the part's own clock (entry 1). -/

namespace Sys2Proof.Machine

/-- On an empty queue the part acts by itself: it takes an event that is due, or one microsecond passes (entry 1). -/
def idle (s : State) : Host.Outcome State Fault Refusal :=
  match chooseDue s.draws s.dueEvents with
  | some c => exec c { s with draws := s.draws + 1 }
  | none => .next s.tick

/-- One step: the command at the front of the queue is carried out with the queue's rest. -/
def step (s : State) : Host.Outcome State Fault Refusal :=
  match s.pending with
  | c :: rest => exec c { s with pending := rest }
  | [] => idle s

/-- The state with the command a word spells put at the front of its queue; unchanged where the word spells none, as here
always, since the table gives no row any bits (entry 26). -/
def State.withFetchWord (s : State) (nbits w : Nat) : State :=
  match decodeTableWord nbits w with
  | some c => { s with pending := c :: s.pending }
  | none => s

end Sys2Proof.Machine
end

