-- ==== Sys2Proof/Safety.lean ====
section
/-! DEFINITION. What holds of the part after every event, block by block; and the words the statements share: a link that
can take a request, and a request answered. -/

namespace Sys2Proof.Machine

/-! ### Requests -/

/-- The part is out of reset and its link takes up the next request: no frame cut short is being collected (R133), none is
in progress and the reply queue has a place (R135, R136). -/
structure Ready (s : State) : Prop where
  awake : s.pins.inReset = false
  start : s.link.rx.atStart = true
  idle  : s.link.inProgress = none
  room  : s.link.replies.length < 16

/-- The state after a request has been answered and nothing else has changed: the receiver hunts, the request is in
progress and its reply stands at the tail of the queue (R133, R135, R136). -/
def State.answered (s : State) (kind : Byte) (code : ReplyCode) (body : ReplyBody) : State :=
  { s with
    link :=
      { rx := .hunting
        inProgress := some { kind, formed := true }
        replies := s.link.replies ++ [{ kind, code, body, own := true }] } }

/-! ### The open condition -/

/-- A nozzle may open only in RUN or DRAINING, at a READY bar, with the belt not stalled and P equal to T (R122). -/
def State.mayOpen (s : State) (b : Bar) : Bool :=
  (s.lc.mode == .run || s.lc.mode == .draining) && s.bpu.P == s.bpu.T && !s.bpu.stalled && (s.bar b).state == .ready

/-- Every nozzle but a cooling one is open exactly while its open condition holds (R122). -/
def State.Evaluated (s : State) : Prop :=
  ∀ b, ∀ n ∈ (s.bar b).nozzles, n.st ≠ .cooling →
    (n.st = .opened ↔ s.mayOpen b = true ∧ ∃ iv ∈ n.ivals, iv.covers s.bpu.T = true)

/-! ### A detection taken -/

/-- The free engine of a running line takes this detection at its next take: it stands first at its port, which the search
from the service pointer finds (R58, R59). -/
structure Takes (s : State) (p : Station) (d : Detection) (rest : List Detection) : Prop where
  awake   : s.pins.inReset = false
  running : s.running = true
  free    : s.ae.free = true
  served  : s.served = some p
  queue   : (s.port p).queue = d :: rest
  station : d.station = p

/-- The state after the take of the head entry of a port and before its treatment shows anywhere else: the entry is gone,
HOLD follows, the pointer has moved on (R29, R30, R59). -/
def State.afterTake (s : State) (p : Station) (rest : List Detection) : State :=
  { s.setPort p { s.port p with queue := rest, hold := (s.port p).hold && decide (8 < rest.length) } with
    ae := { pointer := nextStation p, free := true } }

/-- The detection as the match sees it: X_t brought back to X + L_MAX where it is longer (R62). -/
def State.shortened (s : State) (d : Detection) : Detection :=
  if s.tracking.lMax < stepsTo d.X d.Xt then { d with Xt := d.X + BitVec.ofNat 32 s.tracking.lMax } else d

/-- The candidates in belt order: the matches that can still take evidence (R64). -/
def State.openTo (s : State) (d : Detection) : List Live :=
  s.ft.live.filter fun l => isMatch s.tracking d l.record && l.record.st.takesEvidence

/-- Some match is past its freeze point (R64). -/
def State.meetsFrozen (s : State) (d : Detection) : Prop :=
  ∃ l ∈ s.ft.live, isMatch s.tracking d l.record = true ∧ l.record.st.takesEvidence = false

/-- The freeze point a record made from the detection would have is at or behind T (R65). -/
def State.tooLateFor (s : State) (d : Detection) : Prop :=
  ∃ f, s.lowBar = some f ∧
    atOrBehind (d.X + BitVec.ofNat 32 (s.bar f).settings.E - BitVec.ofNat 32 (s.bar f).settings.A) s.bpu.T = true

/-- The candidates are merged: two or more, all of one bank, the union of all with the detection within L_MAX (R69). -/
def State.merges (s : State) (d : Detection) (cs : List Live) : Prop :=
  2 ≤ cs.length ∧ (∀ x ∈ cs, ∀ y ∈ cs, x.record.bank = y.record.bank) ∧
    stepsTo (mergedX d cs) (mergedXt d cs) ≤ s.tracking.lMax

/-- The candidate with the largest overlap, the first in belt order between equals (R71). -/
def State.largestOf (s : State) (d : Detection) (cs : List Live) (c : Live) : Prop :=
  ∃ before after, cs = before ++ c :: after ∧
    (∀ x ∈ before, overlap s.tracking d x.record < overlap s.tracking d c.record) ∧
    (∀ x ∈ after, overlap s.tracking d x.record ≤ overlap s.tracking d c.record)

/-- The union of a candidate and the detection is within L_MAX (R67). -/
def State.fits (s : State) (d : Detection) (c : Live) : Prop :=
  stepsTo (behindMost c.record.X d.X) (aheadMost c.record.Xt d.Xt) ≤ s.tracking.lMax

/-- No candidate takes the detection: there is none, or the one it would be given to is left out by L_MAX (R67, R71). -/
def State.unclaimed (s : State) (d : Detection) : Prop :=
  s.openTo d = [] ∨ ¬s.merges d (s.openTo d) ∧ ∃ c, s.largestOf d (s.openTo d) c ∧ ¬s.fits d c

/-! ### A record completed -/

/-- Some point lies at or behind T (R43). -/
def State.reached (s : State) (point : Option Pos) : Bool := point.any fun q => atOrBehind q s.bpu.T

/-- A record after the decision and the freeze that its extents make overdue (R43, R49, R50, R72). -/
def State.overdue (s : State) (r : Record) : Record :=
  let r1 := if r.st = .opened ∧ s.reached (some (s.decisionPoint r)) = true then decideRecord s r else r
  match r1.st with
  | .decided v d =>
    if s.reached (s.freezePoint r1.X) then
      match d with
      | .pass => { r1 with st := .passing v .pass .passed }
      | .bar b => { r1 with st := .committed v b }
    else r1
  | _ => r1

/-- The state after the arming of a COMMITTED record whose arm point is at or behind T; the state itself for any other
record (R43, R51). -/
def State.armIfDue (s : State) (slot : Nat) (r : Record) : State :=
  match r.st with
  | .committed v b => if s.reached (s.armPoint r.X b) then s.arm slot r v b else s
  | _ => s

/-- A state that differs from another, in the table, the banks, Line Control, the belt and the bars, only by what the
evaluation of every nozzle changes (R122, R123). -/
structure State.EvaluatedFrom (t u : State) : Prop where
  ft      : t.ft = u.ft
  banks   : t.banks = u.banks
  lc      : t.lc = u.lc
  bpu     : t.bpu = u.bpu
  bars    : ∀ b, t.bar b = { u.bar b with nozzles := (t.bar b).nozzles, zones := (t.bar b).zones, bus := (t.bar b).bus }
  ivals   : ∀ b m, ((t.bar b).nozzle m).ivals = ((u.bar b).nozzle m).ivals
  nozzles : t.Evaluated

/-! ### An arming that reaches the leads -/

/-- The state after an arming has told of a WATCH lane in its committed set (R106) and of a fire-on behind T: the record's
LATE_FIRE flag, the bar's count and the notice (R108, R115). -/
def State.armingTold (s : State) (b : Bar) (slot : Nat) (r : Record) : State :=
  let u := s.bar b
  let h := s.ft.handle slot
  let raw := r.X + BitVec.ofNat 32 u.settings.E - BitVec.ofNat 32 u.settings.mFront -
    BitVec.ofNat 32 (leadOn u.settings s.bpu.V)
  let w :=
    if (committedSet u r).any (fun n => keyAt u.zones n == .watch) then s.raise .zoneWatch (.bar b) (some h) else s
  if behind raw s.bpu.T then
    State.raise
      { w with
        bars := w.bars.set b { u with lateFire := min (u.lateFire + 1) 4294967295 }
        ft := w.ft.modRecord slot fun x => { x with flags := { x.flags with lateFire := true } } }
      .lateFire (.bar b) (some h)
  else w

/-! ### Line Control -/

/-- Line Control agrees with itself: ATTN with pending set and mask (R157), FAULT with the mode (R152), the condition with
the mode and the capture (R154, R155, R158), and every tally within its width (R160). -/
structure LineOk (lc : LineControl) : Prop where
  attn      : lc.attn = true ↔ ∃ k : Nat, k < 16 ∧ lc.pendingSet.getLsbD k = true ∧ lc.mask.getLsbD k = false
  faultLine : lc.faultLine = true ↔ lc.mode = .halted
  condition : lc.condition = .halted ↔ lc.mode = .halted
  capture   : lc.condition = .normal → lc.capture = none
  later     : ∀ c, lc.capture = some c → c.later ≤ 255 ∧ c.kind.level ≠ .normal
  tallies   : ∀ o, (lc.tallies.get o).length = 16 ∧ ∀ n ∈ lc.tallies.get o, n ≤ 4294967295

/-! ### Belt -/

/-- The belt values stay within the bounds the rules give (R1 to R15), and the line runs only within REV_MAX (R8). -/
structure BeltOk (s : State) : Prop where
  encDiv    : 1 ≤ s.bpu.encDiv ∧ s.bpu.encDiv ≤ 16
  sub       : s.bpu.sub < s.bpu.encDiv
  depth     : s.bpu.depth ≤ 1048575
  revMax    : s.bpu.revMax ≤ 1023
  run       : s.running = true → s.bpu.depth ≤ s.bpu.revMax
  guardIdle : s.running = false → s.bpu.G = 0
  guardMove : s.bpu.stalled = false → s.bpu.G = 0
  pulse     : s.bpu.lclk = true → 0 < s.bpu.owed
  reference : s.pins.inReset = false → s.bpu.ref = s.pins.levels
  counts    : s.bpu.encErr ≤ 65535 ∧ s.bpu.owed ≤ 255 ∧ s.bpu.windowCount ≤ 65535 ∧ s.bpu.V ≤ 65535 ∧ s.bpu.Z ≤ 255 ∧
    s.bpu.G ≤ 255

/-! ### Ports -/

/-- A queued detection is one the arrival checks let through at its port (R19, R27, R29). -/
structure DetectionOk (port : Station) (d : Detection) : Prop where
  station : d.station = port
  lanes   : d.first ≤ d.last ∧ d.last ≤ 159
  length  : stepsTo d.X d.Xt < 1048576
  cls     : d.cls ≤ 63
  conf    : d.conf ≤ 255

/-- A port keeps its station's state, its queue and HOLD in step (2.1, R22, R28, R30, R33), its counts within their
widths (R32), and collects only a frame that is not whole yet (R164). -/
structure PortOk (port : Station) (p : Port) : Prop where
  state     : p.state = .disabled ↔ p.enabled = false
  base      : p.state = .up ∨ p.state = .silent → p.base.isSome = true
  settings  : p.D ≤ 65535 ∧ p.rate ≤ 255 ∧ p.slipTol ≤ 15 ∧ 256 ≤ p.silentSteps ∧ p.silentSteps ≤ 65535
  queue     : p.queue.length ≤ 32
  holdHigh  : 24 ≤ p.queue.length → p.hold = true
  holdLow   : p.queue.length ≤ 8 → p.hold = false
  entries   : ∀ d ∈ p.queue, DetectionOk port d
  silence   : p.silence ≤ 65535 ∧ p.rateCount ≤ 255
  collected : ∀ length kind rest, p.rx = .collecting (length :: kind :: rest) →
    stationLengthOk length kind = true ∧ rest.length < length.toNat + 2
  counters  : p.counters.accepted ≤ 4294967295 ∧ p.counters.badFrame ≤ 4294967295 ∧ p.counters.duplicate ≤ 4294967295 ∧
    p.counters.seqGap ≤ 4294967295 ∧ p.counters.stormDrop ≤ 4294967295 ∧ p.counters.queueDrop ≤ 4294967295 ∧
    p.counters.noBase ≤ 4294967295 ∧ p.counters.dust ≤ 4294967295 ∧ p.counters.late ≤ 4294967295

/-- Every port is in order, and in CONFIG every queue is empty (R31). -/
structure PortsOk (s : State) : Prop where
  port   : ∀ p, PortOk p (s.port p)
  config : s.lc.mode = .config → ∀ p, (s.port p).queue = []

/-! ### Fragment Table and banks -/

/-- Slots, generations, live count and reference counts agree with the live records (R37, R38, R91); in CONFIG none is
live (chapter 3); a pending switch leads away from the active bank (R96). -/
structure TableOk (s : State) : Prop where
  count  : s.ft.liveCount = s.ft.live.length
  slots  : (s.ft.live.map (·.slot) ++ s.ft.freeList).Perm (List.range 1024)
  gens   : s.ft.gens.length = 1024
  refs   : ∀ k, s.banks.refs.get k = (s.ft.live.filter fun l => l.record.bank == k).length
  config : s.lc.mode = .config → s.ft.live = []
  switch : ∀ w, s.banks.pendingSwitch = some w → w.target ≠ s.banks.active

/-- A record keeps its extents and lanes in bounds (R39), a pending outcome is one of four, PASSED exactly toward PASS
(R39, R53), and an OPEN record shows no flag of a decision (R40, R70). -/
structure RecordOk (tr : Tracking) (r : Record) : Prop where
  length  : stepsTo r.X r.Xt ≤ tr.lMax
  lanes   : r.first ≤ r.last ∧ r.last ≤ 159
  opened  : r.st = .opened → r.flags.degraded = false ∧ r.flags.conflict = false ∧ r.flags.weak = false
  passing : ∀ v d o, r.st = .passing v d o →
    (o = .passed ∨ o = .suppressed ∨ o = .dropped ∨ o = .masked) ∧ (o = .passed ↔ d = .pass)
  verdict : ∀ v, r.st.verdict = some v → v.material ≤ 15 ∧ v.margin ≤ v.top

/-- Every live record is in order, under tracking settings in range (R56); outside CONFIG the settings that its points are
worked from pass the geometry check (R42, R100, R149). -/
structure RecordsOk (s : State) : Prop where
  lMax     : 64 ≤ s.tracking.lMax ∧ s.tracking.lMax ≤ 4095
  live     : ∀ l ∈ s.ft.live, RecordOk s.tracking l.record
  geometry : s.lc.mode ≠ .config → s.geometryOk = true

/-! ### Valve Bars -/

/-- A nozzle of a bar with these settings, `go` standing for the terms of the line and the bar: it is open exactly while
the open condition holds, cooling apart (R122); it holds at most four intervals (R112); its on-time counter runs only
while it is OPEN and never beyond MAXON (R123, R125), its cooling timer only while it is COOLING (R126). -/
structure NozzleOk (go : Bool) (T : Pos) (maxon : Nat) (n : Nozzle) : Prop where
  opens   : n.st ≠ .cooling → (n.st = .opened ↔ go = true ∧ ∃ iv ∈ n.ivals, iv.covers T = true)
  ivals   : n.ivals.length ≤ 4
  counter : n.st ≠ .opened → n.onTime = 0
  limit   : n.onTime ≤ maxon
  timer   : n.st ≠ .cooling → n.cool = 0

/-- The settings of a bar are in the ranges of 7.1. -/
structure SettingsOk (st : BarSettings) : Prop where
  E      : st.E ≤ 65535
  A      : 16 ≤ st.A ∧ st.A ≤ 4095
  valves : st.tOpen ≤ 20000 ∧ st.tClose ≤ 20000
  belt   : st.mFront ≤ 255 ∧ st.mBack ≤ 255
  widen  : st.widen ≤ 3
  maxNoz : 1 ≤ st.maxNoz ∧ st.maxNoz ≤ 64
  maxon  : 1000 ≤ st.maxon ∧ st.maxon ≤ 100000
  minoff : st.minoff ≤ 50000

/-- A bar has its 160 nozzles (R121) and eight zones (R101), each in order, its settings in range (7.1), and is
DISABLED exactly when it is not enabled (R118). -/
structure BarOk (s : State) (b : Bar) : Prop where
  state   : (s.bar b).state = .disabled ↔ (s.bar b).settings.enabled = false
  ranges  : SettingsOk (s.bar b).settings
  count   : (s.bar b).nozzles.length = 160 ∧ (s.bar b).zones.length = 8
  nozzles : ∀ n ∈ (s.bar b).nozzles, NozzleOk (s.mayOpen b) s.bpu.T (s.bar b).settings.maxon n
  zones   : ∀ z ∈ (s.bar b).zones, z.first ≤ z.last ∧ z.last ≤ 159

/-- The settings that bound the distances along the belt are in their ranges (R56, 7.1). -/
structure State.InRange (s : State) : Prop where
  bars : ∀ b, SettingsOk (s.bar b).settings
  lMax : s.tracking.lMax ≤ 4095

/-- Every bar is in order. -/
structure BarsOk (s : State) : Prop where
  bar : ∀ b, BarOk s b

/-- Every interval of a nozzle has its fire-off ahead of its fire-on and is owned by a live ARMED record of that bar, whose
schedule it carries (R113). -/
structure OwnersOk (s : State) : Prop where
  ordered : ∀ b, ∀ n ∈ (s.bar b).nozzles, ∀ iv ∈ n.ivals, ahead iv.fireOff iv.fireOn = true
  owned   : ∀ b, ∀ n ∈ (s.bar b).nozzles, ∀ iv ∈ n.ivals, ∃ l ∈ s.ft.live, ∃ v sch,
    s.ft.handle l.slot = iv.owner ∧ l.record.st = .armed v sch ∧ sch.bar = b ∧ sch.fireOn = iv.fireOn ∧
      sch.fireOff = iv.fireOff

/-! ### Link -/

/-- The reply queue holds at most 16 frames (R136), one of them the reply of the request in progress where there is one
(R135); a request between events has had its reply formed (R137; entry 5). A frame being collected is not whole yet and
no longer than any request (R133). -/
structure LinkOk (l : Link) : Prop where
  room      : l.replies.length ≤ 16
  own       : (l.replies.filter (·.own)).length = if l.inProgress.isSome then 1 else 0
  formed    : ∀ r, l.inProgress = some r → r.formed = true
  collected : ∀ hi lo rest, l.rx = .collecting (hi :: lo :: rest) →
    (halfOf hi lo).toNat ≤ 132 ∧ rest.length < (halfOf hi lo).toNat + 3

end Sys2Proof.Machine
end

