-- ==== Sys2Proof/WellFormed.lean ====
section
/-! DEFINITION. The well-formed commands: those whose operands make them the event or the request they name. An ill-formed
one is not refused; it is what its bytes are (entry 23). -/

namespace Sys2Proof

/-- A command is well-formed. A request carries the entry counts its layout fixes (R163); a BAD_FRAME, an overlong frame
and a garbled frame are what their names say (R164, R133, R134). -/
def wellFormed : Instr → Bool
  | .badFrame _ length kind => !Machine.stationLengthOk length kind
  | .overlongFrame length => decide (Config.maxBody < length.toNat)
  | .garbledFrame kind body check =>
    decide (body.length ≤ Config.maxBody) && (Machine.frameFault kind body check).isSome
  | .writeClassmap _ _ _ entries => decide (entries.length ≤ 64)
  | .writeDestinations r => decide (r.rows.length = 16)
  | .encoderTransition _ _ | .lclkPulseStart | .lclkPulseEnd | .windowEnd | .sync _ _ | .detect _ _ | .assocTake
  | .maxonCut _ _ | .coolingEnd _ _ | .valveFrameStart _ | .valveFrameEnd _ | .refreshExpiry _ | .driverFault _
  | .faultLineInactive _ | .resetPin | .replySent | .setBelt _ | .enableGuard | .setStation _ | .readPortCounters _
  | .setTracking _ | .readBank _ _ | .switchBank _ _ | .setBar _ | .setZone _ | .enableBar _ | .lookup _
  | .find _ _ _ _ | .scan _ _ | .override _ _ | .forget _ | .insert _ | .start | .stop | .reset | .clear | .readStatus
  | .readNotices | .ackNotices _ | .setMask _ | .readFault | .readTallies _ | .clearTallies | .startMark
  | .portStartMark _ | .resetPinAsserted => true

end Sys2Proof
end

