-- ==== Sys2Proof/Certificates/Slice0/Obligations.lean ====
section
/-! DEFINITION. The statements for the provers, block by block. A statement that rests on a choice of the model names its
log entry. -/

section

open Sys2Proof Sys2Proof.Machine

/-! ### The queue and the two resets -/

/-- One step takes the command at the front of the queue and carries it out with the queue's rest. -/
def Obligations.Step_runs_the_front_command : Prop :=
  ∀ (c : Instr) (rest : List Instr) (s : State), s.pending = c :: rest → step s = exec c { s with pending := rest }

/-- No command stops the part, and none touches the queue of waiting commands (entries 18 and 21). -/
def Obligations.Every_command_answers_and_keeps_the_queue : Prop :=
  ∀ (c : Instr) (s : State), ∃ t, exec c s = .next t ∧ t.pending = s.pending

/-- On an empty queue the part takes one of its own due events, and where none is due one microsecond passes: the window
timer, the Line Clock, the on-time counters of OPEN nozzles, the cooling timers and the refresh timers count. Due are a
window's end at 8,192 µs, a cut at MAXON and a cooling's end at MINOFF (R9, R125, R126; the model's choice, entries 1, 9
and 30), the end of a pulse of the Line Clock after 1 µs high (R7) and the start of an owed one as soon as LCLK has been
low for 1 µs, where R7 says at least 1 (the model's choice, entry 33), a take of the Association Engine whenever it is
free in RUN or DRAINING and a queue holds an entry (R58), and an owed frame on an idle bus, which where the refresh
timer has expired waits for the changes due with the expiry, so that one frame carries the state after them (R128,
R129). Nothing else is due. -/
def Obligations.Empty_queue_takes_a_due_event_or_a_microsecond : Prop :=
  ∀ s : State, s.pending = [] → s.pins.inReset = false →
    (s.dueEvents ≠ [] → ∃ c ∈ s.dueEvents, step s = exec c { s with draws := s.draws + 1 }) ∧
    (s.dueEvents = [] →
      ∃ t, step s = .next t ∧
        t.bpu =
          { s.bpu with windowTime := min (s.bpu.windowTime + 1) 8192, lclkHeld := min (s.bpu.lclkHeld + 1) 1 } ∧
        (∀ b, t.bar b =
          { s.bar b with
            nozzles := (t.bar b).nozzles
            bus := { (s.bar b).bus with refresh := min ((s.bar b).bus.refresh + 1) 1024 } } ∧
          ∀ n : Fin 160, n.val < (s.bar b).nozzles.length → (t.bar b).nozzle n =
            { (s.bar b).nozzle n with
              onTime := ((s.bar b).nozzle n).onTime + if ((s.bar b).nozzle n).st = .opened then 1 else 0
              cool := ((s.bar b).nozzle n).cool + if ((s.bar b).nozzle n).st = .cooling then 1 else 0 }) ∧
        t.pins = s.pins ∧ t.ports = s.ports ∧ t.ft = s.ft ∧ t.tracking = s.tracking ∧ t.ae = s.ae ∧
        t.banks = s.banks ∧ t.link = s.link ∧ t.lc = s.lc) ∧
    (Instr.windowEnd ∈ s.dueEvents ↔ 8192 ≤ s.bpu.windowTime) ∧
    (Instr.lclkPulseStart ∈ s.dueEvents ↔ s.bpu.lclk = false ∧ 0 < s.bpu.owed ∧ 1 ≤ s.bpu.lclkHeld) ∧
    (Instr.lclkPulseEnd ∈ s.dueEvents ↔ s.bpu.lclk = true ∧ 1 ≤ s.bpu.lclkHeld) ∧
    (Instr.assocTake ∈ s.dueEvents ↔
      (s.lc.mode = .run ∨ s.lc.mode = .draining) ∧ s.ae.free = true ∧ ∃ p, (s.port p).queue ≠ []) ∧
    (∀ c ∈ s.dueEvents,
      c = .windowEnd ∨ c = .lclkPulseStart ∨ c = .lclkPulseEnd ∨ c = .assocTake ∨
        (∃ b, c = .refreshExpiry b ∨ c = .valveFrameStart b) ∨ ∃ b n, c = .maxonCut b n ∨ c = .coolingEnd b n) ∧
    (∀ b,
      (Instr.refreshExpiry b ∈ s.dueEvents ↔ 1024 ≤ (s.bar b).bus.refresh ∧ (s.bar b).bus.owed = false) ∧
      (Instr.valveFrameStart b ∈ s.dueEvents ↔
        (s.bar b).bus.owed = true ∧ (s.bar b).bus.sending = none ∧
          (1024 ≤ (s.bar b).bus.refresh →
            Instr.windowEnd ∉ s.dueEvents ∧ Instr.assocTake ∉ s.dueEvents ∧
              ∀ n, Instr.maxonCut b n ∉ s.dueEvents ∧ Instr.coolingEnd b n ∉ s.dueEvents))) ∧
    (∀ b (n : Fin 160),
      (Instr.maxonCut b n ∈ s.dueEvents ↔
        ((s.bar b).nozzle n).st = .opened ∧ (s.bar b).settings.maxon ≤ ((s.bar b).nozzle n).onTime) ∧
      (Instr.coolingEnd b n ∈ s.dueEvents ↔
        ((s.bar b).nozzle n).st = .cooling ∧ (s.bar b).settings.minoff ≤ ((s.bar b).nozzle n).cool))

/-- The release of the RESET pin puts every block into its starting state, whatever the state before (R16, R36, R57,
R98, R117, R132, R161); its assertion holds the part in reset, cuts off the links and leaves the rest, and while it is
held only the levels on the input pins and the pin itself act (R146; entry 12). The pin events then change the level
on their pin alone: no count, no fault of a READY bar. -/
def Obligations.RESET_pin_release_hold_and_assertion : Prop :=
  (∀ s : State,
     (∃ t, exec .resetPin s = .next t ∧
       t.pins = { s.pins with inReset := false } ∧
       t.bpu =
         { ref := s.pins.levels, encErr := 0, sub := 0, P := 0, T := 0, owed := 0, lclk := false
           lclkHeld := t.bpu.lclkHeld, windowTime := 0, windowCount := 0, history := ⟨0, 0, 0, 0⟩, V := 0, Z := 0
           stalled := false, guard := false, G := 0, encDiv := 4, revMax := 256, stallW := 2, guardW := 61 } ∧
       (∀ p, t.port p =
         { enabled := false, D := 0, rate := 0, slipTol := 2, silentSteps := 8192, state := .disabled, base := none
           lastSeq := none, silence := 0, rateCount := 0, queue := [], hold := false
           counters := ⟨0, 0, 0, 0, 0, 0, 0, 0, 0⟩, rx := .hunting }) ∧
       t.ft = { live := [], liveCount := 0, freeList := List.range 1024, gens := List.replicate 1024 0 } ∧
       t.tracking = { lMax := 2048, assocTol := 16, laneTol := 1, minArea := 0, settle := 64 } ∧
       t.ae = { pointer := .s0, free := true } ∧
       (t.banks.active = .a ∧ t.banks.pendingSwitch = none ∧ t.banks.refs = ⟨0, 0⟩ ∧
         ∀ k, (∀ p, (t.banks.data.get k).classMap.get p = List.replicate 64 ⟨0, 0⟩) ∧
           (t.banks.data.get k).table = ⟨List.replicate 16 ⟨.pass, 0, .either⟩, 1, 0, .pass, .pass⟩) ∧
       (∀ b, (t.bar b).settings = ⟨false, 0, 1024, 0, 0, 0, 0, 0, 24, false, 30000, 5000⟩ ∧
         (t.bar b).zones = List.replicate 8 ⟨0, 159, .normal, false⟩ ∧ (t.bar b).lateFire = 0 ∧
         (t.bar b).state = .disabled ∧ (t.bar b).nozzles = List.replicate 160 ⟨.closed, [], 0, 0⟩ ∧
         (t.bar b).maxonCuts = 0 ∧ (t.bar b).bus = ⟨none, false, 0, 0⟩) ∧
       t.link = { rx := .hunting, inProgress := none, replies := [] } ∧
       t.lc.mode = .config ∧ t.lc.condition = .normal ∧ t.lc.pendingSet = 0 ∧ t.lc.mask = 0 ∧ t.lc.attn = false ∧
       t.lc.faultLine = false ∧ t.lc.capture = none ∧ ∀ o, t.lc.tallies.get o = List.replicate 16 0) ∧
     exec .resetPinAsserted s =
       .next
         { s with
           pins := { s.pins with inReset := true }
           link := { rx := .hunting, inProgress := none, replies := [] }
           ports := s.ports.map fun p => { p with rx := .hunting }
           bars := s.bars.map fun u => { u with bus := { u.bus with sending := none } } }) ∧
  (∀ (c : Instr) (s : State), s.pins.inReset = true →
     (∀ a b, c ≠ .encoderTransition a b) → (∀ b, c ≠ .driverFault b) → (∀ b, c ≠ .faultLineInactive b) →
     c ≠ .resetPin → c ≠ .resetPinAsserted → exec c s = .next s) ∧
  (∀ (a b : Bool) (k : Bar) (s : State), s.pins.inReset = true →
     exec (.encoderTransition a b) s = .next { s with pins := { s.pins with levels := ⟨a, b⟩ } } ∧
     exec (.driverFault k) s = .next { s with pins := { s.pins with faultLines := s.pins.faultLines.set k true } } ∧
     exec (.faultLineInactive k) s =
       .next { s with pins := { s.pins with faultLines := s.pins.faultLines.set k false } })

/-! ### Belt -/

/-- The decoder: levels two phases apart add one to ENC_ERR and give no count, levels one phase apart that do not cross
between phase 3 and phase 0 give no count either; the new phase becomes the reference in both cases (R1). -/
def Obligations.Encoder_transition_without_a_count : Prop :=
  ∀ (a b : Bool) (s : State), s.pins.inReset = false →
    ((a ≠ s.bpu.ref.a ∧ b ≠ s.bpu.ref.b) →
      exec (.encoderTransition a b) s =
        .next
          { s with
            pins := { s.pins with levels := ⟨a, b⟩ }
            bpu := { s.bpu with ref := ⟨a, b⟩, encErr := min (s.bpu.encErr + 1) 65535 } }) ∧
    ((a = s.bpu.ref.a ∧ b ≠ s.bpu.ref.b ∨ a ≠ s.bpu.ref.a ∧ b = s.bpu.ref.b) →
      ¬(s.bpu.ref = ⟨false, true⟩ ∧ a = false ∧ b = false) → ¬(s.bpu.ref = ⟨false, false⟩ ∧ a = false ∧ b = true) →
      exec (.encoderTransition a b) s =
        .next { s with pins := { s.pins with levels := ⟨a, b⟩ }, bpu := { s.bpu with ref := ⟨a, b⟩ } })

/-- The step divider and the raw position: a forward count within a step, a forward step of recovery, a reverse count
within a step, a reverse count beyond the bound on the depth, and a reverse step that does not halt the line (R2, R3, R4,
R8). After a step of P the open condition of every nozzle is evaluated (R122). -/
def Obligations.Counts_move_the_sub_step_and_P : Prop :=
  ∀ s : State, s.pins.inReset = false →
    (s.bpu.ref = ⟨false, true⟩ →
      (s.bpu.sub + 1 ≠ s.bpu.encDiv →
        exec (.encoderTransition false false) s =
          .next
            { s with
              pins := { s.pins with levels := ⟨false, false⟩ }
              bpu := { s.bpu with ref := ⟨false, false⟩, sub := s.bpu.sub + 1 } }) ∧
      (s.bpu.sub + 1 = s.bpu.encDiv → s.bpu.P ≠ s.bpu.T →
        exec (.encoderTransition false false) s =
          .next
            (State.settle
              { s with
                pins := { s.pins with levels := ⟨false, false⟩ }
                bpu := { s.bpu with ref := ⟨false, false⟩, sub := 0, P := s.bpu.P + 1 } }))) ∧
    (s.bpu.ref = ⟨false, false⟩ →
      (0 < s.bpu.sub →
        exec (.encoderTransition false true) s =
          .next
            { s with
              pins := { s.pins with levels := ⟨false, true⟩ }
              bpu := { s.bpu with ref := ⟨false, true⟩, sub := s.bpu.sub - 1 } }) ∧
      (s.bpu.sub = 0 → 1048575 ≤ (s.bpu.T - s.bpu.P).toNat →
        exec (.encoderTransition false true) s =
          .next
            { s with
              pins := { s.pins with levels := ⟨false, true⟩ }
              bpu := { s.bpu with ref := ⟨false, true⟩ } }) ∧
      (s.bpu.sub = 0 → (s.bpu.T - s.bpu.P).toNat < 1048575 →
        (s.running = false ∨ (s.bpu.T - s.bpu.P).toNat + 1 ≤ s.bpu.revMax) →
        exec (.encoderTransition false true) s =
          .next
            (State.settle
              { s with
                pins := { s.pins with levels := ⟨false, true⟩ }
                bpu := { s.bpu with ref := ⟨false, true⟩, sub := s.bpu.encDiv - 1, P := s.bpu.P - 1 } })))

/-- In RUN and DRAINING a reverse step that takes the depth above REV_MAX halts the line: mode and condition HALTED, FAULT
asserted, the countdown 0, HALTED raised and captured where the capture is empty, every nozzle closed or cooling; records,
queues, tracking settings and banks stay (R8, R152). -/
def Obligations.Reverse_step_beyond_REV_MAX_halts : Prop :=
  ∀ s : State, s.pins.inReset = false → s.bpu.ref = ⟨false, false⟩ → s.bpu.sub = 0 → s.running = true →
    (s.bpu.T - s.bpu.P).toNat < 1048575 → s.bpu.revMax < (s.bpu.T - s.bpu.P).toNat + 1 →
    ∃ t, exec (.encoderTransition false true) s = .next t ∧
      t.lc.mode = .halted ∧ t.lc.condition = .halted ∧ t.lc.faultLine = true ∧
      t.lc.pendingSet = s.lc.pendingSet ||| 8192 ∧
      (s.lc.capture = none → t.lc.capture = some ⟨.halted, s.bpu.T, .none, none, 0⟩) ∧
      t.bpu = { s.bpu with ref := ⟨false, true⟩, sub := s.bpu.encDiv - 1, P := s.bpu.P - 1, G := 0 } ∧
      (∀ b, ∀ n ∈ (t.bar b).nozzles, n.st ≠ .opened) ∧
      t.ft = s.ft ∧ t.ports = s.ports ∧ t.tracking = s.tracking ∧ t.ae = s.ae ∧ t.banks = s.banks ∧ t.link = s.link

/-- A forward step with P equal to T is a T advance: P and T go up together, a pulse is owed, the window counts it, a stall
ends, every UP station's silence count goes up and may make it SILENT with STATION_SILENT, a new block of 256 steps clears
the rate counts, and a pending switch at the new T takes effect (R3, R6, R7, R9, R12, R21, R26, R97). On a running line a
record whose point the new T equals moves on, no interval that ends there is left, and every other record stays; on
another no record changes (R43, R124). Every nozzle is evaluated at the new T: an opening sets the FIRED flag of its
governing zone, and a change of the open nozzles owes a frame (R103, R122, R123). -/
def Obligations.T_advance_reaches_every_block : Prop :=
  ∀ s : State, s.pins.inReset = false → s.bpu.ref = ⟨false, true⟩ → s.bpu.sub + 1 = s.bpu.encDiv → s.bpu.P = s.bpu.T →
    ∃ t, exec (.encoderTransition false false) s = .next t ∧
      t.pins = { s.pins with levels := ⟨false, false⟩ } ∧
      t.bpu =
        { s.bpu with
          ref := ⟨false, false⟩, sub := 0, P := s.bpu.P + 1, T := s.bpu.T + 1, owed := min (s.bpu.owed + 1) 255
          windowCount := min (s.bpu.windowCount + 1) 65535, stalled := false
          Z := if s.bpu.stalled then 0 else s.bpu.Z, G := t.bpu.G } ∧
      (s.bpu.stalled = true → t.bpu.G = 0 ∧ t.lc.pendingSet.getLsbD 12 = true) ∧
      (∀ p, t.port p =
          { s.port p with
            silence := if (s.port p).state = .up then min ((s.port p).silence + 1) 65535 else (s.port p).silence
            state :=
              if (s.port p).state = .up ∧ (s.port p).silentSteps ≤ min ((s.port p).silence + 1) 65535 then .silent
              else (s.port p).state
            rateCount := if (s.bpu.T + 1).toNat % 256 = 0 then 0 else (s.port p).rateCount
            queue := (t.port p).queue, hold := (t.port p).hold } ∧
        ((t.port p).queue = (s.port p).queue ∨ (t.port p).queue = []) ∧
        ((s.port p).state = .up → (s.port p).silentSteps ≤ min ((s.port p).silence + 1) 65535 →
          t.lc.pendingSet.getLsbD 1 = true)) ∧
      (∀ w, s.banks.pendingSwitch = some w → w.c = s.bpu.T + 1 →
        t.banks.active = w.target ∧ t.banks.pendingSwitch = none ∧ t.lc.pendingSet.getLsbD 14 = true) ∧
      ((∀ w, s.banks.pendingSwitch = some w → w.c ≠ s.bpu.T + 1) →
        t.banks.active = s.banks.active ∧ t.banks.pendingSwitch = s.banks.pendingSwitch) ∧
      (s.running = false → t.ft = s.ft) ∧
      (s.running = true → TableOk s →
        ∀ l ∈ s.ft.live,
          (s.awaited l.record ≠ some (s.bpu.T + 1) → l ∈ t.ft.live) ∧
          (s.awaited l.record = some (s.bpu.T + 1) →
            ∀ x ∈ t.ft.live, x.slot = l.slot → x.record.st ≠ l.record.st ∧ s.awaited x.record ≠ some (s.bpu.T + 1))) ∧
      (s.running = true → TableOk s → OwnersOk s →
        ∀ b, ∀ n ∈ (t.bar b).nozzles, ∀ iv ∈ n.ivals, iv.fireOff ≠ s.bpu.T + 1) ∧
      t.Evaluated ∧
      (∀ b,
        (t.bar b).nozzles.length = (s.bar b).nozzles.length ∧ (t.bar b).zones.length = (s.bar b).zones.length ∧
        (∀ (i : Nat) (z : Zone), (s.bar b).zones[i]? = some z →
          ∃ fired, (t.bar b).zones[i]? = some { z with fired } ∧
            (fired = true ↔ z.fired = true ∨
              ∃ m, m < (s.bar b).nozzles.length ∧ ((s.bar b).nozzle m).st = .closed ∧ ((t.bar b).nozzle m).st = .opened ∧
                governing (s.bar b).zones m = some i)) ∧
        ((t.bar b).bus = { (s.bar b).bus with owed := (t.bar b).bus.owed }) ∧
        ((t.bar b).bus.owed = true ↔ (s.bar b).bus.owed = true ∨
          ∃ m, m < (s.bar b).nozzles.length ∧ ((s.bar b).nozzle m).st ≠ ((t.bar b).nozzle m).st)) ∧
      t.banks.data = s.banks.data ∧
      (∀ b, (t.bar b).settings = (s.bar b).settings ∧ (t.bar b).state = (s.bar b).state ∧
        (t.bar b).maxonCuts = (s.bar b).maxonCuts) ∧
      t.tracking = s.tracking ∧ t.ae = s.ae ∧ t.link = s.link ∧ t.lc.mask = s.lc.mask

/-- The one live record of a running line, in RUN or DRAINING, takes the point that the new T equals (R43). An OPEN
record is decided, where its freeze point is still ahead and no station falls silent at this advance (R49). A DECIDED
record with PASS becomes PASSING with PASSED, with its retire line still ahead; with an enabled bar whose arm point is
ahead it becomes COMMITTED; with the lowest enabled bar, or one not enabled, it is armed in the same event (R50). A
COMMITTED record is armed at the arm point (R51, R104); both armings with the retire line still ahead, the record
within L_MAX and the settings in their ranges, so that its fire-off lies ahead of T. An ARMED record's intervals are
removed and it retires FIRED (R52, R124); a PASSING record retires with its pending outcome (R53). A retirement frees
the slot, advances its generation and adds one tally (R48), and in DRAINING completes the drain: CONFIG, queues
emptied, HOLD released, the countdown 0, DRAINED (R151). The points are those of R42, with f the lowest-numbered
enabled bar, l the highest and D_max the largest D_s among enabled stations, and each is awaited in the state R42
names. -/
def Obligations.Point_of_a_lone_record_is_taken : Prop :=
  (∀ (s : State) (slot : Nat) (r : Record), s.pins.inReset = false → s.bpu.ref = ⟨false, true⟩ →
     s.bpu.sub + 1 = s.bpu.encDiv → s.bpu.P = s.bpu.T → s.running = true → s.ft.live = [⟨slot, r⟩] → s.ft.liveCount = 1 →
     s.awaited r = some (s.bpu.T + 1) →
     let after := s.bpu.T + 1
     let becomes := fun (t : State) (x : Record) =>
       t.ft = { s.ft with live := [⟨slot, x⟩] } ∧ t.banks.refs = s.banks.refs ∧ t.lc.tallies = s.lc.tallies ∧
         t.lc.mode = s.lc.mode
     let arms := fun (t : State) (v : Verdict) (b : Bar) =>
       let x : Record := { r with st := .committed v b }
       ∃ w : State, w.bars = s.bars ∧ w.banks = s.banks ∧ w.bpu.T = after ∧ w.bpu.V = s.bpu.V ∧
         w.ft = { s.ft with live := [⟨slot, x⟩] } ∧ t.ft = (w.arm slot x v b).ft ∧
         (∀ c m, ((t.bar c).nozzle m).ivals = (((w.arm slot x v b).bar c).nozzle m).ivals) ∧
         (∀ c, (t.bar c).lateFire = ((w.arm slot x v b).bar c).lateFire) ∧
         t.banks.refs = s.banks.refs ∧ t.lc.tallies = s.lc.tallies ∧ t.lc.mode = s.lc.mode
     let retires := fun (t : State) (o : RecOutcome) (material : Nat) =>
       t.ft = { live := [], liveCount := 0, freeList := s.ft.freeList ++ [slot], gens := s.ft.gens.modify slot fun g => g + 1 } ∧
         t.banks.refs = s.banks.refs.set r.bank (s.banks.refs.get r.bank - 1) ∧
         t.lc.tallies = s.lc.tallies.bump o material ∧ (s.lc.mode = .run → t.lc.mode = .run) ∧
         (s.lc.mode = .draining →
           t.lc.mode = .config ∧ t.bpu.G = 0 ∧ t.lc.pendingSet.getLsbD 15 = true ∧
             ∀ p, (t.port p).queue = [] ∧ (t.port p).hold = false)
     let retireAhead := ∀ q, s.retireLine r.Xt = some q → atOrBehind q after = false
     let inRange := s.InRange ∧ stepsTo r.X r.Xt ≤ s.tracking.lMax
     ∃ t, exec (.encoderTransition false false) s = .next t ∧
       (r.st = .opened → (∀ q, s.freezePoint r.X = some q → atOrBehind q after = false) →
         (∀ q, ((s.port q).state = .up → (s.port q).silence + 1 < (s.port q).silentSteps) ∧ (s.port q).silence < 65535) →
         becomes t (decideRecord s r)) ∧
       (∀ v, r.st = .decided v .pass → retireAhead → becomes t { r with st := .passing v .pass .passed }) ∧
       (∀ v b, r.st = .decided v (.bar b) →
         ((s.bar b).settings.enabled = true → (∀ q, s.armPoint r.X b = some q → atOrBehind q after = false) →
           becomes t { r with st := .committed v b }) ∧
         ((s.bar b).settings.enabled = false ∨ s.lowBar = some b → retireAhead → inRange → arms t v b)) ∧
       (∀ v b, r.st = .committed v b → retireAhead → inRange → arms t v b) ∧
       (∀ v sch, r.st = .armed v sch →
         retires t .fired v.material ∧
           ∀ n ∈ (t.bar sch.bar).nozzles, ∀ iv ∈ n.ivals, iv.owner ≠ s.ft.handle slot) ∧
       (∀ v d o, r.st = .passing v d o → retires t o v.material)) ∧
  (∀ (s : State) (r : Record) (x : Pos) (b : Bar) (D : Nat),
     let on := fun c : Bar => (s.bar c).settings.enabled = true
     let at_ := fun (q : Pos) (c : Bar) => q + BitVec.ofNat 32 (s.bar c).settings.E
     ((∃ p, (s.port p).enabled = true ∧ (s.port p).D = D) → (∀ p, (s.port p).enabled = true → (s.port p).D ≤ D) →
       s.decisionPoint r = r.Xt + BitVec.ofNat 32 D + BitVec.ofNat 32 s.tracking.settle) ∧
     (on b → (∀ c, on c → barNo b ≤ barNo c) →
       s.lowBar = some b ∧ s.freezePoint x = some (at_ x b - BitVec.ofNat 32 (s.bar b).settings.A)) ∧
     (on b → s.armPoint x b = some (at_ x b - BitVec.ofNat 32 (s.bar b).settings.A)) ∧
     (¬on b → s.armPoint x b = s.freezePoint x) ∧
     (on b → (∀ c, on c → barNo c ≤ barNo b) →
       s.retireLine x = some (at_ x b + BitVec.ofNat 32 (s.bar b).settings.mBack)) ∧
     s.awaited r =
       match r.st with
       | .opened => some (s.decisionPoint r)
       | .decided _ _ => s.freezePoint r.X
       | .committed _ c => s.armPoint r.X c
       | .armed _ sch => some sch.fireOff
       | .passing _ _ _ => s.retireLine r.Xt)

/-- The Line Clock: a pulse starts while one is owed and the line is low, and its end takes one from the owed count; at
any other moment nothing happens (R7; entry 3). Each is taken whatever time LCLK has kept its level, less than the 1 µs
of R7 included: that a timer event given as a command is its expiry is the model's choice (entry 2). -/
def Obligations.Line_Clock_pulse_start_and_end : Prop :=
  ∀ s : State, s.pins.inReset = false →
    (0 < s.bpu.owed → s.bpu.lclk = false →
      exec .lclkPulseStart s = .next { s with bpu := { s.bpu with lclk := true, lclkHeld := 0 } }) ∧
    (s.bpu.owed = 0 ∨ s.bpu.lclk = true → exec .lclkPulseStart s = .next s) ∧
    (s.bpu.lclk = true →
      exec .lclkPulseEnd s = .next { s with bpu := { s.bpu with lclk := false, lclkHeld := 0, owed := s.bpu.owed - 1 } }) ∧
    (s.bpu.lclk = false → exec .lclkPulseEnd s = .next s)

/-- The end of a speed window: the history takes the count at its newest end, V is the sum of the four counts, the stall
count is updated and may declare a stall with STALL, and the guard countdown counts the empty windows of a stalled
running line and halts it at GUARD_W (R9, R10, R11, R14). A stall it declares and a halt close every open nozzle, which
owes a frame, and leave every interval, cooling and zone as they are; otherwise no bar changes (R122, R123). -/
def Obligations.Window_end_updates_speed_stall_and_guard : Prop :=
  ∀ s : State, s.pins.inReset = false →
    ∃ t, exec .windowEnd s = .next t ∧
      t.bpu =
        { s.bpu with
          windowTime := 0, windowCount := 0
          history := ⟨s.bpu.history.older, s.bpu.history.newer, s.bpu.history.newest, s.bpu.windowCount⟩
          V := min (s.bpu.history.older + s.bpu.history.newer + s.bpu.history.newest + s.bpu.windowCount) 65535
          Z := if s.bpu.windowCount = 0 then min (s.bpu.Z + 1) 255 else 0
          stalled := t.bpu.stalled, G := t.bpu.G } ∧
      (t.bpu.stalled = true ↔ s.bpu.stalled = true ∨ s.bpu.stallW ≤ t.bpu.Z) ∧
      (s.bpu.stalled = false → s.bpu.stallW ≤ t.bpu.Z → t.lc.pendingSet.getLsbD 11 = true) ∧
      (s.bpu.windowCount = 0 → s.bpu.stalled = true → s.bpu.guard = true → s.running = true →
        (min (s.bpu.G + 1) 255 < s.bpu.guardW → t.bpu.G = min (s.bpu.G + 1) 255 ∧ t.lc = s.lc) ∧
        (s.bpu.guardW ≤ min (s.bpu.G + 1) 255 →
          t.bpu.G = 0 ∧ t.lc.mode = .halted ∧ t.lc.condition = .halted ∧ t.lc.faultLine = true ∧
          t.lc.pendingSet.getLsbD 13 = true)) ∧
      (s.bpu.windowCount ≠ 0 ∨ s.bpu.stalled = false ∨ s.bpu.guard = false ∨ s.running = false →
        t.bpu.G = s.bpu.G ∧ t.lc.mode = s.lc.mode ∧ t.lc.faultLine = s.lc.faultLine) ∧
      (s.Evaluated →
        s.bpu.stalled = false ∧ t.bpu.stalled = true ∨ s.running = true ∧ t.lc.mode = .halted → ∀ b,
        t.bar b =
          { s.bar b with
            nozzles := (s.bar b).nozzles.map fun n => if n.st = .opened then { n with st := .closed, onTime := 0 } else n
            bus :=
              { (s.bar b).bus with
                owed := (s.bar b).bus.owed || (s.bar b).nozzles.any fun n => n.st == .opened } }) ∧
      (t.bpu.stalled = s.bpu.stalled → t.lc.mode = s.lc.mode → t.bars = s.bars) ∧
      t.ft = s.ft ∧ t.ports = s.ports ∧ t.tracking = s.tracking ∧ t.ae = s.ae ∧ t.banks = s.banks ∧ t.link = s.link

/-! ### Stations -/

/-- A frame at a receiver that stands at its start (R164): at a DISABLED station it is discarded uncounted; otherwise a
frame that fails the format check or, for a DETECT, the content check counts BAD_FRAME, and a duplicate counts
DUPLICATE; nothing else of the part changes but the port's receiver, which hunts again (R17, R18, R19, R20). The content
check, condition by condition (R19, R164). -/
def Obligations.Station_frame_discarded : Prop :=
  (∀ (p : Station) (s : State), s.pins.inReset = false → (s.port p).rx.atStart = true →
     ((s.port p).state = .disabled → ∀ f g,
       exec (.sync p f) s = .next (s.setPort p { s.port p with rx := .hunting }) ∧
       exec (.detect p g) s = .next (s.setPort p { s.port p with rx := .hunting })) ∧
     ((s.port p).state ≠ .disabled →
       (∀ f : SyncFrame,
         (f.check ≠ stationCheck syncKind (syncBody f) ∨ f.station.toNat ≠ stationNo p →
           exec (.sync p f) s =
             .next
               (s.setPort p
                 { s.port p with
                   rx := .hunting
                   counters := { (s.port p).counters with badFrame := min ((s.port p).counters.badFrame + 1) 4294967295 } })) ∧
         (f.check = stationCheck syncKind (syncBody f) → f.station.toNat = stationNo p → (s.port p).lastSeq = some f.seq →
           exec (.sync p f) s =
             .next
               (s.setPort p
                 { s.port p with
                   rx := .hunting
                   counters := { (s.port p).counters with duplicate := min ((s.port p).counters.duplicate + 1) 4294967295 } }))) ∧
       (∀ f : DetectFrame,
         (f.check ≠ stationCheck detectKind (detectBody f) ∨ f.station.toNat ≠ stationNo p ∨ contentOk f = false →
           exec (.detect p f) s =
             .next
               (s.setPort p
                 { s.port p with
                   rx := .hunting
                   counters := { (s.port p).counters with badFrame := min ((s.port p).counters.badFrame + 1) 4294967295 } })) ∧
         (f.check = stationCheck detectKind (detectBody f) → f.station.toNat = stationNo p → contentOk f = true →
           (s.port p).lastSeq = some f.seq →
           exec (.detect p f) s =
             .next
               (s.setPort p
                 { s.port p with
                   rx := .hunting
                   counters :=
                     { (s.port p).counters with duplicate := min ((s.port p).counters.duplicate + 1) 4294967295 } }))))) ∧
  (∀ f : DetectFrame, contentOk f = true ↔
     f.first.toNat ≤ f.last.toNat ∧ f.last.toNat ≤ 159 ∧ f.cls.toNat ≤ 63 ∧ (∀ a, f.area = some a → a ≠ 0) ∧
     (∀ m, f.metal = some m → m = 0 ∨ m = 1) ∧ (f.lTrail - f.lLead).toNat < 1048576)

/-- A good SYNC: at a WAITING or SILENT station it latches the Base T − L_sync and brings the station UP; at an UP station
it keeps the Base within SLIP_TOL and replaces it otherwise, with STATION_SLIP (R17, R20, R22, R23). -/
def Obligations.Good_SYNC_latches_or_tests_the_Base : Prop :=
  ∀ (p : Station) (f : SyncFrame) (s : State), s.pins.inReset = false → (s.port p).rx.atStart = true →
    f.check = stationCheck syncKind (syncBody f) → f.station.toNat = stationNo p → (s.port p).lastSeq ≠ some f.seq →
    let gap := match (s.port p).lastSeq with
      | none => 0
      | some n => (f.seq - n - 1).toNat
    let q : Port :=
      { s.port p with
        rx := .hunting, lastSeq := some f.seq, silence := 0
        counters := { (s.port p).counters with seqGap := min ((s.port p).counters.seqGap + gap) 4294967295 } }
    let candidate := s.bpu.T - f.lSync
    ((s.port p).state = .waiting ∨ (s.port p).state = .silent →
      exec (.sync p f) s =
        .next ((s.setPort p { q with base := some candidate, state := .up }).raise .stationUp (.station p) none)) ∧
    (∀ base, (s.port p).state = .up → (s.port p).base = some base →
      (-((s.port p).slipTol : Int) ≤ (candidate - base).toInt ∧ (candidate - base).toInt ≤ (s.port p).slipTol →
        exec (.sync p f) s = .next (s.setPort p q)) ∧
      (¬(-((s.port p).slipTol : Int) ≤ (candidate - base).toInt ∧ (candidate - base).toInt ≤ (s.port p).slipTol) →
        exec (.sync p f) s =
          .next ((s.setPort p { q with base := some candidate }).raise .stationSlip (.station p) none)))

/-- A good DETECT that passes the rate test at an UP station of a running line is relocated by Base and D_s and joins the
queue, or is dropped with QUEUE_DROP where the queue holds 32 entries (R26, R27, R28, R30). -/
def Obligations.Good_DETECT_is_relocated_and_queued : Prop :=
  ∀ (p : Station) (f : DetectFrame) (base : Pos) (s : State), s.pins.inReset = false → (s.port p).rx.atStart = true →
    f.check = stationCheck detectKind (detectBody f) → f.station.toNat = stationNo p → contentOk f = true →
    (s.port p).lastSeq ≠ some f.seq → s.lc.mode = .run ∨ s.lc.mode = .draining → (s.port p).state = .up →
    (s.port p).base = some base → (s.port p).rate = 0 ∨ (s.port p).rateCount < (s.port p).rate →
    let gap := match (s.port p).lastSeq with
      | none => 0
      | some n => (f.seq - n - 1).toNat
    let d : Detection :=
      { station := p
        X := f.lLead + base - BitVec.ofNat 32 (s.port p).D
        Xt := f.lTrail + base - BitVec.ofNat 32 (s.port p).D
        first := f.first.toNat, last := f.last.toNat, cls := f.cls.toNat, conf := f.conf.toNat
        area := f.area.map (·.toNat), metal := f.metal.map (· == 1) }
    let q : Port :=
      { s.port p with
        rx := .hunting, lastSeq := some f.seq, silence := 0, rateCount := min ((s.port p).rateCount + 1) 255
        counters := { (s.port p).counters with seqGap := min ((s.port p).counters.seqGap + gap) 4294967295 } }
    ((s.port p).queue.length < 32 →
      exec (.detect p f) s =
        .next
          (s.setPort p
            { q with
              queue := (s.port p).queue ++ [d]
              hold := (s.port p).hold || decide ((s.port p).queue.length + 1 = 24)
              counters := { q.counters with accepted := min (q.counters.accepted + 1) 4294967295 } })) ∧
    (32 ≤ (s.port p).queue.length →
      exec (.detect p f) s =
        .next
          ((s.setPort p
              { q with counters := { q.counters with queueDrop := min (q.counters.queueDrop + 1) 4294967295 } }).raise
            .queueDrop (.station p) none))

/-- A good DETECT that is not queued: ACCEPTED in CONFIG and HALTED, NOBASE at a WAITING or SILENT station, STORM_DROP with
the STORM notice where the rate count has reached RATE_s (R24, R25, R26). That a WAITING or SILENT station counts ACCEPTED
in CONFIG and HALTED, after a RESET request too, is the model's choice between R24 and the last paragraphs of R21 and
R35 (entry 32). -/
def Obligations.Good_DETECT_discarded : Prop :=
  ∀ (p : Station) (f : DetectFrame) (s : State), s.pins.inReset = false → (s.port p).rx.atStart = true →
    f.check = stationCheck detectKind (detectBody f) → f.station.toNat = stationNo p → contentOk f = true →
    (s.port p).state ≠ .disabled → (s.port p).lastSeq ≠ some f.seq →
    let gap := match (s.port p).lastSeq with
      | none => 0
      | some n => (f.seq - n - 1).toNat
    let q : Port :=
      { s.port p with
        rx := .hunting, lastSeq := some f.seq, silence := 0
        counters := { (s.port p).counters with seqGap := min ((s.port p).counters.seqGap + gap) 4294967295 } }
    (s.lc.mode = .config ∨ s.lc.mode = .halted →
      exec (.detect p f) s =
        .next (s.setPort p { q with counters := { q.counters with accepted := min (q.counters.accepted + 1) 4294967295 } })) ∧
    (s.lc.mode = .run ∨ s.lc.mode = .draining →
      ((s.port p).state = .waiting ∨ (s.port p).state = .silent →
        exec (.detect p f) s =
          .next (s.setPort p { q with counters := { q.counters with noBase := min (q.counters.noBase + 1) 4294967295 } })) ∧
      ((s.port p).state = .up → (s.port p).base.isSome = true → 0 < (s.port p).rate → (s.port p).rate ≤ (s.port p).rateCount →
        exec (.detect p f) s =
          .next
            ((s.setPort p
                { q with counters := { q.counters with stormDrop := min (q.counters.stormDrop + 1) 4294967295 } }).raise
              .storm (.station p) none)))

/-- A kind or length the table of 11.3 does not allow counts BAD_FRAME at once, unless the station is DISABLED, and the
receiver hunts again; a start mark sets a hunting receiver collecting, and inside a frame it is collected like any other
byte: as a length, as a kind, which none is, and in a body (R162, R164). -/
def Obligations.Bad_frame_and_port_start_mark : Prop :=
  ∀ (p : Station) (length kind : Byte) (s : State), s.pins.inReset = false →
    let bad : State :=
      s.setPort p
        { s.port p with
          rx := .hunting
          counters :=
            if (s.port p).state = .disabled then (s.port p).counters
            else { (s.port p).counters with badFrame := min ((s.port p).counters.badFrame + 1) 4294967295 } }
    let collecting := fun got : List Byte => s.setPort p { s.port p with rx := .collecting got }
    ((s.port p).rx.atStart = true → ¬((kind = 1 ∧ length = 6) ∨ (kind = 2 ∧ 14 ≤ length.toNat ∧ length.toNat ≤ 17)) →
      exec (.badFrame p length kind) s = .next bad) ∧
    ((s.port p).rx = .hunting → exec (.portStartMark p) s = .next (collecting [])) ∧
    ((s.port p).rx = .collecting [] → exec (.portStartMark p) s = .next (collecting [126])) ∧
    ((s.port p).rx = .collecting [length] → exec (.portStartMark p) s = .next bad) ∧
    (∀ rest, (s.port p).rx = .collecting (length :: kind :: rest) →
      kind = 1 ∧ length = 6 ∨ kind = 2 ∧ 14 ≤ length.toNat ∧ length.toNat ≤ 17 → rest.length + 1 < length.toNat + 2 →
      exec (.portStartMark p) s = .next (collecting (length :: kind :: rest ++ [126])))

/-! ### Association Engine -/

/-- In RUN and DRAINING the free engine takes the head entry of the first port, from the service pointer on, whose
queue holds an entry, and is free again after its treatment with the pointer at the port after it; with every queue
empty, or in another mode, nothing happens (R58, R59). The search goes on from the pointer in the order S0, S1, S2,
S3, S0. -/
def Obligations.Engine_serves_the_ports_in_turn : Prop :=
  (∀ s : State, s.pins.inReset = false →
     (s.running = false ∨ (∀ p, (s.port p).queue = []) → exec .assocTake s = .next s) ∧
     (∀ before p after, s.running = true → s.ae.free = true → searchOrder s.ae.pointer = before ++ p :: after →
       (∀ q ∈ before, (s.port q).queue = []) → (s.port p).queue ≠ [] →
       ∃ t, exec .assocTake s = .next t ∧ t.ae = { pointer := nextStation p, free := true } ∧
         t.bpu = { s.bpu with G := t.bpu.G } ∧ t.link = s.link ∧ t.tracking = s.tracking ∧
         (∀ q, q ≠ p → (t.port q).queue = (s.port q).queue ∨ (t.port q).queue = []) ∧
         ((t.port p).queue = (s.port p).queue.tail ∨ (t.port p).queue = []))) ∧
  (∀ (s : State) (p : Station),
     (s.served = some p ↔
       ∃ before after, searchOrder s.ae.pointer = before ++ p :: after ∧ (∀ q ∈ before, (s.port q).queue = []) ∧
         (s.port p).queue ≠ []) ∧
     (searchOrder p).map stationNo = (List.range 4).map (fun k => (stationNo p + k) % 4) ∧
     stationNo (nextStation p) = (stationNo p + 1) % 4)

/-- A detection whose area is below MIN_AREA is discarded and counted DUST at its port; one whose area is at or above it and
one without an area are no dust (R61). A longer one is first shortened to L_MAX (R62). One that no candidate takes is late where a frozen match was
found or its would-be freeze point is at or behind T: it is discarded, LATE is counted at its port and LATE_EVIDENCE raised
(R65). In DRAINING any other that no candidate takes is discarded without a count or a notice (R66). No candidate takes it
where there is none, or where its union with the one it overlaps most is beyond L_MAX (R67, R69, R71). No record is
touched. -/
def Obligations.Dust_and_late_detections_are_discarded : Prop :=
  ∀ (p : Station) (d : Detection) (rest : List Detection) (s : State), Takes s p d rest →
    let counted := fun (f : PortCounters → PortCounters) =>
      (s.afterTake p rest).setPort p { (s.afterTake p rest).port p with counters := f (s.port p).counters }
    (∀ a, d.area = some a → a < s.tracking.minArea →
      exec .assocTake s = .next (counted fun c => { c with dust := min (c.dust + 1) 4294967295 })) ∧
    (d.area = none → isDust s.tracking d = false) ∧
    (∀ a, d.area = some a → s.tracking.minArea ≤ a → isDust s.tracking d = false) ∧
    (isDust s.tracking d = false → s.unclaimed (s.shortened d) →
      (s.meetsFrozen (s.shortened d) ∨ s.tooLateFor d →
        exec .assocTake s =
          .next
            ((counted fun c => { c with late := min (c.late + 1) 4294967295 }).raise .lateEvidence (.station p) none)) ∧
      (s.lc.mode = .draining → ¬s.meetsFrozen (s.shortened d) → ¬s.tooLateFor d →
        exec .assocTake s = .next (s.afterTake p rest)))

/-- In RUN a detection that no candidate takes and that is not late makes a record in the slot at the head of the free
list and in the ACTIVE bank, shortened to L_MAX and marked CLIPPED where it was longer: OPEN while its decision point
is ahead of T, and decided at once where that point is at or behind T; with no free slot TABLE_FULL is raised and no
counter changes (R37, R43, R45, R47, R62, R66). A record joins a list in belt order at its place: ordered by X, then
first lane, then slot, for records within 2^20 steps of each other (R41). Positions compare by their difference modulo
2^32, ahead where it is 1 to 2,147,483,647 (R5). -/
def Obligations.New_record_from_a_detection : Prop :=
  (∀ (p : Station) (d : Detection) (rest : List Detection) (s : State), Takes s p d rest → s.lc.mode = .run →
     isDust s.tracking d = false → s.unclaimed (s.shortened d) → ¬s.meetsFrozen (s.shortened d) → ¬s.tooLateFor d →
     s.lowBar.isSome = true →
     let r : Record :=
       { st := .opened, X := d.X, Xt := (s.shortened d).Xt, first := d.first, last := d.last, bank := s.banks.active
         evidence := (⟨none, none, none, none⟩ : PerStation (Option Entry)).set p (some ⟨d.cls, d.conf, d.area, d.metal⟩)
         flags := ⟨decide (s.tracking.lMax < stepsTo d.X d.Xt), false, false, false, false, false, false⟩, ovr := none }
     let r' := if atOrBehind (s.decisionPoint r) s.bpu.T then decideRecord s r else r
     (∀ slot free, s.ft.freeList = slot :: free → (∀ l ∈ s.ft.live, l.slot ≠ slot) →
       ∃ t, exec .assocTake s = .next t ∧
         t.ft = { s.ft with live := insertLive ⟨slot, r'⟩ s.ft.live, liveCount := s.ft.liveCount + 1, freeList := free } ∧
         t.banks = { s.banks with refs := s.banks.refs.set s.banks.active (s.banks.refs.get s.banks.active + 1) } ∧
         t.ports = (s.afterTake p rest).ports ∧ t.ae = (s.afterTake p rest).ae ∧ t.tracking = s.tracking ∧ t.lc = s.lc ∧
         t.bpu = s.bpu ∧ t.link = s.link ∧ t.Evaluated) ∧
     (s.ft.freeList = [] → exec .assocTake s = .next ((s.afterTake p rest).raise .tableFull (.station p) none))) ∧
  (∀ (x : Live) (live : List Live),
     let stands := fun y z : Live =>
       behind y.record.X z.record.X = true ∨
         y.record.X = z.record.X ∧
           (y.record.first < z.record.first ∨ y.record.first = z.record.first ∧ y.slot < z.slot)
     live.Pairwise stands → (∀ y ∈ live, y.slot ≠ x.slot) →
     (∀ y ∈ x :: live, ∀ z ∈ x :: live, (y.record.X - z.record.X).toInt.natAbs < 1048576) →
     (insertLive x live).Perm (x :: live) ∧ (insertLive x live).Pairwise stands) ∧
  (∀ a b : Pos,
     (ahead a b = true ↔ 1 ≤ (a - b).toNat ∧ (a - b).toNat ≤ 2147483647) ∧
     (behind a b = true ↔ 1 ≤ (b - a).toNat ∧ (b - a).toNat ≤ 2147483647) ∧
     (atOrAhead a b = true ↔ (a - b).toNat ≤ 2147483647) ∧ (atOrBehind a b = true ↔ (b - a).toNat ≤ 2147483647) ∧
     stepsTo b a = (a - b).toNat ∧ behindMost a b = (if behind b a then b else a) ∧
     aheadMost a b = if ahead b a then b else a)

/-- A detection is attached to the candidate it overlaps most, the only one or one of several that are not merged,
where their union fits L_MAX: extents and lanes become the union, the entry at its station's place is the detection's
where none stood or where its area is the greater, CLIPPED is set where the detection was shortened, and the record
stands at its place in belt order. A DECIDED record is re-decided; then the points that the widening has put at or
behind T are taken: the decision of an OPEN record, the freeze, and the arming at its T (R43, R62, R67, R68, R71, R72,
R87). Settings are in their ranges and pass the geometry check, as they do on a running line (R100, R149), and the
retire line lies ahead of T, as it does past every other point of a record (R42). No other record changes. A record
matches where its range meets the detection's range widened by ASSOC_TOL and its lanes meet the lanes widened by
LANE_TOL within 0 to 159 (R63, R64); its overlap is the positions common to the two ranges times the lanes common to
them (R63, R64, R71). -/
def Obligations.Detection_attaches_to_its_candidate : Prop :=
  (∀ (p : Station) (d : Detection) (rest : List Detection) (c : Live) (s : State), Takes s p d rest → TableOk s →
     s.InRange → s.geometryOk = true → isDust s.tracking d = false →
     let d' := s.shortened d
     ¬s.merges d' (s.openTo d') → s.largestOf d' (s.openTo d') c → s.fits d' c →
     let e : Entry := ⟨d.cls, d.conf, d.area, d.metal⟩
     let r : Record :=
       { c.record with
         X := behindMost c.record.X d'.X
         Xt := aheadMost c.record.Xt d'.Xt
         first := min c.record.first d.first
         last := max c.record.last d.last
         evidence := c.record.evidence.set p
           (match c.record.evidence.get p with
           | none => some e
           | some held => if held.area.getD 0 < d.area.getD 0 then some e else some held)
         flags :=
           { c.record.flags with clipped := c.record.flags.clipped || decide (s.tracking.lMax < stepsTo d.X d.Xt) } }
     let x := s.overdue (if c.record.st = .opened then r else decideRecord s r)
     s.reached (s.retireLine r.Xt) = false →
     let w : State :=
       { s.afterTake p rest with
         ft := { s.ft with live := insertLive ⟨c.slot, x⟩ (s.ft.live.filter fun l => l.slot != c.slot) } }
     ∃ t, exec .assocTake s = .next t ∧ t.EvaluatedFrom (w.armIfDue c.slot x) ∧ t.link = s.link ∧
       t.tracking = s.tracking ∧ t.ports = (s.afterTake p rest).ports ∧ t.ae = (s.afterTake p rest).ae) ∧
  (∀ (tr : Tracking) (d : Detection) (r : Record),
     let from_ := d.X - BitVec.ofNat 32 tr.assocTol
     let until_ := d.Xt + BitVec.ofNat 32 tr.assocTol
     let first := d.first - tr.laneTol
     let last := min (d.last + tr.laneTol) 159
     (isMatch tr d r = true ↔
       atOrBehind r.X until_ = true ∧ atOrBehind from_ r.Xt = true ∧ r.first ≤ last ∧ first ≤ r.last) ∧
     overlap tr d r =
       (stepsTo (if ahead from_ r.X then from_ else r.X) (if behind until_ r.Xt then until_ else r.Xt) + 1) *
         (min r.last last + 1 - max r.first first))

/-- Two or more candidates of one bank whose union with the detection fits L_MAX are merged into the first in belt
order: extents and lanes become the union, flags and the first override are kept with MERGED, the survivor is DECIDED
anew where any was DECIDED and OPEN otherwise, and its overdue points are then taken (R43, R72). Every other candidate
is absorbed without a tally: its slot joins the tail of the free list, in an order the manual leaves open (entry 8),
with its generation advanced, and the counts go down (R55, R69, R70, R72). The entry kept for a station is the first
with the greatest area among those offered, the survivor's first, then the others' in belt order, the detection's
last; a station has no entry exactly when none is offered (R70). Settings are in range and pass the geometry check, as
on a running line (R100, R149), and the retire line lies ahead of T (R42). The union runs from the behind-most X to
the ahead-most X_t, for positions within 2^20 steps of each other (R69). -/
def Obligations.Merge_of_candidates : Prop :=
  (∀ (p : Station) (d : Detection) (rest : List Detection) (c : Live) (cs : List Live) (s : State), Takes s p d rest →
     TableOk s → s.InRange → s.geometryOk = true → isDust s.tracking d = false →
     let d' := s.shortened d
     s.openTo d' = c :: cs → s.merges d' (c :: cs) →
     let some_ := fun (f : Flags → Bool) => (c :: cs).any fun l => f l.record.flags
     let r : Record :=
       { st := .opened
         X := mergedX d' (c :: cs)
         Xt := mergedXt d' (c :: cs)
         first := ((c :: cs).map (·.record.first)).foldl min d.first
         last := ((c :: cs).map (·.record.last)).foldl max d.last
         bank := c.record.bank
         evidence := ⟨mergedEntry (c :: cs) d .s0, mergedEntry (c :: cs) d .s1, mergedEntry (c :: cs) d .s2,
           mergedEntry (c :: cs) d .s3⟩
         flags :=
           { clipped := some_ (·.clipped) || decide (s.tracking.lMax < stepsTo d.X d.Xt), merged := true
             degraded := some_ (·.degraded), conflict := some_ (·.conflict), weak := some_ (·.weak)
             lateFire := some_ (·.lateFire), inserted := some_ (·.inserted) }
         ovr := (c :: cs).findSome? fun l => l.record.ovr }
     let x := s.overdue (if (∀ l ∈ c :: cs, l.record.st = .opened) then r else decideRecord s r)
     s.reached (s.retireLine r.Xt) = false →
     ∃ (t : State) (freed : List Nat) (w : State), exec .assocTake s = .next t ∧ freed.Perm (cs.map (·.slot)) ∧
       w.ft.live = insertLive ⟨c.slot, x⟩ (s.ft.live.filter fun l => !((c :: cs).map (·.slot)).contains l.slot) ∧
       w.ft.liveCount = s.ft.liveCount - cs.length ∧ w.ft.freeList = s.ft.freeList ++ freed ∧
       (∀ slot, slot < 1024 → w.ft.gen slot = if slot ∈ freed then s.ft.gen slot + 1 else s.ft.gen slot) ∧
       w.banks = { s.banks with refs := s.banks.refs.set c.record.bank (s.banks.refs.get c.record.bank - cs.length) } ∧
       w.bars = s.bars ∧ w.lc = s.lc ∧ w.bpu = s.bpu ∧ t.EvaluatedFrom (w.armIfDue c.slot x) ∧ t.link = s.link ∧
       t.tracking = s.tracking ∧ t.ports = (s.afterTake p rest).ports ∧ t.ae = (s.afterTake p rest).ae) ∧
  (∀ (cs : List Live) (d : Detection) (p : Station),
     let offered : List Entry :=
       cs.filterMap (fun l => l.record.evidence.get p) ++
         (if d.station = p then [⟨d.cls, d.conf, d.area, d.metal⟩] else [])
     (mergedEntry cs d p = none ↔ offered = []) ∧
     ∀ e, mergedEntry cs d p = some e →
       ∃ before after, offered = before ++ e :: after ∧ (∀ x ∈ before, x.area.getD 0 < e.area.getD 0) ∧
         ∀ x ∈ after, x.area.getD 0 ≤ e.area.getD 0) ∧
  (∀ (d : Detection) (cs : List Live),
     let starts := d.X :: cs.map (·.record.X)
     let ends := d.Xt :: cs.map (·.record.Xt)
     mergedX d cs ∈ starts ∧ mergedXt d cs ∈ ends ∧
     ((∀ p ∈ starts, ∀ q ∈ starts, (p - q).toInt.natAbs < 1048576) → ∀ p ∈ starts, behind p (mergedX d cs) = false) ∧
     ((∀ p ∈ ends, ∀ q ∈ ends, (p - q).toInt.natAbs < 1048576) → ∀ p ∈ ends, ahead p (mergedXt d cs) = false))

/-! ### Verdicts -/

/-- Top is the largest score, margin is top less the largest score of the other materials, and the material is the
smallest of the largest score where both thresholds are met, otherwise 0, WEAK where top is above 0 (R79, R80). With
weights and confidences in range top is at most 15,300. The score of a material is the sum of weight times confidence over
the evidence entries whose Class Map entry is of that material, with material and weight above 0; score[0] is 0 (R77,
R78). -/
def Obligations.Material_of_a_verdict : Prop :=
  (∀ (k : BankData) (ev : PerStation (Option Entry)) (best : Nat),
     best < 16 → (∀ m, m < 16 → score k ev m ≤ score k ev best) → (∀ m, m < best → score k ev m < score k ev best) →
     let v := verdictOf k ev
     v.top = score k ev best ∧
     (∀ m, m < 16 → m ≠ best → score k ev m ≤ v.top - v.margin) ∧
     (v.margin < v.top → ∃ m, m < 16 ∧ m ≠ best ∧ score k ev m = v.top - v.margin) ∧ v.margin ≤ v.top ∧
     (v.top = 0 → v.material = 0 ∧ isWeak k (scores k ev) = false) ∧
     (0 < v.top → v.top < k.table.minScore ∨ v.margin < k.table.minMargin →
       v.material = 0 ∧ isWeak k (scores k ev) = true) ∧
     (0 < v.top → k.table.minScore ≤ v.top → k.table.minMargin ≤ v.margin →
       v.material = best ∧ isWeak k (scores k ev) = false) ∧
     ((∀ p c, (k.classEntry p c).weight ≤ 15) → (∀ p e, ev.get p = some e → e.conf ≤ 255) → v.top ≤ 15300)) ∧
  (∀ (k : BankData) (ev : PerStation (Option Entry)) (m : Nat),
     let from_ := fun p : Station =>
       match ev.get p with
       | none => 0
       | some e =>
         let c := (k.classMap.get p).getD e.cls ⟨0, 0⟩
         if c.material = m ∧ c.material ≠ 0 ∧ c.weight ≠ 0 then c.weight * e.conf else 0
     score k ev m = from_ .s0 + from_ .s1 + from_ .s2 + from_ .s3 ∧ score k ev 0 = 0)

/-- A decision sets DEGRADED for an enabled station that is not UP and has no entry, CONFLICT for a metal flag that
disagrees with the chosen material's attribute, and takes the destination from override, DEGRADED_DEST, CONFLICT_DEST and
the Destination Table in that order; every other field stays (R76, R81, R82, R84). -/
def Obligations.Decision_sets_flags_and_destination : Prop :=
  ∀ (s : State) (r : Record),
    let k := s.banks.data.get r.bank
    let v := verdictOf k r.evidence
    let r' := decideRecord s r
    (r'.flags.degraded = true ↔
      ∃ p, (s.port p).enabled = true ∧ (s.port p).state ≠ .up ∧ r.evidence.get p = none) ∧
    (r'.flags.conflict = true ↔
      ∃ p e, r.evidence.get p = some e ∧
        ((k.destEntry v.material).attr = .metal ∧ e.metal = some false ∨
          (k.destEntry v.material).attr = .nonmetal ∧ e.metal = some true)) ∧
    ∃ d, r' = { r with st := .decided v d, flags := { r.flags with
          degraded := r'.flags.degraded, conflict := r'.flags.conflict, weak := isWeak k (scores k r.evidence) } } ∧
      (∀ o, r.ovr = some o → d = o) ∧
      (r.ovr = none → r'.flags.degraded = true → d = k.table.degradedDest) ∧
      (r.ovr = none → r'.flags.degraded = false → r'.flags.conflict = true → d = k.table.conflictDest) ∧
      (r.ovr = none → r'.flags.degraded = false → r'.flags.conflict = false → d = (k.destEntry v.material).dest)

/-! ### Arming -/

/-- The arming's refusals: DROPPED at a bar that is not READY or a set wider than MAX_NOZ, MASKED where every nozzle
lies under OFF; no interval is placed and no notice raised (R104, R105, R106). An arming that comes to the guard and is
suppressed leaves the record PASSING with SUPPRESSED, after ZONE_WATCH and LATE_FIRE have been told of and with no
interval placed (R106, R108, R111, R115). At a GUARDED bar a record is suppressed exactly where some other live record
has a verdict, is not bound for the bar, meets it in presence window and widened lanes, and ranks strictly higher (R110,
R111). -/
def Obligations.Arming_refused_and_guarded : Prop :=
  (∀ (s : State) (slot : Nat) (r : Record) (v : Verdict) (b : Bar),
     let st := (s.bar b).settings
     let first := r.first - st.widen
     let last := min (r.last + st.widen) 159
     ((s.bar b).state ≠ .ready → s.arm slot r v b = s.setRecState slot (.passing v (.bar b) .dropped)) ∧
     ((s.bar b).state = .ready → st.maxNoz < last + 1 - first →
       s.arm slot r v b = s.setRecState slot (.passing v (.bar b) .dropped)) ∧
     ((s.bar b).state = .ready → last + 1 - first ≤ st.maxNoz →
       (∀ n, first ≤ n → n ≤ last → keyAt (s.bar b).zones n = .off) →
       s.arm slot r v b = s.setRecState slot (.passing v (.bar b) .masked)) ∧
     ((s.bar b).state = .ready → last + 1 - first ≤ st.maxNoz →
       (∃ n, first ≤ n ∧ n ≤ last ∧ keyAt (s.bar b).zones n ≠ .off) → s.isSuppressed b slot r = true →
       s.arm slot r v b = (s.armingTold b slot r).setRecState slot (.passing v (.bar b) .suppressed))) ∧
  (∀ (s : State) (b : Bar) (slot : Nat) (a : Record),
     let st := (s.bar b).settings
     let from_ := fun x : Record => x.X + BitVec.ofNat 32 st.E - BitVec.ofNat 32 st.mFront
     let until_ := fun x : Record => x.Xt + BitVec.ofNat 32 st.E + BitVec.ofNat 32 st.mBack
     s.isSuppressed b slot a = true ↔
       st.guarded = true ∧ ∃ l ∈ s.ft.live, l.slot ≠ slot ∧
         (∃ d, l.record.st.dest = some d ∧ d ≠ .bar b) ∧
         behind (from_ a) (until_ l.record) = true ∧ behind (from_ l.record) (until_ a) = true ∧
         a.first - st.widen ≤ min (l.record.last + st.widen) 159 ∧
         l.record.first - st.widen ≤ min (a.last + st.widen) 159 ∧
         ((s.banks.data.get a.bank).destEntry a.st.material).rank <
           ((s.banks.data.get l.record.bank).destEntry l.record.st.material).rank)

/-- The fire window: the leads round up and down and are held at 4,095, fire-on is never behind T, fire-off is ahead of
fire-on, and neither differs from its formula but by the clamp and the adjustment (R107, R108, R109). -/
def Obligations.Fire_window_of_an_arming : Prop :=
  ∀ (st : BarSettings) (V : Nat) (T : Pos) (r : Record),
    (leadOn st V = 4095 ∧ 32768 * 4094 < st.tOpen * V ∨ leadOn st V < 4095 ∧ st.tOpen * V ≤ 32768 * leadOn st V ∧
      32768 * leadOn st V < st.tOpen * V + 32768) ∧
    (leadOff st V = 4095 ∧ 32768 * 4095 ≤ st.tClose * V ∨ leadOff st V < 4095 ∧ 32768 * leadOff st V ≤ st.tClose * V ∧
      st.tClose * V < 32768 * (leadOff st V + 1)) ∧
    behind (fireOnOf st V T r) T = false ∧
    ahead (fireOffOf st V T r) (fireOnOf st V T r) = true ∧
    (let raw := r.X + BitVec.ofNat 32 st.E - BitVec.ofNat 32 st.mFront - BitVec.ofNat 32 (leadOn st V);
      fireOnOf st V T r = if behind raw T then T else raw) ∧
    (let raw := r.Xt + BitVec.ofNat 32 st.E + BitVec.ofNat 32 st.mBack - BitVec.ofNat 32 (leadOff st V);
      fireOffOf st V T r = if ahead raw (fireOnOf st V T r) then raw else fireOnOf st V T r + 1)

/-- An arming at a READY bar that no guard suppresses first tells of a WATCH lane in its committed set, with
ZONE_WATCH, and of a fire-on behind T, with the record's LATE_FIRE flag, the bar's count and LATE_FIRE (R106, R108,
R115). With a place on every nozzle of the committed set the record then becomes ARMED and each of those nozzles, and
no other, gains its interval; with one of them full the record is DROPPED with VALVE_FULL and no nozzle changes (R112,
R113). An interval list in order of fire-on, within 2^20 steps, takes an interval at its place, after those of an
equal fire-on (R121). The nozzle set is the record's lanes widened by WIDEN within 0 to 159, the committed set is what
is not under OFF of it, and a lane is governed by the lowest-numbered zone that covers it, with key NORMAL where none
does (R101, R105, R106). -/
def Obligations.Arming_commits_or_finds_a_nozzle_full : Prop :=
  (∀ (s : State) (slot : Nat) (r : Record) (v : Verdict) (b : Bar), (s.bar b).state = .ready →
     s.isSuppressed b slot r = false → nozzleCount (s.bar b).settings r ≤ (s.bar b).settings.maxNoz →
     let set := committedSet (s.bar b) r
     let on := fireOnOf (s.bar b).settings s.bpu.V s.bpu.T r
     let off := fireOffOf (s.bar b).settings s.bpu.V s.bpu.T r
     let told := s.armingTold b slot r
     set ≠ [] → (s.bar b).nozzles.length = 160 →
     ((∀ n ∈ set, ((s.bar b).nozzle n).ivals.length < 4) →
       ∃ t first last, s.arm slot r v b = t ∧
         t.ft = told.ft.modRecord slot (fun x => { x with st := .armed v ⟨b, on, off, first, last⟩ }) ∧
         first ∈ set ∧ last ∈ set ∧ (∀ n ∈ set, first ≤ n ∧ n ≤ last) ∧
         (∀ n, n < 160 → (t.bar b).nozzle n =
           { (s.bar b).nozzle n with
             ivals :=
               if n ∈ set then insertInterval ⟨on, off, s.ft.handle slot⟩ ((s.bar b).nozzle n).ivals
               else ((s.bar b).nozzle n).ivals }) ∧
         t.bar b = { told.bar b with nozzles := (t.bar b).nozzles } ∧
         (∀ c, c ≠ b → t.bar c = s.bar c) ∧ t.lc = told.lc ∧ t.bpu = s.bpu ∧ t.banks = s.banks) ∧
     ((∃ n ∈ set, 4 ≤ ((s.bar b).nozzle n).ivals.length) →
       s.arm slot r v b =
         (told.raise .valveFull (.bar b) (some (s.ft.handle slot))).setRecState slot (.passing v (.bar b) .dropped))) ∧
  (∀ (iv : Interval) (list : List Interval), list.Pairwise (fun x y => behind y.fireOn x.fireOn = false) →
     (∀ x ∈ iv :: list, ∀ y ∈ iv :: list, (x.fireOn - y.fireOn).toInt.natAbs < 1048576) →
     (insertInterval iv list).Pairwise (fun x y => behind y.fireOn x.fireOn = false) ∧
     ∃ before after, list = before ++ after ∧ insertInterval iv list = before ++ iv :: after ∧
       (∀ x ∈ before, atOrBehind x.fireOn iv.fireOn = true) ∧ ∀ x ∈ after, behind iv.fireOn x.fireOn = true) ∧
  (∀ (u : BarUnit) (r : Record) (n : Nat) (slot : Nat) (f : Record → Record) (ft : FragTable),
     let first := r.first - u.settings.widen
     let last := min (r.last + u.settings.widen) 159
     nozzleCount u.settings r = last + 1 - first ∧
     (n ∈ committedSet u r ↔ first ≤ n ∧ n ≤ last ∧ keyAt u.zones n ≠ .off) ∧
     (∀ i z, u.zones[i]? = some z → z.first ≤ n → n ≤ z.last →
       (∀ j y, j < i → u.zones[j]? = some y → ¬(y.first ≤ n ∧ n ≤ y.last)) →
       governing u.zones n = some i ∧ keyAt u.zones n = z.key) ∧
     ((∀ z ∈ u.zones, ¬(z.first ≤ n ∧ n ≤ z.last)) → governing u.zones n = none ∧ keyAt u.zones n = .normal) ∧
     ft.modRecord slot f =
       { ft with live := ft.live.map fun l => if l.slot = slot then { l with record := f l.record } else l })

/-! ### Valve Bars -/

/-- At MAXON an OPEN nozzle is cut: COOLING, counters from 0, MAXON_CUT counted, a frame owed; no other nozzle, no
interval and no record changes. At the end of its cooling a nozzle becomes CLOSED and opens again where its condition
holds; then, and only then, a frame is owed for it and the FIRED flag of the zone that governs its lane is set (R103, R125,
R126; entries 2, 3 and 31). -/
def Obligations.Cut_and_cooling_of_a_nozzle : Prop :=
  ∀ (b : Bar) (n : Fin 160) (s : State), s.pins.inReset = false → (s.bar b).nozzles.length = 160 →
    let z := (s.bar b).nozzle n
    (z.st = .opened →
      exec (.maxonCut b n) s =
        .next
          (s.setBar b
            { s.bar b with
              nozzles := (s.bar b).nozzles.set n { z with st := .cooling, onTime := 0, cool := 0 }
              maxonCuts := min ((s.bar b).maxonCuts + 1) 4294967295
              bus := { (s.bar b).bus with owed := true } })) ∧
    (z.st ≠ .opened → exec (.maxonCut b n) s = .next s) ∧
    (z.st = .cooling →
      ∃ t, exec (.coolingEnd b n) s = .next t ∧
        (∀ m, m < 160 → m ≠ n → (t.bar b).nozzle m = (s.bar b).nozzle m) ∧
        ((s.mayOpen b = true ∧ ∃ iv ∈ z.ivals, iv.covers s.bpu.T = true) →
          (t.bar b).nozzle n = { z with st := .opened, onTime := 0, cool := 0 } ∧
            (t.bar b).bus = { (s.bar b).bus with owed := true } ∧ (t.bar b).zones.length = (s.bar b).zones.length ∧
            ∀ (i : Nat) (x : Zone), (s.bar b).zones[i]? = some x →
              (t.bar b).zones[i]? =
                some { x with fired := x.fired || governing (s.bar b).zones n.val == some i }) ∧
        (¬(s.mayOpen b = true ∧ ∃ iv ∈ z.ivals, iv.covers s.bpu.T = true) →
          (t.bar b).nozzle n = { z with st := .closed, cool := 0 } ∧ (t.bar b).bus = (s.bar b).bus ∧
            (t.bar b).zones = (s.bar b).zones) ∧
        (∀ c, c ≠ b → t.bar c = s.bar c) ∧ t.ft = s.ft ∧ t.lc = s.lc ∧ t.bpu = s.bpu ∧ t.ports = s.ports) ∧
    (z.st ≠ .cooling → exec (.coolingEnd b n) s = .next s)

/-- The Valve Bus: an owed frame starts on an idle bus with the nozzle states and the count of that moment, and clears the
debt; a frame in progress lets the debt stand; its end starts the owed frame; the refresh timer owes a frame at its period
(R127, R128, R129; entry 17). -/
def Obligations.Valve_Bus_frames : Prop :=
  ∀ (b : Bar) (s : State), s.pins.inReset = false →
    let u := s.bar b
    let started : BarUnit :=
      { u with
        bus :=
          { sending := some { count := u.bus.count, open_ := u.nozzles.map fun n => n.st == .opened }
            owed := false, count := u.bus.count + 1, refresh := 0 } }
    (u.bus.owed = true → u.bus.sending = none → exec (.valveFrameStart b) s = .next (s.setBar b started)) ∧
    (u.bus.owed = false ∨ u.bus.sending ≠ none → exec (.valveFrameStart b) s = .next s) ∧
    (u.bus.sending ≠ none →
      exec (.valveFrameEnd b) s =
        .next (s.setBar b (if u.bus.owed then started else { u with bus := { u.bus with sending := none } }))) ∧
    (u.bus.sending = none → exec (.valveFrameEnd b) s = .next s) ∧
    exec (.refreshExpiry b) s = .next (s.setBar b { u with bus := { u.bus with owed := true, refresh := 1024 } })

/-- The fault line of a READY bar becomes active: the bar is FAULTED, none of its nozzles is open or holds an interval,
and DRIVER_FAULT is raised. Each record ARMED at it becomes PASSING with DROPPED, without a schedule, or in RUN and
DRAINING retires DROPPED at once, with its tally, where its retire line is at or behind T; every other record stays
(R52). At a bar that is not READY a line becoming active, and at any bar a line going inactive, changes nothing but the
level on the pin (R119). -/
def Obligations.Fault_line_of_a_bar : Prop :=
  (∀ (b : Bar) (s : State), s.pins.inReset = false → (s.bar b).state = .ready → TableOk s →
     let armed := s.ft.live.filter fun l => (l.record.st.schedule.map (·.bar)) == some b
     let overdue := fun l : Live => s.running && ((s.retireLine l.record.Xt).any fun q => atOrBehind q s.bpu.T)
     ∃ t, exec (.driverFault b) s = .next t ∧
       t.pins = { s.pins with faultLines := s.pins.faultLines.set b true } ∧ (t.bar b).state = .faulted ∧
       (∀ n ∈ (t.bar b).nozzles, n.st ≠ .opened ∧ n.onTime = 0 ∧ n.ivals = []) ∧
       (t.bar b).settings = (s.bar b).settings ∧ (t.bar b).zones = (s.bar b).zones ∧
       (t.bar b).lateFire = (s.bar b).lateFire ∧ (t.bar b).maxonCuts = (s.bar b).maxonCuts ∧
       (∀ l ∈ t.ft.live, ∀ v sch, l.record.st = .armed v sch → sch.bar ≠ b) ∧
       (∀ l ∈ armed,
         (overdue l = true → (∀ x ∈ t.ft.live, x.slot ≠ l.slot) ∧ t.ft.gen l.slot = s.ft.gen l.slot + 1) ∧
         (overdue l = false → ∀ v sch, l.record.st = .armed v sch →
           ⟨l.slot, { l.record with st := .passing v (.bar b) .dropped }⟩ ∈ t.ft.live)) ∧
       (∀ l ∈ s.ft.live, l ∉ armed → l ∈ t.ft.live) ∧
       t.lc.tallies = (armed.filter overdue).foldl (fun x l => x.bump .dropped l.record.st.material) s.lc.tallies ∧
       t.lc.pendingSet.getLsbD 10 = true ∧ t.lc.condition ≠ .normal ∧ t.lc.capture.isSome = true ∧
       t.bpu = { s.bpu with G := t.bpu.G } ∧ t.link = s.link ∧ t.tracking = s.tracking ∧ t.ae = s.ae ∧
       t.banks.data = s.banks.data ∧ (∀ c, c ≠ b → (t.bar c).settings = (s.bar c).settings ∧ (t.bar c).state = (s.bar c).state)) ∧
  (∀ (b : Bar) (s : State),
     ((s.bar b).state ≠ .ready →
       exec (.driverFault b) s = .next { s with pins := { s.pins with faultLines := s.pins.faultLines.set b true } }) ∧
     exec (.faultLineInactive b) s = .next { s with pins := { s.pins with faultLines := s.pins.faultLines.set b false } })

/-! ### Supervisor Link -/

/-- The receiving side: a start mark begins a frame, and inside a frame it is collected like any other byte (R162): as
the first byte of a length, as the second, which makes any length overlong, and in a body; an overlong length is
answered BAD_LENGTH with kind 0; a frame taken fails on its check, its kind or its length in that order and its reply
echoes its kind; the receiver then hunts, and nothing else of the part changes (R133, R134). The reply joins the queue
while it holds fewer than 15 replies, and at 15 unless the last place is kept for a reply not yet formed; otherwise the
frame has none (R136). The head reply leaves the queue when its last byte is sent, and the request in progress ends
where the reply was its own (R135, R136); with an empty queue nothing happens (entry 3). -/
def Obligations.Framing_faults_and_sent_replies : Prop :=
  (∀ s : State, s.pins.inReset = false →
     (s.link.rx = .hunting → exec .startMark s = .next { s with link := { s.link with rx := .collecting [] } }) ∧
     (s.link.rx = .collecting [] → exec .startMark s = .next { s with link := { s.link with rx := .collecting [165] } }) ∧
     (∀ hi lo rest, s.link.rx = .collecting (hi :: lo :: rest) → (halfOf hi lo).toNat ≤ 132 →
       rest.length + 1 < (halfOf hi lo).toNat + 3 →
       exec .startMark s =
         .next { s with link := { s.link with rx := .collecting (hi :: lo :: rest ++ [165]) } }) ∧
     (let room := s.link.replies.length < 15 ∨
        s.link.replies.length = 15 ∧ ∀ k, s.link.inProgress ≠ some { kind := k, formed := false }
      ∀ reply : Byte → ReplyCode → List Reply,
        (room → reply = fun kind code => [⟨kind, code, .empty, false⟩]) → (¬room → reply = fun _ _ => []) →
        let answered := fun (kind : Byte) (code : ReplyCode) =>
          { s with link := { s.link with rx := .hunting, replies := s.link.replies ++ reply kind code } }
        let answer := fun (kind : Byte) (code : ReplyCode) => (Host.Outcome.next (answered kind code) :
          Host.Outcome State Fault Refusal)
        (∀ kind code, s.frameReply kind code = answered kind code) ∧
        (∀ hi, s.link.rx = .collecting [hi] → exec .startMark s = answer 0 .badLength) ∧
        (s.link.rx.atStart = true →
          (∀ length : Half, 132 < length.toNat → exec (.overlongFrame length) s = answer 0 .badLength) ∧
          ∀ (kind : Byte) (body : List Byte) (check : Half), body.length ≤ 132 →
            (check ≠ requestCheck kind body → exec (.garbledFrame kind body check) s = answer kind .badCheck) ∧
            (check = requestCheck kind body → kind.toNat = 0 ∨ 29 < kind.toNat →
              exec (.garbledFrame kind body check) s = answer kind .unknown) ∧
            (check = requestCheck kind body → 1 ≤ kind.toNat → kind.toNat ≤ 29 → lengthOk kind body = false →
              exec (.garbledFrame kind body check) s = answer kind .badLength)))) ∧
  (∀ s : State, s.pins.inReset = false →
     (s.link.replies = [] → exec .replySent s = .next s) ∧
     ∀ r rest, s.link.replies = r :: rest →
       (r.own = true → exec .replySent s = .next { s with link := { s.link with replies := rest, inProgress := none } }) ∧
       (r.own = false → exec .replySent s = .next { s with link := { s.link with replies := rest } }))

/-- A request taken while another is in progress is answered BUSY and not carried out: the reply joins the queue while it
holds fewer than 15 replies, and at 15 unless the last place is kept for a reply not yet formed; otherwise it has none. A
request taken when the reply queue holds 16 frames is not carried out and has no reply (R135, R136). -/
def Obligations.Request_answered_BUSY_or_lost : Prop :=
  ∀ (c : Instr) (kind : Byte) (op : State → Answer) (s : State), s.pins.inReset = false → s.link.rx.atStart = true →
    wellFormed c = true → requestOf c = some (kind, op) →
    (∀ x, s.link.inProgress = some x →
      (s.link.replies.length < 15 ∨ s.link.replies.length = 15 ∧ x.formed = true →
        exec c s =
          .next
            { s with
              link := { s.link with rx := .hunting, replies := s.link.replies ++ [⟨kind, .busy, .empty, false⟩] } }) ∧
      (16 ≤ s.link.replies.length ∨ s.link.replies.length = 15 ∧ x.formed = false →
        exec c s = .next { s with link := { s.link with rx := .hunting } })) ∧
    (s.link.inProgress = none → 16 ≤ s.link.replies.length →
      exec c s = .next { s with link := { s.link with rx := .hunting } })

/-- A request that the link takes up is carried out as one event by its block's operation, and its reply is formed at that
event. A refused request changes nothing in the part and its reply carries no body, whatever its code but OK (R137). -/
def Obligations.Refused_request_changes_nothing : Prop :=
  ∀ (c : Instr) (kind : Byte) (op : State → Answer) (s : State), requestOf c = some (kind, op) →
    ((op s).2.1 ≠ .ok → (op s).1 = s ∧ (op s).2.2 = .empty) ∧
    (Ready s → wellFormed c = true →
      exec c s = .next (s.carryOut kind op) ∧
      ((op s).2.1 ≠ .ok → exec c s = .next (s.answered kind (op s).2.1 .empty)))

/-! ### Requests that set -/

/-- SET_BELT and SET_TRACKING in CONFIG write their values, SET_BELT also sets the sub-step count to 0; in any other mode
they are refused with WRONG_MODE, and a value out of range with BAD_VALUE (R15, R56; entry 15). -/
def Obligations.SET_BELT_and_SET_TRACKING : Prop :=
  ∀ (r : BeltRequest) (q : TrackingRequest) (s : State), Ready s →
    (s.lc.mode ≠ .config →
      exec (.setBelt r) s = .next (s.answered 1 .wrongMode .empty) ∧
      exec (.setTracking q) s = .next (s.answered 5 .wrongMode .empty)) ∧
    (s.lc.mode = .config →
      ((1 ≤ r.encDiv.toNat ∧ r.encDiv.toNat ≤ 16 ∧ r.revMax.toNat ≤ 1023 ∧ 1 ≤ r.stallW.toNat ∧ 1 ≤ r.guardW.toNat) →
        exec (.setBelt r) s =
          .next
            (State.answered
              { s with
                bpu :=
                  { s.bpu with
                    encDiv := r.encDiv.toNat, revMax := r.revMax.toNat, stallW := r.stallW.toNat
                    guardW := r.guardW.toNat, sub := 0 } }
              1 .ok .empty)) ∧
      (¬(1 ≤ r.encDiv.toNat ∧ r.encDiv.toNat ≤ 16 ∧ r.revMax.toNat ≤ 1023 ∧ 1 ≤ r.stallW.toNat ∧ 1 ≤ r.guardW.toNat) →
        exec (.setBelt r) s = .next (s.answered 1 .badValue .empty)) ∧
      ((64 ≤ q.lMax.toNat ∧ q.lMax.toNat ≤ 4095 ∧ q.laneTol.toNat ≤ 7 ∧ q.settle.toNat ≤ 4095) →
        exec (.setTracking q) s =
          .next
            (State.answered
              { s with
                tracking :=
                  { lMax := q.lMax.toNat, assocTol := q.assocTol.toNat, laneTol := q.laneTol.toNat
                    minArea := q.minArea.toNat, settle := q.settle.toNat } }
              5 .ok .empty)) ∧
      (¬(64 ≤ q.lMax.toNat ∧ q.lMax.toNat ≤ 4095 ∧ q.laneTol.toNat ≤ 7 ∧ q.settle.toNat ≤ 4095) →
        exec (.setTracking q) s = .next (s.answered 5 .badValue .empty)))

/-- The requests that are accepted in every mode and change one thing: ENABLE_GUARD sets the latch, ACK_NOTICES
removes its kinds and SET_MASK replaces the mask, each setting ATTN again, CLEAR lowers the condition and empties the
capture, CLEAR_TALLIES sets tallies and port counters to 0 (R13, R155, R157, R160). A notice raised joins the pending
set and sets ATTN again; one of DEGRADED or HALTED class also raises the condition and fills the capture, or adds to
its later faults (R154, R156, R157, R158). -/
def Obligations.Requests_accepted_in_every_mode : Prop :=
  (∀ (kinds : Half) (s : State), Ready s →
     exec .enableGuard s = .next (State.answered { s with bpu := { s.bpu with guard := true } } 2 .ok .empty) ∧
     exec (.ackNotices kinds) s =
       .next
         (State.answered
           { s with
             lc :=
               { s.lc with
                 pendingSet := s.lc.pendingSet &&& ~~~kinds
                 attn := s.lc.pendingSet &&& ~~~kinds &&& ~~~s.lc.mask != 0 } }
           25 .ok (.pendingSet (s.lc.pendingSet &&& ~~~kinds))) ∧
     exec (.setMask kinds) s =
       .next
         (State.answered { s with lc := { s.lc with mask := kinds, attn := s.lc.pendingSet &&& ~~~kinds != 0 } } 26 .ok
           .empty) ∧
     exec .clear s =
       .next
         (State.answered
           { s with lc := { s.lc with condition := if s.lc.mode = .halted then .halted else .normal, capture := none } }
           22 .ok .empty) ∧
     exec .clearTallies s =
       .next
         (State.answered
           { s with
             ports := s.ports.map fun p => { p with counters := ⟨0, 0, 0, 0, 0, 0, 0, 0, 0⟩ }
             lc := { s.lc with tallies := Tallies.zero } }
           29 .ok .empty)) ∧
  (∀ (s : State) (k : NoticeKind) (src : Source) (h : Option Handle),
     let t := s.raise k src h
     let serious := k ∈
       [NoticeKind.stationSilent, .stationSlip, .queueDrop, .tableFull, .valveFull, .driverFault, .halted]
     t =
       { s with
         lc :=
           { s.lc with
             pendingSet := s.lc.pendingSet ||| BitVec.twoPow 16 k.no
             attn := t.lc.attn, condition := t.lc.condition, capture := t.lc.capture } } ∧
     (t.lc.attn = true ↔ ∃ j : Nat, j < 16 ∧ t.lc.pendingSet.getLsbD j = true ∧ s.lc.mask.getLsbD j = false) ∧
     (¬serious → t.lc.condition = s.lc.condition ∧ t.lc.capture = s.lc.capture) ∧
     (serious →
       t.lc.condition = (if k = .halted ∨ s.lc.condition = .halted then .halted else .degraded) ∧
       t.lc.capture =
         some
           (match s.lc.capture with
           | none => { kind := k, time := s.bpu.T, source := src, handle := h, later := 0 }
           | some c => { c with later := min (c.later + 1) 255 })))

/-- The reading requests are accepted in every mode, change nothing but the link, and reply with what they name: a port's
counters, a bank's section, a record, the first sixteen records over a range, the first records from a coordinate, the
status, the pending set with the mask, the capture, one outcome's tallies (R32, R95, R138, R139, R140, R157, R158, R159,
R160). -/
def Obligations.Reading_requests_change_nothing : Prop :=
  ∀ s : State, Ready s →
    (∀ (port : Byte) (p : Station), port.toNat = stationNo p →
      exec (.readPortCounters port) s = .next (s.answered 4 .ok (.counters (s.port p).counters))) ∧
    (∀ (bank : Byte) (k : Bank), bank.toNat = k.no →
      (∀ p : Station, exec (.readBank bank (byte (stationNo p))) s =
        .next (s.answered 8 .ok (.classMap ((s.banks.data.get k).classMap.get p)))) ∧
      exec (.readBank bank 4) s = .next (s.answered 8 .ok (.destinations (s.banks.data.get k).table))) ∧
    (∀ (h : HandleField) (r : Record), h.slot.toNat < 1024 → s.ft.find h.slot.toNat = some r →
      s.ft.gen h.slot.toNat = h.gen →
      exec (.lookup h) s = .next (s.answered 13 .ok (.record ⟨h.slot.toNat, h.gen⟩ r))) ∧
    (∀ (c1 c2 : Pos) (first last : Byte), behind c2 c1 = false → stepsTo c1 c2 < 1048576 → first.toNat ≤ last.toNat →
      last.toNat ≤ 159 →
      let hits := s.ft.live.filter fun l =>
        atOrBehind l.record.X c2 && atOrBehind c1 l.record.Xt && decide (l.record.first ≤ last.toNat) &&
          decide (first.toNat ≤ l.record.last)
      exec (.find c1 c2 first last) s =
        .next (s.answered 14 .ok (.found (decide (16 < hits.length)) ((hits.take 16).map fun l => ⟨l.slot, s.ft.gen l.slot⟩)))) ∧
    (∀ (start : Pos) (count : Byte), 1 ≤ count.toNat → count.toNat ≤ 16 →
      let hits := s.ft.live.filter fun l => atOrAhead l.record.X start
      exec (.scan start count) s =
        .next
          (s.answered 15 .ok
            (.scanned (decide (count.toNat < hits.length))
              ((hits.take count.toNat).map fun l =>
                { handle := ⟨l.slot, s.ft.gen l.slot⟩, state := l.record.st, X := l.record.X, Xt := l.record.Xt
                  first := l.record.first, last := l.record.last
                  verdict :=
                    match l.record.st with
                    | .opened => none
                    | .decided v d => some (v.material, d)
                    | .committed v b => some (v.material, .bar b)
                    | .armed v sch => some (v.material, .bar sch.bar)
                    | .passing v d _ => some (v.material, d) })))) ∧
    (let bar := fun u : BarUnit => (⟨u.state, u.lateFire, u.maxonCuts⟩ : BarReport)
     exec .readStatus s =
       .next
         (s.answered 23 .ok
           (.status
             { mode := s.lc.mode, condition := s.lc.condition, faultLine := s.lc.faultLine, attn := s.lc.attn
               T := s.bpu.T, P := s.bpu.P, V := s.bpu.V, Z := s.bpu.Z, stalled := s.bpu.stalled, guard := s.bpu.guard
               encErr := s.bpu.encErr, encDiv := s.bpu.encDiv, revMax := s.bpu.revMax, stallW := s.bpu.stallW
               guardW := s.bpu.guardW
               stations := ⟨(s.port .s0).state, (s.port .s1).state, (s.port .s2).state, (s.port .s3).state⟩
               bars := ⟨bar (s.bar .bar0), bar (s.bar .bar1), bar (s.bar .bar2)⟩
               active := s.banks.active, switch := s.banks.pendingSwitch
               refs := ⟨s.banks.refs.get .a, s.banks.refs.get .b⟩, liveCount := s.ft.liveCount }))) ∧
    exec .readNotices s = .next (s.answered 24 .ok (.notices s.lc.pendingSet s.lc.mask)) ∧
    exec .readFault s = .next (s.answered 27 .ok (.capture s.lc.capture)) ∧
    (∀ (block : Byte) (o : RecOutcome), block.toNat = o.no →
      exec (.readTallies block) s = .next (s.answered 28 .ok (.tallies (s.lc.tallies.get o))))

/-- SET_STATION: WRONG_MODE in HALTED, BAD_VALUE out of range, WRONG_MODE for a changed enabled value or D_s in RUN and
DRAINING, otherwise the five values are written; enabling puts the station in WAITING with no Base, no sequence and counts
of 0, disabling forgets Base and sequence and empties the queue (R31, R33, R34), and keeps the silence and rate counts,
which the manual does not name there (the model's reading, entry 27). -/
def Obligations.SET_STATION_by_mode_and_range : Prop :=
  ∀ (r : StationRequest) (p : Station) (on : Bool) (s : State), Ready s →
    (s.lc.mode = .halted → exec (.setStation r) s = .next (s.answered 3 .wrongMode .empty)) ∧
    (s.lc.mode ≠ .halted →
      (3 < r.station.toNat ∨ 1 < r.enabled.toNat ∨ 15 < r.slipTol.toNat ∨ r.silentSteps.toNat < 256 →
        exec (.setStation r) s = .next (s.answered 3 .badValue .empty)) ∧
      (r.station.toNat = stationNo p → r.enabled.toNat = (if on then 1 else 0) → r.slipTol.toNat ≤ 15 →
        256 ≤ r.silentSteps.toNat →
        let q := s.port p
        (s.running = true → q.enabled ≠ on ∨ q.D ≠ r.D.toNat →
          exec (.setStation r) s = .next (s.answered 3 .wrongMode .empty)) ∧
        (s.running = false ∨ q.enabled = on ∧ q.D = r.D.toNat →
          exec (.setStation r) s =
            .next
              (State.answered
                (s.setPort p
                  { q with
                    enabled := on, D := r.D.toNat, rate := r.rate.toNat, slipTol := r.slipTol.toNat
                    silentSteps := r.silentSteps.toNat
                    state := if q.enabled = on then q.state else if on then .waiting else .disabled
                    base := if q.enabled = on then q.base else none
                    lastSeq := if q.enabled = on then q.lastSeq else none
                    silence := if q.enabled = false ∧ on = true then 0 else q.silence
                    rateCount := if q.enabled = false ∧ on = true then 0 else q.rateCount
                    queue := if q.enabled = true ∧ on = false then [] else q.queue
                    hold := if q.enabled = true ∧ on = false then false else q.hold })
                3 .ok .empty))))

/-- The bank writes: WRONG_MODE in HALTED, BAD_VALUE out of range, then BANK_ACTIVE, PENDING and BANK_BUSY in that order;
an accepted WRITE_CLASSMAP replaces its run of one station's entries, an accepted WRITE_DESTINATIONS the whole table and
the thresholds (R92, R93, R94). The Destination Table a request carries is refused where a value is out of range anywhere,
and holds the values as written otherwise (R94). -/
def Obligations.Bank_writes_in_order : Prop :=
  (∀ (bank station first : Byte) (entries : List ClassRow) (r : DestinationsRequest) (k : Bank) (p : Station)
     (run : List ClassEntry) (table : DestTable) (s : State), Ready s → entries.length ≤ 64 → r.rows.length = 16 →
     r.bank = bank →
     (s.lc.mode = .halted →
       exec (.writeClassmap bank station first entries) s = .next (s.answered 6 .wrongMode .empty) ∧
       exec (.writeDestinations r) s = .next (s.answered 7 .wrongMode .empty)) ∧
     (s.lc.mode ≠ .halted →
       (1 < bank.toNat ∨ 3 < station.toNat ∨ entries = [] ∨ 64 < first.toNat + entries.length ∨
           (∃ e ∈ entries, 15 < e.material.toNat ∨ 15 < e.weight.toNat) →
         exec (.writeClassmap bank station first entries) s = .next (s.answered 6 .badValue .empty)) ∧
       (1 < bank.toNat ∨ destTableOf r = none → exec (.writeDestinations r) s = .next (s.answered 7 .badValue .empty)) ∧
       (bank.toNat = k.no → station.toNat = stationNo p → entries ≠ [] → first.toNat + entries.length ≤ 64 →
         run = entries.map (fun e => ⟨e.material.toNat, e.weight.toNat⟩) →
         (∀ e ∈ entries, e.material.toNat ≤ 15 ∧ e.weight.toNat ≤ 15) → destTableOf r = some table →
         (∀ code,
           (s.banks.active = k ∧ code = .bankActive ∨
             s.banks.active ≠ k ∧ (∃ w, s.banks.pendingSwitch = some w ∧ w.target = k) ∧ code = .pending ∨
             s.banks.active ≠ k ∧ (∀ w, s.banks.pendingSwitch = some w → w.target ≠ k) ∧ 0 < s.banks.refs.get k ∧
               code = .bankBusy) →
           exec (.writeClassmap bank station first entries) s = .next (s.answered 6 code .empty) ∧
           exec (.writeDestinations r) s = .next (s.answered 7 code .empty)) ∧
         (s.banks.active ≠ k → (∀ w, s.banks.pendingSwitch = some w → w.target ≠ k) → s.banks.refs.get k = 0 →
           let data := s.banks.data.get k
           exec (.writeClassmap bank station first entries) s =
             .next
               (State.answered
                 { s with
                   banks :=
                     { s.banks with
                       data := s.banks.data.set k
                         { data with
                           classMap := data.classMap.set p
                             ((data.classMap.get p).take first.toNat ++ run ++
                               (data.classMap.get p).drop (first.toNat + run.length)) } } }
                 6 .ok .empty) ∧
           exec (.writeDestinations r) s =
             .next
               (State.answered { s with banks := { s.banks with data := s.banks.data.set k { data with table } } } 7 .ok
                 .empty))))) ∧
  (∀ r : DestinationsRequest,
     (destTableOf r = none ↔
       (∃ x ∈ r.rows, 3 < x.dest.toNat ∨ 7 < x.rank.toNat ∨ 2 < x.attr.toNat) ∨ 3 < r.degradedDest.toNat ∨
         3 < r.conflictDest.toNat ∨ 15300 < r.minScore.toNat ∨ 15300 < r.minMargin.toNat) ∧
     ∀ t, destTableOf r = some t →
       t.minScore = r.minScore.toNat ∧ t.minMargin = r.minMargin.toNat ∧
       t.degradedDest.no = r.degradedDest.toNat ∧ t.conflictDest.no = r.conflictDest.toNat ∧
       t.rows.map (fun e => (e.dest.no, e.rank, e.attr.no)) =
         r.rows.map fun x => (x.dest.toNat, x.rank.toNat, x.attr.toNat))

/-- No command but the release of the RESET pin changes the contents of a bank that is active, that live records name, or
to which a switch is pending (R92). -/
def Obligations.Locked_bank_keeps_its_contents : Prop :=
  ∀ (c : Instr) (k : Bank) (s t : State), c ≠ .resetPin → exec c s = .next t →
    (s.banks.active = k ∨ 0 < s.banks.refs.get k ∨ ∃ w, s.banks.pendingSwitch = some w ∧ w.target = k) →
    t.banks.data.get k = s.banks.data.get k

/-- SWITCH_BANK: WRONG_MODE in HALTED, BAD_VALUE for no bank or the active one, PENDING while a switch is pending; in CONFIG
the switch takes effect at once and C is not looked at; in RUN and DRAINING it becomes pending where C lies 1 to 2^20 − 1
steps ahead of T, and is refused with BAD_VALUE otherwise (R96). -/
def Obligations.SWITCH_BANK_by_mode : Prop :=
  ∀ (target : Byte) (c : Pos) (k : Bank) (s : State), Ready s →
    (s.lc.mode = .halted → exec (.switchBank target c) s = .next (s.answered 9 .wrongMode .empty)) ∧
    (s.lc.mode ≠ .halted →
      (1 < target.toNat ∨ target.toNat = s.banks.active.no →
        exec (.switchBank target c) s = .next (s.answered 9 .badValue .empty)) ∧
      (target.toNat = k.no → s.banks.active ≠ k →
        (s.banks.pendingSwitch.isSome = true →
          exec (.switchBank target c) s = .next (s.answered 9 .pending .empty)) ∧
        (s.banks.pendingSwitch = none →
          (s.lc.mode = .config →
            exec (.switchBank target c) s =
              .next (State.answered { s with banks := { s.banks with active := k } } 9 .ok .empty)) ∧
          (s.running = true →
            (1 ≤ (c - s.bpu.T).toNat → (c - s.bpu.T).toNat ≤ 1048575 →
              exec (.switchBank target c) s =
                .next (State.answered { s with banks := { s.banks with pendingSwitch := some ⟨k, c⟩ } } 9 .ok .empty)) ∧
            (c = s.bpu.T ∨ 1048575 < (c - s.bpu.T).toNat →
              exec (.switchBank target c) s = .next (s.answered 9 .badValue .empty))))))

/-- SET_BAR: WRONG_MODE outside CONFIG, BAD_VALUE out of range; otherwise the twelve settings are written and the bar's
state follows the enabled value: READY from DISABLED, FAULTED kept, DISABLED where not enabled; zones and counts stay. A
DISABLED bar enabled while its fault line is active ends FAULTED in the same event, with DRIVER_FAULT raised (R99, R118,
R119; entry 15). -/
def Obligations.SET_BAR_writes_settings_and_state : Prop :=
  (∀ (r : BarRequest) (b : Bar) (on guard : Bool) (s : State), Ready s →
     (s.lc.mode ≠ .config → exec (.setBar r) s = .next (s.answered 10 .wrongMode .empty)) ∧
     (s.lc.mode = .config →
       let inRange := 16 ≤ r.A.toNat ∧ r.A.toNat ≤ 4095 ∧ r.tOpen.toNat ≤ 20000 ∧ r.tClose.toNat ≤ 20000 ∧
         r.widen.toNat ≤ 3 ∧ 1 ≤ r.maxNoz.toNat ∧ r.maxNoz.toNat ≤ 64 ∧ 1000 ≤ r.maxon.toNat ∧
         r.maxon.toNat ≤ 100000 ∧ r.minoff.toNat ≤ 50000
       (2 < r.bar.toNat ∨ 1 < r.enabled.toNat ∨ 1 < r.guarded.toNat ∨ ¬inRange →
         exec (.setBar r) s = .next (s.answered 10 .badValue .empty)) ∧
       (r.bar.toNat = barNo b → r.enabled.toNat = (if on then 1 else 0) → r.guarded.toNat = (if guard then 1 else 0) →
         inRange → s.pins.faultLines.get b = false ∨ on = false ∨ (s.bar b).state = .faulted →
         (∀ n ∈ (s.bar b).nozzles, n.st ≠ .opened) →
         exec (.setBar r) s =
           .next
             (State.answered
               (s.setBar b
                 { s.bar b with
                   settings :=
                     { enabled := on, E := r.E.toNat, A := r.A.toNat, tOpen := r.tOpen.toNat, tClose := r.tClose.toNat
                       mFront := r.mFront.toNat, mBack := r.mBack.toNat, widen := r.widen.toNat
                       maxNoz := r.maxNoz.toNat, guarded := guard, maxon := r.maxon.toNat, minoff := r.minoff.toNat }
                   state := if on then (if (s.bar b).state = .faulted then .faulted else .ready) else .disabled })
               10 .ok .empty)))) ∧
  (∀ (r : BarRequest) (b : Bar) (st : BarSettings) (s : State), Ready s → s.lc.mode = .config → s.ft.live = [] →
     r.bar.toNat = barNo b → settingsOf r = some st → st.enabled = true → (s.bar b).state = .disabled →
     s.pins.faultLines.get b = true →
     ∃ t, exec (.setBar r) s = .next t ∧ (t.bar b).state = .faulted ∧ (t.bar b).settings = st ∧
       (∀ n ∈ (t.bar b).nozzles, n.st ≠ .opened ∧ n.ivals = []) ∧ t.lc.pendingSet.getLsbD 10 = true ∧
       t.lc.mode = .config ∧ t.ft = s.ft ∧ t.link = (s.answered 10 .ok .empty).link)

/-- SET_ZONE replaces lanes and key (OFF 0, WATCH 1, NORMAL 2, R162) of one zone, clears its FIRED flag and returns the flag as it stood; WRONG_MODE in
HALTED, BAD_VALUE out of range. ENABLE_BAR: BAD_VALUE, WRONG_MODE, then by the bar's state and its fault line; a FAULTED
bar without open nozzles and intervals whose line is inactive becomes READY (R102, R120; entry 15). -/
def Obligations.SET_ZONE_and_ENABLE_BAR : Prop :=
  ∀ (r : ZoneRequest) (bar : Byte) (b : Bar) (s : State), Ready s → (s.bar b).zones.length = 8 →
    (s.lc.mode = .halted →
      exec (.setZone r) s = .next (s.answered 11 .wrongMode .empty) ∧
      (bar.toNat ≤ 2 → exec (.enableBar bar) s = .next (s.answered 12 .wrongMode .empty))) ∧
    (2 < bar.toNat → exec (.enableBar bar) s = .next (s.answered 12 .badValue .empty)) ∧
    (s.lc.mode ≠ .halted →
      (2 < r.bar.toNat ∨ r.bar.toNat = barNo b ∧ 7 < r.zone.toNat ∨ r.last.toNat < r.first.toNat ∨ 159 < r.last.toNat ∨
          2 < r.key.toNat →
        exec (.setZone r) s = .next (s.answered 11 .badValue .empty)) ∧
      (∀ key old, r.bar.toNat = barNo b → (s.bar b).zones[r.zone.toNat]? = some old → r.first.toNat ≤ r.last.toNat →
        r.last.toNat ≤ 159 → r.key.toNat = (match key with | .off => 0 | .watch => 1 | .normal => 2) →
        exec (.setZone r) s =
          .next
            (State.answered
              (s.setBar b
                { s.bar b with zones := (s.bar b).zones.set r.zone.toNat ⟨r.first.toNat, r.last.toNat, key, false⟩ })
              11 .ok (.fired old.fired))) ∧
      (bar.toNat = barNo b →
        ((s.bar b).state = .disabled → exec (.enableBar bar) s = .next (s.answered 12 .badValue .empty)) ∧
        ((s.bar b).state = .ready → exec (.enableBar bar) s = .next (s.answered 12 .ok .empty)) ∧
        ((s.bar b).state = .faulted → s.pins.faultLines.get b = true →
          exec (.enableBar bar) s = .next (s.answered 12 .faulted .empty)) ∧
        ((s.bar b).state = .faulted → s.pins.faultLines.get b = false →
          (∀ n ∈ (s.bar b).nozzles, n.st ≠ .opened ∧ n.ivals = []) →
          exec (.enableBar bar) s =
            .next (State.answered (s.setBar b { s.bar b with state := .ready }) 12 .ok .empty))))

/-! ### Requests about records -/

/-- A handle with a slot above 1,023 is refused with BAD_VALUE, one that names a free slot or another generation with
STALE, in every mode and before every other check (R38). The reading requests about ports, banks, ranges and tallies refuse
a value out of range with BAD_VALUE (R32, R95, R139, R140, R160). -/
def Obligations.Handles_and_ranges_refused : Prop :=
  (∀ (h : HandleField) (dest : Byte) (s : State), Ready s →
     (1024 ≤ h.slot.toNat →
       exec (.lookup h) s = .next (s.answered 13 .badValue .empty) ∧
       exec (.override h dest) s = .next (s.answered 16 .badValue .empty) ∧
       exec (.forget h) s = .next (s.answered 17 .badValue .empty)) ∧
     (h.slot.toNat < 1024 → s.ft.find h.slot.toNat = none ∨ s.ft.gen h.slot.toNat ≠ h.gen →
       exec (.lookup h) s = .next (s.answered 13 .stale .empty) ∧
       exec (.override h dest) s = .next (s.answered 16 .stale .empty) ∧
       exec (.forget h) s = .next (s.answered 17 .stale .empty))) ∧
  (∀ s : State, Ready s →
     (∀ port : Byte, 3 < port.toNat → exec (.readPortCounters port) s = .next (s.answered 4 .badValue .empty)) ∧
     (∀ bank sect : Byte, 1 < bank.toNat ∨ 4 < sect.toNat →
       exec (.readBank bank sect) s = .next (s.answered 8 .badValue .empty)) ∧
     (∀ (c1 c2 : Pos) (first last : Byte),
       behind c2 c1 = true ∨ 1048576 ≤ stepsTo c1 c2 ∨ last.toNat < first.toNat ∨ 159 < last.toNat →
       exec (.find c1 c2 first last) s = .next (s.answered 14 .badValue .empty)) ∧
     (∀ (start : Pos) (count : Byte), count = 0 ∨ 16 < count.toNat →
       exec (.scan start count) s = .next (s.answered 15 .badValue .empty)) ∧
     (∀ block : Byte, 5 < block.toNat → exec (.readTallies block) s = .next (s.answered 28 .badValue .empty)))

/-- OVERRIDE of a live record: WRONG_MODE in CONFIG and HALTED, BAD_VALUE for no destination, TOO_LATE past the freeze;
an OPEN record takes the override undecided, a DECIDED one is re-decided with it and its destination is the override;
every other record stays (R86, R141). -/
def Obligations.OVERRIDE_of_a_live_record : Prop :=
  ∀ (h : HandleField) (dest : Byte) (d : Dest) (r : Record) (s : State), Ready s → h.slot.toNat < 1024 →
    s.ft.find h.slot.toNat = some r → s.ft.gen h.slot.toNat = h.gen → TableOk s →
    (s.running = false → exec (.override h dest) s = .next (s.answered 16 .wrongMode .empty)) ∧
    (s.running = true →
      (3 < dest.toNat → exec (.override h dest) s = .next (s.answered 16 .badValue .empty)) ∧
      (dest.toNat = d.no →
        ((∃ v b, r.st = .committed v b) ∨ (∃ v sch, r.st = .armed v sch) ∨ (∃ v x o, r.st = .passing v x o) →
          exec (.override h dest) s = .next (s.answered 16 .tooLate .empty)) ∧
        (r.st = .opened →
          exec (.override h dest) s =
            .next
              (State.answered (s.modRecord h.slot.toNat fun x => { x with ovr := some d }) 16 .ok .empty)) ∧
        (∀ v x, r.st = .decided v x →
          ∃ t r', exec (.override h dest) s = .next t ∧ t.ft.find h.slot.toNat = some r' ∧
            t.ft = { s.ft with live := s.ft.live.map fun l => if l.slot = h.slot.toNat then ⟨l.slot, r'⟩ else l } ∧
            r' = decideRecord s { r with ovr := some d } ∧ r'.st = .decided (verdictOf (s.banks.data.get r.bank) r.evidence) d ∧
            t.lc = s.lc ∧ t.bpu = s.bpu ∧ t.bars = s.bars ∧ t.banks = s.banks ∧ t.ports = s.ports ∧
            t.link = (s.answered 16 .ok .empty).link)))

/-- FORGET of a live record in RUN and DRAINING retires it FORGOTTEN in whatever state it stands: its intervals go and no
others, its slot is freed with a new generation, the counts go down, its material's tally goes up, and every nozzle is
evaluated; where it was the last in DRAINING the drain completes: CONFIG, queues emptied, HOLD released, the countdown 0,
DRAINED. In CONFIG and HALTED it is refused with WRONG_MODE (R48, R54, R143, R151). -/
def Obligations.FORGET_of_a_live_record : Prop :=
  ∀ (h : HandleField) (r : Record) (s : State), Ready s → h.slot.toNat < 1024 →
    s.ft.find h.slot.toNat = some r → s.ft.gen h.slot.toNat = h.gen →
    (s.running = false → exec (.forget h) s = .next (s.answered 17 .wrongMode .empty)) ∧
    (s.running = true →
      ∃ t, exec (.forget h) s = .next t ∧
        t.ft =
          { live := s.ft.live.filter fun l => l.slot != h.slot.toNat
            liveCount := s.ft.liveCount - 1
            freeList := s.ft.freeList ++ [h.slot.toNat]
            gens := s.ft.gens.modify h.slot.toNat fun g => g + 1 } ∧
        t.banks = { s.banks with refs := s.banks.refs.set r.bank (s.banks.refs.get r.bank - 1) } ∧
        t.lc.tallies = s.lc.tallies.bump .forgotten r.st.material ∧
        (∀ v sch, r.st = .armed v sch →
          (∀ m, ((t.bar sch.bar).nozzle m).ivals =
            ((s.bar sch.bar).nozzle m).ivals.filter fun iv => iv.owner != ⟨h.slot.toNat, h.gen⟩) ∧
          ∀ b, b ≠ sch.bar → ∀ m, ((t.bar b).nozzle m).ivals = ((s.bar b).nozzle m).ivals) ∧
        ((∀ v sch, r.st ≠ .armed v sch) → ∀ b m, ((t.bar b).nozzle m).ivals = ((s.bar b).nozzle m).ivals) ∧
        t.Evaluated ∧ t.tracking = s.tracking ∧ t.ae = s.ae ∧ t.link = (s.answered 17 .ok .empty).link ∧
        (s.lc.mode = .run ∨ 2 ≤ s.ft.liveCount →
          t.lc = { s.lc with tallies := t.lc.tallies } ∧ t.ports = s.ports ∧ t.bpu = s.bpu) ∧
        (s.lc.mode = .draining → s.ft.liveCount = 1 →
          t.lc.mode = .config ∧ t.lc.pendingSet = s.lc.pendingSet ||| 32768 ∧ t.lc.condition = s.lc.condition ∧
            t.bpu = { s.bpu with G := 0 } ∧ ∀ p, t.port p = { s.port p with queue := [], hold := false }))

/-- INSERT: WRONG_MODE outside RUN, BAD_VALUE out of range, TOO_LATE at or past the freeze point, FULL without a free
slot; otherwise a record with no evidence, INSERTED and the override is created DECIDED toward it in the slot at the
head of the free list, at its place among the others, which stay (R46, R88, R144, R145). -/
def Obligations.INSERT_creates_a_decided_record : Prop :=
  ∀ (r : InsertRequest) (d : Dest) (f : Bar) (s : State), Ready s →
    (s.lc.mode ≠ .run → exec (.insert r) s = .next (s.answered 18 .wrongMode .empty)) ∧
    (s.lc.mode = .run → s.lowBar = some f →
      let freeze := r.X + BitVec.ofNat 32 (s.bar f).settings.E - BitVec.ofNat 32 (s.bar f).settings.A
      (3 < r.dest.toNat ∨ behind r.Xt r.X = true ∨ s.tracking.lMax < stepsTo r.X r.Xt ∨ r.last.toNat < r.first.toNat ∨
          159 < r.last.toNat ∨ (ahead freeze s.bpu.T = true ∧ 1048576 ≤ stepsTo s.bpu.T freeze) →
        s.tracking.lMax < 2147483648 →
        exec (.insert r) s = .next (s.answered 18 .badValue .empty)) ∧
      (r.dest.toNat = d.no → atOrAhead r.Xt r.X = true → stepsTo r.X r.Xt ≤ s.tracking.lMax →
        r.first.toNat ≤ r.last.toNat → r.last.toNat ≤ 159 →
        (atOrBehind freeze s.bpu.T = true → exec (.insert r) s = .next (s.answered 18 .tooLate .empty)) ∧
        (ahead freeze s.bpu.T = true → stepsTo s.bpu.T freeze < 1048576 →
          (s.ft.freeList = [] → exec (.insert r) s = .next (s.answered 18 .full .empty)) ∧
          ∀ slot free, s.ft.freeList = slot :: free → (∀ l ∈ s.ft.live, l.slot ≠ slot) →
            ∃ t x, exec (.insert r) s = .next t ∧ t.ft.find slot = some x ∧
              x.st = .decided ⟨0, 0, 0⟩ d ∧ x.X = r.X ∧ x.Xt = r.Xt ∧ x.first = r.first.toNat ∧ x.last = r.last.toNat ∧
              x.bank = s.banks.active ∧ x.evidence = ⟨none, none, none, none⟩ ∧ x.ovr = some d ∧
              x.flags.inserted = true ∧ x.flags.weak = false ∧ x.flags.clipped = false ∧ x.flags.merged = false ∧
              x.flags.lateFire = false ∧
              (x.flags.degraded = true ↔ ∃ p, (s.port p).enabled = true ∧ (s.port p).state ≠ .up) ∧
              t.ft.live = insertLive ⟨slot, x⟩ s.ft.live ∧ t.ft.liveCount = s.ft.liveCount + 1 ∧ t.ft.freeList = free ∧
              t.ft.gens = s.ft.gens ∧
              t.banks = { s.banks with refs := s.banks.refs.set s.banks.active (s.banks.refs.get s.banks.active + 1) } ∧
              t.lc = s.lc ∧ t.bpu = s.bpu ∧ t.bars = s.bars ∧ t.ports = s.ports ∧
              t.link = (s.answered 18 .ok (.handle (s.ft.handle slot))).link)))

/-! ### Line modes -/

/-- START: WRONG_MODE in HALTED, no change in RUN, RUN from DRAINING, and in CONFIG first BELT and then GEOMETRY. STOP:
WRONG_MODE in HALTED, no change in DRAINING and CONFIG, DRAINING from RUN while a record is live, CONFIG at once with
DRAINED where none is. Where the mode goes into or out of CONFIG, nozzles that stood as their open condition asked stand so
again, and no interval changes (R122, R148, R150, R151). -/
def Obligations.START_and_STOP_by_mode : Prop :=
  ∀ s : State, Ready s →
    let bars := fun t : State =>
      (s.Evaluated → t.Evaluated) ∧
        ∀ b, t.bar b = { s.bar b with nozzles := (t.bar b).nozzles, zones := (t.bar b).zones, bus := (t.bar b).bus } ∧
          ∀ m, ((t.bar b).nozzle m).ivals = ((s.bar b).nozzle m).ivals
    (s.lc.mode = .halted →
      exec .start s = .next (s.answered 19 .wrongMode .empty) ∧ exec .stop s = .next (s.answered 20 .wrongMode .empty)) ∧
    (s.lc.mode = .run →
      exec .start s = .next (s.answered 19 .ok .empty) ∧
      (s.ft.liveCount ≠ 0 →
        exec .stop s = .next (State.answered { s with lc := { s.lc with mode := .draining } } 20 .ok .empty)) ∧
      (s.ft.liveCount = 0 →
        ∃ t, exec .stop s = .next t ∧ t.lc.mode = .config ∧ t.lc.pendingSet = s.lc.pendingSet ||| 32768 ∧
          t.lc.condition = s.lc.condition ∧ t.bpu = { s.bpu with G := 0 } ∧ t.ft = s.ft ∧ t.banks = s.banks ∧
          (∀ p, t.port p = { s.port p with queue := [], hold := false }) ∧ bars t ∧
          t.link = (s.answered 20 .ok .empty).link)) ∧
    (s.lc.mode = .draining →
      exec .stop s = .next (s.answered 20 .ok .empty) ∧
      exec .start s = .next (State.answered { s with lc := { s.lc with mode := .run } } 19 .ok .empty)) ∧
    (s.lc.mode = .config →
      exec .stop s = .next (s.answered 20 .ok .empty) ∧
      (s.bpu.revMax < (s.bpu.T - s.bpu.P).toNat → exec .start s = .next (s.answered 19 .belt .empty)) ∧
      ((s.bpu.T - s.bpu.P).toNat ≤ s.bpu.revMax →
        (s.geometryOk = false → exec .start s = .next (s.answered 19 .geometry .empty)) ∧
        (s.geometryOk = true →
          ∃ t, exec .start s = .next t ∧ t.lc = { s.lc with mode := .run } ∧ t.bpu = s.bpu ∧ t.ft = s.ft ∧
            t.ports = s.ports ∧ t.banks = s.banks ∧ t.tracking = s.tracking ∧ bars t ∧ t.link = (s.answered 19 .ok .empty).link)))

/-- The geometry check passes exactly when its five conditions hold, f being the lowest-numbered enabled bar (R149). -/
def Obligations.Geometry_check : Prop :=
  ∀ s : State,
    let on := fun b : Bar => (s.bar b).settings.enabled = true
    let E := fun b : Bar => ((s.bar b).settings.E : Int)
    let A := fun b : Bar => ((s.bar b).settings.A : Int)
    s.geometryOk = true ↔
      (∃ p, (s.port p).enabled = true) ∧
      ∃ f, on f ∧ (∀ b, on b → barNo f ≤ barNo b) ∧
        (∀ b c, on b → on c → barNo b < barNo c → E b < E c) ∧
        (∀ p, (s.port p).enabled = true → ((s.port p).D : Int) < E f) ∧
        (∀ b, on b → E f - A f ≤ E b - A b) ∧
        (∀ p, (s.port p).enabled = true →
          2 * (s.tracking.lMax : Int) ≤ E f - A f - (s.port p).D - s.tracking.settle)

/-- RESET is accepted in every mode and does all it lists in one event: CONFIG, NORMAL, no notice pending, ATTN and FAULT
released, the capture empty; enabled stations WAITING with no Base and no sequence, queues empty; every record freed in
belt order without a tally; the service pointer at S0; no switch pending; every nozzle closed and empty. Settings,
counters, tallies, mask, guard latch, belt values and bank contents are kept (R35, R57, R74, R98, R116, R131, R153). -/
def Obligations.RESET_request : Prop :=
  ∀ s : State, Ready s →
    ∃ t, exec .reset s = .next t ∧
      t.lc =
        { s.lc with
          mode := .config, condition := .normal, pendingSet := 0, attn := false, faultLine := false, capture := none } ∧
      t.bpu = { s.bpu with G := 0 } ∧
      (∀ p, t.port p =
        { s.port p with
          state := if (s.port p).enabled then .waiting else (s.port p).state
          base := none, lastSeq := none, silence := 0, rateCount := 0, queue := [], hold := false }) ∧
      t.ft.live = [] ∧ t.ft.liveCount = 0 ∧ t.ft.freeList = s.ft.freeList ++ s.ft.live.map (·.slot) ∧
      (∀ slot, slot < s.ft.gens.length → (s.ft.live.filter fun l => l.slot == slot).length ≤ 1 →
        t.ft.gen slot = if s.ft.live.any (fun l => l.slot == slot) then s.ft.gen slot + 1 else s.ft.gen slot) ∧
      t.ae = { pointer := .s0, free := true } ∧
      t.banks = { s.banks with pendingSwitch := none, refs := ⟨0, 0⟩ } ∧
      (∀ b, t.bar b =
        { s.bar b with
          nozzles := (s.bar b).nozzles.map fun _ => ⟨.closed, [], 0, 0⟩
          bus :=
            { (s.bar b).bus with
              owed := (s.bar b).bus.owed || (s.bar b).nozzles.any fun n => n.st == .opened } }) ∧
      t.tracking = s.tracking ∧ t.pins = s.pins ∧ t.link = (s.answered 21 .ok .empty).link

/-! ### Frames -/

/-- Every well-formed request passes the tests of the link as the frame the table lays out for it, and that frame is
read back as the same request (R134, R163). Its bytes, one by one at a hunting receiving side, do what the request
does; inside a frame cut short they are taken for the missing ones (R133; entry 4). A START_MARK is the byte 165
(R162). A byte at a hunting side begins a frame where it is the start mark and is discarded otherwise; collected, it
makes an overlong length, which is answered at once, or the last byte of a frame, which is then taken, or is kept
(R133). Every body is laid out as the table of R163 has it. -/
def Obligations.Request_frames_decode_to_their_request : Prop :=
  (∀ (i : Instr) (kind : Byte) (body : List Byte), wellFormed i = true → requestFrame i = some (kind, body) →
     (frameFault kind body (requestCheck kind body) = none ∧ decodeRequest kind body = some i) ∧
     ∀ s : State, s.pins.inReset = false →
       let bytes := 165 :: (bytes2 body.length ++ kind :: (body ++ halfBytes (requestCheck kind body)))
       (s.link.rx = .hunting → exec i s = .next (bytes.foldl State.linkByte s)) ∧
       (∀ b got, s.link.rx = .collecting (b :: got) → exec i s = .next (bytes.foldl State.linkByte s))) ∧
  (∀ (s : State) (b : Byte),
     (s.pins.inReset = false → exec .startMark s = .next (s.linkByte 165)) ∧
     (s.link.rx = .hunting →
       s.linkByte 165 = { s with link := { s.link with rx := .collecting [] } } ∧ (b ≠ 165 → s.linkByte b = s)) ∧
     (∀ got, s.link.rx = .collecting got →
       (got = [] → s.linkByte b = { s with link := { s.link with rx := .collecting [b] } }) ∧
       (∀ hi, got = [hi] →
         (132 < (halfOf hi b).toNat → s.linkByte b = s.frameReply 0 .badLength) ∧
         ((halfOf hi b).toNat ≤ 132 → s.linkByte b = { s with link := { s.link with rx := .collecting [hi, b] } })) ∧
       (∀ hi lo rest, got = hi :: lo :: rest → (halfOf hi lo).toNat ≤ 132 →
         (rest.length + 1 < (halfOf hi lo).toNat + 3 →
           s.linkByte b = { s with link := { s.link with rx := .collecting (hi :: lo :: rest ++ [b]) } }) ∧
         (∀ kind body hiCheck, rest = kind :: body ++ [hiCheck] → body.length = (halfOf hi lo).toNat →
           s.linkByte b = s.takeFrame kind body (halfOf hiCheck b))))) ∧
  (∀ (r : BeltRequest) (st : StationRequest) (tr : TrackingRequest) (w : DestinationsRequest) (br : BarRequest)
     (z : ZoneRequest) (ir : InsertRequest) (h : HandleField) (a b c d : Byte) (x y : Pos) (kinds : Half)
     (entries : List ClassRow) (kind : Byte) (body : List Byte),
     let handle := halfBytes h.slot ++ [h.gen]
     requestCheck kind body = checkSum (bytes2 body.length ++ [kind] ++ body) ∧
     requestFrame (.setBelt r) = some (1, [r.encDiv] ++ halfBytes r.revMax ++ [r.stallW, r.guardW]) ∧
     requestFrame .enableGuard = some (2, []) ∧
     requestFrame (.setStation st) =
       some (3, [st.station, st.enabled] ++ halfBytes st.D ++ [st.rate, st.slipTol] ++ halfBytes st.silentSteps) ∧
     requestFrame (.readPortCounters a) = some (4, [a]) ∧
     requestFrame (.setTracking tr) =
       some (5, halfBytes tr.lMax ++ [tr.assocTol, tr.laneTol] ++ halfBytes tr.minArea ++ halfBytes tr.settle) ∧
     requestFrame (.writeClassmap a b c entries) =
       some (6, [a, b, c, byte entries.length] ++ entries.flatMap fun e => [e.material, e.weight]) ∧
     requestFrame (.writeDestinations w) =
       some (7, [w.bank] ++ w.rows.flatMap (fun e => [e.dest, e.rank, e.attr]) ++ halfBytes w.minScore ++
         halfBytes w.minMargin ++ [w.degradedDest, w.conflictDest]) ∧
     requestFrame (.readBank a b) = some (8, [a, b]) ∧
     requestFrame (.switchBank a x) = some (9, [a] ++ wordBytes x) ∧
     requestFrame (.setBar br) =
       some (10, [br.bar, br.enabled] ++ halfBytes br.E ++ halfBytes br.A ++ halfBytes br.tOpen ++
         halfBytes br.tClose ++ [br.mFront, br.mBack, br.widen, br.maxNoz, br.guarded] ++ wordBytes br.maxon ++
         halfBytes br.minoff) ∧
     requestFrame (.setZone z) = some (11, [z.bar, z.zone, z.first, z.last, z.key]) ∧
     requestFrame (.enableBar a) = some (12, [a]) ∧ requestFrame (.lookup h) = some (13, handle) ∧
     requestFrame (.find x y a b) = some (14, wordBytes x ++ wordBytes y ++ [a, b]) ∧
     requestFrame (.scan x a) = some (15, wordBytes x ++ [a]) ∧
     requestFrame (.override h d) = some (16, handle ++ [d]) ∧ requestFrame (.forget h) = some (17, handle) ∧
     requestFrame (.insert ir) =
       some (18, wordBytes ir.X ++ wordBytes ir.Xt ++ [ir.first, ir.last, ir.dest]) ∧
     [Instr.start, .stop, .reset, .clear, .readStatus, .readNotices].map requestFrame =
       [some (19, []), some (20, []), some (21, []), some (22, []), some (23, []), some (24, [])] ∧
     requestFrame (.ackNotices kinds) = some (25, halfBytes kinds) ∧
     requestFrame (.setMask kinds) = some (26, halfBytes kinds) ∧ requestFrame .readFault = some (27, []) ∧
     requestFrame (.readTallies a) = some (28, [a]) ∧ requestFrame .clearTallies = some (29, []))

/-- Every SYNC, and every DETECT whose optional parts its length declares, is read back from its length, kind, body
and check as the same frame; its bytes, one by one at a hunting receiver, do what the frame does, and inside a frame
cut short they are taken for the missing ones (11.3, R164; entry 4). A byte at a hunting receiver begins a frame where
it is 126 and is discarded otherwise; collected, a kind or length that does not fit is judged at once, and the last
byte hands the frame on to its handling; PORT_START_MARK is the byte 126 (R162, R164). The bodies and the check are
laid out as in 11.3. -/
def Obligations.Station_frames_decode_to_their_frame : Prop :=
  (∀ (p : Station) (f : SyncFrame) (g : DetectFrame),
     (stationCommand p (byte (syncBody f).length) syncKind (syncBody f) f.check = some (.sync p f) ∧
       stationCommand p (byte (detectBody g).length) detectKind (detectBody g) g.check = some (.detect p g)) ∧
     ∀ s : State, s.pins.inReset = false →
       ((s.port p).rx = .hunting ∨ ∃ b got, (s.port p).rx = .collecting (b :: got)) →
       exec (.sync p f) s =
         .next
           ((126 :: 6 :: 1 :: (syncBody f ++ halfBytes f.check)).foldl (fun t b => t.portByte p b) s) ∧
       exec (.detect p g) s =
         .next
           ((126 :: byte (detectBody g).length :: 2 :: (detectBody g ++ halfBytes g.check)).foldl
             (fun t b => t.portByte p b) s)) ∧
  (∀ (p : Station) (b length kind : Byte) (s : State),
     let fits := fun length kind : Byte => kind = 1 ∧ length = 6 ∨ kind = 2 ∧ 14 ≤ length.toNat ∧ length.toNat ≤ 17
     let hunting := { s.port p with rx := .hunting }
     let collecting := fun got : List Byte => s.setPort p { s.port p with rx := .collecting got }
     (s.pins.inReset = false → exec (.portStartMark p) s = .next (s.portByte p 126)) ∧
     ((s.port p).rx = .hunting → s.portByte p 126 = collecting [] ∧ (b ≠ 126 → s.portByte p b = s)) ∧
     ((s.port p).rx = .collecting [] → s.portByte p b = collecting [b]) ∧
     ((s.port p).rx = .collecting [length] →
       (fits length b → s.portByte p b = collecting [length, b]) ∧
       (¬fits length b →
         s.portByte p b =
           s.setPort p
             { hunting with
               counters :=
                 if (s.port p).state = .disabled then (s.port p).counters
                 else
                   { (s.port p).counters with badFrame := min ((s.port p).counters.badFrame + 1) 4294967295 } })) ∧
     (∀ rest, (s.port p).rx = .collecting (length :: kind :: rest) → fits length kind →
       (rest.length + 1 < length.toNat + 2 → s.portByte p b = collecting (length :: kind :: rest ++ [b])) ∧
       (∀ body hiCheck, rest = body ++ [hiCheck] → body.length = length.toNat → s.pins.inReset = false →
         ∃ c, stationCommand p length kind body (halfOf hiCheck b) = some c ∧
           exec c (s.setPort p hunting) = .next (s.portByte p b)))) ∧
  (∀ (f : SyncFrame) (g : DetectFrame) (kind : Byte) (body : List Byte),
     syncKind = 1 ∧ detectKind = 2 ∧ syncBody f = [f.station, f.seq] ++ wordBytes f.lSync ∧
     detectBody g =
       [g.station, g.seq] ++ wordBytes g.lLead ++ wordBytes g.lTrail ++ [g.first, g.last, g.cls, g.conf] ++
         (match g.area with
         | none => []
         | some a => halfBytes a) ++
         (match g.metal with
         | none => []
         | some m => [m]) ∧
     stationCheck kind body = checkSum (byte body.length :: kind :: body))

/-- The OK replies have the one body length the table gives: none for the requests that reply with no body, SET_ZONE,
INSERT, READ_NOTICES, ACK_NOTICES, LOOKUP, READ_STATUS, READ_PORT_COUNTERS and READ_FAULT in every state, FIND and
SCAN up to sixteen records, and READ_BANK and READ_TALLIES from tables of their sizes (R162, R163). The numbers of the
enumerations are those of R162, the reply codes in the order of R137 and the notice kinds in that of R156. A field of
two or four bytes is sent most significant byte first and the check is the sum of the bytes modulo 65,536 (R162);
every reply body is laid out field by field as R163 has it, the source number of none, which it does not give, as 0
(entry 25). -/
def Obligations.Reply_bodies_have_the_table_lengths : Prop :=
  (∀ h r, (ReplyBody.record h r).bytes.length = 79) ∧ (∀ r, (ReplyBody.status r).bytes.length = 68) ∧
  (∀ c, (ReplyBody.counters c).bytes.length = 36) ∧ (∀ c, (ReplyBody.capture c).bytes.length = 13) ∧
  (∀ more hs, hs.length ≤ 16 → (ReplyBody.found more hs).bytes.length = 50) ∧
  (∀ more xs, xs.length ≤ 16 → (ReplyBody.scanned more xs).bytes.length = 274) ∧
  (∀ xs, xs.length = 64 → (ReplyBody.classMap xs).bytes.length = 128) ∧
  ReplyBody.empty.bytes = [] ∧ (∀ was, (ReplyBody.fired was).bytes.length = 1) ∧
  (∀ h, (ReplyBody.handle h).bytes.length = 3) ∧ (∀ ks mask, (ReplyBody.notices ks mask).bytes.length = 4) ∧
  (∀ ks, (ReplyBody.pendingSet ks).bytes.length = 2) ∧
  (∀ t : DestTable, t.rows.length = 16 → (ReplyBody.destinations t).bytes.length = 54) ∧
  (∀ xs, xs.length = 16 → (ReplyBody.tallies xs).bytes.length = 64) ∧
  (stations.map stationNo = [0, 1, 2, 3] ∧ [Dest.bar .bar0, .bar .bar1, .bar .bar2, .pass].map Dest.no = [0, 1, 2, 3] ∧
    allBars.map barNo = [0, 1, 2] ∧ [Bank.a, .b].map Bank.no = [0, 1] ∧
    [MetalAttr.metal, .nonmetal, .either].map MetalAttr.no = [0, 1, 2] ∧
    [Mode.config, .run, .draining, .halted].map Mode.no = [0, 1, 2, 3] ∧
    [Condition.normal, .degraded, .halted].map Condition.no = [0, 1, 2] ∧
    [StationState.disabled, .waiting, .up, .silent].map StationState.no = [0, 1, 2, 3] ∧
    [BarState.disabled, .ready, .faulted].map BarState.no = [0, 1, 2] ∧
    [RecOutcome.fired, .passed, .suppressed, .dropped, .masked, .forgotten].map RecOutcome.no = [0, 1, 2, 3, 4, 5] ∧
    (∀ v d b sch o, [RecState.opened, .decided v d, .committed v b, .armed v sch, .passing v d o].map RecState.no =
      [0, 1, 2, 3, 4]) ∧
    [ReplyCode.ok, .busy, .badCheck, .unknown, .badLength, .badValue, .wrongMode, .stale, .tooLate, .full, .bankActive,
      .pending, .bankBusy, .geometry, .belt, .faulted].map ReplyCode.no = List.range 16 ∧
    [NoticeKind.stationUp, .stationSilent, .stationSlip, .queueDrop, .storm, .tableFull, .lateEvidence, .valveFull,
      .lateFire, .zoneWatch, .driverFault, .stall, .beltMoving, .halted, .bankSwitched, .drained].map NoticeKind.no =
      List.range 16) ∧
  (∀ (h : Half) (w : BitVec 32) (n : Nat) (b3 b2 b1 b0 : Byte) (bs : List Byte),
     (halfBytes h).map (·.toNat) = [h.toNat / 256, h.toNat % 256] ∧
     (wordBytes w).map (·.toNat) = [w.toNat / 16777216, w.toNat / 65536 % 256, w.toNat / 256 % 256, w.toNat % 256] ∧
     byte n = BitVec.ofNat 8 n ∧ bytes2 n = halfBytes (BitVec.ofNat 16 n) ∧ bytes4 n = wordBytes (BitVec.ofNat 32 n) ∧
     yesByte true = 1 ∧ yesByte false = 0 ∧ (halfOf b1 b0).toNat = 256 * b1.toNat + b0.toNat ∧
     (wordOf b3 b2 b1 b0).toNat = 16777216 * b3.toNat + 65536 * b2.toNat + 256 * b1.toNat + b0.toNat ∧
     (checkSum bs).toNat = (bs.map (·.toNat)).sum % 65536) ∧
  (let optional := fun (width : Nat) (x : Option (List Byte)) =>
     match x with
     | some bs => 1 :: bs
     | none => 0 :: List.replicate width 0
   let handle := fun h : Handle => bytes2 h.slot ++ [h.gen]
   let padded := fun (width : Nat) (bs : List Byte) => bs ++ List.replicate (width - bs.length) 0
   ∀ (h : Handle) (r : Record) (x : StatusReport) (t : DestTable) (c : PortCounters) (cap : Capture) (rows : List ClassEntry)
     (hs : List Handle) (xs : List Summary) (counts : List Nat) (more : Bool) (pending mask : NoticeSet) (reply : Reply),
     (ReplyBody.counters c).bytes =
       bytes4 c.accepted ++ bytes4 c.badFrame ++ bytes4 c.duplicate ++ bytes4 c.seqGap ++ bytes4 c.stormDrop ++
         bytes4 c.queueDrop ++ bytes4 c.noBase ++ bytes4 c.dust ++ bytes4 c.late ∧
     (ReplyBody.classMap rows).bytes = rows.flatMap (fun e => [byte e.material, byte e.weight]) ∧
     (ReplyBody.destinations t).bytes =
       t.rows.flatMap (fun e => [byte e.dest.no, byte e.rank, byte e.attr.no]) ++ bytes2 t.minScore ++
         bytes2 t.minMargin ++ [byte t.degradedDest.no, byte t.conflictDest.no] ∧
     (ReplyBody.fired more).bytes = [yesByte more] ∧ (ReplyBody.handle h).bytes = handle h ∧
     (ReplyBody.record h r).bytes =
       handle h ++ [byte r.st.no] ++ wordBytes r.X ++ wordBytes r.Xt ++ [byte r.first, byte r.last, byte r.bank.no] ++
         [yesByte r.flags.clipped, yesByte r.flags.merged, yesByte r.flags.degraded, yesByte r.flags.conflict,
           yesByte r.flags.weak, yesByte r.flags.lateFire, yesByte r.flags.inserted] ++
         (let held := stations.filterMap fun p => (r.evidence.get p).map fun e => (p, e)
          [byte held.length] ++ padded 32 (held.flatMap fun pe =>
            [byte (stationNo pe.1), byte pe.2.cls, byte pe.2.conf] ++ optional 2 (pe.2.area.map bytes2) ++
              optional 1 (pe.2.metal.map fun m => [yesByte m]))) ++
         optional 5 (r.st.verdict.map fun v => [byte v.material] ++ bytes2 v.top ++ bytes2 v.margin) ++
         optional 1 (r.st.dest.map fun d => [byte d.no]) ++ optional 1 (r.ovr.map fun d => [byte d.no]) ++
         optional 11 (r.st.schedule.map fun sch =>
           [byte (barNo sch.bar)] ++ wordBytes sch.fireOn ++ wordBytes sch.fireOff ++
             [byte sch.firstNozzle, byte sch.lastNozzle]) ++
         optional 1 (r.st.outcome.map fun o => [byte o.no]) ∧
     (ReplyBody.found more hs).bytes = [byte hs.length, yesByte more] ++ padded 48 (hs.flatMap handle) ∧
     (ReplyBody.scanned more xs).bytes =
       [byte xs.length, yesByte more] ++ padded 272 (xs.flatMap fun y =>
         handle y.handle ++ [byte y.state.no] ++ wordBytes y.X ++ wordBytes y.Xt ++ [byte y.first, byte y.last] ++
           optional 2 (y.verdict.map fun v => [byte v.1, byte v.2.no])) ∧
     (ReplyBody.status x).bytes =
       [byte x.mode.no, byte x.condition.no, yesByte x.faultLine, yesByte x.attn] ++ wordBytes x.T ++ wordBytes x.P ++
         bytes2 x.V ++ [byte x.Z, yesByte x.stalled, yesByte x.guard] ++ bytes2 x.encErr ++ [byte x.encDiv] ++
         bytes2 x.revMax ++ [byte x.stallW, byte x.guardW] ++
         [byte x.stations.s0.no, byte x.stations.s1.no, byte x.stations.s2.no, byte x.stations.s3.no] ++
         ([x.bars.bar0, x.bars.bar1, x.bars.bar2].flatMap fun u =>
           [byte u.state.no] ++ bytes4 u.lateFire ++ bytes4 u.maxonCuts) ++
         [byte x.active.no] ++ optional 5 (x.switch.map fun w => [byte w.target.no] ++ wordBytes w.c) ++
         bytes2 x.refs.a ++ bytes2 x.refs.b ++ bytes2 x.liveCount ∧
     (ReplyBody.notices pending mask).bytes = halfBytes pending ++ halfBytes mask ∧
     (ReplyBody.pendingSet pending).bytes = halfBytes pending ∧
     (ReplyBody.capture none).bytes = List.replicate 13 0 ∧
     (ReplyBody.capture (some cap)).bytes =
       [1, byte cap.kind.no] ++ wordBytes cap.time ++
         (match cap.source with
         | .station p => [0, byte (stationNo p)]
         | .bar b => [1, byte (barNo b)]
         | .none => [2, 0]) ++
         optional 3 (cap.handle.map handle) ++ [byte cap.later] ∧
     (ReplyBody.tallies counts).bytes = counts.flatMap bytes4 ∧
     reply.bytes =
       [165] ++ bytes2 reply.body.bytes.length ++ [reply.kind, byte reply.code.no] ++ reply.body.bytes ++
         halfBytes (checkSum (bytes2 reply.body.bytes.length ++ [reply.kind, byte reply.code.no] ++ reply.body.bytes)))

/-! ### What every step keeps -/

/-- Every step keeps ATTN, FAULT, condition, capture and tallies as R152, R154, R155, R157, R158 and R160 tie them. -/
def Obligations.Step_keeps_Line_Control_in_order : Prop :=
  ∀ s t : State, LineOk s.lc → step s = .next t → LineOk t.lc

/-- Every step keeps the belt values within their bounds, and the line running only within REV_MAX (R1 to R15). -/
def Obligations.Step_keeps_the_belt_in_bounds : Prop :=
  ∀ s t : State, BeltOk s → step s = .next t → BeltOk t

/-- Every step keeps each port's state, Base, queue and HOLD in step, and the queues empty in CONFIG (R19 to R34). -/
def Obligations.Step_keeps_the_ports_in_order : Prop :=
  ∀ s t : State, PortsOk s → step s = .next t → PortsOk t

/-- Every step keeps the link to at most 16 replies, with exactly one of them that of the request in progress where there is
one, its reply formed (R135, R136; that no request stands between steps without its reply is the model's reading, entry 5),
and collecting only a frame that is not whole yet (R133). -/
def Obligations.Step_keeps_the_link_in_order : Prop :=
  ∀ s t : State, LinkOk s.link → step s = .next t → LinkOk t.link

/-- Every step keeps live records, free list, live count and reference counts in agreement, no record live in CONFIG, and a
pending switch away from the active bank (R37, R91, R96). -/
def Obligations.Step_keeps_the_table_in_order : Prop :=
  ∀ s t : State, TableOk s → step s = .next t → TableOk t

/-- Every step keeps every live record within L_MAX and the belt's lanes, with a verdict and an outcome its state allows
(R39, R40, R44, R53). Outside CONFIG the settings behind the points of records pass the geometry check (R42, R100, R149),
so a running line always has the geometry that START has asked for. -/
def Obligations.Step_keeps_the_records_in_bounds : Prop :=
  ∀ s t : State, TableOk s → PortsOk s → RecordsOk s → step s = .next t → RecordsOk t

/-- Every step keeps each nozzle open exactly while its open condition holds, cooling apart, never beyond MAXON, with at
most four intervals, and every bar's settings in the ranges of 7.1 (R99, R112, R117, R121, R122, R123, R125). -/
def Obligations.Step_keeps_nozzles_open_only_in_condition : Prop :=
  ∀ s t : State, BarsOk s → step s = .next t → BarsOk t

/-- Every step keeps every interval owned by a live ARMED record of its bar whose schedule it carries (R113). -/
def Obligations.Step_keeps_intervals_owned_by_armed_records : Prop :=
  ∀ s t : State, TableOk s → OwnersOk s → step s = .next t → OwnersOk t

/-- All of these hold at the release of the RESET pin, whatever the levels on the input pins. -/
def Obligations.Release_state_is_in_order : Prop :=
  ∀ (levels : Levels) (faultLines : PerBar Bool),
    let s := State.atRelease levels faultLines
    LineOk s.lc ∧ BeltOk s ∧ PortsOk s ∧ LinkOk s.link ∧ TableOk s ∧ RecordsOk s ∧ BarsOk s ∧ OwnersOk s

end
end

