-- ==== Sys2Proof/Laws/State.lean ====
section
/-! SUPPORT. What each update of the state leaves in each field, so that no proof unfolds a record update. -/

namespace Sys2Proof.Machine

/-! ### State: one port, one bar, one record -/

@[simp] theorem State.setPort_pins (s : State) (p : Station) (x : Port) : (s.setPort p x).pins = s.pins := rfl
@[simp] theorem State.setPort_bpu (s : State) (p : Station) (x : Port) : (s.setPort p x).bpu = s.bpu := rfl
@[simp] theorem State.setPort_ports (s : State) (p : Station) (x : Port) : (s.setPort p x).ports =
    s.ports.set p x := rfl
@[simp] theorem State.setPort_ft (s : State) (p : Station) (x : Port) : (s.setPort p x).ft = s.ft := rfl
@[simp] theorem State.setPort_tracking (s : State) (p : Station) (x : Port) : (s.setPort p x).tracking =
    s.tracking := rfl
@[simp] theorem State.setPort_ae (s : State) (p : Station) (x : Port) : (s.setPort p x).ae = s.ae := rfl
@[simp] theorem State.setPort_banks (s : State) (p : Station) (x : Port) : (s.setPort p x).banks = s.banks := rfl
@[simp] theorem State.setPort_bars (s : State) (p : Station) (x : Port) : (s.setPort p x).bars = s.bars := rfl
@[simp] theorem State.setPort_link (s : State) (p : Station) (x : Port) : (s.setPort p x).link = s.link := rfl
@[simp] theorem State.setPort_lc (s : State) (p : Station) (x : Port) : (s.setPort p x).lc = s.lc := rfl
@[simp] theorem State.setPort_draws (s : State) (p : Station) (x : Port) : (s.setPort p x).draws = s.draws := rfl
@[simp] theorem State.setPort_pending (s : State) (p : Station) (x : Port) : (s.setPort p x).pending = s.pending := rfl
@[simp] theorem State.setBar_pins (s : State) (b : Bar) (x : BarUnit) : (s.setBar b x).pins = s.pins := rfl
@[simp] theorem State.setBar_bpu (s : State) (b : Bar) (x : BarUnit) : (s.setBar b x).bpu = s.bpu := rfl
@[simp] theorem State.setBar_ports (s : State) (b : Bar) (x : BarUnit) : (s.setBar b x).ports = s.ports := rfl
@[simp] theorem State.setBar_ft (s : State) (b : Bar) (x : BarUnit) : (s.setBar b x).ft = s.ft := rfl
@[simp] theorem State.setBar_tracking (s : State) (b : Bar) (x : BarUnit) : (s.setBar b x).tracking = s.tracking := rfl
@[simp] theorem State.setBar_ae (s : State) (b : Bar) (x : BarUnit) : (s.setBar b x).ae = s.ae := rfl
@[simp] theorem State.setBar_banks (s : State) (b : Bar) (x : BarUnit) : (s.setBar b x).banks = s.banks := rfl
@[simp] theorem State.setBar_bars (s : State) (b : Bar) (x : BarUnit) : (s.setBar b x).bars = s.bars.set b x := rfl
@[simp] theorem State.setBar_link (s : State) (b : Bar) (x : BarUnit) : (s.setBar b x).link = s.link := rfl
@[simp] theorem State.setBar_lc (s : State) (b : Bar) (x : BarUnit) : (s.setBar b x).lc = s.lc := rfl
@[simp] theorem State.setBar_draws (s : State) (b : Bar) (x : BarUnit) : (s.setBar b x).draws = s.draws := rfl
@[simp] theorem State.setBar_pending (s : State) (b : Bar) (x : BarUnit) : (s.setBar b x).pending = s.pending := rfl
@[simp] theorem State.modRecord_pins (s : State) (slot : Nat) (f : Record → Record) : (s.modRecord slot f).pins =
    s.pins := rfl
@[simp] theorem State.modRecord_bpu (s : State) (slot : Nat) (f : Record → Record) : (s.modRecord slot f).bpu =
    s.bpu := rfl
@[simp] theorem State.modRecord_ports (s : State) (slot : Nat) (f : Record → Record) : (s.modRecord slot f).ports =
    s.ports := rfl
@[simp] theorem State.modRecord_ft (s : State) (slot : Nat) (f : Record → Record) : (s.modRecord slot f).ft =
    s.ft.modRecord slot f := rfl
@[simp] theorem State.modRecord_tracking (s : State) (slot : Nat) (f : Record → Record) : (s.modRecord slot f).tracking =
    s.tracking := rfl
@[simp] theorem State.modRecord_ae (s : State) (slot : Nat) (f : Record → Record) : (s.modRecord slot f).ae =
    s.ae := rfl
@[simp] theorem State.modRecord_banks (s : State) (slot : Nat) (f : Record → Record) : (s.modRecord slot f).banks =
    s.banks := rfl
@[simp] theorem State.modRecord_bars (s : State) (slot : Nat) (f : Record → Record) : (s.modRecord slot f).bars =
    s.bars := rfl
@[simp] theorem State.modRecord_link (s : State) (slot : Nat) (f : Record → Record) : (s.modRecord slot f).link =
    s.link := rfl
@[simp] theorem State.modRecord_lc (s : State) (slot : Nat) (f : Record → Record) : (s.modRecord slot f).lc =
    s.lc := rfl
@[simp] theorem State.modRecord_draws (s : State) (slot : Nat) (f : Record → Record) : (s.modRecord slot f).draws =
    s.draws := rfl
@[simp] theorem State.modRecord_pending (s : State) (slot : Nat) (f : Record → Record) : (s.modRecord slot f).pending =
    s.pending := rfl
@[simp] theorem State.setRecState_pins (s : State) (slot : Nat) (st : RecState) : (s.setRecState slot st).pins =
    s.pins := rfl
@[simp] theorem State.setRecState_bpu (s : State) (slot : Nat) (st : RecState) : (s.setRecState slot st).bpu =
    s.bpu := rfl
@[simp] theorem State.setRecState_ports (s : State) (slot : Nat) (st : RecState) : (s.setRecState slot st).ports =
    s.ports := rfl
@[simp] theorem State.setRecState_ft (s : State) (slot : Nat) (st : RecState) : (s.setRecState slot st).ft =
    s.ft.modRecord slot fun r => { r with st } := rfl
@[simp] theorem State.setRecState_tracking (s : State) (slot : Nat) (st : RecState) : (s.setRecState slot st).tracking =
    s.tracking := rfl
@[simp] theorem State.setRecState_ae (s : State) (slot : Nat) (st : RecState) : (s.setRecState slot st).ae = s.ae := rfl
@[simp] theorem State.setRecState_banks (s : State) (slot : Nat) (st : RecState) : (s.setRecState slot st).banks =
    s.banks := rfl
@[simp] theorem State.setRecState_bars (s : State) (slot : Nat) (st : RecState) : (s.setRecState slot st).bars =
    s.bars := rfl
@[simp] theorem State.setRecState_link (s : State) (slot : Nat) (st : RecState) : (s.setRecState slot st).link =
    s.link := rfl
@[simp] theorem State.setRecState_lc (s : State) (slot : Nat) (st : RecState) : (s.setRecState slot st).lc = s.lc := rfl
@[simp] theorem State.setRecState_draws (s : State) (slot : Nat) (st : RecState) : (s.setRecState slot st).draws =
    s.draws := rfl
@[simp] theorem State.setRecState_pending (s : State) (slot : Nat) (st : RecState) : (s.setRecState slot st).pending =
    s.pending := rfl
@[simp] theorem State.freeRecord_pins (s : State) (slot : Nat) (r : Record) : (s.freeRecord slot r).pins = s.pins := rfl
@[simp] theorem State.freeRecord_bpu (s : State) (slot : Nat) (r : Record) : (s.freeRecord slot r).bpu = s.bpu := rfl
@[simp] theorem State.freeRecord_ports (s : State) (slot : Nat) (r : Record) : (s.freeRecord slot r).ports =
    s.ports := rfl
@[simp] theorem State.freeRecord_ft (s : State) (slot : Nat) (r : Record) : (s.freeRecord slot r).ft =
    s.ft.freeSlot slot := rfl
@[simp] theorem State.freeRecord_tracking (s : State) (slot : Nat) (r : Record) : (s.freeRecord slot r).tracking =
    s.tracking := rfl
@[simp] theorem State.freeRecord_ae (s : State) (slot : Nat) (r : Record) : (s.freeRecord slot r).ae = s.ae := rfl
@[simp] theorem State.freeRecord_banks (s : State) (slot : Nat) (r : Record) : (s.freeRecord slot r).banks =
    { s.banks with refs := s.banks.refs.set r.bank (s.banks.refs.get r.bank - 1) } := rfl
@[simp] theorem State.freeRecord_bars (s : State) (slot : Nat) (r : Record) : (s.freeRecord slot r).bars = s.bars := rfl
@[simp] theorem State.freeRecord_link (s : State) (slot : Nat) (r : Record) : (s.freeRecord slot r).link = s.link := rfl
@[simp] theorem State.freeRecord_lc (s : State) (slot : Nat) (r : Record) : (s.freeRecord slot r).lc = s.lc := rfl
@[simp] theorem State.freeRecord_draws (s : State) (slot : Nat) (r : Record) : (s.freeRecord slot r).draws =
    s.draws := rfl
@[simp] theorem State.freeRecord_pending (s : State) (slot : Nat) (r : Record) : (s.freeRecord slot r).pending =
    s.pending := rfl
@[simp] theorem State.modBank_pins (s : State) (k : Bank) (f : BankData → BankData) : (s.modBank k f).pins =
    s.pins := rfl
@[simp] theorem State.modBank_bpu (s : State) (k : Bank) (f : BankData → BankData) : (s.modBank k f).bpu = s.bpu := rfl
@[simp] theorem State.modBank_ports (s : State) (k : Bank) (f : BankData → BankData) : (s.modBank k f).ports =
    s.ports := rfl
@[simp] theorem State.modBank_ft (s : State) (k : Bank) (f : BankData → BankData) : (s.modBank k f).ft = s.ft := rfl
@[simp] theorem State.modBank_tracking (s : State) (k : Bank) (f : BankData → BankData) : (s.modBank k f).tracking =
    s.tracking := rfl
@[simp] theorem State.modBank_ae (s : State) (k : Bank) (f : BankData → BankData) : (s.modBank k f).ae = s.ae := rfl
@[simp] theorem State.modBank_banks (s : State) (k : Bank) (f : BankData → BankData) : (s.modBank k f).banks =
    { s.banks with data := s.banks.data.set k (f (s.banks.data.get k)) } := rfl
@[simp] theorem State.modBank_bars (s : State) (k : Bank) (f : BankData → BankData) : (s.modBank k f).bars =
    s.bars := rfl
@[simp] theorem State.modBank_link (s : State) (k : Bank) (f : BankData → BankData) : (s.modBank k f).link =
    s.link := rfl
@[simp] theorem State.modBank_lc (s : State) (k : Bank) (f : BankData → BankData) : (s.modBank k f).lc = s.lc := rfl
@[simp] theorem State.modBank_draws (s : State) (k : Bank) (f : BankData → BankData) : (s.modBank k f).draws =
    s.draws := rfl
@[simp] theorem State.modBank_pending (s : State) (k : Bank) (f : BankData → BankData) : (s.modBank k f).pending =
    s.pending := rfl

/-! ### State: notices, halt, drain, settling -/

@[simp] theorem State.raise_pins (s : State) (k : NoticeKind) (src : Source) (h : Option Handle) : (s.raise k src h).pins =
    s.pins := rfl
@[simp] theorem State.raise_bpu (s : State) (k : NoticeKind) (src : Source) (h : Option Handle) : (s.raise k src h).bpu =
    s.bpu := rfl
@[simp] theorem State.raise_ports (s : State) (k : NoticeKind) (src : Source) (h : Option Handle) : (s.raise k src h).ports =
    s.ports := rfl
@[simp] theorem State.raise_ft (s : State) (k : NoticeKind) (src : Source) (h : Option Handle) : (s.raise k src h).ft =
    s.ft := rfl
@[simp] theorem State.raise_tracking (s : State) (k : NoticeKind) (src : Source) (h : Option Handle) : (s.raise k src h).tracking =
    s.tracking := rfl
@[simp] theorem State.raise_ae (s : State) (k : NoticeKind) (src : Source) (h : Option Handle) : (s.raise k src h).ae =
    s.ae := rfl
@[simp] theorem State.raise_banks (s : State) (k : NoticeKind) (src : Source) (h : Option Handle) : (s.raise k src h).banks =
    s.banks := rfl
@[simp] theorem State.raise_bars (s : State) (k : NoticeKind) (src : Source) (h : Option Handle) : (s.raise k src h).bars =
    s.bars := rfl
@[simp] theorem State.raise_link (s : State) (k : NoticeKind) (src : Source) (h : Option Handle) : (s.raise k src h).link =
    s.link := rfl
@[simp] theorem State.raise_lc (s : State) (k : NoticeKind) (src : Source) (h : Option Handle) : (s.raise k src h).lc =
    s.lc.raise s.bpu.T k src h := rfl
@[simp] theorem State.raise_draws (s : State) (k : NoticeKind) (src : Source) (h : Option Handle) : (s.raise k src h).draws =
    s.draws := rfl
@[simp] theorem State.raise_pending (s : State) (k : NoticeKind) (src : Source) (h : Option Handle) : (s.raise k src h).pending =
    s.pending := rfl
@[simp] theorem State.completeDrain_pins (s : State) : (s.completeDrain).pins = s.pins := rfl
@[simp] theorem State.completeDrain_bpu (s : State) : (s.completeDrain).bpu = { s.bpu with G := 0 } := rfl
@[simp] theorem State.completeDrain_ports (s : State) : (s.completeDrain).ports = s.ports.map Port.emptied := rfl
@[simp] theorem State.completeDrain_ft (s : State) : (s.completeDrain).ft = s.ft := rfl
@[simp] theorem State.completeDrain_tracking (s : State) : (s.completeDrain).tracking = s.tracking := rfl
@[simp] theorem State.completeDrain_ae (s : State) : (s.completeDrain).ae = s.ae := rfl
@[simp] theorem State.completeDrain_banks (s : State) : (s.completeDrain).banks = s.banks := rfl
@[simp] theorem State.completeDrain_bars (s : State) : (s.completeDrain).bars = s.bars := rfl
@[simp] theorem State.completeDrain_link (s : State) : (s.completeDrain).link = s.link := rfl
@[simp] theorem State.completeDrain_lc (s : State) : (s.completeDrain).lc =
    { s.lc.raise s.bpu.T .drained .none none with mode := .config } := rfl
@[simp] theorem State.completeDrain_draws (s : State) : (s.completeDrain).draws = s.draws := rfl
@[simp] theorem State.completeDrain_pending (s : State) : (s.completeDrain).pending = s.pending := rfl
@[simp] theorem State.settle_pins (s : State) : (s.settle).pins = s.pins := rfl
@[simp] theorem State.settle_bpu (s : State) : (s.settle).bpu = s.bpu := rfl
@[simp] theorem State.settle_ports (s : State) : (s.settle).ports = s.ports := rfl
@[simp] theorem State.settle_ft (s : State) : (s.settle).ft = s.ft := rfl
@[simp] theorem State.settle_tracking (s : State) : (s.settle).tracking = s.tracking := rfl
@[simp] theorem State.settle_ae (s : State) : (s.settle).ae = s.ae := rfl
@[simp] theorem State.settle_banks (s : State) : (s.settle).banks = s.banks := rfl
@[simp] theorem State.settle_bars (s : State) : (s.settle).bars =
    s.bars.map fun u => u.evalAll (s.barOpen u) s.bpu.T := rfl
@[simp] theorem State.settle_link (s : State) : (s.settle).link = s.link := rfl
@[simp] theorem State.settle_lc (s : State) : (s.settle).lc = s.lc := rfl
@[simp] theorem State.settle_draws (s : State) : (s.settle).draws = s.draws := rfl
@[simp] theorem State.settle_pending (s : State) : (s.settle).pending = s.pending := rfl
@[simp] theorem State.answered_pins (s : State) (kind : Byte) (code : ReplyCode) (body : ReplyBody) : (s.answered kind code body).pins =
    s.pins := rfl
@[simp] theorem State.answered_bpu (s : State) (kind : Byte) (code : ReplyCode) (body : ReplyBody) : (s.answered kind code body).bpu =
    s.bpu := rfl
@[simp] theorem State.answered_ports (s : State) (kind : Byte) (code : ReplyCode) (body : ReplyBody) : (s.answered kind code body).ports =
    s.ports := rfl
@[simp] theorem State.answered_ft (s : State) (kind : Byte) (code : ReplyCode) (body : ReplyBody) : (s.answered kind code body).ft =
    s.ft := rfl
@[simp] theorem State.answered_tracking (s : State) (kind : Byte) (code : ReplyCode) (body : ReplyBody) : (s.answered kind code body).tracking =
    s.tracking := rfl
@[simp] theorem State.answered_ae (s : State) (kind : Byte) (code : ReplyCode) (body : ReplyBody) : (s.answered kind code body).ae =
    s.ae := rfl
@[simp] theorem State.answered_banks (s : State) (kind : Byte) (code : ReplyCode) (body : ReplyBody) : (s.answered kind code body).banks =
    s.banks := rfl
@[simp] theorem State.answered_bars (s : State) (kind : Byte) (code : ReplyCode) (body : ReplyBody) : (s.answered kind code body).bars =
    s.bars := rfl
@[simp] theorem State.answered_link (s : State) (kind : Byte) (code : ReplyCode) (body : ReplyBody) : (s.answered kind code body).link =
    { rx := .hunting, inProgress := some ⟨kind, true⟩, replies := s.link.replies ++ [⟨kind, code, body, true⟩] } := rfl
@[simp] theorem State.answered_lc (s : State) (kind : Byte) (code : ReplyCode) (body : ReplyBody) : (s.answered kind code body).lc =
    s.lc := rfl
@[simp] theorem State.answered_draws (s : State) (kind : Byte) (code : ReplyCode) (body : ReplyBody) : (s.answered kind code body).draws =
    s.draws := rfl
@[simp] theorem State.answered_pending (s : State) (kind : Byte) (code : ReplyCode) (body : ReplyBody) : (s.answered kind code body).pending =
    s.pending := rfl
@[simp] theorem State.frameReply_pins (s : State) (kind : Byte) (code : ReplyCode) : (s.frameReply kind code).pins =
    s.pins := rfl
@[simp] theorem State.frameReply_bpu (s : State) (kind : Byte) (code : ReplyCode) : (s.frameReply kind code).bpu =
    s.bpu := rfl
@[simp] theorem State.frameReply_ports (s : State) (kind : Byte) (code : ReplyCode) : (s.frameReply kind code).ports =
    s.ports := rfl
@[simp] theorem State.frameReply_ft (s : State) (kind : Byte) (code : ReplyCode) : (s.frameReply kind code).ft =
    s.ft := rfl
@[simp] theorem State.frameReply_tracking (s : State) (kind : Byte) (code : ReplyCode) : (s.frameReply kind code).tracking =
    s.tracking := rfl
@[simp] theorem State.frameReply_ae (s : State) (kind : Byte) (code : ReplyCode) : (s.frameReply kind code).ae =
    s.ae := rfl
@[simp] theorem State.frameReply_banks (s : State) (kind : Byte) (code : ReplyCode) : (s.frameReply kind code).banks =
    s.banks := rfl
@[simp] theorem State.frameReply_bars (s : State) (kind : Byte) (code : ReplyCode) : (s.frameReply kind code).bars =
    s.bars := rfl
@[simp] theorem State.frameReply_link (s : State) (kind : Byte) (code : ReplyCode) : (s.frameReply kind code).link =
    s.link.hunting.answer kind code := rfl
@[simp] theorem State.frameReply_lc (s : State) (kind : Byte) (code : ReplyCode) : (s.frameReply kind code).lc =
    s.lc := rfl
@[simp] theorem State.frameReply_draws (s : State) (kind : Byte) (code : ReplyCode) : (s.frameReply kind code).draws =
    s.draws := rfl
@[simp] theorem State.frameReply_pending (s : State) (kind : Byte) (code : ReplyCode) : (s.frameReply kind code).pending =
    s.pending := rfl

/-! ### Line Control -/

@[simp] theorem LineControl.setPending_mode (lc : LineControl) (p : NoticeSet) : (lc.setPending p).mode = lc.mode := rfl
@[simp] theorem LineControl.setPending_condition (lc : LineControl) (p : NoticeSet) : (lc.setPending p).condition =
    lc.condition := rfl
@[simp] theorem LineControl.setPending_pendingSet (lc : LineControl) (p : NoticeSet) : (lc.setPending p).pendingSet =
    p := rfl
@[simp] theorem LineControl.setPending_mask (lc : LineControl) (p : NoticeSet) : (lc.setPending p).mask = lc.mask := rfl
@[simp] theorem LineControl.setPending_attn (lc : LineControl) (p : NoticeSet) : (lc.setPending p).attn =
    attnOf p lc.mask := rfl
@[simp] theorem LineControl.setPending_faultLine (lc : LineControl) (p : NoticeSet) : (lc.setPending p).faultLine =
    lc.faultLine := rfl
@[simp] theorem LineControl.setPending_capture (lc : LineControl) (p : NoticeSet) : (lc.setPending p).capture =
    lc.capture := rfl
@[simp] theorem LineControl.setPending_tallies (lc : LineControl) (p : NoticeSet) : (lc.setPending p).tallies =
    lc.tallies := rfl
@[simp] theorem LineControl.withMask_mode (lc : LineControl) (m : NoticeSet) : (lc.withMask m).mode = lc.mode := rfl
@[simp] theorem LineControl.withMask_condition (lc : LineControl) (m : NoticeSet) : (lc.withMask m).condition =
    lc.condition := rfl
@[simp] theorem LineControl.withMask_pendingSet (lc : LineControl) (m : NoticeSet) : (lc.withMask m).pendingSet =
    lc.pendingSet := rfl
@[simp] theorem LineControl.withMask_mask (lc : LineControl) (m : NoticeSet) : (lc.withMask m).mask = m := rfl
@[simp] theorem LineControl.withMask_attn (lc : LineControl) (m : NoticeSet) : (lc.withMask m).attn =
    attnOf lc.pendingSet m := rfl
@[simp] theorem LineControl.withMask_faultLine (lc : LineControl) (m : NoticeSet) : (lc.withMask m).faultLine =
    lc.faultLine := rfl
@[simp] theorem LineControl.withMask_capture (lc : LineControl) (m : NoticeSet) : (lc.withMask m).capture =
    lc.capture := rfl
@[simp] theorem LineControl.withMask_tallies (lc : LineControl) (m : NoticeSet) : (lc.withMask m).tallies =
    lc.tallies := rfl
@[simp] theorem LineControl.afterReset_mode (lc : LineControl) : (lc.afterReset).mode = .config := rfl
@[simp] theorem LineControl.afterReset_condition (lc : LineControl) : (lc.afterReset).condition = .normal := rfl
@[simp] theorem LineControl.afterReset_pendingSet (lc : LineControl) : (lc.afterReset).pendingSet = 0 := rfl
@[simp] theorem LineControl.afterReset_mask (lc : LineControl) : (lc.afterReset).mask = lc.mask := rfl
@[simp] theorem LineControl.afterReset_attn (lc : LineControl) : (lc.afterReset).attn = false := rfl
@[simp] theorem LineControl.afterReset_faultLine (lc : LineControl) : (lc.afterReset).faultLine = false := rfl
@[simp] theorem LineControl.afterReset_capture (lc : LineControl) : (lc.afterReset).capture = none := rfl
@[simp] theorem LineControl.afterReset_tallies (lc : LineControl) : (lc.afterReset).tallies = lc.tallies := rfl

/-! ### Belt -/

@[simp] theorem Bpu.advance_ref (b : Bpu) : (b.advance).ref = b.ref := rfl
@[simp] theorem Bpu.advance_encErr (b : Bpu) : (b.advance).encErr = b.encErr := rfl
@[simp] theorem Bpu.advance_sub (b : Bpu) : (b.advance).sub = b.sub := rfl
@[simp] theorem Bpu.advance_P (b : Bpu) : (b.advance).P = b.P + 1 := rfl
@[simp] theorem Bpu.advance_T (b : Bpu) : (b.advance).T = b.T + 1 := rfl
@[simp] theorem Bpu.advance_owed (b : Bpu) : (b.advance).owed = satAdd Config.byteMax b.owed 1 := rfl
@[simp] theorem Bpu.advance_lclk (b : Bpu) : (b.advance).lclk = b.lclk := rfl
@[simp] theorem Bpu.advance_lclkHeld (b : Bpu) : (b.advance).lclkHeld = b.lclkHeld := rfl
@[simp] theorem Bpu.advance_windowTime (b : Bpu) : (b.advance).windowTime = b.windowTime := rfl
@[simp] theorem Bpu.advance_windowCount (b : Bpu) : (b.advance).windowCount =
    satAdd Config.halfMax b.windowCount 1 := rfl
@[simp] theorem Bpu.advance_history (b : Bpu) : (b.advance).history = b.history := rfl
@[simp] theorem Bpu.advance_V (b : Bpu) : (b.advance).V = b.V := rfl
@[simp] theorem Bpu.advance_Z (b : Bpu) : (b.advance).Z = b.Z := rfl
@[simp] theorem Bpu.advance_stalled (b : Bpu) : (b.advance).stalled = b.stalled := rfl
@[simp] theorem Bpu.advance_guard (b : Bpu) : (b.advance).guard = b.guard := rfl
@[simp] theorem Bpu.advance_G (b : Bpu) : (b.advance).G = b.G := rfl
@[simp] theorem Bpu.advance_encDiv (b : Bpu) : (b.advance).encDiv = b.encDiv := rfl
@[simp] theorem Bpu.advance_revMax (b : Bpu) : (b.advance).revMax = b.revMax := rfl
@[simp] theorem Bpu.advance_stallW (b : Bpu) : (b.advance).stallW = b.stallW := rfl
@[simp] theorem Bpu.advance_guardW (b : Bpu) : (b.advance).guardW = b.guardW := rfl
@[simp] theorem Bpu.closeWindow_ref (b : Bpu) : (b.closeWindow).ref = b.ref := rfl
@[simp] theorem Bpu.closeWindow_encErr (b : Bpu) : (b.closeWindow).encErr = b.encErr := rfl
@[simp] theorem Bpu.closeWindow_sub (b : Bpu) : (b.closeWindow).sub = b.sub := rfl
@[simp] theorem Bpu.closeWindow_P (b : Bpu) : (b.closeWindow).P = b.P := rfl
@[simp] theorem Bpu.closeWindow_T (b : Bpu) : (b.closeWindow).T = b.T := rfl
@[simp] theorem Bpu.closeWindow_owed (b : Bpu) : (b.closeWindow).owed = b.owed := rfl
@[simp] theorem Bpu.closeWindow_lclk (b : Bpu) : (b.closeWindow).lclk = b.lclk := rfl
@[simp] theorem Bpu.closeWindow_lclkHeld (b : Bpu) : (b.closeWindow).lclkHeld = b.lclkHeld := rfl
@[simp] theorem Bpu.closeWindow_windowTime (b : Bpu) : (b.closeWindow).windowTime = 0 := rfl
@[simp] theorem Bpu.closeWindow_windowCount (b : Bpu) : (b.closeWindow).windowCount = 0 := rfl
@[simp] theorem Bpu.closeWindow_history (b : Bpu) : (b.closeWindow).history = b.history.shift b.windowCount := rfl
@[simp] theorem Bpu.closeWindow_V (b : Bpu) : (b.closeWindow).V = (b.history.shift b.windowCount).speed := rfl
@[simp] theorem Bpu.closeWindow_Z (b : Bpu) : (b.closeWindow).Z = nextZ b.Z b.windowCount := rfl
@[simp] theorem Bpu.closeWindow_stalled (b : Bpu) : (b.closeWindow).stalled = (b.stalled || b.declaresStall) := rfl
@[simp] theorem Bpu.closeWindow_guard (b : Bpu) : (b.closeWindow).guard = b.guard := rfl
@[simp] theorem Bpu.closeWindow_G (b : Bpu) : (b.closeWindow).G = b.G := rfl
@[simp] theorem Bpu.closeWindow_encDiv (b : Bpu) : (b.closeWindow).encDiv = b.encDiv := rfl
@[simp] theorem Bpu.closeWindow_revMax (b : Bpu) : (b.closeWindow).revMax = b.revMax := rfl
@[simp] theorem Bpu.closeWindow_stallW (b : Bpu) : (b.closeWindow).stallW = b.stallW := rfl
@[simp] theorem Bpu.closeWindow_guardW (b : Bpu) : (b.closeWindow).guardW = b.guardW := rfl
@[simp] theorem Bpu.tick_ref (b : Bpu) : (b.tick).ref = b.ref := rfl
@[simp] theorem Bpu.tick_encErr (b : Bpu) : (b.tick).encErr = b.encErr := rfl
@[simp] theorem Bpu.tick_sub (b : Bpu) : (b.tick).sub = b.sub := rfl
@[simp] theorem Bpu.tick_P (b : Bpu) : (b.tick).P = b.P := rfl
@[simp] theorem Bpu.tick_T (b : Bpu) : (b.tick).T = b.T := rfl
@[simp] theorem Bpu.tick_owed (b : Bpu) : (b.tick).owed = b.owed := rfl
@[simp] theorem Bpu.tick_lclk (b : Bpu) : (b.tick).lclk = b.lclk := rfl
@[simp] theorem Bpu.tick_lclkHeld (b : Bpu) : (b.tick).lclkHeld = satAdd 1 b.lclkHeld 1 := rfl
@[simp] theorem Bpu.tick_windowTime (b : Bpu) : (b.tick).windowTime = satAdd Config.windowUs b.windowTime 1 := rfl
@[simp] theorem Bpu.tick_windowCount (b : Bpu) : (b.tick).windowCount = b.windowCount := rfl
@[simp] theorem Bpu.tick_history (b : Bpu) : (b.tick).history = b.history := rfl
@[simp] theorem Bpu.tick_V (b : Bpu) : (b.tick).V = b.V := rfl
@[simp] theorem Bpu.tick_Z (b : Bpu) : (b.tick).Z = b.Z := rfl
@[simp] theorem Bpu.tick_stalled (b : Bpu) : (b.tick).stalled = b.stalled := rfl
@[simp] theorem Bpu.tick_guard (b : Bpu) : (b.tick).guard = b.guard := rfl
@[simp] theorem Bpu.tick_G (b : Bpu) : (b.tick).G = b.G := rfl
@[simp] theorem Bpu.tick_encDiv (b : Bpu) : (b.tick).encDiv = b.encDiv := rfl
@[simp] theorem Bpu.tick_revMax (b : Bpu) : (b.tick).revMax = b.revMax := rfl
@[simp] theorem Bpu.tick_stallW (b : Bpu) : (b.tick).stallW = b.stallW := rfl
@[simp] theorem Bpu.tick_guardW (b : Bpu) : (b.tick).guardW = b.guardW := rfl

/-! ### Ports -/

@[simp] theorem Port.count_enabled (p : Port) (f : PortCounters → PortCounters) : (p.count f).enabled = p.enabled := rfl
@[simp] theorem Port.count_D (p : Port) (f : PortCounters → PortCounters) : (p.count f).D = p.D := rfl
@[simp] theorem Port.count_rate (p : Port) (f : PortCounters → PortCounters) : (p.count f).rate = p.rate := rfl
@[simp] theorem Port.count_slipTol (p : Port) (f : PortCounters → PortCounters) : (p.count f).slipTol = p.slipTol := rfl
@[simp] theorem Port.count_silentSteps (p : Port) (f : PortCounters → PortCounters) : (p.count f).silentSteps =
    p.silentSteps := rfl
@[simp] theorem Port.count_state (p : Port) (f : PortCounters → PortCounters) : (p.count f).state = p.state := rfl
@[simp] theorem Port.count_base (p : Port) (f : PortCounters → PortCounters) : (p.count f).base = p.base := rfl
@[simp] theorem Port.count_lastSeq (p : Port) (f : PortCounters → PortCounters) : (p.count f).lastSeq = p.lastSeq := rfl
@[simp] theorem Port.count_silence (p : Port) (f : PortCounters → PortCounters) : (p.count f).silence = p.silence := rfl
@[simp] theorem Port.count_rateCount (p : Port) (f : PortCounters → PortCounters) : (p.count f).rateCount =
    p.rateCount := rfl
@[simp] theorem Port.count_queue (p : Port) (f : PortCounters → PortCounters) : (p.count f).queue = p.queue := rfl
@[simp] theorem Port.count_hold (p : Port) (f : PortCounters → PortCounters) : (p.count f).hold = p.hold := rfl
@[simp] theorem Port.count_counters (p : Port) (f : PortCounters → PortCounters) : (p.count f).counters =
    f p.counters := rfl
@[simp] theorem Port.count_rx (p : Port) (f : PortCounters → PortCounters) : (p.count f).rx = p.rx := rfl
@[simp] theorem Port.hunting_enabled (p : Port) : (p.hunting).enabled = p.enabled := rfl
@[simp] theorem Port.hunting_D (p : Port) : (p.hunting).D = p.D := rfl
@[simp] theorem Port.hunting_rate (p : Port) : (p.hunting).rate = p.rate := rfl
@[simp] theorem Port.hunting_slipTol (p : Port) : (p.hunting).slipTol = p.slipTol := rfl
@[simp] theorem Port.hunting_silentSteps (p : Port) : (p.hunting).silentSteps = p.silentSteps := rfl
@[simp] theorem Port.hunting_state (p : Port) : (p.hunting).state = p.state := rfl
@[simp] theorem Port.hunting_base (p : Port) : (p.hunting).base = p.base := rfl
@[simp] theorem Port.hunting_lastSeq (p : Port) : (p.hunting).lastSeq = p.lastSeq := rfl
@[simp] theorem Port.hunting_silence (p : Port) : (p.hunting).silence = p.silence := rfl
@[simp] theorem Port.hunting_rateCount (p : Port) : (p.hunting).rateCount = p.rateCount := rfl
@[simp] theorem Port.hunting_queue (p : Port) : (p.hunting).queue = p.queue := rfl
@[simp] theorem Port.hunting_hold (p : Port) : (p.hunting).hold = p.hold := rfl
@[simp] theorem Port.hunting_counters (p : Port) : (p.hunting).counters = p.counters := rfl
@[simp] theorem Port.hunting_rx (p : Port) : (p.hunting).rx = .hunting := rfl
@[simp] theorem Port.emptied_enabled (p : Port) : (p.emptied).enabled = p.enabled := rfl
@[simp] theorem Port.emptied_D (p : Port) : (p.emptied).D = p.D := rfl
@[simp] theorem Port.emptied_rate (p : Port) : (p.emptied).rate = p.rate := rfl
@[simp] theorem Port.emptied_slipTol (p : Port) : (p.emptied).slipTol = p.slipTol := rfl
@[simp] theorem Port.emptied_silentSteps (p : Port) : (p.emptied).silentSteps = p.silentSteps := rfl
@[simp] theorem Port.emptied_state (p : Port) : (p.emptied).state = p.state := rfl
@[simp] theorem Port.emptied_base (p : Port) : (p.emptied).base = p.base := rfl
@[simp] theorem Port.emptied_lastSeq (p : Port) : (p.emptied).lastSeq = p.lastSeq := rfl
@[simp] theorem Port.emptied_silence (p : Port) : (p.emptied).silence = p.silence := rfl
@[simp] theorem Port.emptied_rateCount (p : Port) : (p.emptied).rateCount = p.rateCount := rfl
@[simp] theorem Port.emptied_queue (p : Port) : (p.emptied).queue = [] := rfl
@[simp] theorem Port.emptied_hold (p : Port) : (p.emptied).hold = false := rfl
@[simp] theorem Port.emptied_counters (p : Port) : (p.emptied).counters = p.counters := rfl
@[simp] theorem Port.emptied_rx (p : Port) : (p.emptied).rx = p.rx := rfl
@[simp] theorem Port.sequenced_enabled (p : Port) (n : Byte) (gap : Nat) : (p.sequenced n gap).enabled =
    p.enabled := rfl
@[simp] theorem Port.sequenced_D (p : Port) (n : Byte) (gap : Nat) : (p.sequenced n gap).D = p.D := rfl
@[simp] theorem Port.sequenced_rate (p : Port) (n : Byte) (gap : Nat) : (p.sequenced n gap).rate = p.rate := rfl
@[simp] theorem Port.sequenced_slipTol (p : Port) (n : Byte) (gap : Nat) : (p.sequenced n gap).slipTol =
    p.slipTol := rfl
@[simp] theorem Port.sequenced_silentSteps (p : Port) (n : Byte) (gap : Nat) : (p.sequenced n gap).silentSteps =
    p.silentSteps := rfl
@[simp] theorem Port.sequenced_state (p : Port) (n : Byte) (gap : Nat) : (p.sequenced n gap).state = p.state := rfl
@[simp] theorem Port.sequenced_base (p : Port) (n : Byte) (gap : Nat) : (p.sequenced n gap).base = p.base := rfl
@[simp] theorem Port.sequenced_lastSeq (p : Port) (n : Byte) (gap : Nat) : (p.sequenced n gap).lastSeq = some n := rfl
@[simp] theorem Port.sequenced_silence (p : Port) (n : Byte) (gap : Nat) : (p.sequenced n gap).silence = 0 := rfl
@[simp] theorem Port.sequenced_rateCount (p : Port) (n : Byte) (gap : Nat) : (p.sequenced n gap).rateCount =
    p.rateCount := rfl
@[simp] theorem Port.sequenced_queue (p : Port) (n : Byte) (gap : Nat) : (p.sequenced n gap).queue = p.queue := rfl
@[simp] theorem Port.sequenced_hold (p : Port) (n : Byte) (gap : Nat) : (p.sequenced n gap).hold = p.hold := rfl
@[simp] theorem Port.sequenced_counters (p : Port) (n : Byte) (gap : Nat) : (p.sequenced n gap).counters =
    p.counters.addSeqGap gap := rfl
@[simp] theorem Port.sequenced_rx (p : Port) (n : Byte) (gap : Nat) : (p.sequenced n gap).rx = p.rx := rfl
@[simp] theorem Port.join_enabled (p : Port) (d : Detection) : (p.join d).enabled = p.enabled := rfl
@[simp] theorem Port.join_D (p : Port) (d : Detection) : (p.join d).D = p.D := rfl
@[simp] theorem Port.join_rate (p : Port) (d : Detection) : (p.join d).rate = p.rate := rfl
@[simp] theorem Port.join_slipTol (p : Port) (d : Detection) : (p.join d).slipTol = p.slipTol := rfl
@[simp] theorem Port.join_silentSteps (p : Port) (d : Detection) : (p.join d).silentSteps = p.silentSteps := rfl
@[simp] theorem Port.join_state (p : Port) (d : Detection) : (p.join d).state = p.state := rfl
@[simp] theorem Port.join_base (p : Port) (d : Detection) : (p.join d).base = p.base := rfl
@[simp] theorem Port.join_lastSeq (p : Port) (d : Detection) : (p.join d).lastSeq = p.lastSeq := rfl
@[simp] theorem Port.join_silence (p : Port) (d : Detection) : (p.join d).silence = p.silence := rfl
@[simp] theorem Port.join_rateCount (p : Port) (d : Detection) : (p.join d).rateCount = p.rateCount := rfl
@[simp] theorem Port.join_queue (p : Port) (d : Detection) : (p.join d).queue = p.queue ++ [d] := rfl
@[simp] theorem Port.join_hold (p : Port) (d : Detection) : (p.join d).hold =
    (p.hold || p.queue.length + 1 == Config.holdAt) := rfl
@[simp] theorem Port.join_counters (p : Port) (d : Detection) : (p.join d).counters = p.counters.addAccepted := rfl
@[simp] theorem Port.join_rx (p : Port) (d : Detection) : (p.join d).rx = p.rx := rfl
@[simp] theorem Port.removeHead_enabled (p : Port) : (p.removeHead).enabled = p.enabled := rfl
@[simp] theorem Port.removeHead_D (p : Port) : (p.removeHead).D = p.D := rfl
@[simp] theorem Port.removeHead_rate (p : Port) : (p.removeHead).rate = p.rate := rfl
@[simp] theorem Port.removeHead_slipTol (p : Port) : (p.removeHead).slipTol = p.slipTol := rfl
@[simp] theorem Port.removeHead_silentSteps (p : Port) : (p.removeHead).silentSteps = p.silentSteps := rfl
@[simp] theorem Port.removeHead_state (p : Port) : (p.removeHead).state = p.state := rfl
@[simp] theorem Port.removeHead_base (p : Port) : (p.removeHead).base = p.base := rfl
@[simp] theorem Port.removeHead_lastSeq (p : Port) : (p.removeHead).lastSeq = p.lastSeq := rfl
@[simp] theorem Port.removeHead_silence (p : Port) : (p.removeHead).silence = p.silence := rfl
@[simp] theorem Port.removeHead_rateCount (p : Port) : (p.removeHead).rateCount = p.rateCount := rfl
@[simp] theorem Port.removeHead_queue (p : Port) : (p.removeHead).queue = p.queue.tail := rfl
@[simp] theorem Port.removeHead_hold (p : Port) : (p.removeHead).hold =
    (p.hold && decide (Config.releaseAt < p.queue.tail.length)) := rfl
@[simp] theorem Port.removeHead_counters (p : Port) : (p.removeHead).counters = p.counters := rfl
@[simp] theorem Port.removeHead_rx (p : Port) : (p.removeHead).rx = p.rx := rfl
@[simp] theorem Port.advance_enabled (T : Pos) (p : Port) : (Port.advance T p).enabled = p.enabled := rfl
@[simp] theorem Port.advance_D (T : Pos) (p : Port) : (Port.advance T p).D = p.D := rfl
@[simp] theorem Port.advance_rate (T : Pos) (p : Port) : (Port.advance T p).rate = p.rate := rfl
@[simp] theorem Port.advance_slipTol (T : Pos) (p : Port) : (Port.advance T p).slipTol = p.slipTol := rfl
@[simp] theorem Port.advance_silentSteps (T : Pos) (p : Port) : (Port.advance T p).silentSteps = p.silentSteps := rfl
@[simp] theorem Port.advance_state (T : Pos) (p : Port) : (Port.advance T p).state = p.state := rfl
@[simp] theorem Port.advance_base (T : Pos) (p : Port) : (Port.advance T p).base = p.base := rfl
@[simp] theorem Port.advance_lastSeq (T : Pos) (p : Port) : (Port.advance T p).lastSeq = p.lastSeq := rfl
@[simp] theorem Port.advance_silence (T : Pos) (p : Port) : (Port.advance T p).silence =
    if p.state = .up then satAdd Config.halfMax p.silence 1 else p.silence := rfl
@[simp] theorem Port.advance_rateCount (T : Pos) (p : Port) : (Port.advance T p).rateCount =
    if T.toNat % 256 = 0 then 0 else p.rateCount := rfl
@[simp] theorem Port.advance_queue (T : Pos) (p : Port) : (Port.advance T p).queue = p.queue := rfl
@[simp] theorem Port.advance_hold (T : Pos) (p : Port) : (Port.advance T p).hold = p.hold := rfl
@[simp] theorem Port.advance_counters (T : Pos) (p : Port) : (Port.advance T p).counters = p.counters := rfl
@[simp] theorem Port.advance_rx (T : Pos) (p : Port) : (Port.advance T p).rx = p.rx := rfl

/-! ### Fragment Table -/

@[simp] theorem FragTable.modRecord_live (ft : FragTable) (slot : Nat) (f : Record → Record) : (ft.modRecord slot f).live =
    ft.live.map fun l => if l.slot == slot then { l with record := f l.record } else l := rfl
@[simp] theorem FragTable.modRecord_liveCount (ft : FragTable) (slot : Nat) (f : Record → Record) : (ft.modRecord slot f).liveCount =
    ft.liveCount := rfl
@[simp] theorem FragTable.modRecord_freeList (ft : FragTable) (slot : Nat) (f : Record → Record) : (ft.modRecord slot f).freeList =
    ft.freeList := rfl
@[simp] theorem FragTable.modRecord_gens (ft : FragTable) (slot : Nat) (f : Record → Record) : (ft.modRecord slot f).gens =
    ft.gens := rfl
@[simp] theorem FragTable.placeRecord_live (ft : FragTable) (slot : Nat) (r : Record) : (ft.placeRecord slot r).live =
    insertLive ⟨slot, r⟩ (removeSlot ft.live slot) := rfl
@[simp] theorem FragTable.placeRecord_liveCount (ft : FragTable) (slot : Nat) (r : Record) : (ft.placeRecord slot r).liveCount =
    ft.liveCount := rfl
@[simp] theorem FragTable.placeRecord_freeList (ft : FragTable) (slot : Nat) (r : Record) : (ft.placeRecord slot r).freeList =
    ft.freeList := rfl
@[simp] theorem FragTable.placeRecord_gens (ft : FragTable) (slot : Nat) (r : Record) : (ft.placeRecord slot r).gens =
    ft.gens := rfl
@[simp] theorem FragTable.freeSlot_live (ft : FragTable) (slot : Nat) : (ft.freeSlot slot).live =
    removeSlot ft.live slot := rfl
@[simp] theorem FragTable.freeSlot_liveCount (ft : FragTable) (slot : Nat) : (ft.freeSlot slot).liveCount =
    ft.liveCount - 1 := rfl
@[simp] theorem FragTable.freeSlot_freeList (ft : FragTable) (slot : Nat) : (ft.freeSlot slot).freeList =
    ft.freeList ++ [slot] := rfl
@[simp] theorem FragTable.freeSlot_gens (ft : FragTable) (slot : Nat) : (ft.freeSlot slot).gens =
    ft.gens.modify slot fun g => g + 1 := rfl
@[simp] theorem decideRecord_X (s : State) (r : Record) : (decideRecord s r).X = r.X := rfl
@[simp] theorem decideRecord_Xt (s : State) (r : Record) : (decideRecord s r).Xt = r.Xt := rfl
@[simp] theorem decideRecord_first (s : State) (r : Record) : (decideRecord s r).first = r.first := rfl
@[simp] theorem decideRecord_last (s : State) (r : Record) : (decideRecord s r).last = r.last := rfl
@[simp] theorem decideRecord_bank (s : State) (r : Record) : (decideRecord s r).bank = r.bank := rfl
@[simp] theorem decideRecord_evidence (s : State) (r : Record) : (decideRecord s r).evidence = r.evidence := rfl
@[simp] theorem decideRecord_ovr (s : State) (r : Record) : (decideRecord s r).ovr = r.ovr := rfl

/-! ### Bars and nozzles -/

@[simp] theorem BarUnit.modNozzle_settings (u : BarUnit) (n : Nat) (f : Nozzle → Nozzle) : (u.modNozzle n f).settings =
    u.settings := rfl
@[simp] theorem BarUnit.modNozzle_zones (u : BarUnit) (n : Nat) (f : Nozzle → Nozzle) : (u.modNozzle n f).zones =
    u.zones := rfl
@[simp] theorem BarUnit.modNozzle_lateFire (u : BarUnit) (n : Nat) (f : Nozzle → Nozzle) : (u.modNozzle n f).lateFire =
    u.lateFire := rfl
@[simp] theorem BarUnit.modNozzle_state (u : BarUnit) (n : Nat) (f : Nozzle → Nozzle) : (u.modNozzle n f).state =
    u.state := rfl
@[simp] theorem BarUnit.modNozzle_nozzles (u : BarUnit) (n : Nat) (f : Nozzle → Nozzle) : (u.modNozzle n f).nozzles =
    u.nozzles.modify n f := rfl
@[simp] theorem BarUnit.modNozzle_maxonCuts (u : BarUnit) (n : Nat) (f : Nozzle → Nozzle) : (u.modNozzle n f).maxonCuts =
    u.maxonCuts := rfl
@[simp] theorem BarUnit.modNozzle_bus (u : BarUnit) (n : Nat) (f : Nozzle → Nozzle) : (u.modNozzle n f).bus =
    u.bus := rfl
@[simp] theorem BarUnit.without_settings (u : BarUnit) (h : Handle) : (u.without h).settings = u.settings := rfl
@[simp] theorem BarUnit.without_zones (u : BarUnit) (h : Handle) : (u.without h).zones = u.zones := rfl
@[simp] theorem BarUnit.without_lateFire (u : BarUnit) (h : Handle) : (u.without h).lateFire = u.lateFire := rfl
@[simp] theorem BarUnit.without_state (u : BarUnit) (h : Handle) : (u.without h).state = u.state := rfl
@[simp] theorem BarUnit.without_nozzles (u : BarUnit) (h : Handle) : (u.without h).nozzles =
    u.nozzles.map fun n => n.without h := rfl
@[simp] theorem BarUnit.without_maxonCuts (u : BarUnit) (h : Handle) : (u.without h).maxonCuts = u.maxonCuts := rfl
@[simp] theorem BarUnit.without_bus (u : BarUnit) (h : Handle) : (u.without h).bus = u.bus := rfl
@[simp] theorem BarUnit.place_settings (u : BarUnit) (set : List Nat) (iv : Interval) : (u.place set iv).settings =
    u.settings := rfl
@[simp] theorem BarUnit.place_zones (u : BarUnit) (set : List Nat) (iv : Interval) : (u.place set iv).zones =
    u.zones := rfl
@[simp] theorem BarUnit.place_lateFire (u : BarUnit) (set : List Nat) (iv : Interval) : (u.place set iv).lateFire =
    u.lateFire := rfl
@[simp] theorem BarUnit.place_state (u : BarUnit) (set : List Nat) (iv : Interval) : (u.place set iv).state =
    u.state := rfl
@[simp] theorem BarUnit.place_nozzles (u : BarUnit) (set : List Nat) (iv : Interval) : (u.place set iv).nozzles =
    u.nozzles.zipIdx.map fun ni => if set.contains ni.2 then { ni.1 with ivals := insertInterval iv ni.1.ivals } else ni.1 := rfl
@[simp] theorem BarUnit.place_maxonCuts (u : BarUnit) (set : List Nat) (iv : Interval) : (u.place set iv).maxonCuts =
    u.maxonCuts := rfl
@[simp] theorem BarUnit.place_bus (u : BarUnit) (set : List Nat) (iv : Interval) : (u.place set iv).bus = u.bus := rfl
@[simp] theorem BarUnit.evalWhere_settings (u : BarUnit) (which : Nat → Bool) (go : Bool) (T : Pos) : (u.evalWhere which go T).settings =
    u.settings := rfl
@[simp] theorem BarUnit.evalWhere_lateFire (u : BarUnit) (which : Nat → Bool) (go : Bool) (T : Pos) : (u.evalWhere which go T).lateFire =
    u.lateFire := rfl
@[simp] theorem BarUnit.evalWhere_state (u : BarUnit) (which : Nat → Bool) (go : Bool) (T : Pos) : (u.evalWhere which go T).state =
    u.state := rfl
@[simp] theorem BarUnit.evalWhere_maxonCuts (u : BarUnit) (which : Nat → Bool) (go : Bool) (T : Pos) : (u.evalWhere which go T).maxonCuts =
    u.maxonCuts := rfl
@[simp] theorem BarUnit.evalWhere_nozzles (u : BarUnit) (which : Nat → Bool) (go : Bool) (T : Pos) : (u.evalWhere which go T).nozzles =
    u.nozzles.zipIdx.map fun ni => if which ni.2 then ni.1.eval go T else ni.1 := rfl
@[simp] theorem BarUnit.cut_settings (u : BarUnit) (n : Nat) : (u.cut n).settings = u.settings := rfl
@[simp] theorem BarUnit.cut_zones (u : BarUnit) (n : Nat) : (u.cut n).zones = u.zones := rfl
@[simp] theorem BarUnit.cut_lateFire (u : BarUnit) (n : Nat) : (u.cut n).lateFire = u.lateFire := rfl
@[simp] theorem BarUnit.cut_state (u : BarUnit) (n : Nat) : (u.cut n).state = u.state := rfl
@[simp] theorem BarUnit.cut_nozzles (u : BarUnit) (n : Nat) : (u.cut n).nozzles =
    u.nozzles.modify n fun z => { z with st := .cooling, onTime := 0, cool := 0 } := rfl
@[simp] theorem BarUnit.cut_maxonCuts (u : BarUnit) (n : Nat) : (u.cut n).maxonCuts =
    satAdd Config.countMax u.maxonCuts 1 := rfl
@[simp] theorem BarUnit.cut_bus (u : BarUnit) (n : Nat) : (u.cut n).bus = { u.bus with owed := true } := rfl
@[simp] theorem BarUnit.faultNow_settings (u : BarUnit) : (u.faultNow).settings = u.settings := rfl
@[simp] theorem BarUnit.faultNow_zones (u : BarUnit) : (u.faultNow).zones = u.zones := rfl
@[simp] theorem BarUnit.faultNow_lateFire (u : BarUnit) : (u.faultNow).lateFire = u.lateFire := rfl
@[simp] theorem BarUnit.faultNow_state (u : BarUnit) : (u.faultNow).state = .faulted := rfl
@[simp] theorem BarUnit.faultNow_nozzles (u : BarUnit) : (u.faultNow).nozzles = u.nozzles.map Nozzle.faulted := rfl
@[simp] theorem BarUnit.faultNow_maxonCuts (u : BarUnit) : (u.faultNow).maxonCuts = u.maxonCuts := rfl
@[simp] theorem BarUnit.cleared_settings (u : BarUnit) : (u.cleared).settings = u.settings := rfl
@[simp] theorem BarUnit.cleared_zones (u : BarUnit) : (u.cleared).zones = u.zones := rfl
@[simp] theorem BarUnit.cleared_lateFire (u : BarUnit) : (u.cleared).lateFire = u.lateFire := rfl
@[simp] theorem BarUnit.cleared_state (u : BarUnit) : (u.cleared).state = u.state := rfl
@[simp] theorem BarUnit.cleared_nozzles (u : BarUnit) : (u.cleared).nozzles = u.nozzles.map Nozzle.cleared := rfl
@[simp] theorem BarUnit.cleared_maxonCuts (u : BarUnit) : (u.cleared).maxonCuts = u.maxonCuts := rfl
@[simp] theorem BarUnit.startFrame_settings (u : BarUnit) : (u.startFrame).settings = u.settings := rfl
@[simp] theorem BarUnit.startFrame_zones (u : BarUnit) : (u.startFrame).zones = u.zones := rfl
@[simp] theorem BarUnit.startFrame_lateFire (u : BarUnit) : (u.startFrame).lateFire = u.lateFire := rfl
@[simp] theorem BarUnit.startFrame_state (u : BarUnit) : (u.startFrame).state = u.state := rfl
@[simp] theorem BarUnit.startFrame_nozzles (u : BarUnit) : (u.startFrame).nozzles = u.nozzles := rfl
@[simp] theorem BarUnit.startFrame_maxonCuts (u : BarUnit) : (u.startFrame).maxonCuts = u.maxonCuts := rfl
@[simp] theorem BarUnit.startFrame_bus (u : BarUnit) : (u.startFrame).bus =
    { sending := some { count := u.bus.count, open_ := u.nozzles.map fun n => n.st == .opened }, owed := false, count := u.bus.count + 1, refresh := 0 } := rfl
@[simp] theorem BarUnit.tick_settings (u : BarUnit) : (u.tick).settings = u.settings := rfl
@[simp] theorem BarUnit.tick_zones (u : BarUnit) : (u.tick).zones = u.zones := rfl
@[simp] theorem BarUnit.tick_lateFire (u : BarUnit) : (u.tick).lateFire = u.lateFire := rfl
@[simp] theorem BarUnit.tick_state (u : BarUnit) : (u.tick).state = u.state := rfl
@[simp] theorem BarUnit.tick_nozzles (u : BarUnit) : (u.tick).nozzles = u.nozzles.map Nozzle.tick := rfl
@[simp] theorem BarUnit.tick_maxonCuts (u : BarUnit) : (u.tick).maxonCuts = u.maxonCuts := rfl
@[simp] theorem BarUnit.tick_bus (u : BarUnit) : (u.tick).bus =
    { u.bus with refresh := satAdd Config.refreshUs u.bus.refresh 1 } := rfl
@[simp] theorem Nozzle.without_st (n : Nozzle) (h : Handle) : (n.without h).st = n.st := rfl
@[simp] theorem Nozzle.without_ivals (n : Nozzle) (h : Handle) : (n.without h).ivals =
    n.ivals.filter fun iv => iv.owner != h := rfl
@[simp] theorem Nozzle.without_onTime (n : Nozzle) (h : Handle) : (n.without h).onTime = n.onTime := rfl
@[simp] theorem Nozzle.without_cool (n : Nozzle) (h : Handle) : (n.without h).cool = n.cool := rfl
@[simp] theorem Nozzle.faulted_st (n : Nozzle) : (n.faulted).st = if n.st = .opened then .closed else n.st := rfl
@[simp] theorem Nozzle.faulted_ivals (n : Nozzle) : (n.faulted).ivals = [] := rfl
@[simp] theorem Nozzle.faulted_onTime (n : Nozzle) : (n.faulted).onTime = 0 := rfl
@[simp] theorem Nozzle.faulted_cool (n : Nozzle) : (n.faulted).cool = n.cool := rfl

/-! ### Link -/

@[simp] theorem Link.hunting_rx (l : Link) : (l.hunting).rx = .hunting := rfl
@[simp] theorem Link.hunting_inProgress (l : Link) : (l.hunting).inProgress = l.inProgress := rfl
@[simp] theorem Link.hunting_replies (l : Link) : (l.hunting).replies = l.replies := rfl
@[simp] theorem Link.takeUp_rx (l : Link) (kind : Byte) : (l.takeUp kind).rx = .hunting := rfl
@[simp] theorem Link.takeUp_inProgress (l : Link) (kind : Byte) : (l.takeUp kind).inProgress = some ⟨kind, false⟩ := rfl
@[simp] theorem Link.takeUp_replies (l : Link) (kind : Byte) : (l.takeUp kind).replies = l.replies := rfl
@[simp] theorem Link.form_rx (l : Link) (kind : Byte) (code : ReplyCode) (body : ReplyBody) : (l.form kind code body).rx =
    l.rx := rfl
@[simp] theorem Link.form_inProgress (l : Link) (kind : Byte) (code : ReplyCode) (body : ReplyBody) : (l.form kind code body).inProgress =
    some ⟨kind, true⟩ := rfl
@[simp] theorem Link.form_replies (l : Link) (kind : Byte) (code : ReplyCode) (body : ReplyBody) : (l.form kind code body).replies =
    l.replies ++ [⟨kind, code, body, true⟩] := rfl

end Sys2Proof.Machine
end

