-- ==== Sys2Proof/Laws/Access.lean ====
section
/-! SUPPORT. Reading after writing one place of a table kept per station, per bar or per bank. -/

namespace Sys2Proof.Machine

@[simp] theorem PerStation.get_set_same {α : Type} (v : PerStation α) (p : Station) (x : α) : (v.set p x).get p = x := by
  cases p <;> rfl

theorem PerStation.get_set_other {α : Type} (v : PerStation α) {p q : Station} (x : α) (h : q ≠ p) :
    (v.set p x).get q = v.get q := by
  cases p <;> cases q <;> first | rfl | exact absurd rfl h

theorem PerStation.get_set {α : Type} (v : PerStation α) (p q : Station) (x : α) :
    (v.set p x).get q = if q = p then x else v.get q := by
  cases p <;> cases q <;> rfl

@[simp] theorem PerStation.get_map {α β : Type} (f : α → β) (v : PerStation α) (p : Station) :
    (v.map f).get p = f (v.get p) := by
  cases p <;> rfl

@[simp] theorem PerBar.get_set_same {α : Type} (v : PerBar α) (b : Bar) (x : α) : (v.set b x).get b = x := by
  cases b <;> rfl

theorem PerBar.get_set_other {α : Type} (v : PerBar α) {b c : Bar} (x : α) (h : c ≠ b) : (v.set b x).get c = v.get c := by
  cases b <;> cases c <;> first | rfl | exact absurd rfl h

theorem PerBar.get_set {α : Type} (v : PerBar α) (b c : Bar) (x : α) :
    (v.set b x).get c = if c = b then x else v.get c := by
  cases b <;> cases c <;> rfl

@[simp] theorem PerBar.get_map {α β : Type} (f : α → β) (v : PerBar α) (b : Bar) : (v.map f).get b = f (v.get b) := by
  cases b <;> rfl

@[simp] theorem PerBank.get_set_same {α : Type} (v : PerBank α) (k : Bank) (x : α) : (v.set k x).get k = x := by
  cases k <;> rfl

theorem PerBank.get_set {α : Type} (v : PerBank α) (k j : Bank) (x : α) :
    (v.set k x).get j = if j = k then x else v.get j := by
  cases k <;> cases j <;> rfl

@[simp] theorem State.port_setPort_same (s : State) (p : Station) (x : Port) : (s.setPort p x).port p = x := by
  simp [State.port]

theorem State.port_setPort (s : State) (p q : Station) (x : Port) :
    (s.setPort p x).port q = if q = p then x else s.port q := by
  simp [State.port, PerStation.get_set]

@[simp] theorem State.bar_setBar_same (s : State) (b : Bar) (x : BarUnit) : (s.setBar b x).bar b = x := by
  simp [State.bar]

theorem State.bar_setBar (s : State) (b c : Bar) (x : BarUnit) :
    (s.setBar b x).bar c = if c = b then x else s.bar c := by
  simp [State.bar, PerBar.get_set]

@[simp] theorem State.port_setBar (s : State) (b : Bar) (x : BarUnit) (p : Station) : (s.setBar b x).port p = s.port p := rfl

@[simp] theorem State.bar_setPort (s : State) (p : Station) (x : Port) (b : Bar) : (s.setPort p x).bar b = s.bar b := rfl

@[simp] theorem State.running_setPort (s : State) (p : Station) (x : Port) : (s.setPort p x).running = s.running := rfl

@[simp] theorem State.running_setBar (s : State) (b : Bar) (x : BarUnit) : (s.setBar b x).running = s.running := rfl

/-- Out of reset an event acts; held in reset it does not (R146). -/
theorem State.awake_cases (s : State) (f : State → State) :
    (s.pins.inReset = true ∧ s.awake f = s) ∨ (s.pins.inReset = false ∧ s.awake f = f s) := by
  unfold State.awake
  cases h : s.pins.inReset <;> simp

theorem State.awake_of {s : State} (h : s.pins.inReset = false) (f : State → State) : s.awake f = f s := by
  simp [State.awake, h]

theorem State.awake_inReset {s : State} (h : s.pins.inReset = true) (f : State → State) : s.awake f = s := by
  simp [State.awake, h]

/-- What holds of a state and is kept by an event's effect is kept by the event, in reset or out of it. -/
theorem State.awake_keeps {P : State → Prop} {s : State} {f : State → State} (h : P s)
    (hf : s.pins.inReset = false → P (f s)) : P (s.awake f) := by
  rcases s.awake_cases f with ⟨_, e⟩ | ⟨hr, e⟩ <;> rw [e]
  · exact h
  · exact hf hr

theorem satAdd_le (max n k : Nat) : satAdd max n k ≤ max := by
  unfold satAdd
  split <;> omega

theorem satAdd_eq_min (max n k : Nat) : satAdd max n k = min (n + k) max := by
  unfold satAdd
  split <;> omega

end Sys2Proof.Machine
end

