-- ==== Sys2Proof/Laws/Line.lean ====
section
/-! SUPPORT. What raising a notice, halting and completing a drain can do, said once. -/

namespace Sys2Proof.Machine

/-- ATTN, kind by kind (R157). -/
theorem attnOf_iff (p m : NoticeSet) :
    attnOf p m = true ↔ ∃ k : Nat, k < 16 ∧ p.getLsbD k = true ∧ m.getLsbD k = false := by
  unfold attnOf
  rw [bne_iff_ne, Ne, BitVec.eq_of_getLsbD_eq_iff]
  constructor
  · intro h
    by_contra hn
    refine h fun k hk => ?_
    have hno := not_exists.mp hn k
    simp only [BitVec.getLsbD_and, BitVec.getLsbD_not, hk, decide_true, Bool.true_and]
    cases hp : p.getLsbD k <;> cases hm : m.getLsbD k <;> simp_all
  · rintro ⟨k, hk, hp, hm⟩ h
    have := h k hk
    rw [BitVec.getLsbD_and, BitVec.getLsbD_not, hp, hm] at this
    simp [hk] at this

/-- Raising a notice: the kind joins the pending set, ATTN follows, mode, mask, FAULT and tallies stay; an ordinary kind
leaves condition and capture, any other raises the condition and fills or adds to the capture (R154, R156, R158). -/
theorem LineControl.raise_spec (lc : LineControl) (time : Pos) (k : NoticeKind) (src : Source) (h : Option Handle) :
    (lc.raise time k src h).pendingSet = lc.pendingSet ||| k.bit ∧
    (lc.raise time k src h).attn = attnOf (lc.pendingSet ||| k.bit) lc.mask ∧
    (lc.raise time k src h).mode = lc.mode ∧ (lc.raise time k src h).mask = lc.mask ∧
    (lc.raise time k src h).faultLine = lc.faultLine ∧ (lc.raise time k src h).tallies = lc.tallies ∧
    (lc.raise time k src h).condition = lc.condition.worse k.level ∧
    (lc.raise time k src h).capture =
      if k.level = .normal then lc.capture else some (captureNext lc.capture time k src h) := by
  cases k <;> simp [LineControl.raise, NoticeKind.level, LineControl.setPending] <;>
    cases lc.condition <;> rfl

@[simp] theorem LineControl.raise_mode (lc : LineControl) (time : Pos) (k : NoticeKind) (src : Source) (h : Option Handle) :
    (lc.raise time k src h).mode = lc.mode := (lc.raise_spec time k src h).2.2.1

@[simp] theorem LineControl.raise_mask (lc : LineControl) (time : Pos) (k : NoticeKind) (src : Source) (h : Option Handle) :
    (lc.raise time k src h).mask = lc.mask := (lc.raise_spec time k src h).2.2.2.1

@[simp] theorem LineControl.raise_faultLine (lc : LineControl) (time : Pos) (k : NoticeKind) (src : Source)
    (h : Option Handle) : (lc.raise time k src h).faultLine = lc.faultLine := (lc.raise_spec time k src h).2.2.2.2.1

@[simp] theorem LineControl.raise_tallies (lc : LineControl) (time : Pos) (k : NoticeKind) (src : Source)
    (h : Option Handle) : (lc.raise time k src h).tallies = lc.tallies := (lc.raise_spec time k src h).2.2.2.2.2.1

@[simp] theorem State.running_raise (s : State) (k : NoticeKind) (src : Source) (h : Option Handle) :
    (s.raise k src h).running = s.running := by
  simp [State.running]

/-- A halt request: outside RUN and DRAINING nothing, otherwise HALTED with FAULT asserted and the guard countdown 0; the
rest of the part is not touched (R152). -/
theorem State.halt_cases (s : State) :
    (s.running = false ∧ s.halt = s) ∨
    (s.running = true ∧
      s.halt = { s with
        bpu := { s.bpu with G := 0 }
        lc := { s.lc.raise s.bpu.T .halted .none none with mode := .halted, faultLine := true } }) := by
  unfold State.halt
  cases h : s.running <;> simp

/-- In DRAINING with no record live the drain completes; in every other case nothing happens (R151). -/
theorem State.drainIfEmpty_cases (s : State) :
    (s.lc.mode = .draining ∧ s.ft.liveCount = 0 ∧ s.drainIfEmpty = s.completeDrain) ∨
    (¬(s.lc.mode = .draining ∧ s.ft.liveCount = 0) ∧ s.drainIfEmpty = s) := by
  unfold State.drainIfEmpty
  split
  · exact .inl ⟨by tauto, by tauto, rfl⟩
  · exact .inr ⟨by tauto, rfl⟩

/-- What holds before a drain completes and is kept by the completion is kept by the check for it. -/
theorem State.drainIfEmpty_keeps {P : State → Prop} {s : State} (h : P s)
    (hd : s.lc.mode = .draining → s.ft.liveCount = 0 → P s.completeDrain) : P s.drainIfEmpty := by
  rcases s.drainIfEmpty_cases with ⟨hm, hc, e⟩ | ⟨_, e⟩ <;> rw [e]
  · exact hd hm hc
  · exact h

end Sys2Proof.Machine
end

