-- ==== Sys2Proof/Laws/Link.lean ====
section
/-! SUPPORT. What taking a byte, a frame or a request can do, said once. -/

namespace Sys2Proof.Machine

/-- A frame that is answered and handed to no block touches the link alone: the receiver hunts, the request in progress
stays, and at most one reply joins the tail of the queue (R134, R135, R136). -/
theorem Link.answer_cases (l : Link) (kind : Byte) (code : ReplyCode) :
    (l.hasRoom = true ∧ l.answer kind code = { l with replies := l.replies ++ [⟨kind, code, .empty, false⟩] }) ∨
    (l.hasRoom = false ∧ l.answer kind code = l) := by
  unfold Link.answer
  cases l.hasRoom <;> simp

/-- A request is answered BUSY, is lost to a full queue, or is carried out (R135, R136). -/
theorem State.takeRequest_cases (s : State) (kind : Byte) (op : State → Answer) :
    (s.link.inProgress.isSome = true ∧ s.takeRequest kind op = s.frameReply kind .busy) ∨
    (s.link.inProgress = none ∧ 16 ≤ s.link.replies.length ∧ s.takeRequest kind op = { s with link := s.link.hunting }) ∨
    (s.link.inProgress = none ∧ s.link.replies.length < 16 ∧ s.takeRequest kind op = s.carryOut kind op) := by
  unfold State.takeRequest
  cases h : s.link.inProgress with
  | some x => exact .inl ⟨rfl, rfl⟩
  | none =>
    by_cases hr : s.link.replies.length < Config.replyCap
    · exact .inr (.inr ⟨rfl, hr, by simp [hr]⟩)
    · exact .inr (.inl ⟨rfl, by simpa [Config.replyCap] using hr, by simp [hr]⟩)

/-! ### Bytes and frames -/

/-- A frame that is taken is answered and handed to no block, or is the request it spells (R134, R135). -/
theorem State.takeFrame_cases (s : State) (kind : Byte) (body : List Byte) (check : Half) :
    (∃ code, s.takeFrame kind body check = s.frameReply kind code) ∨
    ∃ c k op, decodeRequest kind body = some c ∧ requestOf c = some (k, op) ∧ s.takeFrame kind body check = s.takeRequest k op := by
  unfold State.takeFrame
  cases frameFault kind body check with
  | some code => exact .inl ⟨code, rfl⟩
  | none =>
    cases hd : decodeRequest kind body with
    | none => exact .inl ⟨.badLength, rfl⟩
    | some c =>
      cases hr : requestOf c with
      | none => exact .inl ⟨.badLength, by simp [hr]⟩
      | some x => exact .inr ⟨c, x.1, x.2, rfl, hr, by simp [hr]⟩

/-- A byte on the Supervisor Link moves the receiving side alone, makes an overlong length, or ends a frame (R133). -/
theorem State.linkByte_cases (s : State) (b : Byte) :
    (∃ rx, s.linkByte b = { s with link := { s.link with rx } }) ∨ s.linkByte b = s.overlong ∨
    ∃ kind body check, s.linkByte b = s.takeFrame kind body check := by
  unfold State.linkByte
  split
  · split
    · exact .inl ⟨_, rfl⟩
    · exact .inl ⟨s.link.rx, rfl⟩
  · unfold State.linkCollected
    dsimp only
    split
    · split
      · exact .inr (.inl rfl)
      · split
        · exact .inr (.inr ⟨_, _, _, rfl⟩)
        · exact .inl ⟨_, rfl⟩
    · exact .inl ⟨_, rfl⟩

/-- What every byte keeps, a run of bytes keeps. -/
theorem State.linkBytes_keeps {P : State → Prop} (h : ∀ s b, P s → P (s.linkByte b)) (bytes : List Byte) :
    ∀ s : State, P s → P (s.linkBytes bytes) := by
  induction bytes with
  | nil => exact fun _ hs => hs
  | cons b bs ih => exact fun s hs => ih _ (h s b hs)

theorem State.linkFrame_start {s : State} (h : s.link.rx.atStart = true) (bytes : List Byte) (taken : State → State) :
    s.linkFrame bytes taken = taken s := by
  simp [State.linkFrame, h]

/-- A byte on a Sensor Link moves the receiver alone, ends a bad frame, or ends a SYNC or a DETECT (R164). -/
theorem State.portByte_cases (s : State) (port : Station) (b : Byte) :
    s.portByte port b = s ∨ (∃ rx, s.portByte port b = s.setPort port { s.port port with rx }) ∨
    s.portByte port b = s.badFrameArrives port ∨ (∃ f, s.portByte port b = s.syncArrives port f) ∨
    ∃ f, s.portByte port b = s.detectArrives port f := by
  unfold State.portByte
  split
  · split
    · exact .inr (.inl ⟨_, rfl⟩)
    · exact .inl rfl
  · unfold State.portCollected
    dsimp only
    split
    · split
      · exact .inr (.inr (.inl rfl))
      · split
        · split
          · exact .inr (.inr (.inr (.inl ⟨_, rfl⟩)))
          · exact .inr (.inr (.inr (.inr ⟨_, rfl⟩)))
          · exact .inr (.inl ⟨_, rfl⟩)
        · exact .inr (.inl ⟨_, rfl⟩)
    · exact .inr (.inl ⟨_, rfl⟩)

/-- What every byte keeps, a run of bytes keeps. -/
theorem State.portBytes_keeps {P : State → Prop} (port : Station) (h : ∀ s b, P s → P (s.portByte port b))
    (bytes : List Byte) : ∀ s : State, P s → P (s.portBytes port bytes) := by
  induction bytes with
  | nil => exact fun _ hs => hs
  | cons b bs ih => exact fun s hs => ih _ (h s b hs)

theorem State.portFrame_start {s : State} {port : Station} (h : (s.port port).rx.atStart = true) (bytes : List Byte)
    (taken : State → State) : s.portFrame port bytes taken = taken s := by
  simp [State.portFrame, h]

/-! ### Requests taken up -/

/-- A request that a ready part takes is carried out. -/
theorem request_ready {s : State} (h : Ready s) (c : Instr) (kind : Byte) (op : State → Answer) :
    request c kind op s = .next (s.carryOut kind op) := by
  have hr : s.link.replies.length < Config.replyCap := h.room
  simp [request, State.awake_of h.awake, State.linkFrame, h.start, State.takeRequest, h.idle, hr]

/-- A request whose answer leaves the state it was given changes the link alone, whatever its reply. -/
theorem State.carryOut_same (s : State) (kind : Byte) (op : State → Answer) (code : ReplyCode) (body : ReplyBody)
    (h : op { s with link := s.link.takeUp kind } = ({ s with link := s.link.takeUp kind }, code, body)) :
    s.carryOut kind op = s.answered kind code body := by
  simp only [State.carryOut, h]
  rfl

end Sys2Proof.Machine
end

