-- ==== Sys2Proof/Laws/PerInstr.lean ====
section
/-! SUPPORT. The family BodyFits: a well-formed request's body has a length its kind allows and no more than the longest,
command by command (R133, R134, R163). -/

namespace Sys2Proof.Laws

/-- Every Class Map pair takes two bytes. -/
theorem length_pairs (xs : List ClassRow) : (xs.flatMap Machine.ClassRow.bytes).length = 2 * xs.length := by
  induction xs with
  | nil => rfl
  | cons x xs ih =>
    simp only [List.flatMap_cons, List.length_append, ih, Machine.ClassRow.bytes, List.length_cons, List.length_nil]
    omega

/-- Every Destination Table triple takes three bytes. -/
theorem length_triples (xs : List DestRow) : (xs.flatMap Machine.DestRow.bytes).length = 3 * xs.length := by
  induction xs with
  | nil => rfl
  | cons x xs ih =>
    simp only [List.flatMap_cons, List.length_append, ih, Machine.DestRow.bytes, List.length_cons, List.length_nil]
    omega

namespace BodyFits

set_option Elab.async false

/-- Where the command is a request, its body has a length the kind allows and no more than 132 bytes. -/
def Statement (i : Instr) : Prop :=
  wellFormed i = true → ∀ k body, Machine.requestFrame i = some (k, body) →
    Machine.lengthOk k body = true ∧ body.length ≤ 132

theorem encoderTransition (a b : Bool) : Statement (.encoderTransition a b) := by
  intro _ k body h
  exact absurd h (by simp [Machine.requestFrame])

theorem lclkPulseStart : Statement .lclkPulseStart := by
  intro _ k body h
  exact absurd h (by simp [Machine.requestFrame])

theorem lclkPulseEnd : Statement .lclkPulseEnd := by
  intro _ k body h
  exact absurd h (by simp [Machine.requestFrame])

theorem windowEnd : Statement .windowEnd := by
  intro _ k body h
  exact absurd h (by simp [Machine.requestFrame])

theorem sync (port : Station) (f : SyncFrame) : Statement (.sync port f) := by
  intro _ k body h
  exact absurd h (by simp [Machine.requestFrame])

theorem detect (port : Station) (f : DetectFrame) : Statement (.detect port f) := by
  intro _ k body h
  exact absurd h (by simp [Machine.requestFrame])

theorem badFrame (port : Station) (length kind : Byte) : Statement (.badFrame port length kind) := by
  intro _ k body h
  exact absurd h (by simp [Machine.requestFrame])

theorem assocTake : Statement .assocTake := by
  intro _ k body h
  exact absurd h (by simp [Machine.requestFrame])

theorem maxonCut (bar : Bar) (nozzle : Fin 160) : Statement (.maxonCut bar nozzle) := by
  intro _ k body h
  exact absurd h (by simp [Machine.requestFrame])

theorem coolingEnd (bar : Bar) (nozzle : Fin 160) : Statement (.coolingEnd bar nozzle) := by
  intro _ k body h
  exact absurd h (by simp [Machine.requestFrame])

theorem valveFrameStart (bar : Bar) : Statement (.valveFrameStart bar) := by
  intro _ k body h
  exact absurd h (by simp [Machine.requestFrame])

theorem valveFrameEnd (bar : Bar) : Statement (.valveFrameEnd bar) := by
  intro _ k body h
  exact absurd h (by simp [Machine.requestFrame])

theorem refreshExpiry (bar : Bar) : Statement (.refreshExpiry bar) := by
  intro _ k body h
  exact absurd h (by simp [Machine.requestFrame])

theorem driverFault (bar : Bar) : Statement (.driverFault bar) := by
  intro _ k body h
  exact absurd h (by simp [Machine.requestFrame])

theorem faultLineInactive (bar : Bar) : Statement (.faultLineInactive bar) := by
  intro _ k body h
  exact absurd h (by simp [Machine.requestFrame])

theorem resetPin : Statement .resetPin := by
  intro _ k body h
  exact absurd h (by simp [Machine.requestFrame])

theorem overlongFrame (length : Half) : Statement (.overlongFrame length) := by
  intro _ k body h
  exact absurd h (by simp [Machine.requestFrame])

theorem garbledFrame (kind : Byte) (body : List Byte) (check : Half) : Statement (.garbledFrame kind body check) := by
  intro _ k body h
  exact absurd h (by simp [Machine.requestFrame])

theorem replySent : Statement .replySent := by
  intro _ k body h
  exact absurd h (by simp [Machine.requestFrame])

theorem setBelt (r : BeltRequest) : Statement (.setBelt r) := by
  intro _ k body h
  simp only [Machine.requestFrame, Option.some.injEq, Prod.mk.injEq] at h
  obtain ⟨rfl, rfl⟩ := h
  exact ⟨rfl, Nat.le_of_ble_eq_true rfl⟩

theorem enableGuard : Statement .enableGuard := by
  intro _ k body h
  simp only [Machine.requestFrame, Option.some.injEq, Prod.mk.injEq] at h
  obtain ⟨rfl, rfl⟩ := h
  exact ⟨rfl, Nat.le_of_ble_eq_true rfl⟩

theorem setStation (r : StationRequest) : Statement (.setStation r) := by
  intro _ k body h
  simp only [Machine.requestFrame, Option.some.injEq, Prod.mk.injEq] at h
  obtain ⟨rfl, rfl⟩ := h
  exact ⟨rfl, Nat.le_of_ble_eq_true rfl⟩

theorem readPortCounters (port : Byte) : Statement (.readPortCounters port) := by
  intro _ k body h
  simp only [Machine.requestFrame, Option.some.injEq, Prod.mk.injEq] at h
  obtain ⟨rfl, rfl⟩ := h
  exact ⟨rfl, Nat.le_of_ble_eq_true rfl⟩

theorem setTracking (r : TrackingRequest) : Statement (.setTracking r) := by
  intro _ k body h
  simp only [Machine.requestFrame, Option.some.injEq, Prod.mk.injEq] at h
  obtain ⟨rfl, rfl⟩ := h
  exact ⟨rfl, Nat.le_of_ble_eq_true rfl⟩

theorem writeClassmap (bank station first : Byte) (entries : List ClassRow) : Statement (.writeClassmap bank station first entries) := by
  intro hw k body h
  have hn : entries.length ≤ 64 := by simpa [wellFormed] using hw
  simp only [Machine.requestFrame, Option.some.injEq, Prod.mk.injEq] at h
  obtain ⟨rfl, rfl⟩ := h
  have hl := length_pairs entries
  have hb : (Machine.byte entries.length).toNat = entries.length := by
    simp only [Machine.byte, BitVec.toNat_ofNat]
    omega
  constructor
  · simp [Machine.lengthOk, hl, hb]
  · simp only [List.length_cons, hl]
    omega

theorem writeDestinations (r : DestinationsRequest) : Statement (.writeDestinations r) := by
  intro hw k body h
  have hn : r.rows.length = 16 := by simpa [wellFormed] using hw
  simp only [Machine.requestFrame, Option.some.injEq, Prod.mk.injEq] at h
  obtain ⟨rfl, rfl⟩ := h
  have hl := length_triples r.rows
  constructor <;> simp [Machine.lengthOk, Machine.fixedLengths, Machine.halfBytes, hl, hn]

theorem readBank (bank sect : Byte) : Statement (.readBank bank sect) := by
  intro _ k body h
  simp only [Machine.requestFrame, Option.some.injEq, Prod.mk.injEq] at h
  obtain ⟨rfl, rfl⟩ := h
  exact ⟨rfl, Nat.le_of_ble_eq_true rfl⟩

theorem switchBank (target : Byte) (c : Pos) : Statement (.switchBank target c) := by
  intro _ k body h
  simp only [Machine.requestFrame, Option.some.injEq, Prod.mk.injEq] at h
  obtain ⟨rfl, rfl⟩ := h
  exact ⟨rfl, Nat.le_of_ble_eq_true rfl⟩

theorem setBar (r : BarRequest) : Statement (.setBar r) := by
  intro _ k body h
  simp only [Machine.requestFrame, Option.some.injEq, Prod.mk.injEq] at h
  obtain ⟨rfl, rfl⟩ := h
  exact ⟨rfl, Nat.le_of_ble_eq_true rfl⟩

theorem setZone (r : ZoneRequest) : Statement (.setZone r) := by
  intro _ k body h
  simp only [Machine.requestFrame, Option.some.injEq, Prod.mk.injEq] at h
  obtain ⟨rfl, rfl⟩ := h
  exact ⟨rfl, Nat.le_of_ble_eq_true rfl⟩

theorem enableBar (bar : Byte) : Statement (.enableBar bar) := by
  intro _ k body h
  simp only [Machine.requestFrame, Option.some.injEq, Prod.mk.injEq] at h
  obtain ⟨rfl, rfl⟩ := h
  exact ⟨rfl, Nat.le_of_ble_eq_true rfl⟩

theorem lookup (h : HandleField) : Statement (.lookup h) := by
  intro _ k body h
  simp only [Machine.requestFrame, Option.some.injEq, Prod.mk.injEq] at h
  obtain ⟨rfl, rfl⟩ := h
  exact ⟨rfl, Nat.le_of_ble_eq_true rfl⟩

theorem find (c1 c2 : Pos) (first last : Byte) : Statement (.find c1 c2 first last) := by
  intro _ k body h
  simp only [Machine.requestFrame, Option.some.injEq, Prod.mk.injEq] at h
  obtain ⟨rfl, rfl⟩ := h
  exact ⟨rfl, Nat.le_of_ble_eq_true rfl⟩

theorem scan (start : Pos) (count : Byte) : Statement (.scan start count) := by
  intro _ k body h
  simp only [Machine.requestFrame, Option.some.injEq, Prod.mk.injEq] at h
  obtain ⟨rfl, rfl⟩ := h
  exact ⟨rfl, Nat.le_of_ble_eq_true rfl⟩

theorem override (h : HandleField) (dest : Byte) : Statement (.override h dest) := by
  intro _ k body h
  simp only [Machine.requestFrame, Option.some.injEq, Prod.mk.injEq] at h
  obtain ⟨rfl, rfl⟩ := h
  exact ⟨rfl, Nat.le_of_ble_eq_true rfl⟩

theorem forget (h : HandleField) : Statement (.forget h) := by
  intro _ k body h
  simp only [Machine.requestFrame, Option.some.injEq, Prod.mk.injEq] at h
  obtain ⟨rfl, rfl⟩ := h
  exact ⟨rfl, Nat.le_of_ble_eq_true rfl⟩

theorem insert (r : InsertRequest) : Statement (.insert r) := by
  intro _ k body h
  simp only [Machine.requestFrame, Option.some.injEq, Prod.mk.injEq] at h
  obtain ⟨rfl, rfl⟩ := h
  exact ⟨rfl, Nat.le_of_ble_eq_true rfl⟩

theorem start : Statement .start := by
  intro _ k body h
  simp only [Machine.requestFrame, Option.some.injEq, Prod.mk.injEq] at h
  obtain ⟨rfl, rfl⟩ := h
  exact ⟨rfl, Nat.le_of_ble_eq_true rfl⟩

theorem stop : Statement .stop := by
  intro _ k body h
  simp only [Machine.requestFrame, Option.some.injEq, Prod.mk.injEq] at h
  obtain ⟨rfl, rfl⟩ := h
  exact ⟨rfl, Nat.le_of_ble_eq_true rfl⟩

theorem reset : Statement .reset := by
  intro _ k body h
  simp only [Machine.requestFrame, Option.some.injEq, Prod.mk.injEq] at h
  obtain ⟨rfl, rfl⟩ := h
  exact ⟨rfl, Nat.le_of_ble_eq_true rfl⟩

theorem clear : Statement .clear := by
  intro _ k body h
  simp only [Machine.requestFrame, Option.some.injEq, Prod.mk.injEq] at h
  obtain ⟨rfl, rfl⟩ := h
  exact ⟨rfl, Nat.le_of_ble_eq_true rfl⟩

theorem readStatus : Statement .readStatus := by
  intro _ k body h
  simp only [Machine.requestFrame, Option.some.injEq, Prod.mk.injEq] at h
  obtain ⟨rfl, rfl⟩ := h
  exact ⟨rfl, Nat.le_of_ble_eq_true rfl⟩

theorem readNotices : Statement .readNotices := by
  intro _ k body h
  simp only [Machine.requestFrame, Option.some.injEq, Prod.mk.injEq] at h
  obtain ⟨rfl, rfl⟩ := h
  exact ⟨rfl, Nat.le_of_ble_eq_true rfl⟩

theorem ackNotices (kinds : Half) : Statement (.ackNotices kinds) := by
  intro _ k body h
  simp only [Machine.requestFrame, Option.some.injEq, Prod.mk.injEq] at h
  obtain ⟨rfl, rfl⟩ := h
  exact ⟨rfl, Nat.le_of_ble_eq_true rfl⟩

theorem setMask (kinds : Half) : Statement (.setMask kinds) := by
  intro _ k body h
  simp only [Machine.requestFrame, Option.some.injEq, Prod.mk.injEq] at h
  obtain ⟨rfl, rfl⟩ := h
  exact ⟨rfl, Nat.le_of_ble_eq_true rfl⟩

theorem readFault : Statement .readFault := by
  intro _ k body h
  simp only [Machine.requestFrame, Option.some.injEq, Prod.mk.injEq] at h
  obtain ⟨rfl, rfl⟩ := h
  exact ⟨rfl, Nat.le_of_ble_eq_true rfl⟩

theorem readTallies (block : Byte) : Statement (.readTallies block) := by
  intro _ k body h
  simp only [Machine.requestFrame, Option.some.injEq, Prod.mk.injEq] at h
  obtain ⟨rfl, rfl⟩ := h
  exact ⟨rfl, Nat.le_of_ble_eq_true rfl⟩

theorem clearTallies : Statement .clearTallies := by
  intro _ k body h
  simp only [Machine.requestFrame, Option.some.injEq, Prod.mk.injEq] at h
  obtain ⟨rfl, rfl⟩ := h
  exact ⟨rfl, Nat.le_of_ble_eq_true rfl⟩

theorem startMark : Statement .startMark := by
  intro _ k body h
  exact absurd h (by simp [Machine.requestFrame])

theorem portStartMark (port : Station) : Statement (.portStartMark port) := by
  intro _ k body h
  exact absurd h (by simp [Machine.requestFrame])

theorem resetPinAsserted : Statement .resetPinAsserted := by
  intro _ k body h
  exact absurd h (by simp [Machine.requestFrame])

end BodyFits

end Sys2Proof.Laws
end

