-- ==== Sys2Proof/Laws/Records.lean ====
section
/-! SUPPORT. What the operations on the Fragment Table can do, said once. -/

namespace Sys2Proof.Machine

/-- A record joins the list and nothing else changes there (R41). -/
theorem mem_insertLive (x y : Live) (xs : List Live) : y ∈ insertLive x xs ↔ y = x ∨ y ∈ xs := by
  induction xs with
  | nil => simp [insertLive]
  | cons z zs ih =>
    unfold insertLive
    split
    · simp
    · simp only [List.mem_cons, ih]
      tauto

/-- Inserting a record into belt order is a permutation of putting it in front. -/
theorem insertLive_perm (x : Live) (xs : List Live) : (insertLive x xs).Perm (x :: xs) := by
  induction xs with
  | nil => exact List.Perm.refl _
  | cons z zs ih =>
    unfold insertLive
    split
    · exact List.Perm.refl _
    · exact (ih.cons z).trans (List.Perm.swap x z zs)

theorem length_insertLive (x : Live) (xs : List Live) : (insertLive x xs).length = xs.length + 1 := by
  simpa using (insertLive_perm x xs).length_eq

theorem mem_removeSlot (l : Live) (live : List Live) (slot : Nat) :
    l ∈ removeSlot live slot ↔ l ∈ live ∧ l.slot ≠ slot := by
  simp [removeSlot]

/-- The record found in a slot is a live one. -/
theorem FragTable.mem_of_find {ft : FragTable} {slot : Nat} {r : Record} (h : ft.find slot = some r) :
    ⟨slot, r⟩ ∈ ft.live := by
  unfold FragTable.find at h
  cases hf : ft.live.find? fun l => l.slot == slot with
  | none => simp [hf] at h
  | some l =>
    have hm := List.mem_of_find?_eq_some hf
    have hs := List.find?_some hf
    simp only [hf, Option.map_some, Option.some.injEq] at h
    obtain ⟨sl, rec⟩ := l
    simp only [beq_iff_eq] at hs
    simp_all

/-- A creation takes the head of the free list, or none is made (R37, R45, R47). -/
theorem State.create_cases (s : State) (r : Record) :
    (s.ft.freeList = [] ∧ s.create r = none) ∨
    ∃ slot rest s', s.ft.freeList = slot :: rest ∧ s.create r = some (slot, s') ∧
      s'.ft.live = insertLive ⟨slot, { r with bank := s.banks.active }⟩ s.ft.live ∧
      s'.ft.liveCount = s.ft.liveCount + 1 ∧ s'.ft.freeList = rest ∧ s'.ft.gens = s.ft.gens ∧
      s'.banks.refs = s.banks.refs.set s.banks.active (s.banks.refs.get s.banks.active + 1) ∧
      s'.lc = s.lc ∧ s'.bpu = s.bpu ∧ s'.bars = s.bars ∧ s'.pending = s.pending := by
  unfold State.create
  split
  · exact .inl ⟨by assumption, rfl⟩
  · exact .inr ⟨_, _, _, by assumption, rfl, rfl, rfl, rfl, rfl, rfl, rfl, rfl, rfl, rfl⟩

/-- A retirement: nothing where the slot is free, otherwise the record is freed and tallied, and a drain that it empties
completes (R48, R151). -/
theorem State.retire_cases (s : State) (slot : Nat) (o : RecOutcome) :
    (s.ft.find slot = none ∧ s.retire slot o = s) ∨
    ∃ r, s.ft.find slot = some r ∧
      s.retire slot o =
        State.drainIfEmpty { s.freeRecord slot r with lc := { s.lc with tallies := s.lc.tallies.bump o r.st.material } } := by
  unfold State.retire
  cases h : s.ft.find slot with
  | none => exact .inl ⟨rfl, rfl⟩
  | some r => exact .inr ⟨r, rfl, rfl⟩

/-- An absorption frees a live record without a tally (R55). -/
theorem State.absorb_cases (s : State) (slot : Nat) :
    (s.ft.find slot = none ∧ s.absorb slot = s) ∨
    ∃ r, s.ft.find slot = some r ∧ s.absorb slot = s.freeRecord slot r := by
  unfold State.absorb
  cases h : s.ft.find slot with
  | none => exact .inl ⟨rfl, rfl⟩
  | some r => exact .inr ⟨r, rfl, rfl⟩

/-- Adding to one tally keeps the number of tallies of every outcome (R160). -/
theorem Tallies.length_get_bump (t : Tallies) (o o' : RecOutcome) (m : Nat) :
    ((t.bump o m).get o').length = (t.get o').length := by
  cases o <;> cases o' <;> simp [Tallies.bump, Tallies.set, Tallies.get]

/-- A decision replaces state and three flags, and leaves every other field (R76). -/
theorem decideRecord_spec (s : State) (r : Record) :
    (decideRecord s r).X = r.X ∧ (decideRecord s r).Xt = r.Xt ∧ (decideRecord s r).first = r.first ∧
    (decideRecord s r).last = r.last ∧ (decideRecord s r).bank = r.bank ∧ (decideRecord s r).evidence = r.evidence ∧
    (decideRecord s r).ovr = r.ovr ∧
    (decideRecord s r).flags.clipped = r.flags.clipped ∧ (decideRecord s r).flags.merged = r.flags.merged ∧
    (decideRecord s r).flags.lateFire = r.flags.lateFire ∧ (decideRecord s r).flags.inserted = r.flags.inserted ∧
    ∃ v d, (decideRecord s r).st = .decided v d :=
  ⟨rfl, rfl, rfl, rfl, rfl, rfl, rfl, rfl, rfl, rfl, rfl, _, _, rfl⟩

/-- A property kept by the event of every awaited point is kept by taking the points that are due (R43). -/
theorem State.runDue_keeps {P : State → Prop}
    (h : ∀ s slot r, s.ft.find slot = some r → s.running = true → P s → P (s.takePoint slot r)) :
    ∀ n s slot, P s → P (s.runDue n slot) := by
  intro n
  induction n with
  | zero => exact fun _ _ hs => hs
  | succ n ih =>
    intro s slot hs
    unfold State.runDue
    split
    · exact hs
    · next r hf =>
      split
      · exact hs
      · split
        · next hc =>
          simp only [Bool.and_eq_true] at hc
          exact ih _ _ (h s slot r hf hc.1 hs)
        · exact hs

theorem State.takeOverdue_keeps {P : State → Prop}
    (h : ∀ s slot r, s.ft.find slot = some r → s.running = true → P s → P (s.takePoint slot r)) (s : State) (slot : Nat)
    (hs : P s) : P (s.takeOverdue slot) :=
  State.runDue_keeps h 5 s slot hs

/-- The event of a point: the five cases (R49 to R53). -/
theorem State.takePoint_cases (s : State) (slot : Nat) (r : Record) :
    (r.st = .opened ∧ s.takePoint slot r = s.modRecord slot (decideRecord s)) ∨
    (∃ v d, r.st = .decided v d ∧ s.takePoint slot r = s.setRecState slot (freezeState v d)) ∨
    (∃ v b, r.st = .committed v b ∧ s.takePoint slot r = s.arm slot r v b) ∨
    (∃ v sch, r.st = .armed v sch ∧ s.takePoint slot r =
      (s.setBar sch.bar ((s.bar sch.bar).without (s.ft.handle slot))).retire slot .fired) ∨
    (∃ v d o, r.st = .passing v d o ∧ s.takePoint slot r = s.retire slot o) := by
  unfold State.takePoint
  cases h : r.st with
  | opened => exact .inl ⟨rfl, rfl⟩
  | decided v d => exact .inr (.inl ⟨v, d, rfl, rfl⟩)
  | committed v b => exact .inr (.inr (.inl ⟨v, b, rfl, rfl⟩))
  | armed v sch => exact .inr (.inr (.inr (.inl ⟨v, sch, rfl, rfl⟩)))
  | passing v d o => exact .inr (.inr (.inr (.inr ⟨v, d, o, rfl, rfl⟩)))

end Sys2Proof.Machine
end

