-- ==== Sys2Proof/Laws/Valves.lean ====
section
/-! SUPPORT. What evaluating a nozzle, placing and removing intervals can do, said once. -/

namespace Sys2Proof.Machine

/-- An evaluated nozzle is OPEN exactly while its condition holds, unless it is cooling; its intervals stay (R122). -/
theorem Nozzle.eval_spec (n : Nozzle) (go : Bool) (T : Pos) :
    (n.eval go T).ivals = n.ivals ∧ ((n.eval go T).st = .cooling ↔ n.st = .cooling) ∧
    ((n.eval go T).st ≠ .cooling → ((n.eval go T).st = .opened ↔ go = true ∧ n.covered T = true)) := by
  unfold Nozzle.eval Nozzle.openCond
  cases h : n.st <;> cases go <;> cases hc : n.covered T <;> simp [h]

/-- An evaluated nozzle's counter: from 0 at an opening, 0 after a closing, otherwise as it was (R123). -/
theorem Nozzle.eval_onTime (n : Nozzle) (go : Bool) (T : Pos) :
    (n.eval go T).onTime = n.onTime ∨ (n.eval go T).onTime = 0 := by
  unfold Nozzle.eval
  split
  · split <;> simp
  · split <;> simp
  · simp

@[simp] theorem Nozzle.eval_ivals (n : Nozzle) (go : Bool) (T : Pos) : (n.eval go T).ivals = n.ivals := (n.eval_spec go T).1

@[simp] theorem Nozzle.eval_cool (n : Nozzle) (go : Bool) (T : Pos) : (n.eval go T).cool = n.cool := by
  unfold Nozzle.eval
  split <;> try split
  all_goals rfl

/-- Evaluating a whole bar evaluates each of its nozzles. -/
theorem BarUnit.evalAll_nozzles (u : BarUnit) (go : Bool) (T : Pos) :
    (u.evalAll go T).nozzles = u.nozzles.map fun n => n.eval go T := by
  simp only [BarUnit.evalAll, BarUnit.evalWhere_nozzles, if_true]
  have h : (fun ni : Nozzle × Nat => ni.1.eval go T) = (fun n : Nozzle => n.eval go T) ∘ Prod.fst := rfl
  rw [h, ← List.map_map, List.zipIdx_map_fst]

@[simp] theorem BarUnit.evalAll_settings (u : BarUnit) (go : Bool) (T : Pos) : (u.evalAll go T).settings = u.settings := rfl

@[simp] theorem BarUnit.evalAll_state (u : BarUnit) (go : Bool) (T : Pos) : (u.evalAll go T).state = u.state := rfl

/-- Settling evaluates every nozzle of every bar and changes nothing outside the bars (R122). -/
theorem State.bar_settle (s : State) (b : Bar) : s.settle.bar b = (s.bar b).evalAll (s.barOpen (s.bar b)) s.bpu.T := by
  simp [State.bar]

/-- Settling after a change of the line's terms: everything outside the bars stays. -/
theorem State.settleFrom_frame (s' s : State) :
    (s'.settleFrom s).bpu = s'.bpu ∧ (s'.settleFrom s).ports = s'.ports ∧ (s'.settleFrom s).ft = s'.ft ∧
    (s'.settleFrom s).banks = s'.banks ∧ (s'.settleFrom s).lc = s'.lc ∧ (s'.settleFrom s).link = s'.link ∧
    (s'.settleFrom s).pins = s'.pins ∧ (s'.settleFrom s).tracking = s'.tracking ∧ (s'.settleFrom s).ae = s'.ae ∧
    (s'.settleFrom s).draws = s'.draws ∧ (s'.settleFrom s).pending = s'.pending := by
  unfold State.settleFrom
  split <;> exact ⟨rfl, rfl, rfl, rfl, rfl, rfl, rfl, rfl, rfl, rfl, rfl⟩

/-- An interval joins the list and nothing else changes there (R121). -/
theorem mem_insertInterval (iv x : Interval) (xs : List Interval) : x ∈ insertInterval iv xs ↔ x = iv ∨ x ∈ xs := by
  induction xs with
  | nil => simp [insertInterval]
  | cons y ys ih =>
    unfold insertInterval
    split
    · simp
    · simp only [List.mem_cons, ih]
      tauto

theorem length_insertInterval (iv : Interval) (xs : List Interval) : (insertInterval iv xs).length = xs.length + 1 := by
  induction xs with
  | nil => rfl
  | cons y ys ih =>
    unfold insertInterval
    split <;> simp [ih]

/-- A nozzle without a record's intervals holds exactly the others (R124, R54). -/
theorem Nozzle.mem_without (n : Nozzle) (h : Handle) (iv : Interval) :
    iv ∈ (n.without h).ivals ↔ iv ∈ n.ivals ∧ iv.owner ≠ h := by
  simp

/-- Settings and key of every zone stay when nozzles open; only FIRED flags may be set (R103). -/
theorem length_markFired (zones : List Zone) (lanes : List Nat) : (markFired zones lanes).length = zones.length := by
  simp [markFired]

end Sys2Proof.Machine
end

