-- ==== Sys2Proof/Tests/Slice0.lean ====
section
/-! SUPPORT. Tests on the manual's worked figures, ill-formed commands, and a witness for the hypotheses of each statement
that has any. -/

set_option Elab.async false

namespace Sys2Proof.Tests

open Sys2Proof.Machine

/-! ### Small states -/

/-- The state of a next outcome; the state at reset for the others. -/
def after (o : Host.Outcome State Fault Refusal) : State :=
  match o with
  | .next s => s
  | _ => State.reset

/-- Another line mode. -/
def inMode (m : Mode) (s : State) : State := { s with lc := { s.lc with mode := m } }
/-- Another belt. -/
def withBpu (f : Bpu → Bpu) (s : State) : State := { s with bpu := f s.bpu }
/-- Another port. -/
def withPort (p : Station) (f : Port → Port) (s : State) : State := s.setPort p (f (s.port p))
/-- Another bar. -/
def withBar (b : Bar) (f : BarUnit → BarUnit) (s : State) : State := s.setBar b (f (s.bar b))
/-- The part right after reset, in RUN, with P and T at a position. -/
def runAt (t : Nat) : State :=
  withBpu (fun b => { b with P := BitVec.ofNat 32 t, T := BitVec.ofNat 32 t }) (inMode .run State.reset)
/-- The record that holds nothing yet, at a place on the belt. -/
def recAt (st : RecState) (x xt first last : Nat) : Record where
  st := st
  X := BitVec.ofNat 32 x
  Xt := BitVec.ofNat 32 xt
  first := first
  last := last
  bank := .a
  evidence := ⟨none, none, none, none⟩
  flags := Flags.none
  ovr := none
/-- One live record of bank A in slot 0. -/
def withLive (r : Record) (s : State) : State :=
  { s with
    ft := { s.ft with live := [⟨0, r⟩], liveCount := 1, freeList := List.range' 1 1023 }
    banks := { s.banks with refs := ⟨1, 0⟩ } }
/-- The rising edge that completes a forward count at ENC_DIV 1. -/
def atStep (s : State) : State := withBpu (fun b => { b with ref := ⟨false, true⟩, encDiv := 1 }) s
/-- The edge that completes a reverse count at ENC_DIV 1. -/
def atReverse (s : State) : State := withBpu (fun b => { b with ref := ⟨false, false⟩, encDiv := 1 }) s
/-- Station S1 of the worked case of 2.3, UP with its Base. -/
def s1Up (t : Nat) : State :=
  withPort .s1
    (fun p => { p with enabled := true, D := 3000, state := .up, base := some 380000, lastSeq := some 8 }) (runAt t)
/-- A bar of 7.4, READY, with its distances. -/
def barOn (E A : Nat) (u : BarUnit) : BarUnit :=
  { u with
    state := .ready
    settings :=
      { u.settings with
        enabled := true, E := E, A := A, tOpen := 2400, tClose := 1600, mFront := 8, mBack := 12, widen := 1 } }
/-- A SYNC with its right check. -/
def syncOf (station seq : Byte) (l : Pos) : SyncFrame :=
  let f : SyncFrame := ⟨station, seq, l, 0⟩
  { f with check := stationCheck syncKind (syncBody f) }
/-- A DETECT without optional parts with its right check. -/
def detectOf (station seq : Byte) (lead trail : Pos) (first last cls : Byte) : DetectFrame :=
  let f : DetectFrame := ⟨station, seq, lead, trail, first, last, cls, 200, none, none, 0⟩
  { f with check := stationCheck detectKind (detectBody f) }
/-- A detection of S2 as the engine takes it. -/
def detAt (x xt first last : Nat) : Detection :=
  ⟨.s2, BitVec.ofNat 32 x, BitVec.ofNat 32 xt, first, last, 7, 190, some 2400, none⟩
/-- The engine free at S2, which is UP and whose queue holds one detection, bar 0 on. -/
def served (d : Detection) (s : State) : State :=
  withBar .bar0 (barOn 12000 1024)
    (withPort .s2 (fun p => { p with enabled := true, state := .up, base := some 0, queue := [d] })
      { s with ae := { pointer := .s2, free := true } })

/-! ### The manual's figures -/

/-- R5: with T = 4,294,967,290 a point at 20 is ahead of T by 26 steps. -/
theorem test_compare_across_the_wrap : ahead 20 4294967290 = true ∧ stepsTo 4294967290 20 = 26 := by decide

/-- 1.2, row 3: with ENC_DIV 2 a reverse count at c = 0 gives c = 1 and P one behind T. -/
theorem test_reverse_step_begins_recovery :
    let s := withBpu (fun b => { b with encDiv := 2 }) (runAt 1001)
    let t := after (exec (.encoderTransition false true) s)
    t.bpu.sub = 1 ∧ t.bpu.P = 1000 ∧ t.bpu.T = 1001 ∧ t.lc.mode = .run := by decide +kernel

/-- 1.2, row 4: both inputs changed, ENC_ERR 5 becomes 6. -/
theorem test_two_phase_jump :
    (after (exec (.encoderTransition true true) (withBpu (fun b => { b with encErr := 5 }) (runAt 1001)))).bpu.encErr = 6 := by
  decide +kernel

/-- 1.2: with REV_MAX 4 a reverse step from depth 4 halts the line. -/
theorem test_reverse_depth_halts :
    (after (exec (.encoderTransition false true)
      (atReverse (withBpu (fun b => { b with P := 997, revMax := 4 }) (runAt 1001))))).lc.mode = .halted := by
  decide +kernel

/-- 1.4, windows 1 and 4: V = 355 without a stall; then V = 72, Z = 2, stalled. -/
theorem test_window_sums :
    let t := after (exec .windowEnd
      (withBpu (fun b => { b with history := ⟨98, 99, 98, 98⟩, windowCount := 60 }) (runAt 0)))
    let u := after (exec .windowEnd
      (withBpu (fun b => { b with history := ⟨98, 60, 12, 0⟩, windowCount := 0, Z := 1 }) (runAt 0)))
    t.bpu.V = 355 ∧ t.bpu.stalled = false ∧ u.bpu.V = 72 ∧ u.bpu.Z = 2 ∧ u.bpu.stalled = true := by
  decide +kernel

/-- R7: the end of a pulse takes one from the owed count. -/
theorem test_pulse_end :
    (after (exec .lclkPulseEnd (withBpu (fun b => { b with owed := 2, lclk := true }) State.reset))).bpu.owed = 1 := by
  decide +kernel

/-- 2.3, first row: SYNC 7 at T = 500,000 latches Base 380,000. -/
theorem test_sync_latches :
    let s := withPort .s1 (fun p => { p with enabled := true, D := 3000, state := .waiting }) (runAt 500000)
    let t := after (exec (.sync .s1 (syncOf 1 7 120000)) s)
    (t.port .s1).base = some 380000 ∧ (t.port .s1).state = .up ∧ t.lc.pendingSet = 1 := by decide +kernel

/-- 2.3, last row: candidate 380,004 is four off, and replaces the Base. -/
theorem test_sync_slips :
    let t := after (exec (.sync .s1 (syncOf 1 11 122044)) (s1Up 502048))
    (t.port .s1).base = some 380004 ∧ t.lc.pendingSet = 4 := by decide +kernel

/-- 2.3, third row: DETECT 10 skips number 9 and is queued with X 497,900 and X_t 498,080. -/
theorem test_detect_relocates :
    let t := after (exec (.detect .s1 (detectOf 1 10 120900 121080 40 47 3)) (s1Up 501300))
    (t.port .s1).queue.map (fun d => (d.X, d.Xt)) = [(497900, 498080)] ∧ (t.port .s1).counters.seqGap = 1 := by
  decide +kernel

/-- 2.5: the 24th entry asserts HOLD. -/
theorem test_hold_at_24 :
    let s := withPort .s1 (fun p => { p with queue := List.replicate 23 (detAt 0 9 1 2) }) (s1Up 501300)
    ((after (exec (.detect .s1 (detectOf 1 10 120900 121080 40 47 3)) s)).port .s1).hold = true := by decide +kernel

/-- 2.5: a removal to 8 entries releases HOLD. -/
theorem test_hold_released_at_8 :
    (Port.removeHead { Port.atRelease with queue := List.replicate 9 (detAt 0 9 1 2), hold := true }).hold = false := by
  decide

/-- 11.3: the length of a DETECT without optional parts is 14, and 13 fits no kind. -/
theorem test_bad_length_of_a_detect : stationLengthOk 14 2 = true ∧ stationLengthOk 13 2 = false := by decide

/-- 4.6: the products of P and Q are 148 and 222. -/
theorem test_overlap_products :
    let tr := Tracking.atRelease
    let d := detAt 2000100 2000300 50 60
    overlap tr d (recAt .opened 2000000 2000120 48 52) = 148 ∧ overlap tr d (recAt .opened 2000280 2000500 56 70) = 222 := by
  decide

/-- The part of 12.3 at T = 3,004,000, the halves of the can body in slots 0 and 1, the detection of S2 at the head of its
queue. -/
def cans : State :=
  let half := fun (x xt first last area conf : Nat) => { recAt .opened x xt first last with
    evidence := (⟨some ⟨12, conf, some area, none⟩, none, none, none⟩ : PerStation (Option Entry)) }
  let s := withPort .s0 (fun p => { p with enabled := true, D := 4500 })
    (served (detAt 3000010 3000250 20 28) (runAt 3004000))
  { s with
    ft :=
      { s.ft with
        live := [⟨0, half 3000000 3000100 20 25 600 150⟩, ⟨1, half 3000130 3000260 22 28 900 210⟩]
        liveCount := 2
        freeList := List.range' 2 1022 }
    banks := { s.banks with refs := ⟨2, 0⟩ } }

/-- 12.3: the halves of the can become one OPEN record from 3,000,000 to 3,000,260 over lanes 20 to 28 with the larger
entry of S0; the slot of the second goes to the tail of the free list with generation 1. -/
theorem test_merge_of_two_halves :
    let t := after (exec .assocTake cans)
    t.ft.live.map (fun l => (l.slot, l.record.X, l.record.Xt, l.record.first, l.record.last)) = [(0, 3000000, 3000260, 20, 28)] ∧
      t.ft.live.map (fun l => (l.record.flags.merged, l.record.evidence.s0.map (·.area), t.decisionPoint l.record)) =
        [(true, some (some 900), 3004824)] ∧
      t.ft.freeList.getLast? = some 1 ∧ t.ft.gen 1 = 1 ∧ t.ft.liveCount = 1 ∧ t.banks.refs = ⟨1, 0⟩ := by decide +kernel

/-- The bank entries of 5.9. -/
def bank59 : BankData :=
  { BankData.atRelease with
    classMap :=
      { BankData.atRelease.classMap with
        s0 := BankData.atRelease.classMap.s0.set 12 ⟨3, 6⟩
        s1 := BankData.atRelease.classMap.s1.set 5 ⟨3, 10⟩
        s2 := BankData.atRelease.classMap.s2.set 40 ⟨4, 8⟩ }
    table := { BankData.atRelease.table with minScore := 1500, minMargin := 600 } }

/-- 5.9: a tie of 1,200 is WEAK; with S1's vote top is 3,000, margin 1,800 and material 3. -/
theorem test_weak_then_settled :
    let early : PerStation (Option Entry) := ⟨some ⟨12, 200, none, none⟩, none, some ⟨40, 150, none, none⟩, none⟩
    verdictOf bank59 early = ⟨0, 1200, 0⟩ ∧ isWeak bank59 (scores bank59 early) = true ∧
      verdictOf bank59 (early.set .s1 (some ⟨5, 180, none, none⟩)) = ⟨3, 3000, 1800⟩ := by decide +kernel

/-- The record of 7.4. -/
def rec74 : Record := recAt (.committed ⟨3, 3000, 1800⟩ .bar0) 1000000 1000180 40 47

/-- 7.4, normal arming: nozzles 39 to 48, fire-on 1,011,963, fire-off 1,012,173. -/
theorem test_normal_arming :
    let u := barOn 12000 1024 BarUnit.atRelease
    committedSet u rec74 = [39, 40, 41, 42, 43, 44, 45, 46, 47, 48] ∧
      fireOnOf u.settings 393 1010976 rec74 = 1011963 ∧ fireOffOf u.settings 393 1010976 rec74 = 1012173 := by
  decide +kernel

/-- 7.4, late arming: fire-on is clamped to T, fire-off is 1,012,168. -/
theorem test_late_arming :
    let st := (barOn 12000 40 BarUnit.atRelease).settings
    isLate st 500 1011960 rec74 = true ∧ fireOnOf st 500 1011960 rec74 = 1011960 ∧
      fireOffOf st 500 1011960 rec74 = 1012168 := by decide +kernel

/-- 7.4, zones that split a set: 42 and 43 fall out, 46 is under WATCH. -/
theorem test_zones_split_a_set :
    let u := barOn 12000 1024 BarUnit.atRelease
    let v := { u with zones := (u.zones.set 0 ⟨42, 43, .off, false⟩).set 1 ⟨46, 46, .watch, false⟩ }
    committedSet v rec74 = [39, 40, 41, 44, 45, 46, 47, 48] ∧ watched v (committedSet v rec74) = true := by decide +kernel

/-- 8.5: a cut counts once and starts the cooling. -/
theorem test_cut :
    let s := withBar .bar1 (fun u => u.modNozzle 52 fun n => { n with st := .opened, onTime := 30100 }) State.reset
    let t := after (exec (.maxonCut .bar1 52) s)
    (t.bar .bar1).maxonCuts = 1 ∧ ((t.bar .bar1).nozzle 52).st = .cooling := by decide +kernel

/-- 8.6: the frame count goes on from 255 to 0. -/
theorem test_frame_count_wraps :
    let s := withBar .bar2 (fun u => { u with bus := { u.bus with owed := true, count := 255 } }) State.reset
    ((after (exec (.valveFrameStart .bar2) s)).bar .bar2).bus.count = 0 := by decide +kernel

/-- 10.4: QUEUE_DROP with STALL and BELT_MOVING masked asserts ATTN, lowers the condition and fills the capture. -/
theorem test_notice_and_capture :
    let lc := { LineControl.atRelease with mode := .run, pendingSet := 0x1800, mask := 0x1800 }
    let t := lc.raise 4002500 .queueDrop (.station .s2) none
    t.attn = true ∧ t.condition = .degraded ∧ t.capture = some ⟨.queueDrop, 4002500, .station .s2, none, 0⟩ := by decide

/-- 11.2: a START is the six bytes 165, 0, 0, 19, 0, 19. -/
theorem test_start_bytes : requestBytes .start = [165, 0, 0, 19, 0, 19] := by decide

/-- R134: the kind, length and bytes of a START spell START. -/
theorem test_start_is_read : frameFault 19 [] 19 = none ∧ decodeRequest 19 [] = some .start := by decide

/-- 9.6: a request while another is in progress is answered BUSY behind the reply before it. -/
theorem test_busy :
    let t := after (exec (.override ⟨140, 7⟩ 3) (after (exec .readNotices State.reset)))
    t.link.replies.map (fun r => (r.kind, r.code)) = [(24, .ok), (16, .busy)] := by decide +kernel

/-- R133: a length of 7 + 3 × 42 is beyond the longest body, and answered with kind 0; with 41 rows it is not. -/
theorem test_rows_beyond_the_longest_body :
    let reply := fun n => (after (exec (.writeDestinations ⟨1, List.replicate n ⟨3, 0, 2⟩, 1, 0, 3, 3⟩) State.reset)).link.replies.map
      fun r => (r.kind, r.code)
    reply 42 = [(0, .badLength)] ∧ reply 41 = [(7, .badLength)] := by decide +kernel

/-- 9.6, last sentences: a START cut short after its length takes its missing bytes from the CLEAR that follows, and the
two have one BAD_CHECK. -/
theorem test_cut_short_takes_the_next_request :
    let s := State.linkBytes State.reset [165, 0, 0, 19]
    let t := after (exec .clear s)
    s.link.rx = .collecting [0, 0, 19] ∧ t.link.replies.map (fun r => (r.kind, r.code)) = [(19, .badCheck)] ∧
      t.link.rx = .hunting := by decide +kernel

/-- R129: a cut due together with the expiry of the refresh timer comes before the owed frame, which carries it. -/
theorem test_refresh_and_cut_in_one_frame :
    let s := withBar .bar1 (fun u => { u.modNozzle 52 (fun n => { n with st := .opened, onTime := 30000 }) with
      bus := { u.bus with owed := true, refresh := 1024 } }) State.reset
    s.dueEvents = [.maxonCut .bar1 52] ∧ (after (exec (.maxonCut .bar1 52) s)).dueEvents = [.valveFrameStart .bar1] := by
  decide +kernel

/-- The table gives no row any bits. -/
theorem test_no_bits (nbits w : Nat) (s : State) : decodeTableWord nbits w = none ∧ s.withFetchWord nbits w = s :=
  ⟨rfl, rfl⟩

/-! ### Ill-formed commands -/

/-- A BAD_FRAME whose length fits its kind is ill-formed. -/
theorem test_ill_formed_bad_frame : wellFormed (.badFrame .s0 6 1) = false ∧ wellFormed (.badFrame .s0 7 1) = true := by decide
/-- An overlong frame of 132 bytes is ill-formed. -/
theorem test_ill_formed_overlong : wellFormed (.overlongFrame 132) = false ∧ wellFormed (.overlongFrame 133) = true := by decide
/-- A garbled frame that spells a request, and one beyond the longest body, are ill-formed. -/
theorem test_ill_formed_garbled :
    wellFormed (.garbledFrame 19 [] 19) = false ∧ wellFormed (.garbledFrame 19 (List.replicate 133 0) 0) = false ∧
      wellFormed (.garbledFrame 19 [] 20) = true := by decide +kernel
/-- Sixty-five Class Map entries are ill-formed. -/
theorem test_ill_formed_classmap :
    wellFormed (.writeClassmap 1 0 0 (List.replicate 65 ⟨0, 0⟩)) = false ∧
      wellFormed (.writeClassmap 1 0 0 (List.replicate 64 ⟨0, 0⟩)) = true := by decide
/-- Fifteen Destination Table rows are ill-formed. -/
theorem test_ill_formed_destinations :
    wellFormed (.writeDestinations ⟨1, List.replicate 15 ⟨3, 0, 2⟩, 1, 0, 3, 3⟩) = false ∧
      wellFormed (.writeDestinations ⟨1, List.replicate 16 ⟨3, 0, 2⟩, 1, 0, 3, 3⟩) = true := by decide

/-! ### Witnesses: states and operands that meet the hypotheses of the statements -/

/-- The words of `Ready` from its four parts. -/
theorem ready_of {s : State}
    (h : s.pins.inReset = false ∧ s.link.rx.atStart = true ∧ s.link.inProgress = none ∧ s.link.replies.length < 16) :
    Ready s := ⟨h.1, h.2.1, h.2.2.1, h.2.2.2⟩

/-- Fifteen framing replies wait, the most with which a request is still taken up. -/
def replies15 (s : State) : State :=
  { s with link := { s.link with replies := List.replicate 15 ⟨0, .badLength, .empty, false⟩ } }

/-- Such a link takes the next request. -/
theorem ready_reset (m : Mode) : Ready (replies15 (inMode m State.reset)) :=
  ready_of (by cases m <;> decide +kernel)

/-- A table of a running line in order, from its parts. -/
theorem tableOk_of {s : State}
    (h : s.ft.liveCount = s.ft.live.length ∧ s.ft.live.map (·.slot) ++ s.ft.freeList = List.range 1024 ∧
      s.ft.gens.length = 1024 ∧ s.banks.refs = ⟨s.ft.live.length, 0⟩ ∧ (∀ l ∈ s.ft.live, l.record.bank = .a) ∧
      s.lc.mode ≠ .config ∧ s.banks.pendingSwitch = none) : TableOk s where
  count := h.1
  slots := h.2.1 ▸ List.Perm.refl _
  gens := h.2.2.1
  refs k := by
    have e := h.2.2.2.2.1
    rw [h.2.2.2.1]
    cases k
    · exact (congrArg List.length (List.filter_eq_self.2 fun l hl => by simp [e l hl])).symm
    · exact (List.length_eq_zero_iff.2 (List.filter_eq_nil_iff.2 fun l hl => by simp [e l hl])).symm
  config hm := absurd hm h.2.2.2.2.2.1
  switch w hw := by rw [h.2.2.2.2.2.2] at hw; cases hw

/-- The words of `Takes` from its parts. -/
theorem takes_of {s : State} {p : Station} {d : Detection} {rest : List Detection}
    (h : s.pins.inReset = false ∧ s.running = true ∧ s.ae.free = true ∧ s.served = some p ∧ (s.port p).queue = d :: rest ∧
      d.station = p) : Takes s p d rest := ⟨h.1, h.2.1, h.2.2.1, h.2.2.2.1, h.2.2.2.2.1, h.2.2.2.2.2⟩

/-- Settings in the ranges of 7.1, as a test. -/
def rangeOk (st : BarSettings) : Bool :=
  st.E ≤ 65535 && 16 ≤ st.A && st.A ≤ 4095 && st.tOpen ≤ 20000 && st.tClose ≤ 20000 && st.mFront ≤ 255 && st.mBack ≤ 255 &&
    st.widen ≤ 3 && 1 ≤ st.maxNoz && st.maxNoz ≤ 64 && 1000 ≤ st.maxon && st.maxon ≤ 100000 && st.minoff ≤ 50000

/-- The words of `SettingsOk` from the test. -/
theorem settingsOk_of {st : BarSettings} (h : rangeOk st = true) : SettingsOk st := by
  simp only [rangeOk, Bool.and_eq_true, decide_eq_true_eq] at h
  obtain ⟨⟨⟨⟨⟨⟨⟨⟨⟨⟨⟨⟨e, a⟩, a'⟩, o⟩, c⟩, f⟩, b⟩, w⟩, n⟩, n'⟩, m⟩, m'⟩, k⟩ := h
  exact ⟨e, ⟨a, a'⟩, ⟨o, c⟩, ⟨f, b⟩, w, ⟨n, n'⟩, ⟨m, m'⟩, k⟩

/-- The words of `InRange` from its parts. -/
theorem inRange_of {s : State} (h : (allBars.all fun b => rangeOk (s.bar b).settings) = true)
    (hl : s.tracking.lMax ≤ 4095) : s.InRange :=
  ⟨fun b => settingsOk_of (List.all_eq_true.1 h b (by cases b <;> decide)), hl⟩

/-- Nozzles that are all closed, without intervals, stand as their open condition asks. -/
theorem evaluated_of {s : State} (h : ∀ b ∈ allBars, ∀ n ∈ (s.bar b).nozzles, n.st = .closed ∧ n.ivals = []) :
    s.Evaluated := fun b n hn _ => by
  have e := h b (by cases b <;> decide) n hn
  simp [e.1, e.2]

/-- The bars of 7.4, two of them on. -/
def bars74 (s : State) : State := withBar .bar1 (barOn 16000 1024) (withBar .bar0 (barOn 12000 1024) s)

/-- The record of 7.4 as its arming leaves it. -/
def armed74 : Record := recAt (.armed ⟨3, 3000, 1800⟩ ⟨.bar0, 1011963, 1012173, 39, 48⟩) 1000000 1000180 40 47

/-- It lives at T with its interval on nozzle 39. -/
def armedAt (t : Nat) : State :=
  withBar .bar0 (fun u => u.modNozzle 39 fun n => { n with ivals := [⟨1011963, 1012173, ⟨0, 0⟩⟩] })
    (withLive armed74 (bars74 (atStep (runAt t))))

/-- That interval is its own. -/
theorem ownersOk_armedAt (t : Nat) : OwnersOk (armedAt t) := by
  have h : ∀ b, ∀ n ∈ ((armedAt t).bar b).nozzles, ∀ iv ∈ n.ivals, b = .bar0 ∧ iv = ⟨1011963, 1012173, ⟨0, 0⟩⟩ := by
    intro b
    cases b
    · intro n hn iv hi
      have h0 : (armedAt t).bar .bar0 = (armedAt 0).bar .bar0 := rfl
      have := (by decide +kernel : ∀ n ∈ ((armedAt 0).bar .bar0).nozzles, ∀ iv ∈ n.ivals,
        iv = (⟨1011963, 1012173, ⟨0, 0⟩⟩ : Interval))
      exact ⟨rfl, this n (h0 ▸ hn) iv hi⟩
    all_goals
      intro n hn iv hi
      obtain rfl : n = Nozzle.atRelease := List.eq_of_mem_replicate hn
      cases hi
  refine ⟨fun b n hn iv hi => ?_, fun b n hn iv hi => ?_⟩ <;> obtain ⟨rfl, rfl⟩ := h b n hn iv hi
  · decide
  · exact ⟨⟨0, armed74⟩, List.mem_singleton_self _, ⟨3, 3000, 1800⟩, ⟨.bar0, 1011963, 1012173, 39, 48⟩, rfl, rfl, rfl, rfl, rfl⟩

/-- Step_runs_the_front_command. -/
theorem test_front_witness : ({ State.reset with pending := [.start] } : State).pending = .start :: [] := rfl

/-- RESET_pin_release_hold_and_assertion, while held. -/
theorem test_held_witness : (after (exec .resetPinAsserted State.reset)).pins.inReset = true ∧
    (∀ a b, Instr.windowEnd ≠ .encoderTransition a b) ∧ (∀ b, Instr.windowEnd ≠ .driverFault b) ∧
    (∀ b, Instr.windowEnd ≠ .faultLineInactive b) ∧ Instr.windowEnd ≠ .resetPin ∧ Instr.windowEnd ≠ .resetPinAsserted :=
  ⟨by decide +kernel, by simp, by simp, by simp, by simp, by simp⟩

/-- Encoder_transition_without_a_count: two phases apart; one phase apart without a crossing. -/
theorem test_encoder_witness :
    State.reset.pins.inReset = false ∧ (true ≠ State.reset.bpu.ref.a ∧ true ≠ State.reset.bpu.ref.b) ∧
    (true ≠ State.reset.bpu.ref.a ∧ false = State.reset.bpu.ref.b) ∧
    ¬(State.reset.bpu.ref = ⟨false, true⟩ ∧ true = false ∧ false = false) ∧
    ¬(State.reset.bpu.ref = ⟨false, false⟩ ∧ true = false ∧ false = true) := by decide +kernel

/-- Counts_move_the_sub_step_and_P: within a step, a step of recovery; within a step, the bound, a step up to REV_MAX. -/
theorem test_counts_witness :
    let f := withBpu (fun b => { b with ref := ⟨false, true⟩ }) (runAt 9)
    let r := withBpu (fun b => { b with P := 8 }) (atStep (runAt 9))
    let w := withBpu (fun b => { b with sub := 1 }) (runAt 9)
    let d := withBpu (fun b => { b with P := 0, T := 1048575 }) State.reset
    let x := withBpu (fun b => { b with P := 754 }) (runAt 1009)
    (f.pins.inReset = false ∧ f.bpu.ref = ⟨false, true⟩ ∧ f.bpu.sub + 1 ≠ f.bpu.encDiv) ∧
    (r.pins.inReset = false ∧ r.bpu.ref = ⟨false, true⟩ ∧ r.bpu.sub + 1 = r.bpu.encDiv ∧ r.bpu.P ≠ r.bpu.T) ∧
    (w.pins.inReset = false ∧ w.bpu.ref = ⟨false, false⟩ ∧ 0 < w.bpu.sub) ∧
    (d.pins.inReset = false ∧ d.bpu.ref = ⟨false, false⟩ ∧ d.bpu.sub = 0 ∧ 1048575 ≤ (d.bpu.T - d.bpu.P).toNat) ∧
    (x.pins.inReset = false ∧ x.bpu.ref = ⟨false, false⟩ ∧ x.bpu.sub = 0 ∧ (x.bpu.T - x.bpu.P).toNat < 1048575 ∧
      (x.bpu.T - x.bpu.P).toNat + 1 = x.bpu.revMax) := by decide +kernel

/-- Reverse_step_beyond_REV_MAX_halts, at the first depth beyond. -/
theorem test_halt_witness :
    let s := withBpu (fun b => { b with P := 753 }) (runAt 1009)
    s.pins.inReset = false ∧ s.bpu.ref = ⟨false, false⟩ ∧ s.bpu.sub = 0 ∧ s.running = true ∧
      (s.bpu.T - s.bpu.P).toNat < 1048575 ∧ s.bpu.revMax + 1 = (s.bpu.T - s.bpu.P).toNat + 1 ∧ s.lc.capture = none := by
  decide +kernel

/-- T_advance_reaches_every_block: stalled, with a switch at the new T across the wrap; a station one count before it falls
SILENT; a line at rest; a running line whose ARMED record reaches its fire-off, and one step before. -/
theorem test_advance_witness :
    let s := { atStep (withBpu (fun b => { b with stalled := true }) (runAt 4294967295)) with
      banks := { Banks.atRelease with pendingSwitch := some ⟨.b, 0⟩ } }
    let u := withPort .s1 (fun p => { p with silence := 8191 }) (atStep (s1Up 9))
    let ok := fun s : State => s.pins.inReset = false ∧ s.bpu.ref = ⟨false, true⟩ ∧ s.bpu.sub + 1 = s.bpu.encDiv ∧
      s.bpu.P = s.bpu.T
    (ok s ∧ s.bpu.stalled = true ∧ s.banks.pendingSwitch = some ⟨.b, 0⟩ ∧ (0 : Pos) = s.bpu.T + 1) ∧
    (ok u ∧ (u.port .s1).state = .up ∧ (u.port .s1).silentSteps = min ((u.port .s1).silence + 1) 65535 ∧
      u.banks.pendingSwitch = none) ∧
    (ok (atStep State.reset) ∧ (atStep State.reset).running = false) ∧
    (∀ t ∈ [1012171, 1012172], ok (armedAt t) ∧ (armedAt t).running = true) ∧
    (TableOk (armedAt 1012172) ∧ OwnersOk (armedAt 1012172) ∧ ⟨0, armed74⟩ ∈ (armedAt 1012172).ft.live ∧
      (armedAt 1012172).awaited armed74 = some ((armedAt 1012172).bpu.T + 1)) ∧
    (TableOk (armedAt 1012171) ∧ ⟨0, armed74⟩ ∈ (armedAt 1012171).ft.live ∧
      (armedAt 1012171).awaited armed74 ≠ some ((armedAt 1012171).bpu.T + 1)) :=
  ⟨by decide +kernel, by decide +kernel, by decide +kernel, by decide +kernel,
    ⟨tableOk_of (by decide +kernel), ownersOk_armedAt _, by decide +kernel⟩, tableOk_of (by decide +kernel), by decide +kernel⟩

/-- Point_of_a_lone_record_is_taken, in RUN and DRAINING: an OPEN record; DECIDED toward PASS, toward the second bar, toward
the lowest and toward one not enabled; COMMITTED, ARMED and PASSING ones. -/
theorem test_lone_witness :
    let v : Verdict := ⟨3, 3000, 1800⟩
    let rec_ := fun st => recAt st 1000000 1000180 40 47
    let s := fun (m : Mode) (st : RecState) (t : Nat) => inMode m (withLive (rec_ st) (bars74 (atStep (runAt t))))
    (∀ m ∈ [Mode.run, .draining], ∀ x ∈ [(RecState.opened, 1000243), (.decided v .pass, 1010975),
        (.decided v (.bar .bar1), 1010975), (.decided v (.bar .bar0), 1010975), (.decided v (.bar .bar2), 1010975),
        (.committed v .bar1, 1014975), (.armed v ⟨.bar0, 1011963, 1012173, 39, 48⟩, 1012172),
        (.passing v .pass .passed, 1016191)],
      let u := s m x.1 x.2
      u.pins.inReset = false ∧ u.bpu.ref = ⟨false, true⟩ ∧ u.bpu.sub + 1 = u.bpu.encDiv ∧ u.bpu.P = u.bpu.T ∧
        u.lc.mode = m ∧ u.running = true ∧ u.ft.live = [⟨0, rec_ x.1⟩] ∧ u.ft.liveCount = 1 ∧
        u.awaited (rec_ x.1) = some (u.bpu.T + 1) ∧ u.lowBar = some .bar0 ∧ (u.bar .bar1).settings.enabled = true ∧
        (u.bar .bar2).settings.enabled = false ∧ u.freezePoint 1000000 = some 1010976 ∧
        u.armPoint 1000000 .bar1 = some 1014976 ∧ u.retireLine 1000180 = some 1016192 ∧
        ∀ q ∈ stations, ((u.port q).state = .up → (u.port q).silence + 1 < (u.port q).silentSteps) ∧
          (u.port q).silence < 65535) ∧
    (atOrBehind 1010976 (1000243 + 1) = false ∧ atOrBehind 1014976 (1010975 + 1) = false ∧
      atOrBehind 1016192 (1014975 + 1) = false) ∧
    (∀ m st t, (s m st t).InRange) ∧ stepsTo 1000000 1000180 ≤ (s .run .opened 0).tracking.lMax :=
  ⟨by decide +kernel, by decide +kernel, fun _ _ _ => inRange_of rfl (Nat.le_of_ble_eq_true rfl), by decide +kernel⟩

/-- The points in Point_of_a_lone_record_is_taken: two stations on, the larger D_s not the last; bars 1 and 2 on, bar 0 not. -/
theorem test_points_witness :
    let at_ := fun d (p : Port) => { p with enabled := true, D := d }
    let s := withBar .bar2 (barOn 16000 1024) (withBar .bar1 (barOn 12000 1024)
      (withPort .s1 (at_ 6000) (withPort .s2 (at_ 4500) State.reset)))
    let on := fun c : Bar => (s.bar c).settings.enabled = true
    ((s.port .s1).enabled = true ∧ (s.port .s1).D = 6000) ∧ (∀ p ∈ stations, (s.port p).enabled = true → (s.port p).D ≤ 6000) ∧
    (on .bar1 ∧ ∀ c ∈ allBars, on c → barNo .bar1 ≤ barNo c) ∧ ¬on .bar0 ∧ (on .bar2 ∧ ∀ c ∈ allBars, barNo c ≤ barNo .bar2) ∧
    s.armPoint 1000000 .bar0 = some 1010976 ∧ s.retireLine 1000180 = some 1016192 := by decide +kernel

/-- Line_Clock_pulse_start_and_end: the last owed pulse starts, none is owed, the line is high. -/
theorem test_lclk_witness :
    let s := withBpu (fun b => { b with owed := 1 }) State.reset
    let t := withBpu (fun b => { b with owed := 1, lclk := true }) State.reset
    s.pins.inReset = false ∧ 0 < s.bpu.owed ∧ s.bpu.lclk = false ∧ State.reset.bpu.owed = 0 ∧
      State.reset.pins.inReset = false ∧ t.pins.inReset = false ∧ t.bpu.lclk = true := by decide +kernel

/-- Window_end_updates_speed_stall_and_guard: stalled with the guard set, one window before its end, where the bars stay, and
at its end, where the line halts; a stall that begins; in each the nozzles stand as their open condition asks. -/
theorem test_window_witness :
    let s := fun G => withBpu (fun b => { b with stalled := true, guard := true, G := G, Z := 3 }) (runAt 0)
    let z := withBpu (fun b => { b with Z := 1 }) (runAt 0)
    (∀ G ∈ [59, 60], (s G).pins.inReset = false ∧ (s G).bpu.windowCount = 0 ∧ (s G).bpu.stalled = true ∧
      (s G).bpu.guard = true ∧ (s G).running = true) ∧
    min ((s 59).bpu.G + 1) 255 < (s 59).bpu.guardW ∧ (s 60).bpu.guardW ≤ min ((s 60).bpu.G + 1) 255 ∧
    (z.pins.inReset = false ∧ z.bpu.stalled = false ∧ z.bpu.stallW ≤ (after (exec .windowEnd z)).bpu.Z) ∧
    ((after (exec .windowEnd z)).bpu.stalled = true ∧ (after (exec .windowEnd (s 60))).lc.mode = .halted ∧
      (after (exec .windowEnd (s 59))).bpu.stalled = (s 59).bpu.stalled ∧
      (after (exec .windowEnd (s 59))).lc.mode = (s 59).lc.mode) ∧
    (s 60).Evaluated ∧ z.Evaluated :=
  ⟨by decide +kernel, by decide +kernel, by decide +kernel, by decide +kernel, by decide +kernel,
    evaluated_of (by decide +kernel), evaluated_of (by decide +kernel)⟩

/-- Station_frame_discarded: a DISABLED station; a wrong check, a wrong station, a duplicate; a wrong content at its edge. -/
theorem test_discard_witness :
    let s := s1Up 501300
    let good := detectOf 1 8 0 1048575 159 159 63
    let bad := detectOf 1 10 0 1048576 159 159 63
    State.reset.pins.inReset = false ∧ (State.reset.port .s1).state = .disabled ∧
    (State.reset.port .s1).rx.atStart = true ∧ s.pins.inReset = false ∧ (s.port .s1).rx.atStart = true ∧
    (Rx.collecting []).atStart = true ∧ (s.port .s1).state ≠ .disabled ∧ (⟨1, 9, 0, 0⟩ : SyncFrame).check ≠ stationCheck syncKind (syncBody ⟨1, 9, 0, 0⟩) ∧
    (syncOf 2 9 0).station.toNat ≠ stationNo .s1 ∧
    (syncOf 1 8 0).check = stationCheck syncKind (syncBody (syncOf 1 8 0)) ∧
    (syncOf 1 8 0).station.toNat = stationNo .s1 ∧ (s.port .s1).lastSeq = some (syncOf 1 8 0).seq ∧
    contentOk bad = false ∧ good.check = stationCheck detectKind (detectBody good) ∧ good.station.toNat = stationNo .s1 ∧
    contentOk good = true ∧ (s.port .s1).lastSeq = some good.seq := by decide +kernel

/-- Good_SYNC_latches_or_tests_the_Base: WAITING; UP with the candidate two off, and three off. -/
theorem test_sync_witness :
    let w := withPort .s1 (fun p => { p with enabled := true, state := .waiting }) (runAt 500000)
    let s := s1Up 501024
    let ok := fun (u : State) (f : SyncFrame) => u.pins.inReset = false ∧ (u.port .s1).rx.atStart = true ∧ f.check = stationCheck syncKind (syncBody f) ∧
      f.station.toNat = stationNo .s1 ∧ (u.port .s1).lastSeq ≠ some f.seq
    ok w (syncOf 1 7 120000) ∧ (w.port .s1).state = .waiting ∧ ok s (syncOf 1 9 121022) ∧ ok s (syncOf 1 9 121021) ∧
    (s.port .s1).state = .up ∧ (s.port .s1).base = some 380000 ∧
    (s.bpu.T - (syncOf 1 9 121022).lSync - 380000).toInt = (s.port .s1).slipTol ∧
    (s.bpu.T - (syncOf 1 9 121021).lSync - 380000).toInt = (s.port .s1).slipTol + 1 := by decide +kernel

/-- Good_DETECT_is_relocated_and_queued: the last place of the queue, and a full queue; the last of RATE_s. -/
theorem test_detect_witness :
    let s := fun n => withPort .s1
      (fun p => { p with rate := 4, rateCount := 3, queue := List.replicate n (detAt 0 9 1 2) }) (s1Up 501300)
    let f := detectOf 1 10 120900 121080 40 47 3
    (∀ n ∈ [31, 32], (s n).pins.inReset = false ∧ ((s n).port .s1).rx.atStart = true ∧ f.check = stationCheck detectKind (detectBody f) ∧
      f.station.toNat = stationNo .s1 ∧ contentOk f = true ∧ ((s n).port .s1).lastSeq ≠ some f.seq ∧
      (s n).lc.mode = .run ∧ ((s n).port .s1).state = .up ∧ ((s n).port .s1).base = some 380000 ∧
      ((s n).port .s1).rateCount < ((s n).port .s1).rate ∧ ((s n).port .s1).queue.length = n) := by decide +kernel

/-- Good_DETECT_discarded: HALTED; SILENT in RUN; the rate reached. -/
theorem test_detect_discarded_witness :
    let f := detectOf 1 10 120900 121080 40 47 3
    let ok := fun u : State => u.pins.inReset = false ∧ (u.port .s1).rx.atStart = true ∧ f.check = stationCheck detectKind (detectBody f) ∧
      f.station.toNat = stationNo .s1 ∧ contentOk f = true ∧ (u.port .s1).state ≠ .disabled ∧
      (u.port .s1).lastSeq ≠ some f.seq
    let h := inMode .halted (s1Up 501300)
    let n := withPort .s1 (fun p => { p with state := .silent }) (s1Up 501300)
    let r := withPort .s1 (fun p => { p with rate := 4, rateCount := 4 }) (s1Up 501300)
    (ok h ∧ h.lc.mode = .halted) ∧ (ok n ∧ n.lc.mode = .run ∧ (n.port .s1).state = .silent) ∧
    (ok r ∧ r.lc.mode = .run ∧ (r.port .s1).state = .up ∧ (r.port .s1).base.isSome = true ∧ 0 < (r.port .s1).rate ∧
      (r.port .s1).rate ≤ (r.port .s1).rateCount) := by decide +kernel

/-- Bad_frame_and_port_start_mark: length 13 of a DETECT, at a DISABLED and at an UP station; a receiver at each place of a
frame, the last one before its last byte. -/
theorem test_bad_frame_witness :
    let at_ := fun rx => withPort .s1 (fun p => { p with rx := rx }) (s1Up 0)
    let body : List Byte := List.replicate 6 0
    ¬(((2 : Byte) = 1 ∧ (13 : Byte) = 6) ∨ ((2 : Byte) = 2 ∧ 14 ≤ (13 : Byte).toNat ∧ (13 : Byte).toNat ≤ 17)) ∧
    State.reset.pins.inReset = false ∧ (State.reset.port .s1).state = .disabled ∧
    (State.reset.port .s1).rx.atStart = true ∧ ((s1Up 0).port .s1).state ≠ .disabled ∧
    (∀ rx ∈ [Rx.hunting, .collecting [], .collecting [6], .collecting (6 :: 1 :: body)],
      (at_ rx).pins.inReset = false ∧ ((at_ rx).port .s1).rx = rx) ∧
    ((1 : Byte) = 1 ∧ (6 : Byte) = 6) ∧ body.length + 1 < (6 : Byte).toNat + 2 := by decide +kernel

/-- Engine_serves_the_ports_in_turn: every queue empty; the fourth port of the search. -/
theorem test_engine_witness :
    let s := { withPort .s2 (fun p => { p with queue := [detAt 0 9 1 2] }) (runAt 0) with ae := { pointer := .s3, free := true } }
    (runAt 0).pins.inReset = false ∧ (∀ p ∈ stations, ((runAt 0).port p).queue = []) ∧
    s.pins.inReset = false ∧ s.running = true ∧ s.ae.free = true ∧
    searchOrder s.ae.pointer = [.s3, .s0, .s1] ++ .s2 :: [] ∧ (∀ q ∈ [Station.s3, .s0, .s1], (s.port q).queue = []) ∧
    (s.port .s2).queue ≠ [] := by decide +kernel

/-- Dust_and_late_detections_are_discarded: an area one below MIN_AREA and at it; no area; with no candidate, a freeze point at T, a
frozen match one step before, and neither in DRAINING; a candidate whose union is one step beyond L_MAX. -/
theorem test_dust_and_late_witness :
    let d := detAt 1000000 1002048 40 47
    let s := served d (runAt 1010976)
    let t := { s with tracking := { s.tracking with minArea := 2401 } }
    let m := withLive rec74 (served d (runAt 1010975))
    let g := inMode .draining (served d (runAt 1010975))
    let c : Live := ⟨0, recAt .opened 1002048 1002049 48 50⟩
    let w := withLive c.record g
    (Takes t .s2 d [] ∧ d.area = some 2400 ∧ 2400 + 1 = t.tracking.minArea) ∧
    (let e := { s.tracking with minArea := 2400 }; e.minArea = 2400 ∧ isDust e d = false) ∧ ({ d with area := none } : Detection).area = none ∧
    (Takes s .s2 d [] ∧ isDust s.tracking d = false ∧ s.unclaimed (s.shortened d) ∧ s.tooLateFor d) ∧
    (Takes m .s2 d [] ∧ isDust m.tracking d = false ∧ m.unclaimed (m.shortened d) ∧ m.meetsFrozen (m.shortened d)) ∧
    (Takes g .s2 d [] ∧ isDust g.tracking d = false ∧ g.unclaimed (g.shortened d) ∧ g.lc.mode = .draining ∧
      ¬g.meetsFrozen (g.shortened d) ∧ ¬g.tooLateFor d) ∧
    (Takes w .s2 d [] ∧ w.openTo (w.shortened d) = [c] ∧ w.unclaimed (w.shortened d)) := by
  unfold State.unclaimed State.meetsFrozen State.tooLateFor State.fits
  refine ⟨⟨takes_of (by decide +kernel), by decide +kernel⟩, by decide +kernel, by decide, ⟨takes_of (by decide +kernel), by decide +kernel,
      .inl (by decide +kernel), .bar0, by decide +kernel⟩,
    ⟨takes_of (by decide +kernel), by decide +kernel, .inl (by decide +kernel), by decide +kernel⟩,
    ⟨takes_of (by decide +kernel), by decide +kernel, .inl (by decide +kernel), by decide +kernel, by decide +kernel, ?_⟩,
    takes_of (by decide +kernel), by decide +kernel,
    .inr ⟨fun h => absurd h.1 (by decide +kernel), ⟨0, recAt .opened 1002048 1002049 48 50⟩, ⟨[], [], by decide +kernel,
      by simp, by simp⟩, by decide +kernel⟩⟩
  rintro ⟨f, hf, h⟩
  obtain rfl : f = .bar0 := Option.some_injective _ (hf.symm.trans (by decide +kernel))
  exact absurd h (by decide +kernel)

/-- New_record_from_a_detection: one step longer than L_MAX, one step before the decision point and at it; the pointer at an
empty port; and with no free slot. -/
theorem test_new_record_witness :
    let d := detAt 1000000 1002049 40 47
    let s := fun t => served d (runAt t)
    let r : Record := { recAt .opened 1000000 1002048 40 47 with
      evidence := (⟨none, none, none, none⟩ : PerStation (Option Entry)).set .s2 (some ⟨d.cls, d.conf, d.area, d.metal⟩) }
    (∀ t, t = 1002111 ∨ t = 1002112 →
      Takes (s t) .s2 d [] ∧ (s t).lc.mode = .run ∧ isDust (s t).tracking d = false ∧
      (s t).unclaimed ((s t).shortened d) ∧ ¬(s t).meetsFrozen ((s t).shortened d) ∧ ¬(s t).tooLateFor d ∧
      (s t).lowBar.isSome = true ∧ (s t).tracking.lMax + 1 = stepsTo d.X d.Xt ∧
      (s t).ft.freeList = 0 :: List.range' 1 1023 ∧ ∀ l ∈ (s t).ft.live, l.slot ≠ 0) ∧
    ((s 1002111).decisionPoint r = (s 1002111).bpu.T + 1 ∧ (s 1002112).decisionPoint r = (s 1002112).bpu.T) ∧
    Takes { s 1002111 with ae := { pointer := .s0, free := true } } .s2 d [] ∧
    ({ s 1002111 with ft := { (s 1002111).ft with freeList := [] } } : State).ft.freeList = [] := by
  unfold State.unclaimed State.meetsFrozen State.tooLateFor
  refine ⟨?_, by decide +kernel, takes_of (by decide +kernel), rfl⟩
  rintro t (rfl | rfl) <;>
    refine ⟨takes_of (by decide +kernel), by decide +kernel, by decide +kernel, .inl (by decide +kernel),
      by decide +kernel, ?_, by decide +kernel⟩ <;>
    (rintro ⟨f, hf, h⟩
     obtain rfl : f = .bar0 := Option.some_injective _ (hf.symm.trans (by decide +kernel))
     exact absurd h (by decide +kernel))

/-- The belt order of New_record_from_a_detection, across the wrap: a record one lane before, the slot after, and one that
shares X and first lane with the record that joins, which goes between them. -/
theorem test_belt_order_witness :
    let at_ := fun slot x first => (⟨slot, recAt .opened x x first 159⟩ : Live)
    let list := [at_ 9 4294967295 0, at_ 3 3 4, at_ 7 3 5]
    let stands := fun y z : Live =>
      behind y.record.X z.record.X = true ∨
        y.record.X = z.record.X ∧ (y.record.first < z.record.first ∨ y.record.first = z.record.first ∧ y.slot < z.slot)
    list.Pairwise stands ∧ (∀ y ∈ list, y.slot ≠ (at_ 5 3 4).slot) ∧
    (∀ y ∈ at_ 5 3 4 :: list, ∀ z ∈ at_ 5 3 4 :: list, (y.record.X - z.record.X).toInt.natAbs < 1048576) ∧
    (insertLive (at_ 5 3 4) list).map (·.slot) = [9, 3, 5, 7] := by decide +kernel

/-- Detection_attaches_to_its_candidate: an OPEN record the widened range just reaches, the union as long as L_MAX; a
DECIDED one; one that the widening puts past its decision, its freeze and its arm point, which ends ARMED; the pointer at an
empty port; one of two whose union is beyond L_MAX. -/
theorem test_attach_witness :
    let d := detAt 1000000 1002000 40 47
    let c := fun st => (⟨0, { recAt st 1002016 1002048 48 50 with ovr := some (.bar .bar0) }⟩ : Live)
    let s := fun st t => withLive (c st).record (served d (runAt t))
    let o : Live := ⟨1, recAt .opened 1002010 1002100 40 47⟩
    let m := { s .opened 1002111 with
      ft := { (s .opened 1002111).ft with live := [o, c .opened], liveCount := 2, freeList := List.range' 2 1022 } }
    let v : Verdict := ⟨0, 0, 0⟩
    let at_ := fun (st : RecState) t => let u := s st t
      Takes u .s2 d [] ∧ TableOk u ∧ u.InRange ∧ u.geometryOk = true ∧ isDust u.tracking d = false ∧
      ¬u.merges (u.shortened d) (u.openTo (u.shortened d)) ∧
      u.largestOf (u.shortened d) (u.openTo (u.shortened d)) (c st) ∧ u.fits (u.shortened d) (c st) ∧
      stepsTo (behindMost (c st).record.X d.X) (aheadMost (c st).record.Xt d.Xt) = u.tracking.lMax ∧
      u.reached (u.retireLine (aheadMost (c st).record.Xt d.Xt)) = false
    (∀ t, t = 1002111 ∨ t = 1010976 → at_ .opened t ∧ at_ (.decided v .pass) t) ∧
    (let out := fun st t => ((after (exec .assocTake (s st t))).ft.find 0).map (·.st)
     out .opened 1002111 = some .opened ∧ out (.decided v .pass) 1002111 = some (.decided v (.bar .bar0)) ∧
       (out .opened 1010976).map (·.schedule.isSome) = some true) ∧
    Takes { s .opened 1002111 with ae := { pointer := .s1, free := true } } .s2 d [] ∧
    (m.openTo (m.shortened d) = [o, c .opened] ∧ m.tracking.lMax < stepsTo (mergedX d [o, c .opened]) (mergedXt d [o, c .opened]) ∧
      overlap m.tracking d (c .opened).record < overlap m.tracking d o.record) := by
  unfold State.fits
  refine ⟨?_, by decide +kernel, takes_of (by decide +kernel), by decide +kernel⟩
  rintro t (rfl | rfl) <;> constructor <;>
    exact ⟨takes_of (by decide +kernel), tableOk_of (by decide +kernel), inRange_of (by decide +kernel) (by decide +kernel),
      by decide +kernel, by decide +kernel, fun h => absurd h.1 (by decide +kernel), ⟨[], [], by decide +kernel, by simp, by simp⟩,
      by decide +kernel⟩

/-- Merge_of_candidates: the case of 12.3. An entry is kept, the survivor's is kept at an equal area, and none is. -/
theorem test_merge_witness :
    (∃ c c', let d' := cans.shortened (detAt 3000010 3000250 20 28)
      Takes cans .s2 (detAt 3000010 3000250 20 28) [] ∧ TableOk cans ∧ cans.InRange ∧ cans.geometryOk = true ∧
      isDust cans.tracking (detAt 3000010 3000250 20 28) = false ∧ cans.openTo d' = c :: [c'] ∧
      cans.merges d' (c :: [c']) ∧ (∀ l ∈ c :: [c'], l.record.st = .opened) ∧
      cans.reached (cans.retireLine (mergedXt d' (c :: [c']))) = false) ∧
    mergedEntry [⟨0, rec74⟩] (detAt 0 9 1 2) .s2 = some ⟨7, 190, some 2400, none⟩ ∧
    (let held : Record := { rec74 with evidence := ⟨none, none, some ⟨1, 2, some 2400, none⟩, none⟩ }
     mergedEntry [⟨0, held⟩] (detAt 0 9 1 2) .s2 = some ⟨1, 2, some 2400, none⟩) ∧
    mergedEntry [⟨0, rec74⟩] (detAt 0 9 1 2) .s1 = none :=
  ⟨⟨cans.ft.live[0]'(by decide +kernel), cans.ft.live[1]'(by decide +kernel), takes_of (by decide +kernel),
    tableOk_of (by decide +kernel), inRange_of (by decide +kernel) (by decide +kernel), by decide +kernel, by decide +kernel,
    by decide +kernel, ⟨by decide +kernel, by decide +kernel, by decide +kernel⟩, by decide +kernel, by decide +kernel⟩, by decide +kernel⟩

/-- The decision over the list's members, not over every point of the belt. -/
theorem near_of {l : List Pos} (h : (l.all fun p => l.all fun q => decide ((p - q).toInt.natAbs < 1048576)) = true) :
    ∀ p ∈ l, ∀ q ∈ l, (p - q).toInt.natAbs < 1048576 :=
  fun p hp q hq => of_decide_eq_true (List.all_eq_true.1 (List.all_eq_true.1 h p hp) q hq)

/-- Merge_keeps_the_smallest_id, its third part: the starts and ends of `cans` and its detection lie within 2^20 of one another. -/
theorem test_union_witness :
    let d := detAt 3000010 3000250 20 28
    let starts := d.X :: cans.ft.live.map (·.record.X)
    let ends := d.Xt :: cans.ft.live.map (·.record.Xt)
    (∀ p ∈ starts, ∀ q ∈ starts, (p - q).toInt.natAbs < 1048576) ∧
      ∀ p ∈ ends, ∀ q ∈ ends, (p - q).toInt.natAbs < 1048576 :=
  ⟨near_of (by decide +kernel), near_of (by decide +kernel)⟩

/-- 5.10: four votes of 15 × 255 for material 9 give the largest verdict. -/
theorem test_largest_verdict :
    let row : List ClassEntry := List.replicate 64 ⟨9, 15⟩
    let k : BankData := ⟨⟨row, row, row, row⟩, { BankData.atRelease.table with minScore := 15300, minMargin := 15300 }⟩
    let e : Option Entry := some ⟨63, 255, none, none⟩
    verdictOf k ⟨e, e, e, e⟩ = ⟨9, 15300, 15300⟩ := by decide +kernel

/-- Material_of_a_verdict: no vote without material or weight; best 0 with nothing voted, best 3 below and above the thresholds of 5.9. -/
theorem test_verdict_witness :
    let none4 : PerStation (Option Entry) := ⟨none, none, none, none⟩
    let early : PerStation (Option Entry) := ⟨some ⟨12, 200, none, none⟩, none, some ⟨40, 150, none, none⟩, none⟩
    let late := early.set .s1 (some ⟨5, 180, none, none⟩)
    let ok := fun ev best => best < 16 ∧ (∀ m, m < 16 → score bank59 ev m ≤ score bank59 ev best) ∧
      (∀ m, m < best → score bank59 ev m < score bank59 ev best)
    score bank59 early 3 = 6 * 200 ∧ score bank59 (none4.set .s0 (some ⟨11, 255, none, none⟩)) 0 = 0 ∧
    (ok none4 0 ∧ (verdictOf bank59 none4).top = 0) ∧
    (ok early 3 ∧ 0 < (verdictOf bank59 early).top ∧ (verdictOf bank59 early).margin < bank59.table.minMargin) ∧
    (ok late 3 ∧ bank59.table.minScore ≤ (verdictOf bank59 late).top ∧
      bank59.table.minMargin ≤ (verdictOf bank59 late).margin) := by decide +kernel

/-- Decision_sets_flags_and_destination: an override, DEGRADED, CONFLICT, and neither. -/
theorem test_decision_witness :
    let r := rec74
    let s := withPort .s0 (fun p => { p with enabled := true, state := .silent }) State.reset
    let k := { State.reset.banks.data.a with
      table := { State.reset.banks.data.a.table with rows := List.replicate 16 ⟨.pass, 0, .metal⟩ } }
    let c := { State.reset with banks := { State.reset.banks with data := ⟨k, k⟩ } }
    let q := { r with evidence := (⟨none, none, none, some ⟨0, 0, none, some false⟩⟩ : PerStation (Option Entry)) }
    ({ r with ovr := some .pass } : Record).ovr = some .pass ∧ r.ovr = none ∧ (decideRecord s r).flags.degraded = true ∧
    (decideRecord c q).flags.degraded = false ∧ (decideRecord c q).flags.conflict = true ∧
    (decideRecord State.reset r).flags.degraded = false ∧ (decideRecord State.reset r).flags.conflict = false := by
  decide +kernel

/-- Arming_refused_and_guarded: a bar that is not READY, a set one too wide, every nozzle under OFF; a suppression, as in
7.4. -/
theorem test_arming_refused_witness :
    let on := (withBar .bar0 (barOn 12000 1024) State.reset).bar .bar0
    let off := { on with zones := on.zones.set 0 ⟨38, 49, .off, false⟩ }
    (State.reset.bar .bar0).state ≠ .ready ∧ on.state = .ready ∧
    ({ on.settings with maxNoz := 9 } : BarSettings).maxNoz + 1 = min (47 + on.settings.widen) 159 + 1 - (40 - on.settings.widen) ∧
    min (47 + on.settings.widen) 159 + 1 - (40 - on.settings.widen) ≤ on.settings.maxNoz ∧
    (∀ n ∈ List.range' 39 10, keyAt off.zones n = .off) ∧ keyAt on.zones 39 ≠ .off := by decide +kernel

/-- A and C of 7.4 at the guarded bar 1, with the banks' ranks 1 and 6. -/
def guardCase (first : Nat) : State :=
  let a := recAt (.committed ⟨8, 9, 9⟩ .bar1) 2000000 2000200 60 69
  let c := recAt (.committed ⟨5, 9, 9⟩ .bar2) 2000150 2000400 first 75
  let rows := ((List.replicate 16 (⟨.pass, 0, .either⟩ : DestEntry)).set 8 ⟨.bar .bar1, 1, .either⟩).set 5 ⟨.bar .bar2, 6, .either⟩
  let k := { BankData.atRelease with table := { BankData.atRelease.table with rows := rows } }
  withBar .bar1 (fun u => { barOn 16000 1024 u with settings := { (barOn 16000 1024 u).settings with guarded := true } })
    { runAt 2014976 with
      ft := { State.reset.ft with live := [⟨1, a⟩, ⟨2, c⟩] }, banks := { State.reset.banks with data := ⟨k, k⟩ } }

/-- 7.4, a suppression at a guarded bar: C of rank 6 suppresses A of rank 1, and does not with lanes 72 to 75; A's arming
leaves it PASSING with SUPPRESSED. -/
theorem test_suppression :
    let a := recAt (.committed ⟨8, 9, 9⟩ .bar1) 2000000 2000200 60 69
    (guardCase 70).isSuppressed .bar1 1 a = true ∧ (guardCase 72).isSuppressed .bar1 1 a = false ∧
    (((guardCase 70).arm 1 a ⟨8, 9, 9⟩ .bar1).ft.find 1).map (·.st) = some (.passing ⟨8, 9, 9⟩ (.bar .bar1) .suppressed) := by
  decide +kernel

/-- Arming_commits_or_finds_a_nozzle_full: the normal arming, and nozzle 44 full; a late one with a WATCH lane. -/
theorem test_arming_witness :
    let s := withLive rec74 (withBar .bar0 (barOn 12000 1024) (withBpu (fun b => { b with V := 393 }) (runAt 1010976)))
    let f := withBar .bar0
      (fun u => u.modNozzle 44 fun n => { n with ivals := List.replicate 4 ⟨1011900, 1011990, ⟨9, 0⟩⟩ }) s
    let l := withBar .bar0 (fun u => { u with zones := u.zones.set 0 ⟨46, 46, .watch, false⟩ })
      (withBpu (fun b => { b with T := 1011964 }) s)
    let ok := fun u : State => (u.bar .bar0).state = .ready ∧ u.isSuppressed .bar0 0 rec74 = false ∧
      nozzleCount (u.bar .bar0).settings rec74 ≤ (u.bar .bar0).settings.maxNoz ∧ committedSet (u.bar .bar0) rec74 ≠ [] ∧
      (u.bar .bar0).nozzles.length = 160
    (ok s ∧ ∀ n ∈ committedSet (s.bar .bar0) rec74, ((s.bar .bar0).nozzle n).ivals.length < 4) ∧
    (ok f ∧ ∃ n ∈ committedSet (f.bar .bar0) rec74, 4 ≤ ((f.bar .bar0).nozzle n).ivals.length) ∧
    (ok l ∧ (∀ n ∈ committedSet (l.bar .bar0) rec74, ((l.bar .bar0).nozzle n).ivals.length < 4) ∧
      ((l.armingTold .bar0 0 rec74).bar .bar0).lateFire = 1 ∧ (l.armingTold .bar0 0 rec74).lc.pendingSet = 0x300) := by
  decide +kernel

/-- The order of an interval list in Arming_commits_or_finds_a_nozzle_full, across the wrap: an equal fire-on stands after. -/
theorem test_interval_order_witness :
    let at_ := fun slot on => (⟨on, 99, ⟨slot, 0⟩⟩ : Interval)
    let list := [at_ 1 4294967295, at_ 2 3, at_ 3 9]
    list.Pairwise (fun x y => behind y.fireOn x.fireOn = false) ∧
    (∀ x ∈ at_ 4 3 :: list, ∀ y ∈ at_ 4 3 :: list, (x.fireOn - y.fireOn).toInt.natAbs < 1048576) ∧
    (insertInterval (at_ 4 3) list).map (·.owner.slot) = [1, 2, 4, 3] := by decide +kernel

/-- The zones in Arming_commits_or_finds_a_nozzle_full: a lane under two zones, governed by the first; one under none. -/
theorem test_governing_witness :
    let zones : List Zone := [⟨0, 9, .watch, false⟩, ⟨20, 29, .off, false⟩, ⟨25, 40, .normal, false⟩]
    zones[1]? = some ⟨20, 29, .off, false⟩ ∧ (∀ y ∈ zones.take 1, ¬(y.first ≤ 25 ∧ 25 ≤ y.last)) ∧
    governing zones 25 = some 1 ∧ (∀ z ∈ zones, ¬(z.first ≤ 41 ∧ 41 ≤ z.last)) ∧ keyAt zones 41 = .normal := by decide

/-- Cut_and_cooling_of_a_nozzle: OPEN, CLOSED and COOLING, covered and not; the zone of the last lane. -/
theorem test_cooling_witness :
    let u := fun (st : NozzleState) (xs : List Interval) =>
      withBar .bar1 (fun b => (barOn 12000 1024 b).modNozzle 159 fun n => { n with st := st, ivals := xs }) (runAt 500140)
    let z := fun (st : NozzleState) xs => ((u st xs).bar .bar1).nozzle (159 : Fin 160)
    (∀ st ∈ [NozzleState.opened, .closed, .cooling], (u st []).pins.inReset = false ∧
      ((u st []).bar .bar1).nozzles.length = 160 ∧ (z st []).st = st) ∧
    ((u .cooling [⟨500140, 500141, ⟨0, 0⟩⟩]).mayOpen .bar1 = true ∧
      ∃ iv ∈ (z .cooling [⟨500140, 500141, ⟨0, 0⟩⟩]).ivals, iv.covers (u .cooling []).bpu.T = true) ∧
    ((u .cooling []).bar .bar1).zones[(0 : Nat)]? = some ⟨0, 159, .normal, false⟩ ∧
    governing ((u .cooling []).bar .bar1).zones 159 = some 0 := by decide +kernel

/-- Valve_Bus_frames: owed and idle; nothing owed; a frame in progress. -/
theorem test_valve_bus_witness :
    let s := withBar .bar0 (fun u => { u with bus := { u.bus with owed := true } }) State.reset
    let t := after (exec (.valveFrameStart .bar0) s)
    s.pins.inReset = false ∧ (s.bar .bar0).bus.owed = true ∧ (s.bar .bar0).bus.sending = none ∧
    (t.bar .bar0).bus.owed = false ∧ (t.bar .bar0).bus.sending ≠ none ∧ t.pins.inReset = false := by decide +kernel

/-- Fault_line_of_a_bar: a READY bar with an ARMED record, one step before its retire line and at it, and waiting in HALTED;
a bar that is not READY. -/
theorem test_fault_line_witness :
    let due := fun u : State => u.running && ((u.retireLine armed74.Xt).any fun q => atOrBehind q u.bpu.T)
    (∀ t, t = 1016191 ∨ t = 1016192 → (armedAt t).pins.inReset = false ∧ ((armedAt t).bar .bar0).state = .ready ∧
      TableOk (armedAt t)) ∧
    (TableOk (inMode .halted (armedAt 1016192)) ∧ due (inMode .halted (armedAt 1016192)) = false) ∧
    due (armedAt 1016191) = false ∧ due (armedAt 1016192) = true ∧
    (armedAt 0).ft.live.filter (fun l => (l.record.st.schedule.map (·.bar)) == some .bar0) = [⟨0, armed74⟩] ∧
    (State.reset.bar .bar0).state ≠ .ready := by
  refine ⟨?_, ⟨tableOk_of (by decide +kernel), by decide +kernel⟩, by decide +kernel⟩
  rintro t (rfl | rfl) <;> exact ⟨by decide +kernel, by decide +kernel, tableOk_of (by decide +kernel)⟩

/-- Framing_faults_and_sent_replies: a start mark at a hunting side and at each place of a frame, the last one before its last
byte; each test of the link; 14, 15 and 16 replies waiting, the last place kept or not; an own
and another reply at the head. -/
theorem test_framing_witness :
    let s := fun n (x : Option InProgress) => { State.reset with
      link := { State.reset.link with inProgress := x, replies := List.replicate n ⟨0, .badLength, .empty, false⟩ } }
    let kept : Option InProgress := some ⟨23, false⟩
    let o := after (exec .readNotices State.reset)
    (∀ n ∈ [14, 15, 16], ∀ x ∈ [none, some (⟨23, true⟩ : InProgress), kept], (s n x).pins.inReset = false ∧
      (s n x).link.rx.atStart = true ∧ (s n x).link.inProgress = x ∧ (s n x).link.replies.length = n) ∧
    State.reset.link.rx = .hunting ∧
    (∀ got ∈ [[], [1], [0, 132, 23], [0, 132] ++ List.replicate 133 0],
      ({ State.reset with link := { State.reset.link with rx := .collecting got } } : State).link.rx = .collecting got) ∧
    ((halfOf 0 132).toNat ≤ 132 ∧ (List.replicate 133 (0 : Byte)).length + 1 < (halfOf 0 132).toNat + 3) ∧
    132 < (133 : Half).toNat ∧ ([] : List Byte).length ≤ 132 ∧
    (20 : Half) ≠ requestCheck 19 [] ∧ ((30 : Half) = requestCheck 30 [] ∧ 29 < (30 : Byte).toNat) ∧
    ((1 : Half) = requestCheck 1 [] ∧ lengthOk 1 [] = false) ∧ State.reset.link.replies = [] ∧
    (s 14 none).link.replies = ⟨0, .badLength, .empty, false⟩ :: List.replicate 13 ⟨0, .badLength, .empty, false⟩ ∧
    (o.link.replies.map (·.own) = [true]) := by decide +kernel

/-- Request_answered_BUSY_or_lost: a request in progress with 14 and 15 replies, formed and not, and with 16; 16 replies and
none in progress. -/
theorem test_busy_witness :
    let s := fun n (x : Option InProgress) => { State.reset with
      link := { State.reset.link with inProgress := x, replies := List.replicate n ⟨0, .badLength, .empty, false⟩ } }
    wellFormed .start = true ∧ (requestOf .start).isSome = true ∧
    ∀ n ∈ [14, 15, 16], ∀ x ∈ [none, some (⟨24, true⟩ : InProgress), some ⟨24, false⟩], (s n x).pins.inReset = false ∧
      (s n x).link.rx.atStart = true ∧ (s n x).link.inProgress = x ∧ (s n x).link.replies.length = n := by decide +kernel

/-- Refused_request_changes_nothing: START in CONFIG with no station enabled. -/
theorem test_refused_witness : requestOf .start = some (19, startOp) ∧ (startOp State.reset).2.1 ≠ .ok ∧
    Ready State.reset ∧ wellFormed .start = true := ⟨rfl, by decide +kernel, ready_of (by decide +kernel), by decide⟩

/-- SET_BELT_and_SET_TRACKING: another mode; each bound, and one value beyond. -/
theorem test_belt_and_tracking_witness :
    Ready (replies15 (inMode .run State.reset)) ∧ (inMode .run State.reset).lc.mode ≠ .config ∧
    Ready (replies15 (inMode .config State.reset)) ∧ (inMode .config State.reset).lc.mode = .config ∧
    (let r : BeltRequest := ⟨16, 1023, 1, 1⟩
     1 ≤ r.encDiv.toNat ∧ r.encDiv.toNat ≤ 16 ∧ r.revMax.toNat ≤ 1023 ∧ 1 ≤ r.stallW.toNat ∧ 1 ≤ r.guardW.toNat) ∧
    (let r : BeltRequest := ⟨17, 1023, 1, 1⟩
     ¬(1 ≤ r.encDiv.toNat ∧ r.encDiv.toNat ≤ 16 ∧ r.revMax.toNat ≤ 1023 ∧ 1 ≤ r.stallW.toNat ∧ 1 ≤ r.guardW.toNat)) ∧
    (let q : TrackingRequest := ⟨64, 255, 7, 65535, 4095⟩
     64 ≤ q.lMax.toNat ∧ q.lMax.toNat ≤ 4095 ∧ q.laneTol.toNat ≤ 7 ∧ q.settle.toNat ≤ 4095) ∧
    (let q : TrackingRequest := ⟨63, 255, 7, 65535, 4095⟩
     ¬(64 ≤ q.lMax.toNat ∧ q.lMax.toNat ≤ 4095 ∧ q.laneTol.toNat ≤ 7 ∧ q.settle.toNat ≤ 4095)) :=
  ⟨ready_reset _, by decide, ready_reset _, rfl, by decide, by decide, by decide, by decide⟩

/-- Requests_accepted_in_every_mode, and the reading requests: READY in HALTED, with a live record to look up. -/
theorem test_reading_witness :
    Ready (replies15 (inMode .halted State.reset)) ∧
    (let s := withLive rec74 State.reset
     Ready s ∧ (3 : Byte).toNat = stationNo .s3 ∧ (1 : Byte).toNat = Bank.b.no ∧ (0 : Half).toNat < 1024 ∧
     s.ft.find (0 : Half).toNat = some rec74 ∧ s.ft.gen (0 : Half).toNat = 0 ∧ behind (1048575 : Pos) 0 = false ∧
     stepsTo 0 1048575 < 1048576 ∧ (159 : Byte).toNat ≤ 159 ∧ 1 ≤ (16 : Byte).toNat ∧ (16 : Byte).toNat ≤ 16 ∧
     (5 : Byte).toNat = RecOutcome.forgotten.no) :=
  ⟨ready_reset _, ready_of (by decide +kernel), by decide +kernel⟩

/-- SET_STATION_by_mode_and_range: HALTED; each value out of range; D_s changed in RUN, and kept; enabling in CONFIG. -/
theorem test_station_witness :
    Ready (replies15 (inMode .halted State.reset)) ∧ Ready (s1Up 0) ∧ (s1Up 0).lc.mode ≠ .halted ∧ (s1Up 0).running = true ∧
    3 < (4 : Byte).toNat ∧ 1 < (2 : Byte).toNat ∧ 15 < (16 : Byte).toNat ∧ (255 : Half).toNat < 256 ∧
    (1 : Byte).toNat = stationNo .s1 ∧ (1 : Byte).toNat = (if true then 1 else 0) ∧ (15 : Byte).toNat ≤ 15 ∧
    256 ≤ (256 : Half).toNat ∧ ((s1Up 0).port .s1).D ≠ (3001 : Half).toNat ∧
    (((s1Up 0).port .s1).enabled = true ∧ ((s1Up 0).port .s1).D = (3000 : Half).toNat) ∧
    (inMode .config State.reset).running = false :=
  ⟨ready_reset _, ready_of (by decide +kernel), by decide +kernel⟩

/-- Bank_writes_in_order: HALTED; out of range; the active bank, the switch's target, a bank records name; a free bank. -/
theorem test_bank_witness :
    let s := State.reset
    let w := { s with banks := { s.banks with pendingSwitch := some ⟨.b, 9⟩ } }
    let n := { s with banks := { s.banks with refs := ⟨0, 1⟩ } }
    let r : DestinationsRequest := ⟨1, List.replicate 16 ⟨3, 7, 2⟩, 15300, 15300, 3, 3⟩
    Ready (replies15 (inMode .halted s)) ∧ Ready s ∧ Ready w ∧ Ready n ∧ s.lc.mode ≠ .halted ∧
    ([(⟨15, 15⟩ : ClassRow)].length ≤ 64 ∧ r.rows.length = 16 ∧ r.bank = 1 ∧ (1 : Byte).toNat = Bank.b.no ∧
      (0 : Byte).toNat = Bank.a.no ∧ (3 : Byte).toNat = stationNo .s3 ∧ (63 : Byte).toNat + 1 ≤ 64 ∧
      64 < (64 : Byte).toNat + 1 ∧ (destTableOf r).isSome = true ∧ destTableOf { r with minScore := 15301 } = none) ∧
    s.banks.active = .a ∧ (w.banks.active ≠ .b ∧ w.banks.pendingSwitch = some ⟨.b, 9⟩) ∧
    (n.banks.active ≠ .b ∧ n.banks.pendingSwitch = none ∧ 0 < n.banks.refs.get .b) ∧
    (s.banks.active ≠ .b ∧ s.banks.pendingSwitch = none ∧ s.banks.refs.get .b = 0) :=
  ⟨ready_reset _, ready_of (by decide +kernel), ready_of (by decide +kernel), ready_of (by decide +kernel), by decide +kernel⟩

/-- Locked_bank_keeps_its_contents: the active bank, a bank records name, the target of a switch. -/
theorem test_locked_witness :
    Instr.start ≠ .resetPin ∧ (∃ t, exec .start State.reset = .next t) ∧ State.reset.banks.active = .a ∧
    0 < (withLive rec74 State.reset).banks.refs.get .a ∧
    (∃ w, ({ State.reset with banks := { State.reset.banks with pendingSwitch := some ⟨.b, 9⟩ } } : State).banks.pendingSwitch
      = some w ∧ w.target = .b) := ⟨by decide, ⟨_, rfl⟩, rfl, by decide +kernel, ⟨_, rfl, rfl⟩⟩

/-- SWITCH_BANK_by_mode: HALTED; no bank, the active bank; a switch pending; CONFIG; C one step and 2^20 − 1 steps ahead, at
T and beyond. -/
theorem test_switch_witness :
    let w := { State.reset with banks := { State.reset.banks with pendingSwitch := some ⟨.b, 9⟩ } }
    let s := runAt 4294967295
    Ready (replies15 (inMode .halted State.reset)) ∧ Ready State.reset ∧ Ready w ∧ Ready s ∧
    1 < (2 : Byte).toNat ∧ (0 : Byte).toNat = State.reset.banks.active.no ∧ (1 : Byte).toNat = Bank.b.no ∧
    w.banks.pendingSwitch.isSome = true ∧ w.banks.active ≠ .b ∧ State.reset.lc.mode = .config ∧
    s.banks.active ≠ .b ∧ s.banks.pendingSwitch = none ∧ s.running = true ∧
    (1 = ((0 : Pos) - s.bpu.T).toNat ∧ ((1048574 : Pos) - s.bpu.T).toNat = 1048575) ∧
    ((4294967295 : Pos) = s.bpu.T ∧ 1048575 < ((1048575 : Pos) - s.bpu.T).toNat) :=
  ⟨ready_reset _, ready_of (by decide +kernel), ready_of (by decide +kernel), ready_of (by decide +kernel), by decide +kernel⟩

/-- A SET_BAR with every value at a bound. -/
def barReq : BarRequest := ⟨2, 1, 65535, 4095, 20000, 20000, 255, 255, 3, 64, 1, 100000, 50000⟩

/-- SET_BAR_writes_settings_and_state: another mode; a bar number out of range; every value at a bound; an active fault
line. -/
theorem test_set_bar_witness :
    let f := { State.reset with pins := { State.reset.pins with faultLines := ⟨false, false, true⟩ } }
    Ready (replies15 (inMode .run State.reset)) ∧ Ready State.reset ∧ Ready f ∧
    (inMode .run State.reset).lc.mode ≠ .config ∧ State.reset.lc.mode = .config ∧ 2 < (3 : Byte).toNat ∧
    (barReq.bar.toNat = barNo .bar2 ∧ barReq.enabled.toNat = (if true then 1 else 0) ∧
      barReq.guarded.toNat = (if true then 1 else 0) ∧ 16 ≤ barReq.A.toNat ∧ barReq.A.toNat ≤ 4095 ∧
      barReq.tOpen.toNat ≤ 20000 ∧ barReq.tClose.toNat ≤ 20000 ∧ barReq.widen.toNat ≤ 3 ∧ 1 ≤ barReq.maxNoz.toNat ∧
      barReq.maxNoz.toNat ≤ 64 ∧ 1000 ≤ barReq.maxon.toNat ∧ barReq.maxon.toNat ≤ 100000 ∧ barReq.minoff.toNat ≤ 50000) ∧
    State.reset.pins.faultLines.get .bar2 = false ∧ (∀ n ∈ (State.reset.bar .bar2).nozzles, n.st ≠ .opened) ∧
    (f.lc.mode = .config ∧ f.ft.live = [] ∧ (f.bar .bar2).state = .disabled ∧ f.pins.faultLines.get .bar2 = true ∧
      ∃ st, settingsOf barReq = some st ∧ st.enabled = true) :=
  ⟨ready_reset _, ready_of (by decide +kernel), ready_of (by decide +kernel), by decide, by decide, by decide,
    by decide, by decide +kernel, by decide +kernel, by decide +kernel, by decide +kernel, by decide +kernel,
    by decide +kernel, ⟨true, 65535, 4095, 20000, 20000, 255, 255, 3, 64, true, 100000, 50000⟩, by decide, rfl⟩

/-- SET_ZONE_and_ENABLE_BAR: HALTED; a bar out of range, zone 8; zone 7 over lane 159; a bar DISABLED, READY, FAULTED with
its line active and inactive. -/
theorem test_zone_witness :
    let z := State.reset
    let on := withBar .bar0 (barOn 12000 1024) z
    let fl := withBar .bar0 (fun u => { u with state := .faulted }) z
    let fa := { fl with pins := { fl.pins with faultLines := ⟨true, false, false⟩ } }
    Ready (replies15 (inMode .halted z)) ∧ Ready z ∧ Ready on ∧ Ready fl ∧ Ready fa ∧
    (z.bar .bar0).zones.length = 8 ∧ 2 < (3 : Byte).toNat ∧ z.lc.mode ≠ .halted ∧
    ((0 : Byte).toNat = barNo .bar0 ∧ 7 < (8 : Byte).toNat) ∧
    ((z.bar .bar0).zones[(7 : Byte).toNat]? = some ⟨0, 159, .normal, false⟩ ∧ (159 : Byte).toNat ≤ 159 ∧
      (2 : Byte).toNat = 2) ∧
    (z.bar .bar0).state = .disabled ∧ (on.bar .bar0).state = .ready ∧
    ((fa.bar .bar0).state = .faulted ∧ fa.pins.faultLines.get .bar0 = true) ∧
    ((fl.bar .bar0).state = .faulted ∧ fl.pins.faultLines.get .bar0 = false ∧
      ∀ n ∈ (fl.bar .bar0).nozzles, n.st ≠ .opened ∧ n.ivals = []) :=
  ⟨ready_reset _, ready_of (by decide +kernel), ready_of (by decide +kernel), ready_of (by decide +kernel),
    ready_of (by decide +kernel), by decide +kernel⟩

/-- Handles_and_ranges_refused: slot 1,024; a free slot; another generation; each range one beyond. -/
theorem test_handle_witness :
    Ready State.reset ∧ 1024 ≤ (1024 : Half).toNat ∧ (1023 : Half).toNat < 1024 ∧
    State.reset.ft.find (1023 : Half).toNat = none ∧
    (withLive rec74 State.reset).ft.gen (0 : Half).toNat ≠ 1 ∧ 3 < (4 : Byte).toNat ∧ 1 < (2 : Byte).toNat ∧
    4 < (5 : Byte).toNat ∧ behind (0 : Pos) 1 = true ∧ 1048576 ≤ stepsTo 0 1048576 ∧ 159 < (160 : Byte).toNat ∧
    16 < (17 : Byte).toNat ∧ 5 < (6 : Byte).toNat := ⟨ready_of (by decide +kernel), by decide +kernel⟩

/-- OVERRIDE_of_a_live_record: another mode, no destination; past the freeze; OPEN; DECIDED. -/
theorem test_override_witness :
    let ok := fun (st : RecState) => let r := recAt st 0 180 40 47; let s := withLive r (runAt 9)
      Ready s ∧ (0 : Half).toNat < 1024 ∧ s.ft.find (0 : Half).toNat = some r ∧ s.ft.gen (0 : Half).toNat = 0 ∧ TableOk s ∧
        s.running = true
    ok .opened ∧ ok (.decided ⟨0, 0, 0⟩ .pass) ∧ ok (.committed ⟨0, 0, 0⟩ .bar0) ∧ 3 < (4 : Byte).toNat ∧
    (3 : Byte).toNat = Dest.pass.no ∧
    (let s := inMode .halted (withLive rec74 (runAt 9)); Ready s ∧ s.running = false ∧ s.ft.find (0 : Half).toNat = some rec74) := by
  refine ⟨?_, ?_, ?_, by decide, by decide, ready_of (by decide +kernel), by decide +kernel⟩ <;>
    exact ⟨ready_of (by decide +kernel), by decide, by decide +kernel, by decide +kernel, tableOk_of (by decide +kernel),
      by decide +kernel⟩

/-- FORGET_of_a_live_record: an ARMED record in RUN, and the last and another one in DRAINING; HALTED. -/
theorem test_forget_witness :
    let s := armedAt 1010976
    let n := withLive rec74 (runAt 9)
    let d := fun live => inMode .draining { s with ft := { s.ft with liveCount := live } }
    (∀ u, u = s ∨ u = d 1 ∨ u = d 2 → Ready u ∧ u.ft.find (0 : Half).toNat = some armed74 ∧ u.ft.gen (0 : Half).toNat = 0 ∧
      u.running = true) ∧
    (0 : Half).toNat < 1024 ∧ s.lc.mode = .run ∧ ((d 1).lc.mode = .draining ∧ (d 1).ft.liveCount = 1) ∧
    2 ≤ (d 2).ft.liveCount ∧ (Ready n ∧ n.ft.find (0 : Half).toNat = some rec74) ∧
    (Ready (inMode .halted s) ∧ (inMode .halted s).running = false) := by
  refine ⟨?_, by decide, by decide, by decide +kernel, by decide, ⟨ready_of (by decide +kernel), by decide +kernel⟩,
    ready_of (by decide +kernel), by decide⟩
  rintro u (rfl | rfl | rfl) <;> exact ⟨ready_of (by decide +kernel), by decide +kernel⟩

/-- INSERT_creates_a_decided_record: another mode; no destination; the freeze point at T, one step ahead of it with and
without a free slot, and 2^20 steps ahead. -/
theorem test_insert_witness :
    let s := fun t => withBar .bar0 (barOn 12000 1024) (runAt t)
    let e := { s 1010975 with ft := { (s 1010975).ft with freeList := [] } }
    let X : Pos := 1000000
    let freeze : Pos := X + BitVec.ofNat 32 12000 - BitVec.ofNat 32 1024
    Ready State.reset ∧ State.reset.lc.mode ≠ .run ∧ Ready (s 1010975) ∧ (s 1010975).lc.mode = .run ∧
    (s 1010975).lowBar = some .bar0 ∧ ((s 1010975).bar .bar0).settings.E = 12000 ∧
    ((s 1010975).bar .bar0).settings.A = 1024 ∧ 3 < (4 : Byte).toNat ∧ (s 1010975).tracking.lMax < 2147483648 ∧
    (3 : Byte).toNat = Dest.pass.no ∧ atOrAhead (X + 2048) X = true ∧ stepsTo X (X + 2048) ≤ (s 1010975).tracking.lMax ∧
    (159 : Byte).toNat ≤ 159 ∧ atOrBehind freeze (s 1010976).bpu.T = true ∧ ahead freeze (s 1010975).bpu.T = true ∧
    stepsTo (s 1010975).bpu.T freeze < 1048576 ∧ e.ft.freeList = [] ∧
    (s 1010975).ft.freeList = 0 :: List.range' 1 1023 ∧ (∀ l ∈ (s 1010975).ft.live, l.slot ≠ 0) ∧
    (ahead freeze (freeze - 1048576) = true ∧ 1048576 ≤ stepsTo (freeze - 1048576) freeze) :=
  ⟨ready_of (by decide +kernel), by decide, ready_of (by decide +kernel), by decide +kernel⟩

/-- A line whose geometry holds, with equality in conditions 4 and 5. -/
def geometry : State :=
  withBar .bar1 (barOn 9000 1900) (withBar .bar0 (barOn 8000 900)
    (withPort .s0 (fun p => { p with enabled := true, D := 2940, state := .waiting }) State.reset))

/-- The geometry check passes at equality, and fails one step beyond. -/
theorem test_geometry_at_equality :
    geometry.geometryOk = true ∧
      (withPort .s0 (fun p => { p with D := 2941 }) geometry).geometryOk = false ∧
      (withBar .bar1 (barOn 9000 1901) geometry).geometryOk = false := by decide +kernel

/-- START_and_STOP_by_mode: each mode; in RUN with and without live records; in CONFIG past REV_MAX, without and with the
geometry; nozzles that stand as their open condition asks. -/
theorem test_start_witness :
    (∀ m, Ready (replies15 (inMode m State.reset))) ∧ (withLive rec74 (runAt 9)).ft.liveCount ≠ 0 ∧
    ((runAt 9).ft.liveCount = 0 ∧ (runAt 9).Evaluated) ∧
    (let s := withBpu (fun b => { b with T := 257 }) State.reset; s.bpu.revMax < (s.bpu.T - s.bpu.P).toNat) ∧
    (let s := withBpu (fun b => { b with T := 256 }) State.reset
     (s.bpu.T - s.bpu.P).toNat ≤ s.bpu.revMax ∧ s.geometryOk = false ∧ s.lc.mode = .config) ∧
    Ready geometry ∧ geometry.geometryOk = true ∧ geometry.lc.mode = .config ∧ geometry.Evaluated :=
  ⟨ready_reset, by decide +kernel, ⟨by decide +kernel, evaluated_of (by decide +kernel)⟩, by decide +kernel,
    by decide +kernel, ready_of (by decide +kernel), by decide +kernel, by decide +kernel, evaluated_of (by decide +kernel)⟩

/-- RESET_request: a live line; a slot with a generation, live at most once. -/
theorem test_reset_witness :
    let s := withLive rec74 (runAt 9)
    Ready s ∧ 1023 < s.ft.gens.length ∧ (s.ft.live.filter fun l => l.slot == 0).length ≤ 1 :=
  ⟨ready_of (by decide +kernel), by decide +kernel⟩

/-- Request_frames_decode_to_their_request: a FIND; a hunting side, and one at each place of a frame, the last one before its
last byte; a length of 132 and of 133. -/
theorem test_request_frame_witness :
    wellFormed (.find 0 9 1 2) = true ∧ requestFrame (.find 0 9 1 2) = some (14, [0, 0, 0, 0, 0, 0, 0, 9, 1, 2]) ∧
    State.reset.pins.inReset = false ∧ State.reset.link.rx = .hunting ∧
    (∀ got ∈ [[], [0], [0, 1], [0, 1, 28, 5, 0]],
      ({ State.reset with link := { State.reset.link with rx := .collecting got } } : State).link.rx = .collecting got) ∧
    (halfOf 0 132).toNat = 132 ∧ 132 < (halfOf 0 133).toNat ∧ ([28, 5] : List Byte).length + 1 < (halfOf 0 1).toNat + 3 ∧
    ([28, 5, 0] : List Byte) = 28 :: [5] ++ [0] ∧ ([5] : List Byte).length = (halfOf 0 1).toNat := by decide +kernel

/-- Station_frames_decode_to_their_frame: a receiver at each place of a frame, the last one before its last byte; a kind
that fits a length of 17 and one that does not. -/
theorem test_station_frame_witness :
    State.reset.pins.inReset = false ∧ (State.reset.port .s1).rx = .hunting ∧
    (∀ got ∈ [[], [6], [6, 1, 9], [6, 1] ++ List.replicate 7 0],
      ((withPort .s1 (fun p => { p with rx := .collecting got }) State.reset).port .s1).rx = .collecting got) ∧
    ((2 : Byte) = 2 ∧ 14 ≤ (17 : Byte).toNat ∧ (17 : Byte).toNat ≤ 17) ∧ (1 : Byte) ≠ 2 ∧ (17 : Byte) ≠ 6 ∧
    ([9] : List Byte).length + 1 < (6 : Byte).toNat + 2 ∧
    (List.replicate 7 0 : List Byte) = List.replicate 6 0 ++ [0] ∧ (List.replicate 6 (0 : Byte)).length = (6 : Byte).toNat := by
  decide +kernel

/-- Reply_bodies_have_the_table_lengths: sixteen handles, 64 entries, 16 rows. -/
theorem test_reply_length_witness :
    (List.replicate 16 (⟨0, 0⟩ : Handle)).length ≤ 16 ∧ State.reset.banks.data.a.classMap.s0.length = 64 ∧
      BankData.atRelease.table.rows.length = 16 := by decide +kernel

/-- Empty_queue_takes_a_due_event_or_a_microsecond: nothing due right after reset; a window at its last microsecond; a frame
that waits for it and one that does not; the start and the end of a pulse; a take, and none in CONFIG. -/
theorem test_clock_witness :
    let s := withBpu (fun b => { b with windowTime := 8192 }) State.reset
    let f := fun n => withBar .bar0 (fun u => { u with bus := { u.bus with owed := true, refresh := n } }) s
    State.reset.pending = [] ∧ State.reset.pins.inReset = false ∧ State.reset.dueEvents = [] ∧ s.pending = [] ∧
      s.pins.inReset = false ∧ s.dueEvents = [.windowEnd] ∧ (f 1024).dueEvents = [.windowEnd] ∧
      (f 1023).dueEvents = [.windowEnd, .valveFrameStart .bar0] ∧
      (let p := fun lclk => withBpu (fun b => { b with owed := 1, lclk := lclk, lclkHeld := 1 }) State.reset
       (p false).dueEvents = [.lclkPulseStart] ∧ (p true).dueEvents = [.lclkPulseEnd]) ∧
      (let q := served (detAt 0 9 1 2) (runAt 0); q.dueEvents = [.assocTake] ∧ (inMode .config q).dueEvents = []) := by
  decide +kernel

/-- The state right after reset with one command in its queue, for the statements about what every step keeps. -/
def one : State := { State.reset with pending := [.start] }

/-- It has a next state. -/
theorem test_step_witness : ∃ t, step one = .next t := ⟨_, rfl⟩

/-- Step_keeps_Line_Control_in_order. -/
theorem test_line_witness : LineOk one.lc where
  attn := by decide
  faultLine := by decide
  condition := by decide
  capture _ := rfl
  later c h := by cases h
  tallies o := by cases o <;> decide

/-- Step_keeps_the_belt_in_bounds. -/
theorem test_belt_witness : BeltOk one where
  encDiv := by decide
  sub := by decide
  depth := by decide
  revMax := by decide
  run := by decide
  guardIdle := by decide
  guardMove := by decide
  pulse := by decide
  reference := by decide
  counts := by decide

/-- Step_keeps_the_ports_in_order. -/
theorem test_ports_witness : PortsOk one where
  port p := by
    cases p <;> exact
      { state := by decide, base := by decide, settings := by decide, queue := by decide, holdHigh := by decide
        holdLow := by decide, entries := fun d h => (List.not_mem_nil h).elim, silence := by decide
        collected := (fun _ _ _ h => nomatch h), counters := by decide }
  config _ p := by cases p <;> rfl

/-- Step_keeps_the_link_in_order. -/
theorem test_link_witness : LinkOk one.link where
  room := by decide
  own := by decide
  formed r h := by cases h
  collected hi lo rest h := by cases h

/-- Step_keeps_the_table_in_order. -/
theorem test_table_witness : TableOk one where
  count := rfl
  slots := by
    have h : one.ft.live.map (·.slot) ++ one.ft.freeList = List.range 1024 := by decide +kernel
    exact h ▸ List.Perm.refl _
  gens := List.length_replicate
  refs k := by cases k <;> rfl
  config _ := rfl
  switch w h := by cases h

/-- A record as long as L_MAX on every lane, across the wrap. -/
def longRec : Record := recAt .opened 4294967295 2047 0 159

/-- Step_keeps_the_records_in_bounds: such a record of a running line whose geometry holds, with one command in the queue. -/
theorem test_records_witness :
    let s : State := { withLive longRec (inMode .run geometry) with pending := [.start] }
    TableOk s ∧ PortsOk s ∧ RecordsOk s ∧ ∃ t, step s = .next t := by
  refine ⟨tableOk_of (by decide +kernel), ⟨fun p => ?_, fun h => by cases h⟩, ⟨by decide, ?_, fun _ => by decide +kernel⟩,
    ⟨_, rfl⟩⟩
  · cases p <;> exact
      { state := by decide, base := by decide, settings := by decide, queue := by decide, holdHigh := by decide
        holdLow := by decide, entries := fun d h => (List.not_mem_nil h).elim, silence := by decide
        collected := (fun _ _ _ h => nomatch h), counters := by decide }
  · intro l hl
    obtain rfl : l = ⟨0, longRec⟩ := List.mem_singleton.1 hl
    exact
      { length := by decide, lanes := by decide, opened := by decide, passing := fun v d o h => by cases h
        verdict := fun v h => by cases h }

/-- Step_keeps_nozzles_open_only_in_condition. -/
theorem test_bars_witness : BarsOk one where
  bar b := by
    cases b <;> exact
      { state := by decide, ranges := settingsOk_of (by decide), count := by decide +kernel
        nozzles := fun n h => by
          obtain rfl : n = Nozzle.atRelease := List.eq_of_mem_replicate h
          exact { opens := by decide, ivals := by decide, counter := by decide, limit := by decide, timer := by decide }
        zones := by decide }

/-- Step_keeps_intervals_owned_by_armed_records. -/
theorem test_owners_witness : OwnersOk one where
  ordered b n h iv hv := by
    obtain rfl : n = Nozzle.atRelease := by cases b <;> exact List.eq_of_mem_replicate h
    cases hv
  owned b n h iv hv := by
    obtain rfl : n = Nozzle.atRelease := by cases b <;> exact List.eq_of_mem_replicate h
    cases hv

end Sys2Proof.Tests
end

