-- ==== Sys2Proof/Proofs/PartMove.lean ====
section
/-! SUPPORT. What the events of records and stations within one event of the part leave alone: the relation PartMove. -/

namespace Sys2Proof.Machine

/-! ### Bars that differ in their intervals -/

/-- A nozzle with its intervals left out of account. -/
def Nozzle.bare (n : Nozzle) : Nozzle := { n with ivals := [] }

/-- A bar that differs from another at most in the intervals of its nozzles and in its count of late armings. -/
structure BarUnit.SameButIvals (u u' : BarUnit) : Prop where
  settings  : u'.settings = u.settings
  zones     : u'.zones = u.zones
  state     : u'.state = u.state
  maxonCuts : u'.maxonCuts = u.maxonCuts
  bus       : u'.bus = u.bus
  nozzles   : u'.nozzles.map Nozzle.bare = u.nozzles.map Nozzle.bare

theorem BarUnit.SameButIvals.refl (u : BarUnit) : u.SameButIvals u := ⟨rfl, rfl, rfl, rfl, rfl, rfl⟩

theorem BarUnit.SameButIvals.trans {u v w : BarUnit} (h : u.SameButIvals v) (k : v.SameButIvals w) : u.SameButIvals w :=
  ⟨k.settings.trans h.settings, k.zones.trans h.zones, k.state.trans h.state, k.maxonCuts.trans h.maxonCuts,
    k.bus.trans h.bus, k.nozzles.trans h.nozzles⟩

theorem BarUnit.SameButIvals.length {u v : BarUnit} (h : u.SameButIvals v) : v.nozzles.length = u.nozzles.length := by
  simpa using congrArg List.length h.nozzles

/-- The nozzles of such bars agree place by place but for their intervals. -/
theorem BarUnit.SameButIvals.nozzle_bare {u v : BarUnit} (h : u.SameButIvals v) (m : Nat) :
    (v.nozzle m).bare = (u.nozzle m).bare := by
  have hm := congrArg (fun ns => ns.getD m Nozzle.atRelease.bare) h.nozzles
  simp only [List.getD_map] at hm
  exact hm

theorem BarUnit.SameButIvals.nozzle_st {u v : BarUnit} (h : u.SameButIvals v) (m : Nat) :
    (v.nozzle m).st = (u.nozzle m).st := (congrArg Nozzle.st (h.nozzle_bare m) :)

theorem BarUnit.without_sameButIvals (u : BarUnit) (h : Handle) : u.SameButIvals (u.without h) := by
  refine ⟨rfl, rfl, rfl, rfl, rfl, ?_⟩
  simp [Function.comp_def, Nozzle.bare, Nozzle.without]

theorem BarUnit.place_sameButIvals (u : BarUnit) (set : List Nat) (iv : Interval) : u.SameButIvals (u.place set iv) := by
  refine ⟨rfl, rfl, rfl, rfl, rfl, ?_⟩
  have hb : ∀ ni : Nozzle × Nat, Nozzle.bare
      (if set.contains ni.2 then { ni.1 with ivals := insertInterval iv ni.1.ivals } else ni.1) = Nozzle.bare ni.1 := by
    intro ni; split <;> rfl
  rw [BarUnit.place_nozzles, List.map_map]
  calc u.nozzles.zipIdx.map _ = u.nozzles.zipIdx.map (Nozzle.bare ∘ Prod.fst) := List.map_congr_left fun ni _ => hb ni
    _ = u.nozzles.map Nozzle.bare := by rw [← List.map_map, List.zipIdx_map_fst]

/-! ### The relation -/

/-- What the events of records, and stations falling silent, leave alone within one event of the part. The belt and the
mode stay but for the completion of a drain (R151); ports lose at most their queue to it, or fall silent with a notice
(R21); bars change their intervals alone; notices are only added. -/
structure State.PartMove (s t : State) : Prop where
  pins     : t.pins = s.pins
  tracking : t.tracking = s.tracking
  ae       : t.ae = s.ae
  link     : t.link = s.link
  data     : t.banks.data = s.banks.data
  active   : t.banks.active = s.banks.active
  switch   : t.banks.pendingSwitch = s.banks.pendingSwitch
  line     : t.bpu = s.bpu ∧ t.lc.mode = s.lc.mode ∨ t.bpu = { s.bpu with G := 0 } ∧ t.lc.mode = .config
  mask     : t.lc.mask = s.lc.mask
  notices  : ∀ k, s.lc.pendingSet.getLsbD k = true → t.lc.pendingSet.getLsbD k = true
  port     : ∀ p, t.port p =
    { s.port p with state := (t.port p).state, queue := (t.port p).queue, hold := (t.port p).hold }
  queue    : ∀ p, (t.port p).queue = (s.port p).queue ∨ (t.port p).queue = []
  silent   : ∀ p, (t.port p).state = (s.port p).state ∨
    (t.port p).state = .silent ∧ (s.port p).fallsSilent = true ∧ t.lc.pendingSet.getLsbD 1 = true
  bars     : ∀ b, (s.bar b).SameButIvals (t.bar b)

theorem State.PartMove.refl (s : State) : s.PartMove s :=
  ⟨rfl, rfl, rfl, rfl, rfl, rfl, rfl, .inl ⟨rfl, rfl⟩, rfl, fun _ h => h, fun _ => rfl, fun _ => .inl rfl, fun _ => .inl rfl,
    fun _ => .refl _⟩

theorem State.PartMove.silence {s t : State} (h : s.PartMove t) (p : Station) :
    (t.port p).silence = (s.port p).silence := by rw [h.port p]

theorem State.PartMove.silentSteps {s t : State} (h : s.PartMove t) (p : Station) :
    (t.port p).silentSteps = (s.port p).silentSteps := by rw [h.port p]

/-- Only a station that is still UP can fall silent later in the same event. -/
theorem State.PartMove.fallsSilent_iff {s t : State} (h : s.PartMove t) (p : Station) :
    (t.port p).fallsSilent = true ↔ (s.port p).fallsSilent = true ∧ (t.port p).state = (s.port p).state := by
  simp only [Port.fallsSilent, h.silence p, h.silentSteps p, Bool.and_eq_true, beq_iff_eq]
  rcases h.silent p with e | ⟨e, hf, -⟩
  · simp [e]
  · simp only [Port.fallsSilent, Bool.and_eq_true, beq_iff_eq] at hf
    simp [e, hf.1]

theorem State.PartMove.trans {s t u : State} (h : s.PartMove t) (k : t.PartMove u) : s.PartMove u where
  pins := k.pins.trans h.pins
  tracking := k.tracking.trans h.tracking
  ae := k.ae.trans h.ae
  link := k.link.trans h.link
  data := k.data.trans h.data
  active := k.active.trans h.active
  switch := k.switch.trans h.switch
  line := by
    rcases h.line with ⟨hb, hm⟩ | ⟨hb, hm⟩ <;> rcases k.line with ⟨kb, km⟩ | ⟨kb, km⟩ <;> rw [kb, km, hb] <;>
      simp [hm]
  mask := k.mask.trans h.mask
  notices j hj := k.notices j (h.notices j hj)
  port p := by rw [k.port p, h.port p]
  queue p := by
    rcases k.queue p with e | e
    · rw [e]; exact h.queue p
    · exact .inr e
  silent p := by
    rcases k.silent p with e | ⟨e, hf, hn⟩
    · rw [e]
      exact (h.silent p).imp_right fun ⟨h1, h2, h3⟩ => ⟨h1, h2, k.notices 1 h3⟩
    · exact .inr ⟨e, ((h.fallsSilent_iff p).1 hf).1, hn⟩
  bars b := (h.bars b).trans (k.bars b)

/-! ### The single operations -/

/-- A raised notice keeps the notices that wait already (R156). -/
theorem LineControl.raise_notices (lc : LineControl) (time : Pos) (k : NoticeKind) (src : Source) (h : Option Handle)
    (j : Nat) (hj : lc.pendingSet.getLsbD j = true) : (lc.raise time k src h).pendingSet.getLsbD j = true := by
  rw [(lc.raise_spec time k src h).1, BitVec.getLsbD_or, hj, Bool.true_or]

/-- A raised notice waits (R156). -/
theorem LineControl.raise_notice_self (lc : LineControl) (time : Pos) (k : NoticeKind) (src : Source)
    (h : Option Handle) : (lc.raise time k src h).pendingSet.getLsbD k.no = true := by
  rw [(lc.raise_spec time k src h).1, BitVec.getLsbD_or, NoticeKind.bit, BitVec.getLsbD_twoPow]
  cases k <;> simp [NoticeKind.no]

/-- An operation that changes table, reference counts, intervals or draws alone is such a move. -/
theorem State.PartMove.of_frame {s t : State} (hpins : t.pins = s.pins) (hbpu : t.bpu = s.bpu) (hports : t.ports = s.ports)
    (htr : t.tracking = s.tracking) (hae : t.ae = s.ae) (hlink : t.link = s.link) (hdata : t.banks.data = s.banks.data)
    (hact : t.banks.active = s.banks.active) (hsw : t.banks.pendingSwitch = s.banks.pendingSwitch)
    (hmode : t.lc.mode = s.lc.mode) (hmask : t.lc.mask = s.lc.mask)
    (hn : ∀ k, s.lc.pendingSet.getLsbD k = true → t.lc.pendingSet.getLsbD k = true)
    (hbars : ∀ b, (s.bar b).SameButIvals (t.bar b)) : s.PartMove t := by
  have hp : ∀ p, t.port p = s.port p := fun p => by rw [State.port, State.port, hports]
  exact ⟨hpins, htr, hae, hlink, hdata, hact, hsw, .inl ⟨hbpu, hmode⟩, hmask, hn, fun p => by rw [hp],
    fun p => .inl (by rw [hp]), fun p => .inl (by rw [hp]), hbars⟩

theorem State.modRecord_partMove (s : State) (slot : Nat) (f : Record → Record) : s.PartMove (s.modRecord slot f) :=
  .of_frame rfl rfl rfl rfl rfl rfl rfl rfl rfl rfl rfl (fun _ h => h) fun _ => .refl _

theorem State.setRecState_partMove (s : State) (slot : Nat) (st : RecState) : s.PartMove (s.setRecState slot st) :=
  s.modRecord_partMove slot _

theorem State.raise_partMove (s : State) (k : NoticeKind) (src : Source) (h : Option Handle) :
    s.PartMove (s.raise k src h) :=
  .of_frame rfl rfl rfl rfl rfl rfl rfl rfl rfl (by simp) (by simp) (s.lc.raise_notices _ _ _ _) fun _ => .refl _

theorem State.freeRecord_partMove (s : State) (slot : Nat) (r : Record) : s.PartMove (s.freeRecord slot r) :=
  .of_frame rfl rfl rfl rfl rfl rfl rfl rfl rfl rfl rfl (fun _ h => h) fun _ => .refl _

/-- A bar whose intervals alone are changed. -/
theorem State.setBar_partMove (s : State) (b : Bar) (u : BarUnit) (h : (s.bar b).SameButIvals u) :
    s.PartMove (s.setBar b u) :=
  .of_frame rfl rfl rfl rfl rfl rfl rfl rfl rfl rfl rfl (fun _ h => h) fun c => by
    rw [State.bar_setBar]
    split
    · next e => rw [e]; exact h
    · exact .refl _

theorem State.draws_partMove (s : State) (n : Nat) : s.PartMove { s with draws := n } :=
  .of_frame rfl rfl rfl rfl rfl rfl rfl rfl rfl rfl rfl (fun _ h => h) fun _ => .refl _

theorem State.tallies_partMove (s : State) (tallies : Tallies) : s.PartMove { s with lc := { s.lc with tallies } } :=
  .of_frame rfl rfl rfl rfl rfl rfl rfl rfl rfl rfl rfl (fun _ h => h) fun _ => .refl _

theorem State.completeDrain_partMove (s : State) : s.PartMove s.completeDrain := by
  have hp : ∀ p, s.completeDrain.port p = (s.port p).emptied := fun p => by simp [State.port]
  exact
    { pins := rfl, tracking := rfl, ae := rfl, link := rfl, data := rfl, active := rfl, switch := rfl
      line := .inr ⟨rfl, rfl⟩
      mask := by simp
      notices := s.lc.raise_notices _ _ _ _
      port := fun p => by rw [hp]; rfl
      queue := fun p => .inr (by rw [hp]; rfl)
      silent := fun p => .inl (by rw [hp]; rfl)
      bars := fun _ => .refl _ }

theorem State.drainIfEmpty_partMove (s : State) : s.PartMove s.drainIfEmpty :=
  State.drainIfEmpty_keeps (.refl s) fun _ _ => s.completeDrain_partMove

theorem State.retire_partMove (s : State) (slot : Nat) (o : RecOutcome) : s.PartMove (s.retire slot o) := by
  rcases s.retire_cases slot o with ⟨_, e⟩ | ⟨r, _, e⟩ <;> rw [e]
  · exact .refl s
  · exact ((s.freeRecord_partMove slot r).trans (State.tallies_partMove _ _)).trans (State.drainIfEmpty_partMove _)

theorem State.absorb_partMove (s : State) (slot : Nat) : s.PartMove (s.absorb slot) := by
  rcases s.absorb_cases slot with ⟨_, e⟩ | ⟨r, _, e⟩ <;> rw [e]
  · exact .refl s
  · exact s.freeRecord_partMove slot r

/-! ### Arming -/

theorem State.pass_partMove (s : State) (slot : Nat) (v : Verdict) (b : Bar) (o : RecOutcome) :
    s.PartMove (s.pass slot v b o) := s.setRecState_partMove slot _

theorem State.reportWatch_partMove (s : State) (b : Bar) (slot : Nat) (set : List Nat) :
    s.PartMove (s.reportWatch b slot set) := by
  unfold State.reportWatch
  split
  · exact s.raise_partMove _ _ _
  · exact .refl s

theorem State.reportLate_partMove (s : State) (b : Bar) (slot : Nat) (late : Bool) :
    s.PartMove (s.reportLate b slot late) := by
  unfold State.reportLate
  split
  · have hbar : (s.bar b).SameButIvals { s.bar b with lateFire := satAdd Config.countMax (s.bar b).lateFire 1 } :=
      ⟨rfl, rfl, rfl, rfl, rfl, rfl⟩
    exact ((s.setBar_partMove b _ hbar).trans (State.modRecord_partMove _ _ _)).trans (State.raise_partMove _ _ _ _)
  · exact .refl s

theorem State.commit_partMove (s : State) (slot : Nat) (v : Verdict) (sch : Schedule) (set : List Nat) :
    s.PartMove (s.commit slot v sch set) :=
  (s.setBar_partMove sch.bar _ (BarUnit.place_sameButIvals _ _ _)).trans (State.setRecState_partMove _ _ _)

theorem State.guardAndCommit_partMove (s : State) (slot : Nat) (r : Record) (v : Verdict) (sch : Schedule)
    (set : List Nat) : s.PartMove (s.guardAndCommit slot r v sch set) := by
  unfold State.guardAndCommit
  split
  · exact s.pass_partMove _ _ _ _
  · split
    · exact (s.raise_partMove _ _ _).trans (State.pass_partMove _ _ _ _ _)
    · exact s.commit_partMove _ _ _ _

theorem State.arm_partMove (s : State) (slot : Nat) (r : Record) (v : Verdict) (b : Bar) :
    s.PartMove (s.arm slot r v b) := by
  unfold State.arm
  dsimp only
  split
  · exact s.pass_partMove _ _ _ _
  · split
    · exact s.pass_partMove _ _ _ _
    · split
      · exact s.pass_partMove _ _ _ _
      · exact ((s.reportWatch_partMove _ _ _).trans (State.reportLate_partMove _ _ _ _)).trans
          (State.guardAndCommit_partMove _ _ _ _ _ _)

/-! ### The points of a record, and the parts of an advance -/

theorem State.takePoint_partMove (s : State) (slot : Nat) (r : Record) : s.PartMove (s.takePoint slot r) := by
  rcases s.takePoint_cases slot r with ⟨_, e⟩ | ⟨v, d, _, e⟩ | ⟨v, b, _, e⟩ | ⟨v, sch, _, e⟩ | ⟨v, d, o, _, e⟩ <;> rw [e]
  · exact s.modRecord_partMove _ _
  · exact s.setRecState_partMove _ _
  · exact s.arm_partMove _ _ _ _
  · exact (s.setBar_partMove _ _ (BarUnit.without_sameButIvals _ _)).trans (State.retire_partMove _ _ _)
  · exact s.retire_partMove _ _

theorem State.runDue_partMove (n : Nat) (s : State) (slot : Nat) : s.PartMove (s.runDue n slot) :=
  State.runDue_keeps (P := s.PartMove) (fun t k r _ _ h => h.trans (t.takePoint_partMove k r)) n s slot (.refl s)

theorem State.takeOverdue_partMove (s : State) (slot : Nat) : s.PartMove (s.takeOverdue slot) :=
  s.runDue_partMove 5 slot

theorem State.takeReached_partMove (s : State) (slot : Nat) : s.PartMove (s.takeReached slot) := by
  unfold State.takeReached
  split
  · exact .refl s
  · split
    · exact s.takeOverdue_partMove slot
    · exact .refl s

/-- A station goes SILENT with STATION_SILENT where its silence count has come to SILENT_STEPS; otherwise nothing happens
(R21). -/
theorem State.goSilent_cases (s : State) (p : Station) :
    ((s.port p).fallsSilent = false ∧ s.goSilent p = s) ∨
    ((s.port p).fallsSilent = true ∧
      s.goSilent p = (s.setPort p { s.port p with state := .silent }).raise .stationSilent (.station p) none) := by
  unfold State.goSilent
  cases (s.port p).fallsSilent <;> simp

theorem State.goSilent_partMove (s : State) (p : Station) : s.PartMove (s.goSilent p) := by
  rcases s.goSilent_cases p with ⟨_, e⟩ | ⟨hf, e⟩ <;> rw [e]
  · exact .refl s
  · set t := (s.setPort p { s.port p with state := .silent }).raise .stationSilent (.station p) none with ht
    have hn : t.lc.pendingSet.getLsbD 1 = true := s.lc.raise_notice_self _ .stationSilent _ _
    have hp : ∀ q, t.port q = if q = p then { s.port p with state := .silent } else s.port q := fun q => s.port_setPort p q _
    refine ⟨rfl, rfl, rfl, rfl, rfl, rfl, rfl, .inl ⟨rfl, ?_⟩, ?_, s.lc.raise_notices _ _ _ _, fun q => ?_, fun q => ?_,
      fun q => ?_, fun _ => .refl _⟩
    · simp [ht]
    · simp [ht]
    · rw [hp]; split <;> simp_all
    · rw [hp]; split <;> simp_all
    · rw [hp]; split <;> simp_all

theorem State.takePart_partMove (s : State) (x : AdvancePart) : s.PartMove (s.takePart x) := by
  cases x with
  | silence p => exact s.goSilent_partMove p
  | point slot => exact s.takeReached_partMove slot

/-- What each part of a list is a move of, the whole list is. -/
theorem State.foldl_partMove {f : State → AdvancePart → State} (h : ∀ (s : State) x, s.PartMove (f s x)) (parts : List AdvancePart) :
    ∀ s : State, s.PartMove (parts.foldl f s) := by
  induction parts with
  | nil => exact State.PartMove.refl
  | cons x xs ih => exact fun s => (h s x).trans (ih _)

theorem State.takeParts_partMove (s : State) : s.PartMove s.takeParts :=
  (s.draws_partMove _).trans (State.foldl_partMove State.takePart_partMove _ _)

end Sys2Proof.Machine
end

