-- ==== Sys2Proof/Proofs/Keeps.lean ====
section
/-! SUPPORT. What every command keeps: requests, frames and bytes, said once for any property of the state. -/

namespace Sys2Proof.Machine

/-! ### The Supervisor Link -/

section
variable {P : State → Prop} (hlink : ∀ s link, P s → P { s with link })
include hlink

/-- What an operation keeps, and a change of the link alone, is kept by taking the request (R135, R136). -/
theorem State.takeRequest_keeps {kind : Byte} {op : State → Answer} (hop : ∀ s, P s → P (op s).1) {s : State} (h : P s) :
    P (s.takeRequest kind op) := by
  rcases s.takeRequest_cases kind op with ⟨_, e⟩ | ⟨_, _, e⟩ | ⟨_, _, e⟩ <;> rw [e]
  · exact hlink _ _ h
  · exact hlink _ _ h
  · exact hlink _ _ (hop _ (hlink _ _ h))

variable (hops : ∀ c kind op, requestOf c = some (kind, op) → ∀ s, P s → P (op s).1)
include hops

theorem State.takeFrame_keeps (kind : Byte) (body : List Byte) (check : Half) {s : State} (h : P s) :
    P (s.takeFrame kind body check) := by
  rcases s.takeFrame_cases kind body check with ⟨code, e⟩ | ⟨c, k, op, _, hr, e⟩ <;> rw [e]
  · exact hlink _ _ h
  · exact State.takeRequest_keeps hlink (hops c k op hr) h

theorem State.linkByte_keeps (s : State) (b : Byte) (h : P s) : P (s.linkByte b) := by
  rcases s.linkByte_cases b with ⟨rx, e⟩ | e | ⟨kind, body, check, e⟩ <;> rw [e]
  · exact hlink _ _ h
  · exact hlink _ _ h
  · exact State.takeFrame_keeps hlink hops kind body check h

/-- A frame on the link keeps what its bytes and what its taking keep (R133; entry 4). -/
theorem State.linkFrame_keeps (bytes : List Byte) {taken : State → State} (ht : ∀ s, P s → P (taken s)) {s : State}
    (h : P s) : P (s.linkFrame bytes taken) := by
  unfold State.linkFrame
  split
  · exact ht s h
  · exact State.linkBytes_keeps (State.linkByte_keeps hlink hops) bytes s h

end

/-- A request command is its request, or its bytes alone where its entry counts are no request's (entry 23). -/
theorem exec_requestOf {c : Instr} {kind : Byte} {op : State → Answer} (h : requestOf c = some (kind, op)) (s : State) :
    exec c s = request c kind op s ∨ exec c s = miscounted c s := by
  cases c with
  | writeClassmap bank station first entries =>
    cases h
    exact (ite_eq_or_eq (entries.length ≤ 64) _ _)
  | writeDestinations r =>
    cases h
    exact (ite_eq_or_eq (r.rows.length = 16) _ _)
  | _ => cases h <;> exact .inl rfl

/-- What every request's operation keeps, and a change of the link alone, is kept by every request command. -/
theorem exec_request_keeps {P : State → Prop} (hlink : ∀ s link, P s → P { s with link })
    (hops : ∀ c kind op, requestOf c = some (kind, op) → ∀ s, P s → P (op s).1) {c : Instr} {x : Byte × (State → Answer)}
    (hc : requestOf c = some x) {s t : State} (h : P s) (he : exec c s = .next t) : P t := by
  rcases exec_requestOf (kind := x.1) (op := x.2) hc s with e | e <;> rw [e] at he <;> cases he
  · exact State.awake_keeps h fun _ =>
      State.linkFrame_keeps hlink hops _ (fun _ hu => State.takeRequest_keeps hlink (hops c x.1 x.2 hc) hu) h
  · exact State.awake_keeps h fun _ => State.linkBytes_keeps (State.linkByte_keeps hlink hops) _ _ h

/-! ### The Sensor Links -/

/-- All that an event at a port does: the port is written, and a notice of its station may be raised. -/
def State.PortEvent (port : Station) (s t : State) : Prop :=
  ∃ x, t = s.setPort port x ∨ ∃ k, t = (s.setPort port x).raise k (.station port) none

theorem State.setPort_portEvent (s : State) (port : Station) (x : Port) : State.PortEvent port s (s.setPort port x) :=
  ⟨x, .inl rfl⟩

theorem State.setPort_raise_portEvent (s : State) (port : Station) (x : Port) (k : NoticeKind) :
    State.PortEvent port s ((s.setPort port x).raise k (.station port) none) := ⟨x, .inr ⟨k, rfl⟩⟩

/-- What a written port and a raised notice keep, an event at a port keeps. -/
theorem State.PortEvent.keeps {P : State → Prop} {port : Station} {s t : State} (ht : State.PortEvent port s t)
    (hport : ∀ s x, P s → P (s.setPort port x)) (hraise : ∀ (s : State) k, P s → P (s.raise k (.station port) none))
    (h : P s) : P t := by
  obtain ⟨x, rfl | ⟨k, rfl⟩⟩ := ht
  · exact hport s x h
  · exact hraise _ k (hport s x h)

theorem State.handleSync_portEvent (l : Pos) (port : Station) (s : State) (p : Port) :
    State.PortEvent port s (s.handleSync l port p) := by
  unfold State.handleSync
  split
  · split
    · exact s.setPort_portEvent _ _
    · exact s.setPort_raise_portEvent _ _ _
  · exact s.setPort_raise_portEvent _ _ _

theorem State.enqueue_portEvent (s : State) (port : Station) (p : Port) (d : Detection) :
    State.PortEvent port s (s.enqueue port p d) := by
  unfold State.enqueue
  split
  · exact s.setPort_portEvent _ _
  · exact s.setPort_raise_portEvent _ _ _

theorem State.handleDetect_portEvent (f : DetectFrame) (port : Station) (s : State) (p : Port) :
    State.PortEvent port s (s.handleDetect f port p) := by
  unfold State.handleDetect
  split
  · split
    · split
      · exact s.enqueue_portEvent _ _ _
      · exact s.setPort_raise_portEvent _ _ _
    · exact s.setPort_portEvent _ _
  · exact s.setPort_portEvent _ _

/-- The arrival of a frame is an event at its port where its handling is (R17). -/
theorem State.arrive_portEvent (s : State) (port : Station) (seq : Byte) (sound : Bool) {handle : State → Port → State}
    (hh : ∀ p, State.PortEvent port s (handle s p)) : State.PortEvent port s (s.arrive port seq sound handle) := by
  unfold State.arrive
  dsimp only
  split
  · exact s.setPort_portEvent _ _
  · split
    · split
      · exact s.setPort_portEvent _ _
      · exact hh _
    · exact s.setPort_portEvent _ _

theorem State.syncArrives_portEvent (s : State) (port : Station) (f : SyncFrame) :
    State.PortEvent port s (s.syncArrives port f) :=
  s.arrive_portEvent port _ _ (State.handleSync_portEvent _ _ _)

theorem State.detectArrives_portEvent (s : State) (port : Station) (f : DetectFrame) :
    State.PortEvent port s (s.detectArrives port f) :=
  s.arrive_portEvent port _ _ (State.handleDetect_portEvent _ _ _)

/-- A byte on a Sensor Link is an event at its port (R164). -/
theorem State.portByte_portEvent (s : State) (port : Station) (b : Byte) :
    State.PortEvent port s (s.portByte port b) ∨ s.portByte port b = s := by
  rcases s.portByte_cases port b with e | ⟨rx, e⟩ | e | ⟨f, e⟩ | ⟨f, e⟩ <;> rw [e]
  · exact .inr rfl
  · exact .inl (s.setPort_portEvent _ _)
  · exact .inl (s.setPort_portEvent _ _)
  · exact .inl (s.syncArrives_portEvent _ _)
  · exact .inl (s.detectArrives_portEvent _ _)

section
variable {P : State → Prop} {port : Station} (hport : ∀ s x, P s → P (s.setPort port x))
  (hraise : ∀ (s : State) k, P s → P (s.raise k (.station port) none))
include hport hraise

theorem State.portBytes_keeps_of (bytes : List Byte) {s : State} (h : P s) : P (s.portBytes port bytes) :=
  State.portBytes_keeps port
    (fun u b hu => (u.portByte_portEvent port b).elim (fun e => e.keeps hport hraise hu) fun e => e.symm ▸ hu) bytes s h

/-- A frame on a Sensor Link keeps what a written port and a raised notice keep (R164; entry 4). -/
theorem State.portFrame_keeps (bytes : List Byte) {taken : State → State}
    (ht : ∀ u, State.PortEvent port u (taken u)) {s : State} (h : P s) : P (s.portFrame port bytes taken) := by
  unfold State.portFrame
  split
  · exact (ht s).keeps hport hraise h
  · exact State.portBytes_keeps_of hport hraise bytes h

end

end Sys2Proof.Machine
end

