-- ==== Sys2Proof/Proofs/Belt.lean ====
section
/-! SUPPORT. What keeps the belt: the relation BeltKept, and the belt's bounds under every event (R1 to R15). -/

namespace Sys2Proof.Machine

/-! ### Positions -/

theorem stepsTo_self (p : Pos) : stepsTo p p = 0 := by simp [stepsTo]

theorem stepsTo_succ_succ (p t : Pos) : stepsTo (p + 1) (t + 1) = stepsTo p t := by
  unfold stepsTo
  congr 1
  bv_omega

/-- A forward step of recovery takes one from the distance (R3). -/
theorem stepsTo_succ {p t : Pos} (h : p ≠ t) : stepsTo (p + 1) t + 1 = stepsTo p t := by
  unfold stepsTo
  bv_omega

/-- A reverse step adds one to the distance, short of a whole turn (R3, R4). -/
theorem stepsTo_pred {p t : Pos} (h : stepsTo p t < 4294967295) : stepsTo (p - 1) t = stepsTo p t + 1 := by
  unfold stepsTo at *
  bv_omega

/-! ### Events that keep the belt -/

/-- An event leaves the belt as it is, or completes a drain or a reset: the levels stand, the BPU and the mode stay, or the
guard countdown is 0 and the line in CONFIG. -/
structure State.BeltKept (s t : State) : Prop where
  inReset : t.pins.inReset = s.pins.inReset
  levels  : t.pins.levels = s.pins.levels
  line    : t.bpu = s.bpu ∧ t.lc.mode = s.lc.mode ∨ t.bpu = { s.bpu with G := 0 } ∧ t.lc.mode = .config

theorem State.BeltKept.of_eq {s t : State} (hp : t.pins = s.pins) (hb : t.bpu = s.bpu) (hm : t.lc.mode = s.lc.mode) :
    s.BeltKept t := ⟨by rw [hp], by rw [hp], .inl ⟨hb, hm⟩⟩

theorem State.BeltKept.refl (s : State) : s.BeltKept s := .of_eq rfl rfl rfl

theorem State.BeltKept.trans {s t u : State} (h : s.BeltKept t) (k : t.BeltKept u) : s.BeltKept u where
  inReset := k.inReset.trans h.inReset
  levels := k.levels.trans h.levels
  line := by
    rcases h.line with ⟨hb, hm⟩ | ⟨hb, hm⟩ <;> rcases k.line with ⟨kb, km⟩ | ⟨kb, km⟩ <;> rw [kb, km, hb] <;>
      simp [hm]

theorem State.PartMove.beltKept {s t : State} (h : s.PartMove t) : s.BeltKept t := ⟨by rw [h.pins], by rw [h.pins], h.line⟩

theorem State.setPort_beltKept (s : State) (p : Station) (x : Port) : s.BeltKept (s.setPort p x) := .of_eq rfl rfl rfl

theorem State.setBar_beltKept (s : State) (b : Bar) (x : BarUnit) : s.BeltKept (s.setBar b x) := .of_eq rfl rfl rfl

theorem State.settle_beltKept (s : State) : s.BeltKept s.settle := .of_eq rfl rfl rfl

theorem State.raise_beltKept (s : State) (k : NoticeKind) (src : Source) (h : Option Handle) :
    s.BeltKept (s.raise k src h) := (s.raise_partMove k src h).beltKept

theorem State.settleFrom_beltKept (s' s : State) : s'.BeltKept (s'.settleFrom s) := by
  unfold State.settleFrom
  split
  · exact .refl s'
  · exact s'.settle_beltKept

/-! ### The bounds -/

/-- The bounds of the belt speak of the BPU, the mode, the encoder's levels and the RESET pin alone. -/
theorem BeltOk.kept {s t : State} (h : BeltOk s) (k : s.BeltKept t) : BeltOk t := by
  have href : t.pins.inReset = false → t.bpu.ref = t.pins.levels := by
    rw [k.inReset, k.levels]
    intro hr
    rcases k.line with ⟨e, _⟩ | ⟨e, _⟩ <;> rw [e] <;> exact h.reference hr
  rcases k.line with ⟨e, hm⟩ | ⟨e, hm⟩
  · have hrun : t.running = s.running := by simp only [State.running, hm]
    exact ⟨e ▸ h.encDiv, e ▸ h.sub, e ▸ h.depth, e ▸ h.revMax, fun hr => e ▸ h.run (hrun ▸ hr),
      fun hr => e ▸ h.guardIdle (hrun ▸ hr), e ▸ h.guardMove, e ▸ h.pulse, href, e ▸ h.counts⟩
  · have hrun : t.running = false := by simp [State.running, hm]
    obtain ⟨he, ho, hw, hV, hZ, _⟩ := h.counts
    exact ⟨e ▸ h.encDiv, e ▸ h.sub, e ▸ h.depth, e ▸ h.revMax, fun hr => absurd hr (by simp [hrun]), fun _ => by rw [e],
      fun _ => by rw [e], e ▸ h.pulse, href, by rw [e]; exact ⟨he, ho, hw, hV, hZ, Nat.zero_le _⟩⟩

/-- New levels on the encoder, taken as the reference (R1). -/
theorem BeltOk.withLevels {s : State} (h : BeltOk s) (l : Levels) :
    BeltOk { s with pins := { s.pins with levels := l }, bpu := { s.bpu with ref := l } } :=
  ⟨h.encDiv, h.sub, h.depth, h.revMax, h.run, h.guardIdle, h.guardMove, h.pulse, fun _ => rfl, h.counts⟩

theorem BeltOk.withEncErr {s : State} (h : BeltOk s) {n : Nat} (hn : n ≤ 65535) :
    BeltOk { s with bpu := { s.bpu with encErr := n } } :=
  ⟨h.encDiv, h.sub, h.depth, h.revMax, h.run, h.guardIdle, h.guardMove, h.pulse, h.reference, hn, h.counts.2⟩

theorem BeltOk.withSub {s : State} (h : BeltOk s) {n : Nat} (hn : n < s.bpu.encDiv) :
    BeltOk { s with bpu := { s.bpu with sub := n } } :=
  ⟨h.encDiv, hn, h.depth, h.revMax, h.run, h.guardIdle, h.guardMove, h.pulse, h.reference, h.counts⟩

/-- Another P, within the bound of R4 and on a running line within REV_MAX (R8). -/
theorem BeltOk.withP {s : State} (h : BeltOk s) {p : Pos} (hp : stepsTo p s.bpu.T ≤ 1048575)
    (hr : s.running = true → stepsTo p s.bpu.T ≤ s.bpu.revMax) : BeltOk { s with bpu := { s.bpu with P := p } } :=
  ⟨h.encDiv, h.sub, hp, h.revMax, hr, h.guardIdle, h.guardMove, h.pulse, h.reference, h.counts⟩

/-- Another P on a line that halts, where REV_MAX binds it no more and the guard countdown is 0 (R8, R152). -/
theorem BeltOk.withP_halted {s : State} (h : BeltOk s) {p : Pos} (hp : stepsTo p s.bpu.T ≤ 1048575) {lc : LineControl}
    (hm : lc.mode = .halted) : BeltOk { s with bpu := { s.bpu with P := p, G := 0 }, lc } := by
  obtain ⟨he, ho, hw, hV, hZ, -⟩ := h.counts
  exact ⟨h.encDiv, h.sub, hp, h.revMax, by simp [State.running, hm], fun _ => rfl, fun _ => rfl, h.pulse, h.reference,
    he, ho, hw, hV, hZ, Nat.zero_le _⟩

theorem BeltOk.withGuard {s : State} (h : BeltOk s) : BeltOk { s with bpu := { s.bpu with guard := true } } :=
  ⟨h.encDiv, h.sub, h.depth, h.revMax, h.run, h.guardIdle, h.guardMove, h.pulse, h.reference, h.counts⟩

/-- The BPU at a T advance keeps the depth, which is 0 then (R3, R7, R9). -/
theorem BeltOk.bpuAdvance {s : State} (h : BeltOk s) : BeltOk { s with bpu := s.bpu.advance } := by
  have hd : s.bpu.advance.depth = s.bpu.depth := stepsTo_succ_succ _ _
  obtain ⟨he, -, -, hV, hZ, hG⟩ := h.counts
  have ho : s.bpu.advance.owed = min (s.bpu.owed + 1) 255 := satAdd_eq_min _ _ _
  refine ⟨h.encDiv, h.sub, hd ▸ h.depth, h.revMax, fun hr => hd ▸ h.run hr, h.guardIdle, h.guardMove, fun hl => ?_,
    h.reference, he, satAdd_le _ _ _, satAdd_le _ _ _, hV, hZ, hG⟩
  show 0 < s.bpu.advance.owed
  omega

theorem BeltOk.endStall {s : State} (h : BeltOk s) : BeltOk s.endStall := by
  unfold State.endStall
  split
  · refine BeltOk.kept ?_ (State.raise_beltKept _ _ _ _)
    obtain ⟨he, ho, hw, hV, -, -⟩ := h.counts
    exact ⟨h.encDiv, h.sub, h.depth, h.revMax, h.run, fun _ => rfl, fun _ => rfl, h.pulse, h.reference, he, ho, hw, hV,
      Nat.zero_le _, Nat.zero_le _⟩
  · exact h

theorem State.switchIfReached_beltKept (s : State) : s.BeltKept s.switchIfReached := by
  unfold State.switchIfReached
  split
  · split
    · exact .of_eq rfl rfl (by simp)
    · exact .refl s
  · exact .refl s

theorem BeltOk.advance {s : State} (h : BeltOk s) : BeltOk s.advance := by
  have h1 := h.bpuAdvance.endStall
  have h2 := h1.kept (t := { State.endStall { s with bpu := s.bpu.advance } with
    ports := (State.endStall { s with bpu := s.bpu.advance }).ports.map (Port.advance
      (State.endStall { s with bpu := s.bpu.advance }).bpu.T) }) (.of_eq rfl rfl rfl)
  exact h2.kept (((State.takeParts_partMove _).beltKept.trans (State.switchIfReached_beltKept _)).trans
    (State.settle_beltKept _))

theorem BeltOk.forwardStep {s : State} (h : BeltOk s) : BeltOk s.forwardStep := by
  unfold State.forwardStep
  split
  · exact h.advance
  · next hne =>
    have hd := stepsTo_succ hne
    have hdepth : stepsTo s.bpu.P s.bpu.T ≤ 1048575 := h.depth
    have hrun : s.running = true → stepsTo s.bpu.P s.bpu.T ≤ s.bpu.revMax := h.run
    exact (h.withP (p := s.bpu.P + 1) (by omega) fun hr => by have := hrun hr; omega).kept (State.settle_beltKept _)

theorem BeltOk.forwardCount {s : State} (h : BeltOk s) : BeltOk s.forwardCount := by
  have hd := h.encDiv
  have hs := h.sub
  unfold State.forwardCount
  split
  · exact (h.withSub (n := 0) (by omega)).forwardStep
  · exact h.withSub (by omega)

theorem BeltOk.reverseStep {s : State} (h : BeltOk s) (hd : s.bpu.depth < 1048575) : BeltOk s.reverseStep := by
  have hp : stepsTo (s.bpu.P - 1) s.bpu.T ≤ 1048575 := by
    have := stepsTo_pred (p := s.bpu.P) (t := s.bpu.T) (hd.trans (by decide))
    simp only [Bpu.depth] at hd
    omega
  refine BeltOk.kept ?_ (State.settle_beltKept _)
  split
  · rcases State.halt_cases { s with bpu := { s.bpu with P := s.bpu.P - 1 } } with ⟨hr, e⟩ | ⟨_, e⟩ <;> rw [e]
    · exact h.withP hp fun hrun => absurd (hr.symm.trans hrun) (by decide)
    · exact h.withP_halted hp rfl
  · next hle => exact h.withP hp fun _ => not_lt.1 hle

theorem BeltOk.reverseCount {s : State} (h : BeltOk s) : BeltOk s.reverseCount := by
  have hs := h.sub
  unfold State.reverseCount
  split
  · exact h.withSub (by omega)
  · split
    · exact h
    · next hle =>
      refine (h.withSub (n := s.bpu.encDiv - 1) (by omega)).reverseStep ?_
      simp only [Config.maxDepth, not_lt] at hle
      exact hle

/-- The decoder's cases (R1): nothing where the levels stand as they were, otherwise the new reference, with no count, a
forward count, a reverse count, or an encoder error. -/
theorem State.decodeLevels_cases (s : State) (l : Levels) :
    (l = s.bpu.ref ∧ s.decodeLevels l = s) ∨
    let t : State := { s with bpu := { s.bpu with ref := l } }
    s.decodeLevels l = t ∨ s.decodeLevels l = t.forwardCount ∨ s.decodeLevels l = t.reverseCount ∨
      s.decodeLevels l = { t with bpu := { t.bpu with encErr := satAdd Config.halfMax s.bpu.encErr 1 } } := by
  obtain ⟨a, b⟩ := l
  rcases hr : s.bpu.ref with ⟨a', b'⟩
  unfold State.decodeLevels
  rw [hr]
  cases a <;> cases b <;> cases a' <;> cases b' <;> simp [Levels.phase]

/-- A transition of the encoder outside reset (R1). -/
theorem BeltOk.decodeLevels {s : State} (h : BeltOk s) (l : Levels) :
    BeltOk (State.decodeLevels { s with pins := { s.pins with levels := l } } l) := by
  have h1 := h.withLevels l
  rcases State.decodeLevels_cases { s with pins := { s.pins with levels := l } } l with ⟨hl, e⟩ | e | e | e | e <;> rw [e]
  · have : s.bpu = { s.bpu with ref := l } := by rw [hl]
    exact this ▸ h1
  · exact h1
  · exact h1.forwardCount
  · exact h1.reverseCount
  · exact h1.withEncErr (satAdd_le _ _ _)

/-! ### The end of a window -/

theorem nextZ_le (z count : Nat) : nextZ z count ≤ 255 := by
  unfold nextZ
  split
  · exact satAdd_le _ _ _
  · exact Nat.zero_le _

theorem BeltOk.closeWindow {s : State} (h : BeltOk s) : BeltOk { s with bpu := s.bpu.closeWindow } := by
  obtain ⟨he, ho, -, -, -, hG⟩ := h.counts
  refine ⟨h.encDiv, h.sub, h.depth, h.revMax, h.run, h.guardIdle, fun hs => h.guardMove ?_, h.pulse, h.reference, he, ho,
    Nat.zero_le _, Nat.min_le_right _ _, nextZ_le _ _, hG⟩
  exact (Bool.or_eq_false_iff.1 hs).1

/-- The guard countdown (R14): it counts on a stalled running line alone, and a halt sets it to 0. -/
theorem BeltOk.countGuard {s : State} (h : BeltOk s) {counts : Bool}
    (hc : counts = true → s.bpu.stalled = true ∧ s.running = true) : BeltOk (s.countGuard counts) := by
  unfold State.countGuard
  split
  · next hcount =>
    obtain ⟨hstall, hrun⟩ := hc hcount
    obtain ⟨he, ho, hw, hV, hZ, -⟩ := h.counts
    have hcounted : BeltOk { s with bpu := { s.bpu with G := satAdd Config.byteMax s.bpu.G 1 } } :=
      ⟨h.encDiv, h.sub, h.depth, h.revMax, h.run, fun hr => absurd (hr.symm.trans hrun) (by decide),
        fun hs => absurd (hs.symm.trans hstall) (by decide), h.pulse, h.reference, he, ho, hw, hV, hZ, satAdd_le _ _ _⟩
    dsimp only
    split
    · rcases State.halt_cases { s with bpu := { s.bpu with G := satAdd Config.byteMax s.bpu.G 1 } } with
        ⟨_, e⟩ | ⟨_, e⟩ <;> rw [e]
      · exact hcounted
      · exact hcounted.withP_halted (p := s.bpu.P) h.depth rfl
    · exact hcounted
  · exact h

/-- STALL, where it is raised, touches Line Control alone and leaves the mode (R11). -/
theorem State.reportStall_frame (s : State) (declared : Bool) :
    (s.reportStall declared).pins = s.pins ∧ (s.reportStall declared).bpu = s.bpu ∧
    (s.reportStall declared).lc.mode = s.lc.mode := by
  cases declared <;> simp [State.reportStall]

theorem BeltOk.endWindow {s : State} (h : BeltOk s) : BeltOk s.endWindow := by
  obtain ⟨hp, hb, hm⟩ := State.reportStall_frame { s with bpu := s.bpu.closeWindow } s.bpu.declaresStall
  refine ((h.closeWindow.kept (.of_eq hp hb hm)).countGuard fun hc => ?_).kept (State.settleFrom_beltKept _ _)
  simp only [State.guardCounts, Bool.and_eq_true] at hc
  obtain ⟨⟨⟨-, hs⟩, -⟩, hrun⟩ := hc
  simpa only [hb, State.running, hm, Bpu.closeWindow_stalled, hs, Bool.true_or, true_and] using hrun

end Sys2Proof.Machine
end

