-- ==== Sys2Proof/Proofs/BeltInBounds.lean ====
section
/-! SUPPORT. The belt under the Association Engine, the faults of bars and the requests; settles O53. -/

namespace Sys2Proof.Machine

/-! ### The Association Engine -/

/-- The state with a new record in a slot taken from the free list, in the ACTIVE bank's count (R37, R45, R91). -/
def State.withNew (s : State) (slot : Nat) (rest : List Nat) (r : Record) : State :=
  { s with
    ft := { s.ft with live := insertLive ⟨slot, r⟩ s.ft.live, liveCount := s.ft.liveCount + 1, freeList := rest }
    banks := { s.banks with refs := s.banks.refs.set s.banks.active (s.banks.refs.get s.banks.active + 1) } }

/-- A creation takes the head of the free list and writes table and reference counts alone (R37, R45). -/
theorem State.create_cons {s : State} {slot : Nat} {rest : List Nat} (h : s.ft.freeList = slot :: rest) (r : Record) :
    s.create r = some (slot, s.withNew slot rest { r with bank := s.banks.active }) := by
  simp [State.create, State.withNew, h]

/-- No record is created from an empty free list (R47). -/
theorem State.create_nil {s : State} (h : s.ft.freeList = []) (r : Record) : s.create r = none := by
  simp [State.create, h]

theorem State.create_beltKept {s s' : State} {r : Record} {slot : Nat} (h : s.create r = some (slot, s')) :
    s.BeltKept s' := by
  cases hf : s.ft.freeList with
  | nil => rw [State.create_nil hf] at h; cases h
  | cons a rest =>
    rw [State.create_cons hf] at h
    cases h
    exact .of_eq rfl rfl rfl

theorem State.ft_beltKept (s : State) (ft : FragTable) : s.BeltKept { s with ft } := .of_eq rfl rfl rfl

theorem State.ae_beltKept (s : State) (ae : Engine) : s.BeltKept { s with ae } := .of_eq rfl rfl rfl

theorem State.countLate_beltKept (s : State) (d : Detection) : s.BeltKept (s.countLate d) :=
  (s.setPort_beltKept _ _).trans (State.raise_beltKept _ _ _ _)

theorem State.makeRecord_beltKept (s : State) (d : Detection) (clipped : Bool) : s.BeltKept (s.makeRecord d clipped) := by
  unfold State.makeRecord
  split
  · next hc =>
    exact ((State.create_beltKept hc).trans (State.takeOverdue_partMove _ _).beltKept).trans (State.settle_beltKept _)
  · exact s.raise_beltKept _ _ _

theorem State.noCandidate_beltKept (s : State) (d : Detection) (clipped frozen : Bool) :
    s.BeltKept (s.noCandidate d clipped frozen) := by
  unfold State.noCandidate
  split
  · exact s.countLate_beltKept d
  · split
    · exact s.makeRecord_beltKept d clipped
    · exact .refl s

theorem State.complete_beltKept (s : State) (slot : Nat) (redecide : Bool) : s.BeltKept (s.complete slot redecide) := by
  unfold State.complete
  have hd : s.BeltKept (if redecide then s.modRecord slot (decideRecord s) else s) := by
    split
    · exact (s.modRecord_partMove _ _).beltKept
    · exact .refl s
  exact (hd.trans (State.takeOverdue_partMove _ _).beltKept).trans (State.settle_beltKept _)

theorem State.giveTo_beltKept (s : State) (d : Detection) (clipped frozen : Bool) (c : Live) :
    s.BeltKept (s.giveTo d clipped frozen c) := by
  unfold State.giveTo
  split
  · exact (s.ft_beltKept _).trans (State.complete_beltKept _ _ _)
  · exact s.noCandidate_beltKept _ _ _

theorem State.absorbPart_partMove (s : State) (x : AdvancePart) : s.PartMove (s.absorbPart x) := by
  cases x with
  | silence p => exact .refl s
  | point slot => exact s.absorb_partMove slot

theorem State.merge_beltKept (s : State) (d : Detection) (clipped : Bool) (c : Live) (cs : List Live) :
    s.BeltKept (s.merge d clipped c cs) := by
  have hab := State.foldl_partMove State.absorbPart_partMove (orderParts s.draws (cs.map fun l => .point l.slot))
    { s with draws := s.draws + 1 }
  exact (((s.draws_partMove _).trans hab).beltKept.trans (State.ft_beltKept _ _)).trans (State.complete_beltKept _ _ _)

theorem State.treat_beltKept (s : State) (d : Detection) : s.BeltKept (s.treat d) := by
  unfold State.treat
  split
  · exact s.setPort_beltKept _ _
  · unfold State.matchAndTreat
    dsimp only
    split
    · exact s.noCandidate_beltKept _ _ _
    · exact s.giveTo_beltKept _ _ _ _
    · split
      · exact s.merge_beltKept _ _ _ _
      · exact s.giveTo_beltKept _ _ _ _

theorem State.take_beltKept (s : State) (p : Station) : s.BeltKept (s.take p) := by
  unfold State.take
  split
  · exact .refl s
  · exact (((s.setPort_beltKept _ _).trans (State.ae_beltKept _ _)).trans (State.treat_beltKept _ _)).trans
      (State.ae_beltKept _ _)

/-! ### Faults and settings of bars -/

theorem State.dropArmed_partMove (s : State) (x : AdvancePart) : s.PartMove (s.dropArmed x) := by
  unfold State.dropArmed
  split
  · exact .refl s
  · split
    · exact .refl s
    · split
      · exact (s.setRecState_partMove _ _).trans (State.takeOverdue_partMove _ _)
      · exact .refl s

theorem State.faultBar_beltKept (s : State) (b : Bar) : s.BeltKept (s.faultBar b) := by
  have h1 : s.BeltKept { (s.setBar b (s.bar b).faultNow) with draws := s.draws + 1 } := .of_eq rfl rfl rfl
  exact ((h1.trans (State.foldl_partMove State.dropArmed_partMove _ _).beltKept).trans (State.raise_beltKept _ _ _ _)).trans
    (State.settleFrom_beltKept _ _)

theorem State.configureBar_beltKept (s : State) (b : Bar) (st : BarSettings) : s.BeltKept (s.configureBar b st) := by
  unfold State.configureBar State.faultIfActive
  dsimp only
  split
  · exact (s.setBar_beltKept _ _).trans (State.faultBar_beltKept _ _)
  · exact s.setBar_beltKept _ _

/-! ### Requests -/

theorem writeBank_beltKept (bank : Byte) (change : Option (BankData → BankData)) (s : State) :
    s.BeltKept (writeBank bank change s).1 := by
  unfold writeBank
  split
  · exact .refl s
  · split
    · split
      · exact .refl s
      · exact .of_eq rfl rfl rfl
    · exact .refl s

theorem switchBankOp_beltKept (target : Byte) (c : Pos) (s : State) : s.BeltKept (switchBankOp target c s).1 := by
  unfold switchBankOp
  repeat' split
  all_goals exact .of_eq rfl rfl rfl

theorem setStationOp_beltKept (r : StationRequest) (s : State) : s.BeltKept (setStationOp r s).1 := by
  unfold setStationOp
  repeat' split
  all_goals exact .of_eq rfl rfl rfl

theorem setTrackingOp_beltKept (r : TrackingRequest) (s : State) : s.BeltKept (setTrackingOp r s).1 := by
  unfold setTrackingOp
  repeat' split
  all_goals exact .of_eq rfl rfl rfl

theorem setZoneOp_beltKept (r : ZoneRequest) (s : State) : s.BeltKept (setZoneOp r s).1 := by
  unfold setZoneOp
  repeat' split
  all_goals exact .of_eq rfl rfl rfl

theorem enableBarOp_beltKept (bar : Byte) (s : State) : s.BeltKept (enableBarOp bar s).1 := by
  unfold enableBarOp
  repeat' split
  all_goals exact .of_eq rfl rfl rfl

theorem setBarOp_beltKept (r : BarRequest) (s : State) : s.BeltKept (setBarOp r s).1 := by
  unfold setBarOp
  split
  · exact .refl s
  · split
    · exact s.configureBar_beltKept _ _
    · exact .refl s

theorem overrideOp_beltKept (h : HandleField) (dest : Byte) (s : State) : s.BeltKept (overrideOp h dest s).1 := by
  unfold overrideOp
  repeat' split
  all_goals exact .of_eq rfl rfl rfl

theorem State.dropIntervals_beltKept (s : State) (slot : Nat) (r : Record) : s.BeltKept (s.dropIntervals slot r) := by
  unfold State.dropIntervals
  split
  · exact s.setBar_beltKept _ _
  · exact .refl s

theorem forgetOp_beltKept (h : HandleField) (s : State) : s.BeltKept (forgetOp h s).1 := by
  unfold forgetOp
  split
  · exact .refl s
  · split
    · exact .refl s
    · exact ((s.dropIntervals_beltKept _ _).trans (State.retire_partMove _ _ _).beltKept).trans (State.settle_beltKept _)

theorem insertOp_beltKept (r : InsertRequest) (s : State) : s.BeltKept (insertOp r s).1 := by
  unfold insertOp
  split
  · exact .refl s
  · split
    · exact .refl s
    · split
      · exact .refl s
      · split
        · exact .refl s
        · split
          · exact .refl s
          · next hc => exact (State.create_beltKept hc).trans (State.modRecord_partMove _ _ _).beltKept

theorem resetOp_beltKept (s : State) : s.BeltKept (resetOp s).1 := ⟨rfl, rfl, .inr ⟨rfl, rfl⟩⟩

/-- SET_BELT writes a divider of 1 to 16 with the sub-step count at 0, in CONFIG, where REV_MAX binds no depth (R15). -/
theorem BeltOk.setBeltOp {s : State} (h : BeltOk s) (r : BeltRequest) : BeltOk (setBeltOp r s).1 := by
  unfold Machine.setBeltOp
  split
  · exact h
  · next hm =>
    split
    · next hr =>
      have hrun : s.running = false := by simp [State.running, not_not.1 hm]
      simp only [beltInRange, Bool.and_eq_true, decide_eq_true_eq] at hr
      obtain ⟨⟨⟨⟨hlow, hhigh⟩, hrev⟩, -⟩, -⟩ := hr
      exact ⟨⟨hlow, hhigh⟩, hlow, h.depth, hrev, fun hr => absurd (hrun.symm.trans hr) (by decide), h.guardIdle,
        h.guardMove, h.pulse, h.reference, h.counts⟩
    · exact h

/-- A change to RUN or DRAINING, where the depth is within REV_MAX (R8, R148). -/
theorem BeltOk.withMode {s : State} (h : BeltOk s) {m : Mode} (hm : m = .run ∨ m = .draining)
    (hd : s.bpu.depth ≤ s.bpu.revMax) : BeltOk { s with lc := { s.lc with mode := m } } := by
  have hrun : State.running { s with lc := { s.lc with mode := m } } = true := by
    rcases hm with rfl | rfl <;> rfl
  exact ⟨h.encDiv, h.sub, h.depth, h.revMax, fun _ => hd, fun hr => absurd (hrun.symm.trans hr) (by decide), h.guardMove,
    h.pulse, h.reference, h.counts⟩

/-- START enters RUN within REV_MAX alone (R148). -/
theorem BeltOk.startOp {s : State} (h : BeltOk s) : BeltOk (startOp s).1 := by
  unfold Machine.startOp
  cases hm : s.lc.mode with
  | halted => exact h
  | run => exact h
  | draining =>
    exact (h.withMode (.inl rfl) (h.run (by simp [State.running, hm]))).kept (State.settleFrom_beltKept _ _)
  | config =>
    dsimp only
    split
    · exact h
    · next hd =>
      split
      · exact (h.withMode (.inl rfl) (not_lt.1 hd)).kept (State.settleFrom_beltKept _ _)
      · exact h

theorem BeltOk.stopOp {s : State} (h : BeltOk s) : BeltOk (stopOp s).1 := by
  unfold Machine.stopOp
  cases hm : s.lc.mode with
  | run =>
    have hd := h.withMode (m := .draining) (.inr rfl) (h.run (by simp [State.running, hm]))
    exact hd.kept ((State.drainIfEmpty_partMove _).beltKept.trans (State.settleFrom_beltKept _ _))
  | _ => exact h

/-- Every request keeps the belt in bounds. -/
theorem BeltOk.request {c : Instr} {kind : Byte} {op : State → Answer} (hc : requestOf c = some (kind, op)) {s : State}
    (h : BeltOk s) : BeltOk (op s).1 := by
  cases c with
  | setBelt r => cases hc; exact h.setBeltOp r
  | enableGuard => cases hc; exact h.withGuard
  | start => cases hc; exact h.startOp
  | stop => cases hc; exact h.stopOp
  | setStation r => cases hc; exact h.kept (setStationOp_beltKept r s)
  | setTracking r => cases hc; exact h.kept (setTrackingOp_beltKept r s)
  | writeClassmap bank station first entries => cases hc; exact h.kept (writeBank_beltKept _ _ s)
  | writeDestinations r => cases hc; exact h.kept (writeBank_beltKept _ _ s)
  | switchBank target c => cases hc; exact h.kept (switchBankOp_beltKept target c s)
  | setBar r => cases hc; exact h.kept (setBarOp_beltKept r s)
  | setZone r => cases hc; exact h.kept (setZoneOp_beltKept r s)
  | enableBar bar => cases hc; exact h.kept (enableBarOp_beltKept bar s)
  | override x dest => cases hc; exact h.kept (overrideOp_beltKept x dest s)
  | forget x => cases hc; exact h.kept (forgetOp_beltKept x s)
  | insert r => cases hc; exact h.kept (insertOp_beltKept r s)
  | reset => cases hc; exact h.kept (resetOp_beltKept s)
  | clear => cases hc; exact h.kept (.of_eq rfl rfl rfl)
  | ackNotices kinds => cases hc; exact h.kept (.of_eq rfl rfl rfl)
  | setMask kinds => cases hc; exact h.kept (.of_eq rfl rfl rfl)
  | clearTallies => cases hc; exact h.kept (.of_eq rfl rfl rfl)
  | readPortCounters port => cases hc; unfold readPortCountersOp; split <;> exact h
  | readBank bank sect => cases hc; unfold readBankOp; split <;> (try split) <;> exact h
  | lookup x => cases hc; unfold lookupOp; split <;> exact h
  | find c1 c2 first last => cases hc; unfold findOp; split <;> exact h
  | scan start count => cases hc; unfold scanOp; split <;> exact h
  | readTallies block => cases hc; unfold readTalliesOp; split <;> exact h
  | readStatus => cases hc; exact h
  | readNotices => cases hc; exact h
  | readFault => cases hc; exact h
  | _ => cases hc

/-! ### Every command -/

theorem BeltOk.portFrame {s : State} (h : BeltOk s) (port : Station) (bytes : List Byte) {taken : State → State}
    (ht : ∀ u, State.PortEvent port u (taken u)) : BeltOk (s.portFrame port bytes taken) :=
  State.portFrame_keeps (fun _ _ hu => hu.kept (State.setPort_beltKept _ _ _))
    (fun _ _ hu => hu.kept (State.raise_beltKept _ _ _ _)) bytes ht h

theorem BeltOk.portBytes {s : State} (h : BeltOk s) (port : Station) (bytes : List Byte) :
    BeltOk (s.portBytes port bytes) :=
  State.portBytes_keeps_of (fun _ _ hu => hu.kept (State.setPort_beltKept _ _ _))
    (fun _ _ hu => hu.kept (State.raise_beltKept _ _ _ _)) bytes h

theorem BeltOk.linkBytes {s : State} (h : BeltOk s) (bytes : List Byte) : BeltOk (s.linkBytes bytes) :=
  State.linkBytes_keeps
    (State.linkByte_keeps (fun _ _ hu => hu.kept (.of_eq rfl rfl rfl)) fun _ _ _ hc _ hu => hu.request hc) bytes s h

/-- The levels on the encoder's pins while the part is held in reset (R146; entry 12). -/
theorem BeltOk.pinsInReset {s : State} (h : BeltOk s) {pins : Pins} (hr : pins.inReset = true) :
    BeltOk { s with pins } :=
  ⟨h.encDiv, h.sub, h.depth, h.revMax, h.run, h.guardIdle, h.guardMove, h.pulse,
    fun hf => absurd (hr.symm.trans hf) (by decide), h.counts⟩

theorem BeltOk.encoderTransition {s : State} (h : BeltOk s) (a b : Bool) :
    BeltOk (State.awake { s with pins := { s.pins with levels := ⟨a, b⟩ } } fun t => t.decodeLevels ⟨a, b⟩) := by
  rcases State.awake_cases { s with pins := { s.pins with levels := ⟨a, b⟩ } } fun t => t.decodeLevels ⟨a, b⟩ with
    ⟨hr, e⟩ | ⟨_, e⟩ <;> rw [e]
  · exact h.pinsInReset hr
  · exact h.decodeLevels ⟨a, b⟩

/-- The start of a pulse finds one owed (R7). -/
theorem BeltOk.pulseStart {s : State} (h : BeltOk s) (ho : 0 < s.bpu.owed) :
    BeltOk { s with bpu := { s.bpu with lclk := true, lclkHeld := 0 } } :=
  ⟨h.encDiv, h.sub, h.depth, h.revMax, h.run, h.guardIdle, h.guardMove, fun _ => ho, h.reference, h.counts⟩

theorem BeltOk.pulseEnd {s : State} (h : BeltOk s) :
    BeltOk { s with bpu := { s.bpu with lclk := false, lclkHeld := 0, owed := s.bpu.owed - 1 } } := by
  obtain ⟨he, ho, hrest⟩ := h.counts
  exact ⟨h.encDiv, h.sub, h.depth, h.revMax, h.run, h.guardIdle, h.guardMove, nofun, h.reference, he,
    (Nat.sub_le _ _).trans ho, hrest⟩

theorem BeltOk.tick {s : State} (h : BeltOk s) : BeltOk s.tick :=
  State.awake_keeps h fun _ =>
    ⟨h.encDiv, h.sub, h.depth, h.revMax, h.run, h.guardIdle, h.guardMove, h.pulse, h.reference, h.counts⟩

theorem BeltOk.atRelease (levels : Levels) (faultLines : PerBar Bool) : BeltOk (State.atRelease levels faultLines) :=
  ⟨(by decide : 1 ≤ 4 ∧ 4 ≤ 16), (by decide : 0 < 4), (stepsTo_self 0).trans_le (Nat.zero_le _), (by decide : 256 ≤ 1023),
    nofun, fun _ => rfl, fun _ => rfl, nofun, fun _ => rfl,
    (by decide : 0 ≤ 65535 ∧ 0 ≤ 255 ∧ 0 ≤ 65535 ∧ 0 ≤ 65535 ∧ 0 ≤ 255 ∧ 0 ≤ 255)⟩

/-- Every command that is no request keeps the belt in bounds. -/
theorem BeltOk.event {c : Instr} (hc : requestOf c = none) {s t : State} (h : BeltOk s) (he : exec c s = .next t) :
    BeltOk t := by
  cases c with
  | encoderTransition a b => cases he; exact h.encoderTransition a b
  | lclkPulseStart =>
    cases he
    refine State.awake_keeps h fun _ => ?_
    split
    · next ho => exact h.pulseStart ho.1
    · exact h
  | lclkPulseEnd =>
    cases he
    refine State.awake_keeps h fun _ => ?_
    split
    · exact h.pulseEnd
    · exact h
  | windowEnd => cases he; exact State.awake_keeps h fun _ => h.endWindow
  | sync port f =>
    cases he
    exact State.awake_keeps h fun _ => h.portFrame port _ fun u => u.syncArrives_portEvent port f
  | detect port f =>
    cases he
    exact State.awake_keeps h fun _ => h.portFrame port _ fun u => u.detectArrives_portEvent port f
  | badFrame port length kind => cases he; exact State.awake_keeps h fun _ => h.portBytes port _
  | portStartMark port => cases he; exact State.awake_keeps h fun _ => h.portBytes port [sensorMark]
  | assocTake =>
    cases he
    refine State.awake_keeps h fun _ => ?_
    split
    · split
      · exact h.kept (s.take_beltKept _)
      · exact h
    · exact h
  | maxonCut b n =>
    cases he
    refine State.awake_keeps h fun _ => ?_
    split
    · exact h.kept (s.setBar_beltKept _ _)
    · exact h
  | coolingEnd b n =>
    cases he
    refine State.awake_keeps h fun _ => ?_
    dsimp only
    split
    · exact h.kept (s.setBar_beltKept _ _)
    · exact h
  | valveFrameStart b => cases he; exact State.awake_keeps h fun _ => h.kept (s.setBar_beltKept _ _)
  | valveFrameEnd b =>
    cases he
    refine State.awake_keeps h fun _ => ?_
    dsimp only
    split
    · exact h.kept (s.setBar_beltKept _ _)
    · exact h
  | refreshExpiry b => cases he; exact State.awake_keeps h fun _ => h.kept (s.setBar_beltKept _ _)
  | driverFault b =>
    cases he
    have hpins : BeltOk { s with pins := { s.pins with faultLines := s.pins.faultLines.set b true } } :=
      h.kept ⟨rfl, rfl, .inl ⟨rfl, rfl⟩⟩
    refine State.awake_keeps hpins fun _ => ?_
    split
    · exact hpins.kept (State.faultBar_beltKept _ _)
    · exact hpins
  | faultLineInactive b => cases he; exact h.kept ⟨rfl, rfl, .inl ⟨rfl, rfl⟩⟩
  | resetPin =>
    cases he
    exact (BeltOk.atRelease s.pins.levels s.pins.faultLines).kept (.of_eq rfl rfl rfl)
  | resetPinAsserted =>
    cases he
    exact (h.pinsInReset (pins := { s.pins with inReset := true }) rfl).kept (.of_eq rfl rfl rfl)
  | overlongFrame length => cases he; exact State.awake_keeps h fun _ => h.linkBytes _
  | garbledFrame kind body check =>
    cases he
    refine State.awake_keeps h fun _ => ?_
    split
    · exact State.linkFrame_keeps (fun _ _ hu => hu.kept (.of_eq rfl rfl rfl)) (fun _ _ _ hc _ hu => hu.request hc) _
        (fun _ hu => State.takeFrame_keeps (fun _ _ hw => hw.kept (.of_eq rfl rfl rfl)) (fun _ _ _ hc _ hw => hw.request hc)
          kind body check hu) h
    · exact h.linkBytes _
  | replySent => cases he; exact State.awake_keeps h fun _ => h.kept (.of_eq rfl rfl rfl)
  | startMark => cases he; exact State.awake_keeps h fun _ => h.linkBytes [supervisorMark]
  | _ => cases hc

/-- Every command keeps the belt in bounds. -/
theorem BeltOk.exec {c : Instr} {s t : State} (h : BeltOk s) (he : exec c s = .next t) : BeltOk t := by
  cases hc : requestOf c with
  | none => exact h.event hc he
  | some x =>
    exact exec_request_keeps (fun _ _ hu => hu.kept (.of_eq rfl rfl rfl)) (fun _ _ _ hr _ hu => hu.request hr) hc h he

/-- What every command keeps, and a microsecond and a change of queue or draws, every step keeps. -/
theorem step_keeps {P : State → Prop} (hexec : ∀ c s t, P s → Machine.exec c s = .next t → P t)
    (htick : ∀ s, P s → P s.tick) (hpending : ∀ s pending, P s → P { s with pending })
    (hdraws : ∀ s draws, P s → P { s with draws }) {s t : State} (h : P s) (hs : step s = .next t) : P t := by
  unfold step at hs
  split at hs
  · exact hexec _ _ _ (hpending s _ h) hs
  · unfold idle at hs
    split at hs
    · exact hexec _ _ _ (hdraws s _ h) hs
    · cases hs
      exact htick s h

/-- Settles O53. -/
theorem step_keeps_the_belt_in_bounds : Obligations.Step_keeps_the_belt_in_bounds := fun _ _ h hs =>
  step_keeps (fun _ _ _ hu he => hu.exec he) (fun _ hu => hu.tick) (fun _ _ hu => hu.kept (.of_eq rfl rfl rfl))
    (fun _ _ hu => hu.kept (.of_eq rfl rfl rfl)) h hs

end Sys2Proof.Machine
end

