-- ==== Sys2Proof/Proofs/Settle.lean ====
section
/-! SUPPORT. What evaluating the nozzles of a bar does to nozzles, zones and bus, place by place (R103, R122, R123, R128). -/

namespace Sys2Proof.Machine

/-! ### One nozzle -/

/-- A nozzle whose terms of the line fail is closed where it was OPEN (R122, R123). -/
theorem Nozzle.eval_false (n : Nozzle) (T : Pos) :
    n.eval false T = if n.st = .opened then { n with st := .closed, onTime := 0 } else n := by
  unfold Nozzle.eval Nozzle.openCond
  cases h : n.st <;> simp

theorem Nozzle.willOpen_iff (n : Nozzle) (go : Bool) (T : Pos) :
    n.willOpen go T = true ↔ n.st = .closed ∧ (n.eval go T).st = .opened := by
  unfold Nozzle.willOpen Nozzle.eval
  cases h : n.st <;> cases hc : n.openCond go T <;> simp [h]

/-- An evaluation changes the state of a nozzle exactly by opening or closing it (R123). -/
theorem Nozzle.eval_changes_iff (n : Nozzle) (go : Bool) (T : Pos) :
    n.st ≠ (n.eval go T).st ↔ n.willOpen go T = true ∨ n.willClose go T = true := by
  unfold Nozzle.willOpen Nozzle.willClose Nozzle.eval
  cases h : n.st <;> cases hc : n.openCond go T <;> simp [h]

/-! ### The nozzles of a bar -/

theorem BarUnit.getElem?_nozzles (u : BarUnit) (m : Nat) (n : Nozzle) :
    u.nozzles[m]? = some n ↔ m < u.nozzles.length ∧ u.nozzle m = n := by
  rw [List.getElem?_eq_some_iff, BarUnit.nozzle]
  constructor
  · rintro ⟨hm, rfl⟩
    exact ⟨hm, by simp [hm]⟩
  · rintro ⟨hm, rfl⟩
    exact ⟨hm, by simp [hm]⟩

theorem BarUnit.length_evalAll (u : BarUnit) (go : Bool) (T : Pos) :
    (u.evalAll go T).nozzles.length = u.nozzles.length := by
  simp [BarUnit.evalAll_nozzles]

theorem BarUnit.nozzle_evalAll {u : BarUnit} {m : Nat} (hm : m < u.nozzles.length) (go : Bool) (T : Pos) :
    (u.evalAll go T).nozzle m = (u.nozzle m).eval go T := by
  simp [BarUnit.nozzle, BarUnit.evalAll_nozzles, hm]

/-- The nozzles that an evaluation of the bar opens. -/
def BarUnit.opening (u : BarUnit) (go : Bool) (T : Pos) : List Nat :=
  u.nozzles.zipIdx.filterMap fun ni => if ni.1.willOpen go T then some ni.2 else none

theorem BarUnit.mem_opening (u : BarUnit) (go : Bool) (T : Pos) (m : Nat) :
    m ∈ u.opening go T ↔ m < u.nozzles.length ∧ (u.nozzle m).willOpen go T = true := by
  simp only [BarUnit.opening, List.mem_filterMap, Prod.exists, Option.ite_none_right_eq_some, Option.some.injEq]
  constructor
  · rintro ⟨n, i, hmem, hopen, rfl⟩
    obtain ⟨hm, rfl⟩ := (u.getElem?_nozzles i n).1 (List.mem_zipIdx_iff_getElem?.1 hmem)
    exact ⟨hm, hopen⟩
  · rintro ⟨hm, hopen⟩
    exact ⟨u.nozzle m, m, List.mem_zipIdx_iff_getElem?.2 ((u.getElem?_nozzles m _).2 ⟨hm, rfl⟩), hopen, rfl⟩

theorem BarUnit.evalAll_zones (u : BarUnit) (go : Bool) (T : Pos) :
    (u.evalAll go T).zones = markFired u.zones (u.opening go T) := by
  simp [BarUnit.evalAll, BarUnit.evalWhere, BarUnit.opening]

/-- The zones after an opening, place by place (R103). -/
theorem getElem?_markFired (zones : List Zone) (lanes : List Nat) (i : Nat) :
    (markFired zones lanes)[i]? =
      zones[i]?.map fun z => { z with fired := z.fired || lanes.any fun lane => governing zones lane == some i } := by
  simp only [markFired, List.getElem?_map, List.getElem?_zipIdx, Option.map_map, Nat.zero_add]
  rfl

theorem markFired_nil (zones : List Zone) : markFired zones [] = zones :=
  List.ext_getElem? fun i => by simp [getElem?_markFired]

/-- An evaluation owes a frame where it opens or closes a nozzle (R128). -/
theorem BarUnit.evalAll_owed (u : BarUnit) (go : Bool) (T : Pos) :
    (u.evalAll go T).bus.owed =
      (u.bus.owed || !(u.opening go T).isEmpty || u.nozzles.zipIdx.any fun ni => ni.1.willClose go T) := by
  simp [BarUnit.evalAll, BarUnit.evalWhere, BarUnit.opening]

/-- The bus of an evaluated bar: a change of its nozzles owes a frame, and nothing else changes (R128). -/
theorem BarUnit.evalAll_bus (u : BarUnit) (go : Bool) (T : Pos) :
    (u.evalAll go T).bus = { u.bus with owed := (u.evalAll go T).bus.owed } ∧
    ((u.evalAll go T).bus.owed = true ↔ u.bus.owed = true ∨
      ∃ m, m < u.nozzles.length ∧ (u.nozzle m).st ≠ ((u.nozzle m).eval go T).st) := by
  refine ⟨rfl, ?_⟩
  have hopen : (u.opening go T).isEmpty = false ↔ ∃ m, m < u.nozzles.length ∧ (u.nozzle m).willOpen go T = true := by
    rw [List.isEmpty_eq_false_iff_exists_mem]
    exact exists_congr fun m => u.mem_opening go T m
  have hclose : (u.nozzles.zipIdx.any fun ni => ni.1.willClose go T) = true ↔
      ∃ m, m < u.nozzles.length ∧ (u.nozzle m).willClose go T = true := by
    simp only [List.any_eq_true, Prod.exists]
    constructor
    · rintro ⟨n, m, hmem, hc⟩
      obtain ⟨hm, rfl⟩ := (u.getElem?_nozzles m n).1 (List.mem_zipIdx_iff_getElem?.1 hmem)
      exact ⟨m, hm, hc⟩
    · rintro ⟨m, hm, hc⟩
      exact ⟨u.nozzle m, m, List.mem_zipIdx_iff_getElem?.2 ((u.getElem?_nozzles m _).2 ⟨hm, rfl⟩), hc⟩
  simp only [u.evalAll_owed, Bool.or_eq_true, Bool.not_eq_true', hopen, hclose, Nozzle.eval_changes_iff, and_or_left, exists_or,
    or_assoc]

/-- A bar whose terms of the line fail: its OPEN nozzles close, which owes a frame, and no zone is fired (R122, R123). -/
theorem BarUnit.evalAll_false (u : BarUnit) (T : Pos) :
    u.evalAll false T =
      { u with
        nozzles := u.nozzles.map fun n => if n.st = .opened then { n with st := .closed, onTime := 0 } else n
        bus := { u.bus with owed := u.bus.owed || u.nozzles.any fun n => n.st == .opened } } := by
  have hopening : u.opening false T = [] := List.eq_nil_iff_forall_not_mem.2 fun m hm => by
    have := ((u.mem_opening false T m).1 hm).2
    simp [Nozzle.willOpen, Nozzle.openCond] at this
  have hclosing : (u.nozzles.zipIdx.any fun ni => ni.1.willClose false T) = u.nozzles.any fun n => n.st == .opened := by
    calc (u.nozzles.zipIdx.any fun ni => ni.1.willClose false T)
        = (u.nozzles.zipIdx.map Prod.fst).any (fun n => n.st == .opened) := by
          rw [List.any_map]
          simp only [Nozzle.willClose, Nozzle.openCond, Bool.false_and, Bool.not_false, Bool.and_true, Function.comp_def]
      _ = _ := by rw [List.zipIdx_map_fst]
  have hnozzles := u.evalAll_nozzles false T
  simp only [Nozzle.eval_false] at hnozzles
  have hzones := u.evalAll_zones false T
  rw [hopening, markFired_nil] at hzones
  have howed : (u.evalAll false T).bus.owed = (u.bus.owed || u.nozzles.any fun n => n.st == .opened) := by
    simp [u.evalAll_owed, hopening, hclosing]
  calc u.evalAll false T = { u with
        nozzles := (u.evalAll false T).nozzles
        zones := (u.evalAll false T).zones
        bus := { u.bus with owed := (u.evalAll false T).bus.owed } } := rfl
    _ = _ := by rw [hnozzles, hzones, howed]

/-! ### The nozzles of the part -/

theorem State.mayOpen_eq (s : State) (b : Bar) : s.mayOpen b = s.barOpen (s.bar b) := by
  simp only [State.mayOpen, State.barOpen, State.lineOpen, State.running]
  ac_rfl

/-- After settling every nozzle but a cooling one is OPEN exactly while its condition holds (R122). -/
theorem State.settle_evaluated (s : State) : s.settle.Evaluated := by
  intro b n hn hst
  have hmay : s.settle.mayOpen b = s.barOpen (s.bar b) := by
    rw [State.mayOpen_eq, State.bar_settle]
    rfl
  rw [State.bar_settle, BarUnit.evalAll_nozzles, List.mem_map] at hn
  obtain ⟨m, -, rfl⟩ := hn
  rw [(m.eval_spec _ _).2.2 hst, hmay, m.eval_ivals, State.settle_bpu]
  simp [Nozzle.covered]

/-- Where the terms of the line fail no evaluated nozzle is OPEN (R122). -/
theorem State.Evaluated.not_opened {s : State} (h : s.Evaluated) (hl : s.lineOpen = false) (b : Bar) :
    ∀ n ∈ (s.bar b).nozzles, n.st ≠ .opened := by
  intro n hn hst
  have hgo := ((h b n hn (by rw [hst]; decide)).1 hst).1
  rw [State.mayOpen_eq, State.barOpen, hl] at hgo
  simp at hgo

/-- No nozzle is OPEN once the terms of the line fail and the nozzles are evaluated (R122). -/
theorem State.settle_not_opened {s : State} (h : s.lineOpen = false) (b : Bar) :
    ∀ n ∈ (s.settle.bar b).nozzles, n.st ≠ .opened :=
  s.settle_evaluated.not_opened (s := s.settle) h b

/-- An event that changes neither the bars nor the terms of the line leaves the bars as they are (R122). -/
theorem State.settleFrom_bars {u s : State} (hb : u.bars = s.bars) (h : u.lineOpen = s.lineOpen) :
    (u.settleFrom s).bars = s.bars := by
  rw [State.settleFrom, if_pos h, hb]

/-- An event that leaves the bars and after which the terms of the line fail closes every OPEN nozzle (R122, R123). -/
theorem State.settleFrom_closed {u s : State} (hs : s.Evaluated) (hb : u.bars = s.bars) (h : u.lineOpen = false) (b : Bar) :
    (u.settleFrom s).bar b =
      { s.bar b with
        nozzles := (s.bar b).nozzles.map fun n => if n.st = .opened then { n with st := .closed, onTime := 0 } else n
        bus :=
          { (s.bar b).bus with owed := (s.bar b).bus.owed || (s.bar b).nozzles.any fun n => n.st == .opened } } := by
  have hub : u.bar b = s.bar b := by rw [State.bar, State.bar, hb]
  unfold State.settleFrom
  split
  · next hsame =>
    have hno := hs.not_opened (hsame.symm.trans h) b
    have hid : (s.bar b).nozzles.map (fun n => if n.st = .opened then { n with st := .closed, onTime := 0 } else n) =
        (s.bar b).nozzles := (List.map_congr_left fun n hn => if_neg (hno n hn)).trans (List.map_id' _)
    have hany : ((s.bar b).nozzles.any fun n => n.st == .opened) = false :=
      List.any_eq_false.2 fun n hn => by simpa using hno n hn
    rw [hub, hid, hany, Bool.or_false]
  · rw [State.bar_settle, State.barOpen, h, Bool.false_and, hub, BarUnit.evalAll_false]

end Sys2Proof.Machine
end

