-- ==== Sys2Proof/Proofs/Encoder.lean ====
section
/-! SUPPORT. The encoder, the step divider, the Line Clock and the speed window; settles O5, O6, O7, O10 and O11. -/

namespace Sys2Proof.Machine

/-! ### The decoder (R1) -/

/-- Outside reset the levels stand on the pins and the decoder acts on them. -/
theorem exec_encoderTransition {s : State} (h : s.pins.inReset = false) (a b : Bool) :
    exec (.encoderTransition a b) s =
      .next (State.decodeLevels { s with pins := { s.pins with levels := ⟨a, b⟩ } } ⟨a, b⟩) :=
  congrArg Host.Outcome.next (State.awake_of (s := { s with pins := { s.pins with levels := ⟨a, b⟩ } }) h _)

theorem State.decodeLevels_twoApart {s : State} {a b : Bool} (ha : a ≠ s.bpu.ref.a) (hb : b ≠ s.bpu.ref.b) :
    s.decodeLevels ⟨a, b⟩ =
      { s with bpu := { s.bpu with ref := ⟨a, b⟩, encErr := min (s.bpu.encErr + 1) 65535 } } := by
  rcases href : s.bpu.ref with ⟨a', b'⟩
  rw [href] at ha hb
  unfold State.decodeLevels
  rw [href]
  cases a <;> cases b <;> cases a' <;> cases b' <;> simp_all [Levels.phase, satAdd_eq_min, Config.halfMax]

theorem State.decodeLevels_oneApart {s : State} {a b : Bool}
    (h : a = s.bpu.ref.a ∧ b ≠ s.bpu.ref.b ∨ a ≠ s.bpu.ref.a ∧ b = s.bpu.ref.b)
    (hf : ¬(s.bpu.ref = ⟨false, true⟩ ∧ a = false ∧ b = false)) (hr : ¬(s.bpu.ref = ⟨false, false⟩ ∧ a = false ∧ b = true)) :
    s.decodeLevels ⟨a, b⟩ = { s with bpu := { s.bpu with ref := ⟨a, b⟩ } } := by
  rcases href : s.bpu.ref with ⟨a', b'⟩
  rw [href] at h hf hr
  unfold State.decodeLevels
  rw [href]
  cases a <;> cases b <;> cases a' <;> cases b' <;> simp_all [Levels.phase]

theorem State.decodeLevels_forward {s : State} (h : s.bpu.ref = ⟨false, true⟩) :
    s.decodeLevels ⟨false, false⟩ = State.forwardCount { s with bpu := { s.bpu with ref := ⟨false, false⟩ } } := by
  simp [State.decodeLevels, h, Levels.phase]

theorem State.decodeLevels_reverse {s : State} (h : s.bpu.ref = ⟨false, false⟩) :
    s.decodeLevels ⟨false, true⟩ = State.reverseCount { s with bpu := { s.bpu with ref := ⟨false, true⟩ } } := by
  simp [State.decodeLevels, h, Levels.phase]

/-- The edge from phase 3 to phase 0 is a forward count. -/
theorem exec_forward {s : State} (hs : s.pins.inReset = false) (h : s.bpu.ref = ⟨false, true⟩) :
    exec (.encoderTransition false false) s =
      .next (State.forwardCount
        { s with pins := { s.pins with levels := ⟨false, false⟩ }, bpu := { s.bpu with ref := ⟨false, false⟩ } }) := by
  rw [exec_encoderTransition hs, State.decodeLevels_forward]
  exact h

/-- The edge from phase 0 to phase 3 is a reverse count. -/
theorem exec_reverse {s : State} (hs : s.pins.inReset = false) (h : s.bpu.ref = ⟨false, false⟩) :
    exec (.encoderTransition false true) s =
      .next (State.reverseCount
        { s with pins := { s.pins with levels := ⟨false, true⟩ }, bpu := { s.bpu with ref := ⟨false, true⟩ } }) := by
  rw [exec_encoderTransition hs, State.decodeLevels_reverse]
  exact h

/-- Settles O5. -/
theorem encoder_transition_without_a_count : Obligations.Encoder_transition_without_a_count := by
  intro a b s hs
  rw [exec_encoderTransition hs]
  refine ⟨fun ⟨ha, hb⟩ => ?_, fun h hf hr => ?_⟩
  · rw [State.decodeLevels_twoApart]
    exacts [ha, hb]
  · rw [State.decodeLevels_oneApart]
    exacts [h, hf, hr]

/-! ### Counts and steps (R2, R3, R4, R8) -/

theorem State.forwardCount_within {s : State} (h : s.bpu.sub + 1 ≠ s.bpu.encDiv) :
    s.forwardCount = { s with bpu := { s.bpu with sub := s.bpu.sub + 1 } } := if_neg h

theorem State.forwardCount_step {s : State} (h : s.bpu.sub + 1 = s.bpu.encDiv) :
    s.forwardCount = State.forwardStep { s with bpu := { s.bpu with sub := 0 } } := if_pos h

theorem State.forwardStep_recovery {s : State} (h : s.bpu.P ≠ s.bpu.T) :
    s.forwardStep = State.settle { s with bpu := { s.bpu with P := s.bpu.P + 1 } } := if_neg h

theorem State.forwardStep_advance {s : State} (h : s.bpu.P = s.bpu.T) : s.forwardStep = s.advance := if_pos h

theorem State.reverseCount_within {s : State} (h : 0 < s.bpu.sub) :
    s.reverseCount = { s with bpu := { s.bpu with sub := s.bpu.sub - 1 } } := if_pos h

/-- A reverse count at the bound on the depth is not taken (R4). -/
theorem State.reverseCount_bound {s : State} (h : s.bpu.sub = 0) (hd : 1048575 ≤ s.bpu.depth) : s.reverseCount = s := by
  have hb : Config.maxDepth < s.bpu.depth + 1 := Nat.lt_succ_of_le hd
  simp [State.reverseCount, h, hb]

theorem State.reverseCount_step {s : State} (h : s.bpu.sub = 0) (hd : s.bpu.depth < 1048575) :
    s.reverseCount = State.reverseStep { s with bpu := { s.bpu with sub := s.bpu.encDiv - 1 } } := by
  have hb : ¬Config.maxDepth < s.bpu.depth + 1 := not_lt.2 (Nat.succ_le_of_lt hd)
  simp [State.reverseCount, h, hb]

/-- The depth after a reverse step (R3). -/
theorem Bpu.depth_reverse {b : Bpu} (hd : b.depth < 1048575) : Bpu.depth { b with P := b.P - 1 } = b.depth + 1 :=
  stepsTo_pred (hd.trans (by decide))

/-- A reverse step that leaves the line in its mode (R3, R8). -/
theorem State.reverseStep_kept {s : State} (hd : s.bpu.depth < 1048575)
    (h : s.running = false ∨ s.bpu.depth + 1 ≤ s.bpu.revMax) :
    s.reverseStep = State.settle { s with bpu := { s.bpu with P := s.bpu.P - 1 } } := by
  unfold State.reverseStep
  dsimp only
  rw [Bpu.depth_reverse hd]
  split
  · next hlt =>
    rcases State.halt_cases { s with bpu := { s.bpu with P := s.bpu.P - 1 } } with ⟨_, e⟩ | ⟨hr, _⟩
    · rw [e]
    · exact absurd ((h.resolve_right (by omega)).symm.trans hr) (by decide)
  · rfl

/-- A reverse step beyond REV_MAX halts the running line (R8, R152). -/
theorem State.reverseStep_halts {s : State} (hd : s.bpu.depth < 1048575) (hr : s.running = true)
    (h : s.bpu.revMax < s.bpu.depth + 1) :
    s.reverseStep =
      State.settle
        { s with
          bpu := { s.bpu with P := s.bpu.P - 1, G := 0 }
          lc := { s.lc.raise s.bpu.T .halted .none none with mode := .halted, faultLine := true } } := by
  unfold State.reverseStep
  dsimp only
  rw [Bpu.depth_reverse hd, if_pos h]
  rcases State.halt_cases { s with bpu := { s.bpu with P := s.bpu.P - 1 } } with ⟨hf, _⟩ | ⟨_, e⟩
  · exact absurd (hf.symm.trans hr) (by decide)
  · rw [e]

/-- Settles O6. -/
theorem counts_move_the_sub_step_and_P : Obligations.Counts_move_the_sub_step_and_P := by
  intro s hs
  refine ⟨fun href => ⟨fun hsub => ?_, fun hsub hP => ?_⟩, fun href => ⟨fun hsub => ?_, fun hsub hd => ?_,
    fun hsub hd hr => ?_⟩⟩
  · rw [exec_forward hs href, State.forwardCount_within]
    exact hsub
  · rw [exec_forward hs href, State.forwardCount_step, State.forwardStep_recovery]
    exacts [hP, hsub]
  · rw [exec_reverse hs href, State.reverseCount_within]
    exact hsub
  · rw [exec_reverse hs href, State.reverseCount_bound]
    exacts [hsub, hd]
  · rw [exec_reverse hs href, State.reverseCount_step, State.reverseStep_kept]
    exacts [hd, hr, hsub, hd]

/-! ### The halt (R8, R152) -/

theorem Condition.worse_halted (c : Condition) : c.worse .halted = .halted := by cases c <;> rfl

/-- Settles O7. -/
theorem reverse_step_beyond_REV_MAX_halts : Obligations.Reverse_step_beyond_REV_MAX_halts := by
  intro s hs href hsub hrun hd hlt
  obtain ⟨hpend, -, -, -, -, -, hcond, hcap⟩ := s.lc.raise_spec s.bpu.T .halted .none none
  have hexec : exec (.encoderTransition false true) s = .next (State.settle
      { s with
        pins := { s.pins with levels := ⟨false, true⟩ }
        bpu := { s.bpu with ref := ⟨false, true⟩, sub := s.bpu.encDiv - 1, P := s.bpu.P - 1, G := 0 }
        lc := { s.lc.raise s.bpu.T .halted .none none with mode := .halted, faultLine := true } }) := by
    rw [exec_reverse hs href, State.reverseCount_step, State.reverseStep_halts]
    exacts [hd, hrun, hlt, hsub, hd]
  refine ⟨_, hexec, rfl, hcond.trans (Condition.worse_halted _), rfl, hpend, fun hc => ?_, rfl, fun b => ?_, rfl, rfl, rfl,
    rfl, rfl, rfl⟩
  · simpa [NoticeKind.level, hc, captureNext] using hcap
  · exact State.settle_not_opened rfl b

/-! ### The Line Clock (R7) -/

/-- Settles O10. -/
theorem line_Clock_pulse_start_and_end : Obligations.Line_Clock_pulse_start_and_end := by
  intro s hs
  have hstart : exec .lclkPulseStart s = .next (if 0 < s.bpu.owed ∧ s.bpu.lclk = false then
      { s with bpu := { s.bpu with lclk := true, lclkHeld := 0 } } else s) :=
    congrArg Host.Outcome.next (State.awake_of hs _)
  have hend : exec .lclkPulseEnd s = .next (if s.bpu.lclk = true then
      { s with bpu := { s.bpu with lclk := false, lclkHeld := 0, owed := s.bpu.owed - 1 } } else s) :=
    congrArg Host.Outcome.next (State.awake_of hs _)
  rw [hstart, hend]
  refine ⟨fun ho hl => by rw [if_pos ⟨ho, hl⟩], fun h => ?_, fun hl => by rw [if_pos hl], fun hl => by simp [hl]⟩
  rcases h with ho | hl
  · simp [ho]
  · simp [hl]

/-! ### The end of a window (R9 to R11, R14) -/

theorem exec_windowEnd {s : State} (h : s.pins.inReset = false) : exec .windowEnd s = .next s.endWindow :=
  congrArg Host.Outcome.next (State.awake_of h _)

/-- What the guard countdown can do at the end of a window: nothing, one more empty window, or the halt (R14). -/
theorem State.countGuard_cases (s : State) {counts : Bool} (hr : counts = true → s.running = true) :
    (counts = false ∧ s.countGuard counts = s) ∨
    (counts = true ∧ min (s.bpu.G + 1) 255 < s.bpu.guardW ∧
      s.countGuard counts = { s with bpu := { s.bpu with G := min (s.bpu.G + 1) 255 } }) ∨
    (counts = true ∧ s.bpu.guardW ≤ min (s.bpu.G + 1) 255 ∧
      s.countGuard counts =
        { s with
          bpu := { s.bpu with G := 0 }
          lc := { s.lc.raise s.bpu.T .halted .none none with mode := .halted, faultLine := true } }) := by
  have hG : satAdd Config.byteMax s.bpu.G 1 = min (s.bpu.G + 1) 255 := satAdd_eq_min _ _ _
  unfold State.countGuard
  dsimp only
  rw [hG]
  cases counts with
  | false => exact .inl ⟨rfl, rfl⟩
  | true =>
    rw [if_pos rfl]
    by_cases hg : s.bpu.guardW ≤ min (s.bpu.G + 1) 255
    · rw [if_pos hg]
      rcases State.halt_cases { s with bpu := { s.bpu with G := min (s.bpu.G + 1) 255 } } with ⟨hf, _⟩ | ⟨_, e⟩
      · exact absurd (hf.symm.trans (hr rfl)) (by decide)
      · exact .inr (.inr ⟨rfl, hg, by rw [e]⟩)
    · rw [if_neg hg]
      exact .inr (.inl ⟨rfl, not_le.1 hg, rfl⟩)

/-- STALL raised keeps everything but Line Control's pending set and ATTN (R11). -/
theorem State.reportStall_cases (s : State) (declared : Bool) :
    (declared = false ∧ s.reportStall declared = s) ∨
    (declared = true ∧ s.reportStall declared = s.raise .stall .none none) := by
  cases declared
  · exact .inl ⟨rfl, rfl⟩
  · exact .inr ⟨rfl, rfl⟩

/-- A window end is stalled before it or declares the stall (R11). -/
theorem Bpu.closeWindow_stalled_iff (b : Bpu) :
    b.closeWindow.stalled = true ↔ b.stalled = true ∨ b.stallW ≤ b.closeWindow.Z := by
  simp only [Bpu.closeWindow_stalled, Bpu.closeWindow_Z, Bpu.declaresStall, Bool.or_eq_true, Bool.and_eq_true,
    Bool.not_eq_true', decide_eq_true_eq]
  cases b.stalled <;> simp

/-- The belt at the end of a window, the stall and the countdown apart (R9 to R11). -/
theorem Bpu.closeWindow_eq (b : Bpu) :
    b.closeWindow =
      { b with
        windowTime := 0, windowCount := 0
        history := ⟨b.history.older, b.history.newer, b.history.newest, b.windowCount⟩
        V := min (b.history.older + b.history.newer + b.history.newest + b.windowCount) 65535
        Z := if b.windowCount = 0 then min (b.Z + 1) 255 else 0
        stalled := b.closeWindow.stalled } := by
  have hZ : b.closeWindow.Z = if b.windowCount = 0 then min (b.Z + 1) 255 else 0 := by
    simp only [Bpu.closeWindow_Z, nextZ, satAdd_eq_min, Config.byteMax]
  rw [← hZ]
  rfl

theorem State.guardCounts_iff (s : State) :
    s.guardCounts = true ↔ s.bpu.windowCount = 0 ∧ s.bpu.stalled = true ∧ s.bpu.guard = true ∧ s.running = true := by
  simp [State.guardCounts, and_assoc]

/-- The state at the end of a window before the nozzles are evaluated (R9 to R14). -/
def State.windowClosed (s : State) : State :=
  (State.reportStall { s with bpu := s.bpu.closeWindow } s.bpu.declaresStall).countGuard s.guardCounts

/-- A window end does one of four things: it does not count for the guard, and declares a stall or none; or it counts, on
a stalled running line, short of GUARD_W or with the halt (R11, R14). -/
theorem State.windowClosed_cases (s : State) :
    let u : State := { s with bpu := s.bpu.closeWindow }
    (s.guardCounts = false ∧ s.bpu.declaresStall = false ∧ s.windowClosed = u) ∨
    (s.guardCounts = false ∧ s.bpu.declaresStall = true ∧ s.windowClosed = u.raise .stall .none none) ∨
    (s.guardCounts = true ∧ min (s.bpu.G + 1) 255 < s.bpu.guardW ∧
      s.windowClosed = { u with bpu := { u.bpu with G := min (s.bpu.G + 1) 255 } }) ∨
    (s.guardCounts = true ∧ s.bpu.guardW ≤ min (s.bpu.G + 1) 255 ∧
      s.windowClosed =
        { u with
          bpu := { u.bpu with G := 0 }
          lc := { s.lc.raise s.bpu.T .halted .none none with mode := .halted, faultLine := true } }) := by
  intro u
  cases hg : s.guardCounts with
  | false =>
    have hw : s.windowClosed = u.reportStall s.bpu.declaresStall := by rw [State.windowClosed, hg]; rfl
    rcases u.reportStall_cases s.bpu.declaresStall with ⟨hd, e⟩ | ⟨hd, e⟩
    · exact .inl ⟨rfl, hd, hw.trans e⟩
    · exact .inr (.inl ⟨rfl, hd, hw.trans e⟩)
  | true =>
    obtain ⟨-, hstall, -, hrun⟩ := s.guardCounts_iff.1 hg
    have hd : s.bpu.declaresStall = false := by simp [Bpu.declaresStall, hstall]
    have hw : s.windowClosed = u.countGuard true := by
      rw [State.windowClosed, hg, hd]
      rfl
    rcases u.countGuard_cases (counts := true) fun _ => hrun with ⟨hf, _⟩ | ⟨_, hlt, e⟩ | ⟨_, hle, e⟩
    · cases hf
    · exact .inr (.inr (.inl ⟨rfl, hlt, hw.trans e⟩))
    · exact .inr (.inr (.inr ⟨rfl, hle, hw.trans e⟩))

/-- Before the nozzles are evaluated a window end touches the belt and Line Control alone. -/
theorem State.windowClosed_frame (s : State) :
    s.windowClosed.bpu = { s.bpu.closeWindow with G := s.windowClosed.bpu.G } ∧ s.windowClosed.bars = s.bars ∧
    s.windowClosed.ft = s.ft ∧ s.windowClosed.ports = s.ports ∧ s.windowClosed.tracking = s.tracking ∧
    s.windowClosed.ae = s.ae ∧ s.windowClosed.banks = s.banks ∧ s.windowClosed.link = s.link := by
  rcases s.windowClosed_cases with ⟨_, _, e⟩ | ⟨_, _, e⟩ | ⟨_, _, e⟩ | ⟨_, _, e⟩ <;> rw [e] <;>
    exact ⟨rfl, rfl, rfl, rfl, rfl, rfl, rfl, rfl⟩

/-- Where the guard does not count, the countdown, the mode and FAULT stay; a stall is declared with STALL (R11, R14). -/
theorem State.windowClosed_uncounted {s : State} (h : s.guardCounts = false) :
    s.windowClosed.bpu.G = s.bpu.G ∧ s.windowClosed.lc.mode = s.lc.mode ∧
    s.windowClosed.lc.faultLine = s.lc.faultLine ∧
    (s.bpu.declaresStall = true → s.windowClosed.lc.pendingSet.getLsbD 11 = true) := by
  rcases s.windowClosed_cases with ⟨_, hd, e⟩ | ⟨_, _, e⟩ | ⟨hg, _⟩ | ⟨hg, _⟩
  · rw [e]
    exact ⟨rfl, rfl, rfl, fun hd' => absurd (hd.symm.trans hd') (by decide)⟩
  · rw [e]
    exact ⟨rfl, by simp, by simp, fun _ => s.lc.raise_notice_self s.bpu.T .stall .none none⟩
  · exact absurd (h.symm.trans hg) (by decide)
  · exact absurd (h.symm.trans hg) (by decide)

/-- An empty window that counts short of GUARD_W (R14). -/
theorem State.windowClosed_counted {s : State} (h : s.guardCounts = true) (hlt : min (s.bpu.G + 1) 255 < s.bpu.guardW) :
    s.windowClosed.bpu.G = min (s.bpu.G + 1) 255 ∧ s.windowClosed.lc = s.lc := by
  rcases s.windowClosed_cases with ⟨hg, _⟩ | ⟨hg, _⟩ | ⟨_, _, e⟩ | ⟨_, hle, _⟩
  · exact absurd (hg.symm.trans h) (by decide)
  · exact absurd (hg.symm.trans h) (by decide)
  · rw [e]
    exact ⟨rfl, rfl⟩
  · omega

/-- The guard's halt at GUARD_W (R14, R152). -/
theorem State.windowClosed_halted {s : State} (h : s.guardCounts = true) (hle : s.bpu.guardW ≤ min (s.bpu.G + 1) 255) :
    s.windowClosed.bpu.G = 0 ∧ s.windowClosed.lc.mode = .halted ∧ s.windowClosed.lc.condition = .halted ∧
    s.windowClosed.lc.faultLine = true ∧ s.windowClosed.lc.pendingSet.getLsbD 13 = true := by
  rcases s.windowClosed_cases with ⟨hg, _⟩ | ⟨hg, _⟩ | ⟨_, hlt, _⟩ | ⟨_, _, e⟩
  · exact absurd (hg.symm.trans h) (by decide)
  · exact absurd (hg.symm.trans h) (by decide)
  · omega
  · obtain ⟨-, -, -, -, -, -, hcond, -⟩ := s.lc.raise_spec s.bpu.T .halted .none none
    rw [e]
    exact ⟨rfl, rfl, hcond.trans (Condition.worse_halted _), rfl, s.lc.raise_notice_self s.bpu.T .halted .none none⟩

/-- Settles O11. -/
theorem window_end_updates_speed_stall_and_guard : Obligations.Window_end_updates_speed_stall_and_guard := by
  intro s hs
  have hexec : exec .windowEnd s = .next (s.windowClosed.settleFrom s) := exec_windowEnd hs
  refine ⟨_, hexec, ?_⟩
  obtain ⟨hbpu, hports, hft, hbanks, hlc, hlink, -, htr, hae, -, -⟩ := State.settleFrom_frame s.windowClosed s
  rw [hbpu, hports, hft, hbanks, hlc, hlink, htr, hae]
  obtain ⟨hb, hbars, hframe⟩ := s.windowClosed_frame
  have hstalled : s.windowClosed.bpu.stalled = s.bpu.closeWindow.stalled := by rw [hb]
  have hZ : s.windowClosed.bpu.Z = s.bpu.closeWindow.Z := by rw [hb]
  have hPT : s.windowClosed.bpu.P = s.bpu.P ∧ s.windowClosed.bpu.T = s.bpu.T := by rw [hb]; exact ⟨rfl, rfl⟩
  refine ⟨?_, ?_, fun hst hle => ?_, fun hw hst hg hr => ?_, fun h => ?_, fun hev h b => ?_, fun hst hm => ?_, ?_⟩
  · rw [hstalled]
    exact hb.trans (by rw [s.bpu.closeWindow_eq])
  · rw [hstalled, hZ]
    exact s.bpu.closeWindow_stalled_iff
  · have hg : s.guardCounts = false := by simp [State.guardCounts, hst]
    have hd : s.bpu.declaresStall = true := by
      rw [hZ] at hle
      simpa [Bpu.declaresStall, hst] using hle
    exact (State.windowClosed_uncounted hg).2.2.2 hd
  · have hc := s.guardCounts_iff.2 ⟨hw, hst, hg, hr⟩
    exact ⟨State.windowClosed_counted hc, State.windowClosed_halted hc⟩
  · have hc : s.guardCounts = false := by
      rw [← Bool.not_eq_true, s.guardCounts_iff]
      rintro ⟨hw, hst, hg, hr⟩
      simp [hw, hst, hg, hr] at h
    obtain ⟨hG, hm, hf, -⟩ := State.windowClosed_uncounted hc
    exact ⟨hG, hm, hf⟩
  · refine State.settleFrom_closed hev hbars ?_ b
    rcases h with ⟨_, hst⟩ | ⟨_, hm⟩
    · simp [State.lineOpen, hst]
    · simp [State.lineOpen, State.running, hm]
  · exact State.settleFrom_bars hbars (by simp only [State.lineOpen, State.running, hst, hm, hPT.1, hPT.2])
  · exact hframe

end Sys2Proof.Machine
end

