-- ==== Sys2Proof/Proofs/Clock.lean ====
section
/-! SUPPORT. The part's own clock (entry 1); settles O3. -/

namespace Sys2Proof.Machine

/-! ### The events due -/

/-- Among due events one is chosen (entry 9). -/
theorem chooseDue_mem (draw : Nat) {cs : List Instr} (h : cs ≠ []) : ∃ c ∈ cs, chooseDue draw cs = some c := by
  match cs with
  | [] => exact absurd rfl h
  | [c] => exact ⟨c, List.mem_singleton_self c, rfl⟩
  | c :: d :: rest =>
    have hlt : Config.pick draw % (c :: d :: rest).length < (c :: d :: rest).length := Nat.mod_lt _ (Nat.succ_pos _)
    exact ⟨_, List.getElem_mem hlt, List.getElem?_eq_getElem hlt⟩

theorem mem_searchOrder (p q : Station) : q ∈ searchOrder p := by
  cases p <;> cases q <;> decide

/-- Some port is served exactly where a queue holds an entry (R59). -/
theorem State.served_isSome_iff (s : State) : s.served.isSome = true ↔ ∃ p, (s.port p).queue ≠ [] := by
  simp [State.served, List.find?_isSome, mem_searchOrder]

theorem State.running_iff (s : State) : s.running = true ↔ s.lc.mode = .run ∨ s.lc.mode = .draining := by
  simp [State.running]

theorem State.canTake_iff (s : State) :
    s.canTake = true ↔
      (s.lc.mode = .run ∨ s.lc.mode = .draining) ∧ s.ae.free = true ∧ ∃ p, (s.port p).queue ≠ [] := by
  rw [State.canTake, Bool.and_eq_true, Bool.and_eq_true, s.served_isSome_iff, s.running_iff, and_assoc]

theorem mem_lclkDue (b : Bpu) (c : Instr) :
    c ∈ lclkDue b ↔
      c = .lclkPulseStart ∧ b.lclk = false ∧ 0 < b.owed ∧ 1 ≤ b.lclkHeld ∨
      c = .lclkPulseEnd ∧ b.lclk = true ∧ 1 ≤ b.lclkHeld := by
  simp [lclkDue, and_assoc, and_comm, and_left_comm]

theorem State.mem_lineDue (s : State) (c : Instr) :
    c ∈ s.lineDue ↔ c = .windowEnd ∧ 8192 ≤ s.bpu.windowTime ∨ c = .assocTake ∧ s.canTake = true := by
  simp only [State.lineDue, List.mem_append, List.mem_ite_nil_right, List.mem_singleton, and_comm]
  rfl

theorem mem_nozzlesDue (b : Bar) (u : BarUnit) (c : Instr) :
    c ∈ nozzlesDue b u ↔ ∃ n : Fin 160,
      c = .maxonCut b n ∧ (u.nozzle n).st = .opened ∧ u.settings.maxon ≤ (u.nozzle n).onTime ∨
      c = .coolingEnd b n ∧ (u.nozzle n).st = .cooling ∧ u.settings.minoff ≤ (u.nozzle n).cool := by
  simp only [nozzlesDue, List.mem_filterMap, List.mem_finRange, true_and]
  refine exists_congr fun n => ?_
  unfold nozzleDue
  cases (u.nozzle n).st <;> simp [and_comm, eq_comm]

theorem Bus.expired_iff (x : Bus) : x.expired = true ↔ 1024 ≤ x.refresh := decide_eq_true_iff

theorem mem_frameDue (b : Bar) (u : BarUnit) (changes : List Instr) (c : Instr) :
    c ∈ frameDue b u changes ↔ c = .valveFrameStart b ∧ u.bus.owed = true ∧ u.bus.sending = none ∧
      (1024 ≤ u.bus.refresh → changes = []) := by
  rw [← u.bus.expired_iff]
  unfold frameDue
  cases u.bus.owed <;> cases u.bus.sending <;> cases u.bus.expired <;> cases changes <;> simp

theorem mem_barDue (b : Bar) (u : BarUnit) (line : List Instr) (c : Instr) :
    c ∈ barDue b u line ↔
      c ∈ frameDue b u (line ++ nozzlesDue b u) ∨
      (c = .refreshExpiry b ∧ 1024 ≤ u.bus.refresh ∧ u.bus.owed = false) ∨ c ∈ nozzlesDue b u := by
  rw [← u.bus.expired_iff, barDue, List.mem_append, List.mem_append, or_assoc]
  cases u.bus.owed <;> cases u.bus.expired <;> simp

/-- Outside reset the due events are those of the Line Clock, of the line and of the bars. -/
theorem State.mem_dueEvents {s : State} (h : s.pins.inReset = false) (c : Instr) :
    c ∈ s.dueEvents ↔ c ∈ lclkDue s.bpu ∨ c ∈ s.lineDue ∨ ∃ b, c ∈ barDue b (s.bar b) s.lineDue := by
  have hbars : (∃ b, c ∈ barDue b (s.bar b) s.lineDue) ↔
      c ∈ barDue .bar0 s.bars.bar0 s.lineDue ∨ c ∈ barDue .bar1 s.bars.bar1 s.lineDue ∨
        c ∈ barDue .bar2 s.bars.bar2 s.lineDue := by
    constructor
    · rintro ⟨b, hb⟩
      cases b
      exacts [.inl hb, .inr (.inl hb), .inr (.inr hb)]
    · rintro (hb | hb | hb)
      exacts [⟨.bar0, hb⟩, ⟨.bar1, hb⟩, ⟨.bar2, hb⟩]
  rw [hbars]
  simp [State.dueEvents, h]

/-- Everything that can be due (entry 1). -/
theorem State.dueEvents_cases {s : State} (h : s.pins.inReset = false) {c : Instr} (hc : c ∈ s.dueEvents) :
    c = .windowEnd ∨ c = .lclkPulseStart ∨ c = .lclkPulseEnd ∨ c = .assocTake ∨
      (∃ b, c = .refreshExpiry b ∨ c = .valveFrameStart b) ∨ ∃ b n, c = .maxonCut b n ∨ c = .coolingEnd b n := by
  simp only [s.mem_dueEvents h, mem_lclkDue, s.mem_lineDue, mem_barDue, mem_frameDue, mem_nozzlesDue] at hc
  rcases hc with (⟨rfl, _⟩ | ⟨rfl, _⟩) | (⟨rfl, _⟩ | ⟨rfl, _⟩) | ⟨b, ⟨rfl, _⟩ | ⟨rfl, _⟩ | ⟨n, ⟨rfl, _⟩ | ⟨rfl, _⟩⟩⟩ <;>
    simp

section
variable {s : State} (h : s.pins.inReset = false)
include h

theorem State.windowEnd_due : Instr.windowEnd ∈ s.dueEvents ↔ 8192 ≤ s.bpu.windowTime := by
  simp [s.mem_dueEvents h, mem_lclkDue, s.mem_lineDue, mem_barDue, mem_frameDue, mem_nozzlesDue]

theorem State.lclkPulseStart_due :
    Instr.lclkPulseStart ∈ s.dueEvents ↔ s.bpu.lclk = false ∧ 0 < s.bpu.owed ∧ 1 ≤ s.bpu.lclkHeld := by
  simp [s.mem_dueEvents h, mem_lclkDue, s.mem_lineDue, mem_barDue, mem_frameDue, mem_nozzlesDue]

theorem State.lclkPulseEnd_due : Instr.lclkPulseEnd ∈ s.dueEvents ↔ s.bpu.lclk = true ∧ 1 ≤ s.bpu.lclkHeld := by
  simp [s.mem_dueEvents h, mem_lclkDue, s.mem_lineDue, mem_barDue, mem_frameDue, mem_nozzlesDue]

theorem State.assocTake_due : Instr.assocTake ∈ s.dueEvents ↔ s.canTake = true := by
  simp [s.mem_dueEvents h, mem_lclkDue, s.mem_lineDue, mem_barDue, mem_frameDue, mem_nozzlesDue]

theorem State.refreshExpiry_due (b : Bar) :
    Instr.refreshExpiry b ∈ s.dueEvents ↔ 1024 ≤ (s.bar b).bus.refresh ∧ (s.bar b).bus.owed = false := by
  simp [s.mem_dueEvents h, mem_lclkDue, s.mem_lineDue, mem_barDue, mem_frameDue, mem_nozzlesDue]

theorem State.maxonCut_due (b : Bar) (n : Fin 160) :
    Instr.maxonCut b n ∈ s.dueEvents ↔
      ((s.bar b).nozzle n).st = .opened ∧ (s.bar b).settings.maxon ≤ ((s.bar b).nozzle n).onTime := by
  simp [s.mem_dueEvents h, mem_lclkDue, s.mem_lineDue, mem_barDue, mem_frameDue, mem_nozzlesDue]

theorem State.coolingEnd_due (b : Bar) (n : Fin 160) :
    Instr.coolingEnd b n ∈ s.dueEvents ↔
      ((s.bar b).nozzle n).st = .cooling ∧ (s.bar b).settings.minoff ≤ ((s.bar b).nozzle n).cool := by
  simp [s.mem_dueEvents h, mem_lclkDue, s.mem_lineDue, mem_barDue, mem_frameDue, mem_nozzlesDue]

/-- An owed frame on an idle bus is due, and where its refresh timer has expired no change of the bar's nozzles is
(R128, R129). -/
theorem State.valveFrameStart_due (b : Bar) :
    Instr.valveFrameStart b ∈ s.dueEvents ↔
      (s.bar b).bus.owed = true ∧ (s.bar b).bus.sending = none ∧
        (1024 ≤ (s.bar b).bus.refresh →
          Instr.windowEnd ∉ s.dueEvents ∧ Instr.assocTake ∉ s.dueEvents ∧
            ∀ n, Instr.maxonCut b n ∉ s.dueEvents ∧ Instr.coolingEnd b n ∉ s.dueEvents) := by
  have hline : s.lineDue = [] ↔ Instr.windowEnd ∉ s.dueEvents ∧ Instr.assocTake ∉ s.dueEvents := by
    simp [State.windowEnd_due h, State.assocTake_due h, List.eq_nil_iff_forall_not_mem, s.mem_lineDue, forall_and]
  have hnozzles : nozzlesDue b (s.bar b) = [] ↔
      ∀ n, Instr.maxonCut b n ∉ s.dueEvents ∧ Instr.coolingEnd b n ∉ s.dueEvents := by
    simp only [State.maxonCut_due h, State.coolingEnd_due h, List.eq_nil_iff_forall_not_mem, mem_nozzlesDue, not_exists,
      not_or]
    exact ⟨fun hc n => ⟨fun hm => (hc _ n).1 ⟨rfl, hm⟩, fun hm => (hc _ n).2 ⟨rfl, hm⟩⟩,
      fun hc _ n => ⟨fun hm => (hc n).1 hm.2, fun hm => (hc n).2 hm.2⟩⟩
  rw [← and_assoc (a := Instr.windowEnd ∉ s.dueEvents), ← hline, ← hnozzles, ← List.append_eq_nil_iff]
  simp [s.mem_dueEvents h, mem_lclkDue, s.mem_lineDue, mem_barDue, mem_frameDue, mem_nozzlesDue]

end

/-! ### One microsecond -/

theorem Nozzle.tick_eq (n : Nozzle) :
    n.tick =
      { n with
        onTime := n.onTime + if n.st = .opened then 1 else 0
        cool := n.cool + if n.st = .cooling then 1 else 0 } := by
  obtain ⟨st, ivals, onTime, cool⟩ := n
  cases st <;> simp [Nozzle.tick]

theorem BarUnit.nozzle_tick {u : BarUnit} {m : Nat} (hm : m < u.nozzles.length) : u.tick.nozzle m = (u.nozzle m).tick := by
  simp [BarUnit.nozzle, hm]

theorem Bpu.tick_eq (b : Bpu) :
    b.tick = { b with windowTime := min (b.windowTime + 1) 8192, lclkHeld := min (b.lclkHeld + 1) 1 } := by
  simp only [Bpu.tick, satAdd_eq_min, Config.windowUs]

theorem State.tick_eq {s : State} (h : s.pins.inReset = false) :
    s.tick = { s with bpu := s.bpu.tick, bars := s.bars.map BarUnit.tick } := State.awake_of h _

/-- With nothing due a step is one microsecond (entry 1). -/
theorem step_tick {s : State} (hp : s.pending = []) (hd : s.dueEvents = []) : step s = .next s.tick := by
  simp [step, hp, idle, hd, chooseDue]

/-- With something due a step takes one of the due events (entries 1 and 9). -/
theorem step_due {s : State} (hp : s.pending = []) (hd : s.dueEvents ≠ []) :
    ∃ c ∈ s.dueEvents, step s = exec c { s with draws := s.draws + 1 } := by
  obtain ⟨c, hc, e⟩ := chooseDue_mem s.draws hd
  exact ⟨c, hc, by simp [step, hp, idle, e]⟩

/-- Settles O3. -/
theorem empty_queue_takes_a_due_event_or_a_microsecond :
    Obligations.Empty_queue_takes_a_due_event_or_a_microsecond := by
  intro s hp hr
  refine ⟨step_due hp, fun hd => ⟨_, step_tick hp hd, ?_⟩, State.windowEnd_due hr, State.lclkPulseStart_due hr,
    State.lclkPulseEnd_due hr, (State.assocTake_due hr).trans s.canTake_iff, fun c => State.dueEvents_cases hr,
    fun b => ⟨State.refreshExpiry_due hr b, State.valveFrameStart_due hr b⟩,
    fun b n => ⟨State.maxonCut_due hr b n, State.coolingEnd_due hr b n⟩⟩
  rw [State.tick_eq hr]
  refine ⟨s.bpu.tick_eq, fun b => ?_, rfl, rfl, rfl, rfl, rfl, rfl, rfl, rfl⟩
  have hbar : State.bar { s with bpu := s.bpu.tick, bars := s.bars.map BarUnit.tick } b = (s.bar b).tick :=
    PerBar.get_map _ _ _
  rw [hbar]
  refine ⟨?_, fun n hn => (BarUnit.nozzle_tick hn).trans (Nozzle.tick_eq _)⟩
  simp only [BarUnit.tick, satAdd_eq_min, Config.refreshUs]

end Sys2Proof.Machine
end

