-- ==== Sys2Proof/Proofs/Release.lean ====
section
/-! SUPPORT. The RESET pin, the settings of belt and tracking, the requests accepted in every mode, and the state at
release; settles O4, O33, O34 and O60. -/

namespace Sys2Proof.Machine

/-! ### The RESET pin (R146; entry 12) -/

/-- While the part is held in reset a request acts on nothing. -/
theorem request_inReset {s : State} (h : s.pins.inReset = true) (c : Instr) (kind : Byte) (op : State → Answer) :
    request c kind op s = .next s := congrArg Host.Outcome.next (State.awake_inReset h _)

theorem miscounted_inReset {s : State} (h : s.pins.inReset = true) (c : Instr) : miscounted c s = .next s :=
  congrArg Host.Outcome.next (State.awake_inReset h _)

/-- While the part is held in reset every command but those of the pins changes nothing (R146; entry 12). -/
theorem exec_inReset {c : Instr} {s : State} (h : s.pins.inReset = true) (he : ∀ a b, c ≠ .encoderTransition a b)
    (hd : ∀ b, c ≠ .driverFault b) (hf : ∀ b, c ≠ .faultLineInactive b) (hr : c ≠ .resetPin)
    (ha : c ≠ .resetPinAsserted) : exec c s = .next s := by
  cases hc : requestOf c with
  | some x =>
    rcases exec_requestOf (kind := x.1) (op := x.2) hc s with e | e <;> rw [e]
    · exact request_inReset h _ _ _
    · exact miscounted_inReset h _
  | none =>
    cases c with
    | encoderTransition a b => exact absurd rfl (he a b)
    | driverFault b => exact absurd rfl (hd b)
    | faultLineInactive b => exact absurd rfl (hf b)
    | resetPin => exact absurd rfl hr
    | resetPinAsserted => exact absurd rfl ha
    | lclkPulseStart | lclkPulseEnd | windowEnd | sync | detect | badFrame | assocTake | maxonCut | coolingEnd
    | valveFrameStart | valveFrameEnd | refreshExpiry | overlongFrame | garbledFrame | replySent | startMark
    | portStartMark => exact congrArg Host.Outcome.next (State.awake_inReset h _)
    | _ => cases hc

theorem port_atRelease (levels : Levels) (faultLines : PerBar Bool) (p : Station) :
    (State.atRelease levels faultLines).port p = Port.atRelease := by cases p <;> rfl

theorem bar_atRelease (levels : Levels) (faultLines : PerBar Bool) (b : Bar) :
    (State.atRelease levels faultLines).bar b = BarUnit.atRelease := by cases b <;> rfl

theorem bankData_atRelease (k : Bank) : Banks.atRelease.data.get k = BankData.atRelease := by cases k <;> rfl

theorem classMap_atRelease (p : Station) : BankData.atRelease.classMap.get p = List.replicate 64 ⟨0, 0⟩ := by
  cases p <;> rfl

theorem Tallies.get_zero (o : RecOutcome) : Tallies.zero.get o = List.replicate 16 0 := by cases o <;> rfl

/-- Settles O4. -/
theorem reset_pin_release_hold_and_assertion : Obligations.RESET_pin_release_hold_and_assertion := by
  refine ⟨fun s => ⟨?_, rfl⟩, fun c s h he hd hf hr ha => exec_inReset h he hd hf hr ha, fun a b k s h => ⟨?_, ?_, rfl⟩⟩
  · refine ⟨_, rfl, rfl, rfl, port_atRelease s.pins.levels s.pins.faultLines, rfl, rfl, rfl, ⟨rfl, rfl, rfl, fun k => ?_⟩, fun b => ?_, rfl, rfl, rfl,
      rfl, rfl, rfl, rfl, rfl, Tallies.get_zero⟩
    · have hk := bankData_atRelease k
      exact ⟨fun p => (congrArg (fun d => d.classMap.get p) hk).trans (classMap_atRelease p),
        congrArg BankData.table hk⟩
    · have hb := bar_atRelease s.pins.levels s.pins.faultLines b
      refine ⟨?_, ?_, ?_, ?_, ?_, ?_, ?_⟩
      exacts [congrArg BarUnit.settings hb, congrArg BarUnit.zones hb, congrArg BarUnit.lateFire hb,
        congrArg BarUnit.state hb, congrArg BarUnit.nozzles hb, congrArg BarUnit.maxonCuts hb, congrArg BarUnit.bus hb]
  · exact congrArg Host.Outcome.next (State.awake_inReset (s := { s with pins := { s.pins with levels := ⟨a, b⟩ } }) h _)
  · exact congrArg Host.Outcome.next
      (State.awake_inReset (s := { s with pins := { s.pins with faultLines := s.pins.faultLines.set k true } }) h _)

/-! ### Requests that a ready part takes -/

/-- A request whose operation answers another state with the link as it stood leaves that state, answered. -/
theorem State.carryOut_answered {s t : State} {kind : Byte} {op : State → Answer} {code : ReplyCode} {body : ReplyBody}
    (hl : t.link = s.link)
    (h : op { s with link := s.link.takeUp kind } = ({ t with link := s.link.takeUp kind }, code, body)) :
    s.carryOut kind op = t.answered kind code body := by
  simp only [State.carryOut, h, State.answered, hl]
  rfl

/-- A ready part answers a request with what its operation gives. -/
theorem request_answered {s t : State} (hs : Ready s) {c : Instr} {kind : Byte} {op : State → Answer} {code : ReplyCode}
    {body : ReplyBody} (hl : t.link = s.link)
    (h : op { s with link := s.link.takeUp kind } = ({ t with link := s.link.takeUp kind }, code, body)) :
    request c kind op s = .next (t.answered kind code body) := by
  rw [request_ready hs, State.carryOut_answered hl h]

theorem beltInRange_iff (r : BeltRequest) :
    beltInRange r = true ↔ 1 ≤ r.encDiv.toNat ∧ r.encDiv.toNat ≤ 16 ∧ r.revMax.toNat ≤ 1023 ∧ 1 ≤ r.stallW.toNat ∧
      1 ≤ r.guardW.toNat := by
  simp only [beltInRange, Bool.and_eq_true, decide_eq_true_eq, and_assoc]

theorem trackingInRange_iff (q : TrackingRequest) :
    trackingInRange q = true ↔ 64 ≤ q.lMax.toNat ∧ q.lMax.toNat ≤ 4095 ∧ q.laneTol.toNat ≤ 7 ∧ q.settle.toNat ≤ 4095 := by
  simp only [trackingInRange, Bool.and_eq_true, decide_eq_true_eq, and_assoc]

/-- Settles O33. -/
theorem set_BELT_and_SET_TRACKING : Obligations.SET_BELT_and_SET_TRACKING := by
  intro r q s hs
  rw [← beltInRange_iff, ← trackingInRange_iff]
  refine ⟨fun hm => ⟨request_answered hs rfl ?_, request_answered hs rfl ?_⟩, fun hm =>
    ⟨fun hr => request_answered hs rfl ?_, fun hr => request_answered hs rfl ?_, fun hr => request_answered hs rfl ?_,
      fun hr => request_answered hs rfl ?_⟩⟩
  · exact if_pos hm
  · exact if_pos hm
  · exact (if_neg (not_not.2 hm)).trans (if_pos hr)
  · exact (if_neg (not_not.2 hm)).trans (if_neg hr)
  · exact (if_neg (not_not.2 hm)).trans (if_pos hr)
  · exact (if_neg (not_not.2 hm)).trans (if_neg hr)

/-- The kinds of DEGRADED or HALTED class (R156). -/
theorem NoticeKind.serious_iff (k : NoticeKind) :
    k ∈ [NoticeKind.stationSilent, .stationSlip, .queueDrop, .tableFull, .valveFull, .driverFault, .halted] ↔
      k.level ≠ .normal := by
  cases k <;> decide

/-- A serious notice raises the condition to its class (R154, R156). -/
theorem Condition.worse_level (c : Condition) {k : NoticeKind} (h : k.level ≠ .normal) :
    c.worse k.level = if k = .halted ∨ c = .halted then .halted else .degraded := by
  cases k <;> cases c <;> simp [NoticeKind.level, Condition.worse] at h ⊢

theorem Condition.worse_normal (c : Condition) : c.worse .normal = c := by cases c <;> rfl

/-- A notice writes pending set, ATTN, condition and capture alone (R154, R156 to R158). -/
theorem LineControl.raise_eq (lc : LineControl) (time : Pos) (k : NoticeKind) (src : Source) (h : Option Handle) :
    lc.raise time k src h =
      { lc with
        pendingSet := lc.pendingSet ||| k.bit
        attn := (lc.raise time k src h).attn
        condition := (lc.raise time k src h).condition
        capture := (lc.raise time k src h).capture } := by
  cases k <;> rfl

/-- Settles O34. -/
theorem requests_accepted_in_every_mode : Obligations.Requests_accepted_in_every_mode := by
  refine ⟨fun kinds s hs => ⟨request_answered hs rfl rfl, request_answered hs rfl rfl, request_answered hs rfl rfl,
    request_answered hs rfl rfl, request_answered hs rfl rfl⟩, fun s k src h => ?_⟩
  obtain ⟨hpend, hattn, -, -, -, -, hcond, hcap⟩ := s.lc.raise_spec s.bpu.T k src h
  simp only [State.raise_lc, NoticeKind.serious_iff, not_not]
  refine ⟨?_, ?_, fun hk => ?_, fun hk => ?_⟩
  · exact congrArg (fun lc => { s with lc }) (s.lc.raise_eq s.bpu.T k src h)
  · rw [hattn, hpend]
    exact attnOf_iff _ _
  · exact ⟨by rw [hcond, hk, Condition.worse_normal], by rw [hcap, if_pos hk]⟩
  · refine ⟨by rw [hcond, Condition.worse_level _ hk], ?_⟩
    rw [hcap, if_neg hk]
    cases s.lc.capture <;> simp [captureNext, satAdd_eq_min, Config.byteMax]

/-! ### The state at release -/

theorem LineOk.atRelease : LineOk LineControl.atRelease where
  attn := by decide
  faultLine := by decide
  condition := by decide
  capture _ := rfl
  later _ h := nomatch h
  tallies o := by
    change (Tallies.zero.get o).length = 16 ∧ ∀ n ∈ Tallies.zero.get o, n ≤ 4294967295
    rw [Tallies.get_zero]
    simp

theorem PortOk.atRelease (p : Station) : PortOk p Port.atRelease where
  state := by decide
  base := by decide
  settings := by decide
  queue := by decide
  holdHigh := by decide
  holdLow _ := rfl
  entries _ h := nomatch h
  silence := by decide
  collected _ _ _ h := nomatch h
  counters := by decide

theorem SettingsOk.atRelease : SettingsOk BarUnit.atRelease.settings := by
  constructor <;> decide

theorem NozzleOk.atRelease (T : Pos) : NozzleOk false T 30000 Nozzle.atRelease where
  opens := by simp [Nozzle.atRelease]
  ivals := Nat.zero_le _
  counter _ := rfl
  limit := Nat.zero_le _
  timer _ := rfl

section
variable (levels : Levels) (faultLines : PerBar Bool)

theorem PortsOk.atRelease : PortsOk (State.atRelease levels faultLines) where
  port p := by
    rw [port_atRelease]
    exact PortOk.atRelease p
  config _ p := by rw [port_atRelease]; rfl

theorem ft_atRelease :
    (State.atRelease levels faultLines).ft = ⟨[], 0, List.range 1024, List.replicate 1024 0⟩ := by
  unfold State.atRelease FragTable.atRelease Config.slots
  rfl

theorem TableOk.atRelease : TableOk (State.atRelease levels faultLines) where
  count := rfl
  slots := by
    rw [ft_atRelease]
    simp only [List.map_nil, List.nil_append]
    exact .refl _
  gens := by
    rw [ft_atRelease]
    exact List.length_replicate
  refs k := by cases k <;> rfl
  config _ := rfl
  switch _ h := nomatch h

theorem RecordsOk.atRelease : RecordsOk (State.atRelease levels faultLines) where
  lMax := (by decide : 64 ≤ 2048 ∧ 2048 ≤ 4095)
  live _ h := nomatch h
  geometry h := absurd rfl h

theorem mem_nozzles_atRelease {n : Nozzle} (h : n ∈ BarUnit.atRelease.nozzles) : n = Nozzle.atRelease :=
  List.eq_of_mem_replicate h

theorem BarsOk.atRelease : BarsOk (State.atRelease levels faultLines) where
  bar b := by
    constructor <;> rw [bar_atRelease]
    · decide
    · exact SettingsOk.atRelease
    · exact ⟨List.length_replicate, List.length_replicate⟩
    · intro n hn
      rw [mem_nozzles_atRelease hn]
      exact NozzleOk.atRelease _
    · intro z hz
      rw [List.eq_of_mem_replicate hz]
      decide

theorem OwnersOk.atRelease : OwnersOk (State.atRelease levels faultLines) where
  ordered b n hn iv hiv := by
    rw [bar_atRelease] at hn
    rw [mem_nozzles_atRelease hn] at hiv
    cases hiv
  owned b n hn iv hiv := by
    rw [bar_atRelease] at hn
    rw [mem_nozzles_atRelease hn] at hiv
    cases hiv

end

theorem LinkOk.atRelease : LinkOk { rx := .hunting, inProgress := none, replies := [] } where
  room := Nat.zero_le _
  own := rfl
  formed _ h := nomatch h
  collected _ _ _ h := nomatch h

/-- Settles O60. -/
theorem release_state_is_in_order : Obligations.Release_state_is_in_order := fun levels faultLines =>
  ⟨LineOk.atRelease, BeltOk.atRelease levels faultLines, PortsOk.atRelease levels faultLines, LinkOk.atRelease,
    TableOk.atRelease levels faultLines, RecordsOk.atRelease levels faultLines, BarsOk.atRelease levels faultLines,
    OwnersOk.atRelease levels faultLines⟩

end Sys2Proof.Machine
end

