-- ==== Sys2Proof/Proofs/Points.lean ====
section
/-! SUPPORT. Points, slots and the run of points due at a record: what they depend on and where they stop (R42, R43). -/

namespace Sys2Proof.Machine

/-! ### What a point depends on -/

/-- Two states whose enabled stations, tracking settings, bar settings and bank contents agree: every point of a record
is the same in both, and every decision (R42, R76). -/
structure State.SamePoints (s t : State) : Prop where
  port     : ∀ p, (t.port p).enabled = (s.port p).enabled ∧ (t.port p).D = (s.port p).D
  tracking : t.tracking = s.tracking
  settings : ∀ b, (t.bar b).settings = (s.bar b).settings

theorem State.PartMove.samePoints {s t : State} (h : s.PartMove t) : s.SamePoints t where
  port p := by rw [h.port p]; exact ⟨rfl, rfl⟩
  tracking := h.tracking
  settings b := (h.bars b).settings

section
variable {s t : State} (h : s.SamePoints t)
include h

theorem State.SamePoints.dMax : t.dMax = s.dMax := by
  simp only [State.dMax, fun p => (h.port p).1, fun p => (h.port p).2]

theorem State.SamePoints.lowBar : t.lowBar = s.lowBar := by
  simp only [State.lowBar, State.enabledBars, h.settings]

theorem State.SamePoints.highBar : t.highBar = s.highBar := by
  simp only [State.highBar, State.enabledBars, h.settings]

theorem State.SamePoints.decisionPoint (r : Record) : t.decisionPoint r = s.decisionPoint r := by
  simp only [State.decisionPoint, h.dMax, h.tracking]

theorem State.SamePoints.freezePoint (x : Pos) : t.freezePoint x = s.freezePoint x := by
  simp only [State.freezePoint, h.lowBar, h.settings]

theorem State.SamePoints.awaited (r : Record) : t.awaited r = s.awaited r := by
  simp only [State.awaited, h.decisionPoint, h.freezePoint, State.armPoint, State.retireLine, h.highBar, h.settings]

end

/-- A decision reads bank contents and the stations that are enabled and UP (R76 to R84). -/
theorem decideRecord_congr {s t : State} (hdata : t.banks.data = s.banks.data)
    (hport : ∀ p, (t.port p).enabled = (s.port p).enabled ∧ (t.port p).state = (s.port p).state) (r : Record) :
    decideRecord t r = decideRecord s r := by
  have hdeg : isDegraded t.ports r.evidence = isDegraded s.ports r.evidence := by
    have he : ∀ p, (t.ports.get p).enabled = (s.ports.get p).enabled := fun p => (hport p).1
    have hst : ∀ p, (t.ports.get p).state = (s.ports.get p).state := fun p => (hport p).2
    simp only [isDegraded, he, hst]
  simp only [decideRecord, hdata, hdeg]

/-! ### The record of a slot -/

/-- The record of a slot that no other live record has. -/
theorem FragTable.find_eq_some {ft : FragTable} {slot : Nat} {r : Record} (hmem : ⟨slot, r⟩ ∈ ft.live)
    (h : ∀ l ∈ ft.live, l.slot = slot → l.record = r) : ft.find slot = some r := by
  unfold FragTable.find
  cases hf : ft.live.find? fun l => l.slot == slot with
  | none => simpa using List.find?_eq_none.1 hf _ hmem
  | some l => simpa using h l (List.mem_of_find?_eq_some hf) (by simpa using List.find?_some hf)

theorem FragTable.find_eq_none {ft : FragTable} {slot : Nat} : ft.find slot = none ↔ ∀ l ∈ ft.live, l.slot ≠ slot := by
  simp [FragTable.find]

theorem FragTable.find_modRecord (ft : FragTable) (slot : Nat) (f : Record → Record) :
    (ft.modRecord slot f).find slot = (ft.find slot).map f := by
  unfold FragTable.find
  rw [FragTable.modRecord_live]
  induction ft.live with
  | nil => rfl
  | cons l ls ih => by_cases hl : l.slot = slot <;> simp_all

theorem FragTable.mem_modRecord {ft : FragTable} {slot : Nat} {f : Record → Record} {l : Live} :
    l ∈ (ft.modRecord slot f).live ↔
      l ∈ ft.live ∧ l.slot ≠ slot ∨ l.slot = slot ∧ ∃ r, ⟨slot, r⟩ ∈ ft.live ∧ l.record = f r := by
  simp only [FragTable.modRecord_live, List.mem_map]
  constructor
  · rintro ⟨x, hx, rfl⟩
    by_cases hs : x.slot = slot
    · subst hs
      exact .inr ⟨by simp, x.record, hx, by simp⟩
    · exact .inl (by simp [hs, hx])
  · rintro (⟨hl, hs⟩ | ⟨rfl, r, hr, e⟩)
    · exact ⟨l, hl, by simp [hs]⟩
    · exact ⟨_, hr, by simp [← e]⟩

/-- A change that keeps X and first lane of a record leaves its place in belt order (R41). -/
theorem map_insertLive {slot : Nat} {r : Record} {f : Record → Record} {live : List Live}
    (h : ∀ l ∈ live, l.slot ≠ slot) (hX : (f r).X = r.X) (hfirst : (f r).first = r.first) :
    ((insertLive ⟨slot, r⟩ live).map fun l => if l.slot == slot then { l with record := f l.record } else l) =
      insertLive ⟨slot, f r⟩ live := by
  induction live with
  | nil => simp [insertLive]
  | cons y ys ih =>
    have hy : y.slot ≠ slot := h y (List.mem_cons_self)
    have hys : ∀ l ∈ ys, l.slot ≠ slot := fun l hl => h l (List.mem_cons_of_mem _ hl)
    have hmap : (ys.map fun l => if l.slot == slot then { l with record := f l.record } else l) = ys :=
      (List.map_congr_left fun l hl => if_neg (by simpa using hys l hl)).trans (List.map_id' _)
    have hb : Live.before ⟨slot, f r⟩ y = Live.before ⟨slot, r⟩ y := by simp only [Live.before, hX, hfirst]
    have ih := ih hys
    simp only [beq_iff_eq] at hmap ih ⊢
    unfold insertLive
    rw [hb]
    split
    · simp [hy, hmap]
    · simp [hy, ih]

/-! ### The run of points due -/

/-- Where the point awaited is not at or behind T nothing is taken (R43). -/
theorem State.runDue_stop {s : State} {slot : Nat} {r : Record} (hf : s.ft.find slot = some r)
    (h : s.reached (s.awaited r) = false) (n : Nat) : s.runDue n slot = s := by
  cases n with
  | zero => rfl
  | succ n =>
    unfold State.runDue
    rw [hf]
    cases hp : s.awaited r with
    | none => simp [hp]
    | some p => simp_all [State.reached]

/-- On a running line a point at or behind T is taken, and the run goes on (R43). -/
theorem State.runDue_take {s : State} {slot : Nat} {r : Record} (hf : s.ft.find slot = some r) (hr : s.running = true)
    (h : s.reached (s.awaited r) = true) (n : Nat) : s.runDue (n + 1) slot = (s.takePoint slot r).runDue n slot := by
  rw [State.runDue, hf]
  cases hp : s.awaited r with
  | none => simp [hp, State.reached] at h
  | some p => simp_all [State.reached]

theorem State.runDue_none {s : State} {slot : Nat} (hf : s.ft.find slot = none) (n : Nat) : s.runDue n slot = s := by
  cases n with
  | zero => rfl
  | succ n => rw [State.runDue, hf]

/-- A line that does not run takes no point (R43). -/
theorem State.runDue_idle {s : State} (hr : s.running = false) (n : Nat) (slot : Nat) : s.runDue n slot = s := by
  cases n with
  | zero => rfl
  | succ n =>
    rw [State.runDue]
    split
    · rfl
    · split <;> simp [hr]

end Sys2Proof.Machine
end

