-- ==== Sys2Proof/Proofs/NewRecord.lean ====
section
/-! SUPPORT. A detection taken: the tests of chapter 4 in the statements' words, the record that is made, belt order (R41)
and the comparison of positions (R5); settles O19. -/

namespace Sys2Proof.Machine

/-! ### Positions (R5) -/

theorem ahead_iff (a b : Pos) : ahead a b = true ↔ 1 ≤ (a - b).toNat ∧ (a - b).toNat ≤ 2147483647 := by
  rw [ahead, signedDiff, decide_eq_true_iff, BitVec.toInt_eq_toNat_cond]
  have := (a - b).isLt
  split <;> omega

theorem atOrAhead_iff (a b : Pos) : atOrAhead a b = true ↔ (a - b).toNat ≤ 2147483647 := by
  rw [atOrAhead, signedDiff, decide_eq_true_iff, BitVec.toInt_eq_toNat_cond]
  have := (a - b).isLt
  split <;> omega

theorem behind_iff (a b : Pos) : behind a b = true ↔ 1 ≤ (b - a).toNat ∧ (b - a).toNat ≤ 2147483647 := ahead_iff b a

theorem atOrBehind_iff (a b : Pos) : atOrBehind a b = true ↔ (b - a).toNat ≤ 2147483647 := atOrAhead_iff b a

/-- Two positions within 2^20 steps of each other: one of the two distances is small (R5). -/
theorem near_iff (a b : Pos) :
    (a - b).toInt.natAbs < 1048576 ↔ (a - b).toNat < 1048576 ∨ (b - a).toNat < 1048576 := by
  rw [BitVec.toInt_eq_toNat_cond]
  split <;> bv_omega

/-! ### Belt order (R41) -/

/-- One live record stands before another: by X, then first lane, then slot (R41). -/
def Live.Stands (y z : Live) : Prop :=
  behind y.record.X z.record.X = true ∨
    y.record.X = z.record.X ∧
      (y.record.first < z.record.first ∨ y.record.first = z.record.first ∧ y.slot < z.slot)

theorem Live.before_iff (y z : Live) : y.before z = true ↔ y.Stands z := by
  simp [Live.before, Live.Stands]

/-- Records near each other stand in one order or the other, unless they share their slot. -/
theorem Live.stands_total {y z : Live} (hn : (y.record.X - z.record.X).toInt.natAbs < 1048576) (hs : y.slot ≠ z.slot)
    (h : ¬y.Stands z) : z.Stands y := by
  unfold Live.Stands at *
  rw [behind_iff] at *
  rw [near_iff] at hn
  by_cases hX : y.record.X = z.record.X
  · simp only [hX, true_and] at h ⊢
    omega
  · refine .inl ?_
    have h1 := (not_or.1 h).1
    bv_omega

/-- Among records near each other the order is transitive. -/
theorem Live.stands_trans {x y z : Live} (hxy : (x.record.X - y.record.X).toInt.natAbs < 1048576)
    (hyz : (y.record.X - z.record.X).toInt.natAbs < 1048576) (h : x.Stands y) (k : y.Stands z) : x.Stands z := by
  unfold Live.Stands at *
  rw [behind_iff] at *
  rw [near_iff] at *
  rcases h with h | ⟨h, h'⟩ <;> rcases k with k | ⟨k, k'⟩
  · refine .inl ?_
    bv_omega
  · exact .inl (k ▸ h)
  · exact .inl (h ▸ k)
  · exact .inr ⟨h.trans k, by omega⟩

/-- A record joins a list in belt order at its place (R41). -/
theorem insertLive_pairwise {x : Live} {live : List Live} (hp : live.Pairwise Live.Stands)
    (hs : ∀ y ∈ live, y.slot ≠ x.slot)
    (hn : ∀ y ∈ x :: live, ∀ z ∈ x :: live, (y.record.X - z.record.X).toInt.natAbs < 1048576) :
    (insertLive x live).Pairwise Live.Stands := by
  induction live with
  | nil => exact List.pairwise_singleton _ _
  | cons y ys ih =>
    obtain ⟨hy, hys⟩ := List.pairwise_cons.1 hp
    have hx : x ∈ x :: y :: ys := List.mem_cons_self
    have hym : y ∈ x :: y :: ys := List.mem_cons_of_mem _ List.mem_cons_self
    unfold insertLive
    split
    · next hb =>
      have hxy := (Live.before_iff x y).1 hb
      refine List.pairwise_cons.2 ⟨fun z hz => ?_, hp⟩
      rcases List.mem_cons.1 hz with rfl | hz'
      · exact hxy
      · exact Live.stands_trans (hn x hx y hym) (hn y hym z (by simp [hz'])) hxy (hy z hz')
    · next hb =>
      have hyx : y.Stands x := Live.stands_total (hn x hx y hym) (hs y List.mem_cons_self).symm
        fun h => hb ((Live.before_iff x y).2 h)
      have hsub : ∀ z, z ∈ x :: ys → z ∈ x :: y :: ys := fun z hz => by
        simp only [List.mem_cons] at hz ⊢
        tauto
      refine List.pairwise_cons.2 ⟨fun z hz => ?_, ih hys (fun z hz => hs z (List.mem_cons_of_mem _ hz))
        fun a ha b hb => hn a (hsub a ha) b (hsub b hb)⟩
      rcases (mem_insertLive x z ys).1 hz with rfl | hz'
      · exact hyx
      · exact hy z hz'

/-! ### The tests of chapter 4 -/

theorem needsClip_eq (s : State) (d : Detection) : needsClip s.tracking d = decide (s.tracking.lMax < stepsTo d.X d.Xt) :=
  rfl

/-- A detection clipped is the detection shortened (R62). -/
theorem clip_eq_shortened (s : State) (d : Detection) : clip s.tracking d = s.shortened d := by
  simp only [clip, State.shortened, needsClip, decide_eq_true_eq]
  rfl

theorem State.candidates_eq_openTo (s : State) (d : Detection) : s.candidates d = s.openTo d := by
  simp only [State.candidates, State.matchesOf, State.openTo, List.filter_filter, Bool.and_comm]

theorem State.hasFrozen_iff (s : State) (d : Detection) : s.hasFrozen d = true ↔ s.meetsFrozen d := by
  simp [State.hasFrozen, State.meetsFrozen, State.matchesOf]

theorem State.pastFreeze_iff (s : State) (d : Detection) : s.pastFreeze d = true ↔ s.tooLateFor d := by
  simp only [State.pastFreeze, State.tooLateFor, State.freezePoint]
  cases h : s.lowBar with
  | none => simp
  | some f => simp [back, fwd]

/-- The merge test in the statements' words (R69). -/
theorem canMerge_iff (s : State) (d : Detection) (c x : Live) (xs : List Live) :
    canMerge s.tracking d c (x :: xs) = true ↔ s.merges d (c :: x :: xs) := by
  have hbank : sameBank c (x :: xs) = true ↔
      ∀ y ∈ c :: x :: xs, ∀ z ∈ c :: x :: xs, y.record.bank = z.record.bank := by
    rw [sameBank, List.all_eq_true]
    constructor
    · intro h
      have hc : ∀ y ∈ c :: x :: xs, y.record.bank = c.record.bank := fun y hy =>
        (List.mem_cons.1 hy).elim (fun e => e ▸ rfl) fun hy' => by simpa using h y hy'
      exact fun y hy z hz => (hc y hy).trans (hc z hz).symm
    · exact fun h y hy => by simpa using h y (List.mem_cons_of_mem _ hy) c List.mem_cons_self
  rw [canMerge, Bool.and_eq_true, hbank, State.merges, decide_eq_true_eq]
  simp

/-- The largest of a list is its first, or overlaps more than that and is the largest of the rest (R71). -/
theorem State.largestOf_cons {s : State} {d : Detection} {c x : Live} {cs : List Live} :
    s.largestOf d (c :: cs) x ↔
      x = c ∧ (∀ z ∈ cs, overlap s.tracking d z.record ≤ overlap s.tracking d c.record) ∨
      overlap s.tracking d c.record < overlap s.tracking d x.record ∧ s.largestOf d cs x := by
  constructor
  · rintro ⟨before, after, e, hb, ha⟩
    cases before with
    | nil =>
      cases e
      exact .inl ⟨rfl, ha⟩
    | cons b bs =>
      cases e
      exact .inr ⟨hb _ List.mem_cons_self, bs, after, rfl, fun z hz => hb z (List.mem_cons_of_mem _ hz), ha⟩
  · rintro (⟨rfl, ha⟩ | ⟨hlt, before, after, rfl, hb, ha⟩)
    · exact ⟨[], cs, rfl, fun _ h => absurd h List.not_mem_nil, ha⟩
    · exact ⟨c :: before, after, rfl, List.forall_mem_cons.2 ⟨hlt, hb⟩, ha⟩

theorem State.not_largestOf_nil {s : State} {d : Detection} {x : Live} : ¬s.largestOf d [] x := by
  rintro ⟨before, after, e, -⟩
  simp at e

/-- The candidate chosen is the one with the largest overlap, the first between equals (R71). -/
theorem bestOf_eq {s : State} {d : Detection} {c x : Live} {cs : List Live} (h : s.largestOf d (c :: cs) x) :
    bestOf s.tracking d c cs = x := by
  induction cs generalizing c with
  | nil =>
    rcases State.largestOf_cons.1 h with ⟨rfl, -⟩ | ⟨-, hn⟩
    · rfl
    · exact absurd hn State.not_largestOf_nil
  | cons y ys ih =>
    unfold bestOf
    rcases State.largestOf_cons.1 h with ⟨rfl, hall⟩ | ⟨hc, hrest⟩
    · rw [if_neg (not_lt.2 (hall y List.mem_cons_self))]
      exact ih (State.largestOf_cons.2 (.inl ⟨rfl, fun z hz => hall z (List.mem_cons_of_mem _ hz)⟩))
    · split
      · exact ih hrest
      · next hle =>
        rcases State.largestOf_cons.1 hrest with ⟨rfl, -⟩ | ⟨-, hys⟩
        · exact absurd hc hle
        · exact ih (State.largestOf_cons.2 (.inr ⟨hc, hys⟩))

/-- A detection that no candidate takes is treated as having none (R64 to R71). -/
theorem State.matchAndTreat_unclaimed {s : State} {d : Detection} (h : s.unclaimed d) (clipped : Bool) :
    s.matchAndTreat d clipped = s.noCandidate d clipped (s.hasFrozen d) := by
  unfold State.matchAndTreat
  dsimp only
  rw [s.candidates_eq_openTo]
  rcases h with h | ⟨hm, c, hc, hfit⟩
  · rw [h]
  · have hgive : s.giveTo d clipped (s.hasFrozen d) c = s.noCandidate d clipped (s.hasFrozen d) := by
      rw [State.giveTo, if_neg]
      simpa [unionFits, State.fits] using hfit
    cases ho : s.openTo d with
    | nil => rfl
    | cons x xs =>
      rw [ho] at hm hc
      have hbest := bestOf_eq hc
      cases xs with
      | nil => rw [← hgive, ← hbest]; rfl
      | cons y ys =>
        dsimp only
        rw [if_neg (fun h => hm ((canMerge_iff s d x y ys).1 h)), hbest, hgive]

/-! ### A detection taken (R58, R59) -/

/-- The state of a take at its treatment: the entry gone, the engine at work (R29, R30, R58, R59). -/
def State.underTake (s : State) (p : Station) (rest : List Detection) : State :=
  { s.afterTake p rest with ae := { pointer := nextStation p, free := false } }

/-- The engine free again after the treatment of an entry of port p (R58, R59). -/
def State.engineFree (s : State) : State := { s with ae := { s.ae with free := true } }

/-- ASSOC_TAKE treats the detection that the search finds (R58, R59). -/
theorem exec_assocTake {s : State} {p : Station} {d : Detection} {rest : List Detection} (h : Takes s p d rest) :
    exec .assocTake s = .next ((s.underTake p rest).treat d).engineFree := by
  have htake : s.take p = ((s.underTake p rest).treat d).engineFree := by
    have hrem : (s.port p).removeHead =
        { s.port p with queue := rest, hold := (s.port p).hold && decide (8 < rest.length) } := by
      rw [Port.removeHead, h.queue]
      rfl
    unfold State.take
    rw [h.queue, hrem]
    rfl
  refine congrArg Host.Outcome.next ((State.awake_of h.awake _).trans ?_)
  rw [h.running, h.free, h.served]
  exact htake

theorem State.underTake_port (s : State) (p q : Station) (rest : List Detection) :
    (s.underTake p rest).port q =
      if q = p then { s.port p with queue := rest, hold := (s.port p).hold && decide (8 < rest.length) } else s.port q :=
  s.port_setPort p q _

/-- A take moves no point of a record (R42). -/
theorem State.underTake_samePoints (s : State) (p : Station) (rest : List Detection) :
    s.SamePoints (s.underTake p rest) where
  port q := by
    rw [s.underTake_port]
    split
    · next e => subst e; exact ⟨rfl, rfl⟩
    · exact ⟨rfl, rfl⟩
  tracking := rfl
  settings _ := rfl

theorem State.decideRecord_underTake (s : State) (p : Station) (rest : List Detection) (r : Record) :
    decideRecord (s.underTake p rest) r = decideRecord s r := by
  refine decideRecord_congr (s := s) (t := s.underTake p rest) rfl (fun q => ?_) r
  rw [s.underTake_port]
  split
  · next e => subst e; exact ⟨rfl, rfl⟩
  · exact ⟨rfl, rfl⟩

/-- The treatment of a detection that is no dust and that no candidate takes (R61, R62, R64). -/
theorem State.treat_unclaimed {s : State} {d : Detection} (hd : isDust s.tracking d = false)
    (h : s.unclaimed (s.shortened d)) :
    s.treat d = s.noCandidate (s.shortened d) (decide (s.tracking.lMax < stepsTo d.X d.Xt)) (s.hasFrozen (s.shortened d)) := by
  rw [State.treat, hd, clip_eq_shortened, needsClip_eq]
  exact State.matchAndTreat_unclaimed h _

/-- In RUN a detection that no candidate takes and that is not late makes a record (R65, R66). -/
theorem State.treat_makes {s : State} {d : Detection} (hm : s.lc.mode = .run) (hd : isDust s.tracking d = false)
    (h : s.unclaimed (s.shortened d)) (hfrozen : ¬s.meetsFrozen (s.shortened d)) (hlate : ¬s.tooLateFor (s.shortened d)) :
    s.treat d = s.makeRecord (s.shortened d) (decide (s.tracking.lMax < stepsTo d.X d.Xt)) := by
  have hf : s.hasFrozen (s.shortened d) = false := by rwa [← Bool.not_eq_true, s.hasFrozen_iff]
  have hp : s.pastFreeze (s.shortened d) = false := by rwa [← Bool.not_eq_true, s.pastFreeze_iff]
  rw [State.treat_unclaimed hd h, State.noCandidate, hf, hp, if_pos hm]
  rfl

/-- The shortening of a detection moves its X_t alone (R62). -/
theorem State.shortened_eq (s : State) (d : Detection) : s.shortened d = { d with Xt := (s.shortened d).Xt } := by
  unfold State.shortened
  split <;> rfl

/-- The record made from a shortened detection (R45, R62, R66). -/
theorem newRecord_shortened (s : State) (d : Detection) (clipped : Bool) :
    newRecord (s.shortened d) clipped =
      { st := .opened, X := d.X, Xt := (s.shortened d).Xt, first := d.first, last := d.last, bank := .a
        evidence := (⟨none, none, none, none⟩ : PerStation (Option Entry)).set d.station (some d.entry)
        flags := ⟨clipped, false, false, false, false, false, false⟩, ovr := none } := by
  unfold State.shortened
  split <;> rfl

/-- Without a bar the freeze point is none; with one, a detection that is not late has its freeze point ahead (R65). -/
theorem State.not_reached_freeze {s : State} {d : Detection} (h : ¬s.tooLateFor d) :
    s.reached (s.freezePoint d.X) = false := by
  rw [← s.pastFreeze_iff, Bool.not_eq_true] at h
  unfold State.pastFreeze at h
  unfold State.reached
  cases hf : s.freezePoint d.X with
  | none => rfl
  | some q => simpa [hf] using h

/-- A new record's points that are overdue, its freeze point being ahead: the decision alone (R43, R49). -/
theorem State.takeOverdue_new {s : State} {slot : Nat} {r : Record} (hr : s.running = true)
    (hf : s.ft.find slot = some r) (ho : r.st = .opened) (hfreeze : s.reached (s.freezePoint r.X) = false) :
    s.takeOverdue slot =
      if atOrBehind (s.decisionPoint r) s.bpu.T then s.modRecord slot (decideRecord s) else s := by
  have haw : s.awaited r = some (s.decisionPoint r) := by rw [State.awaited, ho]
  split
  · next hdue =>
    have hreach : s.reached (s.awaited r) = true := by rw [haw]; exact hdue
    rw [State.takeOverdue, State.runDue_take hf hr hreach, State.takePoint, ho]
    refine State.runDue_stop (r := decideRecord s r) ?_ ?_ 4
    · rw [State.modRecord_ft, FragTable.find_modRecord, hf]
      rfl
    · have hsame := (s.modRecord_partMove slot (decideRecord s)).samePoints
      rw [hsame.awaited]
      exact hfreeze
  · next hdue =>
    refine State.runDue_stop hf ?_ 5
    rw [haw]
    simpa [State.reached] using hdue

/-- A change of the new record that keeps X and first lane is a creation of the changed record (R41). -/
theorem State.withNew_modRecord {s : State} {slot : Nat} {rest : List Nat} {r : Record} {f : Record → Record}
    (hs : ∀ l ∈ s.ft.live, l.slot ≠ slot) (hX : (f r).X = r.X) (hfirst : (f r).first = r.first) :
    (s.withNew slot rest r).modRecord slot f = s.withNew slot rest (f r) := by
  simp only [State.modRecord, FragTable.modRecord, State.withNew, map_insertLive hs hX hfirst]

theorem State.find_withNew {s : State} {slot : Nat} (hs : ∀ l ∈ s.ft.live, l.slot ≠ slot) (rest : List Nat) (r : Record) :
    (s.withNew slot rest r).ft.find slot = some r := by
  refine FragTable.find_eq_some ((mem_insertLive _ _ _).2 (.inl rfl)) fun l hl hslot => ?_
  rcases (mem_insertLive _ _ _).1 hl with rfl | hl'
  · rfl
  · exact absurd hslot (hs l hl')

/-- A record made from a detection whose freeze point is ahead: created, and decided where its decision point is overdue
(R43, R45, R66). -/
theorem State.makeRecord_created {s : State} {d : Detection} {clipped : Bool} {slot : Nat} {rest : List Nat}
    (hr : s.running = true) (hfree : s.ft.freeList = slot :: rest) (hs : ∀ l ∈ s.ft.live, l.slot ≠ slot)
    (hfreeze : s.reached (s.freezePoint d.X) = false) :
    let r : Record := { newRecord d clipped with bank := s.banks.active }
    s.makeRecord d clipped =
      (s.withNew slot rest (if atOrBehind (s.decisionPoint r) s.bpu.T then decideRecord s r else r)).settle := by
  intro r
  have hover := State.takeOverdue_new (s := s.withNew slot rest r) hr (State.find_withNew hs rest r) rfl hfreeze
  rw [State.withNew_modRecord hs rfl rfl] at hover
  rw [State.makeRecord, State.create_cons hfree]
  dsimp only
  rw [hover, apply_ite (s.withNew slot rest)]
  rfl

/-- With the free list empty no record is made, and TABLE_FULL is raised (R47). -/
theorem State.makeRecord_full {s : State} {d : Detection} {clipped : Bool} (h : s.ft.freeList = []) :
    s.makeRecord d clipped = s.raise .tableFull (.station d.station) none := by
  rw [State.makeRecord, State.create_nil h]

/-- Settles O19. -/
theorem new_record_from_a_detection : Obligations.New_record_from_a_detection := by
  refine ⟨fun p d rest s ht hm hdust hun hfrozen hlate _ => ?_, fun x live => ?_, fun a b => ?_⟩
  · intro r r'
    have hX : (s.shortened d).X = d.X := by rw [s.shortened_eq d]
    have hlate' : ¬s.tooLateFor (s.shortened d) := by rwa [State.tooLateFor, hX]
    have hmake : (s.underTake p rest).treat d =
        (s.underTake p rest).makeRecord (s.shortened d) (decide (s.tracking.lMax < stepsTo d.X d.Xt)) :=
      State.treat_makes (s := s.underTake p rest) hm hdust hun hfrozen hlate'
    have hexec := exec_assocTake ht
    rw [hmake] at hexec
    refine ⟨fun slot free hfree hs => ?_, fun hfree => ?_⟩
    · have hrec : ({ newRecord (s.shortened d) (decide (s.tracking.lMax < stepsTo d.X d.Xt)) with
          bank := (s.underTake p rest).banks.active } : Record) = r := by
        rw [newRecord_shortened, ht.station]
        rfl
      have hcreated := State.makeRecord_created (s := s.underTake p rest) (d := s.shortened d)
        (clipped := decide (s.tracking.lMax < stepsTo d.X d.Xt)) ht.running hfree hs
        ((congrArg s.reached (congrArg s.freezePoint hX)).trans (State.not_reached_freeze hlate))
      dsimp only at hcreated
      rw [hrec, (s.underTake_samePoints p rest).decisionPoint r, s.decideRecord_underTake p rest r] at hcreated
      rw [hcreated] at hexec
      exact ⟨_, hexec, rfl, rfl, rfl, rfl, rfl, rfl, rfl, rfl,
        State.settle_evaluated ((s.underTake p rest).withNew slot free r')⟩
    · rw [hexec, State.makeRecord_full (s := s.underTake p rest) hfree, s.shortened_eq d, ht.station]
      rfl
  · intro stands hp hs hn
    exact ⟨insertLive_perm x live, insertLive_pairwise hp hs hn⟩
  · exact ⟨ahead_iff a b, behind_iff a b, atOrAhead_iff a b, atOrBehind_iff a b, rfl, rfl, rfl⟩

end Sys2Proof.Machine
end

