-- ==== Sys2Proof/Proofs/RecordEvents.lean ====
section
/-! SUPPORT. The events of one record: what they leave of the other records, and where they end (R43, R44). -/

namespace Sys2Proof.Machine

/-! ### The table in agreement -/

/-- The live count is the number of live records, and no two of them share a slot (R37). -/
structure FragTable.Sound (ft : FragTable) : Prop where
  count : ft.liveCount = ft.live.length
  nodup : (ft.live.map (·.slot)).Nodup

theorem TableOk.sound {s : State} (h : TableOk s) : s.ft.Sound :=
  ⟨h.count, (List.nodup_append.1 (h.slots.nodup_iff.2 List.nodup_range)).1⟩

theorem FragTable.Sound.unique {ft : FragTable} (h : ft.Sound) {x y : Live} (hx : x ∈ ft.live) (hy : y ∈ ft.live)
    (e : x.slot = y.slot) : x = y := List.inj_on_of_nodup_map h.nodup hx hy e

theorem FragTable.Sound.find {ft : FragTable} (h : ft.Sound) {l : Live} (hl : l ∈ ft.live) :
    ft.find l.slot = some l.record :=
  FragTable.find_eq_some hl fun _ hx e => congrArg Live.record (h.unique hx hl e)

theorem FragTable.Sound.record_eq {ft : FragTable} (h : ft.Sound) {l : Live} {r : Record} (hl : l ∈ ft.live)
    (hf : ft.find l.slot = some r) : l.record = r := Option.some.inj ((h.find hl).symm.trans hf)

theorem FragTable.Sound.modRecord {ft : FragTable} (h : ft.Sound) (slot : Nat) (f : Record → Record) :
    (ft.modRecord slot f).Sound := by
  have hslots : (ft.modRecord slot f).live.map (·.slot) = ft.live.map (·.slot) := by
    rw [FragTable.modRecord_live, List.map_map]
    refine List.map_congr_left fun l _ => ?_
    by_cases hl : l.slot = slot <;> simp [hl]
  exact ⟨by simpa using h.count, hslots ▸ h.nodup⟩

theorem FragTable.Sound.freeSlot {ft : FragTable} (h : ft.Sound) {slot : Nat} {r : Record} (hf : ft.find slot = some r) :
    (ft.freeSlot slot).Sound := by
  have hmem : slot ∈ ft.live.map (·.slot) := List.mem_map.2 ⟨_, FragTable.mem_of_find hf, rfl⟩
  have hslots : (removeSlot ft.live slot).map (·.slot) = (ft.live.map (·.slot)).erase slot := by
    rw [h.nodup.erase_eq_filter, removeSlot, List.filter_map]
    rfl
  have hlen := congrArg List.length hslots
  rw [List.length_map, List.length_erase_of_mem hmem, List.length_map] at hlen
  exact ⟨by rw [FragTable.freeSlot_liveCount, FragTable.freeSlot_live, hlen, h.count],
    by rw [FragTable.freeSlot_live, hslots]; exact h.nodup.erase slot⟩

/-! ### The records that an event leaves alone -/

/-- What an event on the Fragment Table within a T advance does: no record joins, the table stays in agreement, and the
line stays in its mode while a record is live (R151). -/
structure State.TableMove (s t : State) : Prop where
  sound : s.ft.Sound → t.ft.Sound
  slots : ∀ x ∈ t.ft.live, ∃ y ∈ s.ft.live, y.slot = x.slot
  mode  : s.ft.Sound → t.ft.live ≠ [] → t.lc.mode = s.lc.mode

theorem State.TableMove.of_eq {s t : State} (hf : t.ft = s.ft) (hm : t.lc.mode = s.lc.mode) : s.TableMove t :=
  ⟨fun h => hf ▸ h, fun x hx => ⟨x, hf ▸ hx, rfl⟩, fun _ _ => hm⟩

theorem State.TableMove.nonempty {s t : State} (h : s.TableMove t) (ht : t.ft.live ≠ []) : s.ft.live ≠ [] := by
  obtain ⟨x, hx⟩ := List.exists_mem_of_ne_nil _ ht
  obtain ⟨y, hy, -⟩ := h.slots x hx
  exact List.ne_nil_of_mem hy

theorem State.TableMove.trans {s t u : State} (h : s.TableMove t) (k : t.TableMove u) : s.TableMove u where
  sound hs := k.sound (h.sound hs)
  slots x hx := by
    obtain ⟨y, hy, e⟩ := k.slots x hx
    obtain ⟨z, hz, e'⟩ := h.slots y hy
    exact ⟨z, hz, e'.trans e⟩
  mode hs hu := (k.mode (h.sound hs) hu).trans (h.mode hs (k.nonempty hu))

/-- An event of the record in one slot: the records of other slots and their generations stay. -/
structure State.SlotMove (slot : Nat) (s t : State) : Prop extends State.TableMove s t where
  other : ∀ l : Live, l.slot ≠ slot → (l ∈ t.ft.live ↔ l ∈ s.ft.live)
  gen   : ∀ j, j ≠ slot → t.ft.gen j = s.ft.gen j

theorem State.SlotMove.refl (slot : Nat) (s : State) : s.SlotMove slot s :=
  ⟨.of_eq rfl rfl, fun _ _ => Iff.rfl, fun _ _ => rfl⟩

theorem State.SlotMove.trans {slot : Nat} {s t u : State} (h : s.SlotMove slot t) (k : t.SlotMove slot u) :
    s.SlotMove slot u :=
  ⟨h.toTableMove.trans k.toTableMove, fun l hl => (k.other l hl).trans (h.other l hl),
    fun j hj => (k.gen j hj).trans (h.gen j hj)⟩

/-- A change of one record. -/
theorem State.SlotMove.of_modRecord {slot : Nat} {s t : State} {f : Record → Record} (hf : t.ft = s.ft.modRecord slot f)
    (hm : t.lc.mode = s.lc.mode) : s.SlotMove slot t := by
  refine ⟨⟨fun h => hf ▸ h.modRecord slot f, fun x hx => ?_, fun _ _ => hm⟩, fun l hl => ?_, fun j _ => ?_⟩
  · rw [hf, FragTable.mem_modRecord] at hx
    rcases hx with ⟨hx, -⟩ | ⟨e, r, hr, -⟩
    · exact ⟨x, hx, rfl⟩
    · exact ⟨_, hr, e.symm⟩
  · rw [hf, FragTable.mem_modRecord]
    simp [hl]
  · rw [hf]
    rfl

/-- The retirement of one record. -/
theorem State.SlotMove.of_freeSlot {slot : Nat} {s t : State} {r : Record} (hfind : s.ft.find slot = some r)
    (hf : t.ft = s.ft.freeSlot slot) (hm : t.lc.mode = s.lc.mode ∨ t.ft.liveCount = 0) : s.SlotMove slot t := by
  have hsound : s.ft.Sound → t.ft.Sound := fun h => hf ▸ h.freeSlot hfind
  refine ⟨⟨hsound, fun x hx => ?_, fun h hne => ?_⟩, fun l hl => ?_, fun j hj => ?_⟩
  · rw [hf, FragTable.freeSlot_live, mem_removeSlot] at hx
    exact ⟨x, hx.1, rfl⟩
  · refine hm.resolve_right fun h0 => hne ?_
    rw [(hsound h).count] at h0
    exact List.length_eq_zero_iff.1 h0
  · rw [hf, FragTable.freeSlot_live, mem_removeSlot]
    simp [hl]
  · rw [hf, FragTable.gen, FragTable.gen, FragTable.freeSlot_gens]
    simp [hj.symm]

/-! ### The event of a point -/

/-- How many points a record can still take, since its state only moves forward (R44). -/
def RecState.left : RecState → Nat
  | .opened => 4
  | .decided _ _ => 3
  | .committed _ _ => 2
  | .armed _ _ => 1
  | .passing _ _ _ => 1

theorem RecState.left_pos (st : RecState) : 0 < st.left := by cases st <;> exact Nat.succ_pos _

theorem RecState.left_le (st : RecState) : st.left ≤ 4 := by cases st <;> simp [RecState.left]

theorem FragTable.modRecord_modRecord (ft : FragTable) (slot : Nat) (f g : Record → Record) :
    (ft.modRecord slot f).modRecord slot g = ft.modRecord slot (g ∘ f) := by
  simp only [FragTable.modRecord, List.map_map]
  congr 1
  refine List.map_congr_left fun l _ => ?_
  by_cases hl : l.slot = slot <;> simp [hl]

theorem FragTable.modRecord_id (ft : FragTable) (slot : Nat) : ft.modRecord slot id = ft := by
  simp [FragTable.modRecord]

/-- A late arming touches the record's flags alone (R108). -/
theorem State.reportLate_ft (s : State) (b : Bar) (slot : Nat) (late : Bool) :
    ∃ f, (s.reportLate b slot late).ft = s.ft.modRecord slot f := by
  cases late
  · exact ⟨id, (FragTable.modRecord_id _ _).symm⟩
  · exact ⟨fun r => { r with flags := { r.flags with lateFire := true } }, rfl⟩

theorem State.reportWatch_ft (s : State) (b : Bar) (slot : Nat) (set : List Nat) :
    (s.reportWatch b slot set).ft = s.ft := by
  unfold State.reportWatch
  split <;> rfl

/-- An arming that ends without a commit leaves its record PASSING (R104). -/
theorem State.pass_ft (s : State) (slot : Nat) (v : Verdict) (b : Bar) (o : RecOutcome) :
    ∃ f, (s.pass slot v b o).ft = s.ft.modRecord slot f ∧ ∀ x, (f x).st.left = 1 :=
  ⟨fun x => { x with st := .passing v (.bar b) o }, rfl, fun _ => rfl⟩

/-- The guard, the capacity and the commit leave the record ARMED or PASSING (R110 to R113). -/
theorem State.guardAndCommit_ft (s : State) (slot : Nat) (r : Record) (v : Verdict) (sch : Schedule) (set : List Nat) :
    ∃ f, (s.guardAndCommit slot r v sch set).ft = s.ft.modRecord slot f ∧ ∀ x, (f x).st.left = 1 := by
  unfold State.guardAndCommit
  split
  · exact s.pass_ft _ _ _ _
  · split
    · exact State.pass_ft (s.raise .valveFull _ _) _ _ _ _
    · exact ⟨fun x => { x with st := .armed v sch }, rfl, fun _ => rfl⟩

/-- An arming leaves its record ARMED or PASSING and touches no other (R104). -/
theorem State.arm_ft (s : State) (slot : Nat) (r : Record) (v : Verdict) (b : Bar) :
    ∃ f, (s.arm slot r v b).ft = s.ft.modRecord slot f ∧ ∀ x, (f x).st.left = 1 := by
  unfold State.arm
  dsimp only
  split
  · exact s.pass_ft _ _ _ _
  · split
    · exact s.pass_ft _ _ _ _
    · split
      · exact s.pass_ft _ _ _ _
      · obtain ⟨g, hg, hst⟩ := State.guardAndCommit_ft _ slot r v _ _
        rw [hg]
        obtain ⟨f, hf⟩ := State.reportLate_ft _ b slot _
        rw [hf, State.reportWatch_ft, FragTable.modRecord_modRecord]
        exact ⟨_, rfl, fun x => hst (f x)⟩

/-- No operation of an arming changes the mode. -/
theorem State.reportLate_mode (s : State) (b : Bar) (slot : Nat) (late : Bool) :
    (s.reportLate b slot late).lc.mode = s.lc.mode := by
  cases late <;> simp [State.reportLate]

theorem State.reportWatch_mode (s : State) (b : Bar) (slot : Nat) (set : List Nat) :
    (s.reportWatch b slot set).lc.mode = s.lc.mode := by
  unfold State.reportWatch
  split <;> simp

theorem State.guardAndCommit_mode (s : State) (slot : Nat) (r : Record) (v : Verdict) (sch : Schedule) (set : List Nat) :
    (s.guardAndCommit slot r v sch set).lc.mode = s.lc.mode := by
  unfold State.guardAndCommit
  split
  · rfl
  · split
    · simp [State.pass]
    · rfl

theorem State.arm_mode (s : State) (slot : Nat) (r : Record) (v : Verdict) (b : Bar) :
    (s.arm slot r v b).lc.mode = s.lc.mode := by
  unfold State.arm
  dsimp only
  split
  · rfl
  · split
    · rfl
    · split
      · rfl
      · rw [State.guardAndCommit_mode, State.reportLate_mode, State.reportWatch_mode]

/-- The retirement of a live record frees its slot, leaves the bars, and changes the mode only where none is left (R48,
R151). -/
theorem State.retire_frees {s : State} {slot : Nat} {r : Record} (hf : s.ft.find slot = some r) (o : RecOutcome) :
    (s.retire slot o).ft = s.ft.freeSlot slot ∧ (s.retire slot o).bars = s.bars ∧
    ((s.retire slot o).lc.mode = s.lc.mode ∨ (s.retire slot o).ft.liveCount = 0) := by
  rcases s.retire_cases slot o with ⟨hn, _⟩ | ⟨r', _, e⟩
  · rw [hf] at hn
    cases hn
  · rw [e]
    rcases State.drainIfEmpty_cases
      { s.freeRecord slot r' with lc := { s.lc with tallies := s.lc.tallies.bump o r'.st.material } } with
      ⟨_, h0, e⟩ | ⟨_, e⟩ <;> rw [e]
    · exact ⟨rfl, rfl, .inr h0⟩
    · exact ⟨rfl, rfl, .inl rfl⟩

/-- The event of a point changes its record, which moves forward, or frees its slot (R43, R44). -/
theorem State.takePoint_table {s : State} {slot : Nat} {r : Record} (hf : s.ft.find slot = some r) :
    (∃ f, (s.takePoint slot r).ft = s.ft.modRecord slot f ∧ (s.takePoint slot r).lc.mode = s.lc.mode ∧
      ∀ x, (f x).st.left < r.st.left) ∨
    ((s.takePoint slot r).ft = s.ft.freeSlot slot ∧
      ((s.takePoint slot r).lc.mode = s.lc.mode ∨ (s.takePoint slot r).ft.liveCount = 0)) := by
  rcases s.takePoint_cases slot r with ⟨hst, e⟩ | ⟨v, d, hst, e⟩ | ⟨v, b, hst, e⟩ | ⟨v, sch, hst, e⟩ | ⟨v, d, o, hst, e⟩ <;>
    rw [e, hst]
  · exact .inl ⟨decideRecord s, rfl, rfl, fun _ => Nat.lt_succ_self 3⟩
  · exact .inl ⟨fun x => { x with st := freezeState v d }, rfl, rfl,
      fun _ => by cases d <;> simp [freezeState, RecState.left]⟩
  · obtain ⟨f, hft, hleft⟩ := s.arm_ft slot r v b
    exact .inl ⟨f, hft, s.arm_mode _ _ _ _, fun x => by rw [hleft]; exact Nat.lt_succ_self 1⟩
  · obtain ⟨hft, -, hm⟩ := State.retire_frees (s := s.setBar sch.bar ((s.bar sch.bar).without (s.ft.handle slot))) hf .fired
    exact .inr ⟨hft, hm⟩
  · obtain ⟨hft, -, hm⟩ := State.retire_frees hf o
    exact .inr ⟨hft, hm⟩

theorem State.takePoint_slotMove {s : State} {slot : Nat} {r : Record} (hf : s.ft.find slot = some r) :
    s.SlotMove slot (s.takePoint slot r) := by
  rcases State.takePoint_table hf with ⟨f, hft, hm, -⟩ | ⟨hft, hm⟩
  · exact .of_modRecord hft hm
  · exact .of_freeSlot hf hft hm

/-! ### The run of points due -/

/-- A run of points stops at once, or takes a point that is due on a running line and goes on (R43). -/
theorem State.runDue_cases (s : State) (slot n : Nat) :
    s.runDue (n + 1) slot = s ∨
    ∃ r, s.ft.find slot = some r ∧ s.running = true ∧ s.reached (s.awaited r) = true ∧
      s.runDue (n + 1) slot = (s.takePoint slot r).runDue n slot := by
  cases hr : s.running with
  | false => exact .inl (State.runDue_idle hr _ _)
  | true =>
    cases hf : s.ft.find slot with
    | none => exact .inl (State.runDue_none hf _)
    | some r =>
      cases hreach : s.reached (s.awaited r) with
      | false => exact .inl (State.runDue_stop hf hreach _)
      | true => exact .inr ⟨r, rfl, rfl, hreach, State.runDue_take hf hr hreach n⟩

theorem State.runDue_slotMove (n : Nat) (s : State) (slot : Nat) : s.SlotMove slot (s.runDue n slot) := by
  induction n generalizing s with
  | zero => exact .refl slot s
  | succ n ih =>
    rcases s.runDue_cases slot n with e | ⟨r, hf, _, _, e⟩ <;> rw [e]
    · exact .refl slot s
    · exact (State.takePoint_slotMove hf).trans (ih _)

/-- A run of enough points ends at a record that awaits none at or behind T, or with the record gone; and where it began
with a point due, the record has moved forward (R43, R44). -/
theorem State.runDue_ends {n : Nat} {s : State} {slot : Nat} {r : Record} (hs : s.ft.Sound) (hr : s.running = true)
    (hf : s.ft.find slot = some r) (hn : r.st.left ≤ n) {x : Live} (hx : x ∈ (s.runDue n slot).ft.live)
    (hslot : x.slot = slot) :
    (s.runDue n slot).reached ((s.runDue n slot).awaited x.record) = false ∧
    (s.reached (s.awaited r) = true → x.record.st.left < r.st.left) := by
  induction n generalizing s r with
  | zero => exact absurd r.st.left_pos (by omega)
  | succ n ih =>
    subst hslot
    cases hreach : s.reached (s.awaited r) with
    | false =>
      rw [State.runDue_stop hf hreach] at hx ⊢
      rw [hs.record_eq hx hf]
      exact ⟨hreach, nofun⟩
    | true =>
      rw [State.runDue_take hf hr hreach] at hx ⊢
      rcases State.takePoint_table hf with ⟨f, hft, hm, hleft⟩ | ⟨hft, -⟩
      · have hf' : (s.takePoint x.slot r).ft.find x.slot = some (f r) := by
          rw [hft, FragTable.find_modRecord, hf]
          rfl
        have hr' : (s.takePoint x.slot r).running = true := by
          rw [State.running, hm]
          exact hr
        obtain ⟨hend, hmove⟩ := ih ((State.takePoint_slotMove hf).sound hs) hr' hf' (by have := hleft r; omega) hx
        refine ⟨hend, fun _ => ?_⟩
        cases hnext : (s.takePoint x.slot r).reached ((s.takePoint x.slot r).awaited (f r)) with
        | true => exact (hmove hnext).trans (hleft r)
        | false =>
          rw [State.runDue_stop hf' hnext] at hx
          rw [((State.takePoint_slotMove hf).sound hs).record_eq hx hf']
          exact hleft r
      · have hnone : (s.takePoint x.slot r).ft.find x.slot = none :=
          FragTable.find_eq_none.2 fun l hl => ((mem_removeSlot _ _ _).1 (by rw [hft] at hl; exact hl)).2
        rw [State.runDue_none hnone] at hx
        exact absurd rfl (FragTable.find_eq_none.1 hnone x hx)

end Sys2Proof.Machine
end

