-- ==== Sys2Proof/Proofs/AdvanceParts.lean ====
section
/-! SUPPORT. The parts of a T advance, taken in the free order: stations fall silent, records take the points reached, and
intervals end with their record (R21, R43, R124; entry 8). -/

namespace Sys2Proof.Machine

/-! ### The parts in their order -/

theorem mem_orderParts {draw : Nat} {parts : List AdvancePart} {x : AdvancePart} :
    x ∈ orderParts draw parts ↔ x ∈ parts := (List.perm_insertionSort _ parts).mem_iff

/-- What every part of a list keeps, the whole list keeps. -/
theorem foldl_keeps {P : State → Prop} {f : State → AdvancePart → State} {parts : List AdvancePart}
    (h : ∀ s, ∀ x ∈ parts, P s → P (f s x)) {s : State} (hs : P s) : P (parts.foldl f s) := by
  induction parts generalizing s with
  | nil => exact hs
  | cons x xs ih =>
    exact ih (fun t y hy => h t y (List.mem_cons_of_mem _ hy)) (h s x List.mem_cons_self hs)

/-- What one part of a list brings about and every part keeps, holds after the whole list. -/
theorem foldl_establishes {P Q : State → Prop} {f : State → AdvancePart → State} (hP : ∀ s x, P s → P (f s x))
    (hQ : ∀ s x, Q s → Q (f s x)) {a : AdvancePart} (ha : ∀ s, P s → Q (f s a)) {parts : List AdvancePart}
    (hmem : a ∈ parts) {s : State} (hs : P s) : Q (parts.foldl f s) := by
  induction parts generalizing s with
  | nil => cases hmem
  | cons x xs ih =>
    rcases List.mem_cons.1 hmem with rfl | hmem
    · exact foldl_keeps (P := Q) (parts := xs) (fun t y _ => hQ t y) (ha s hs)
    · exact ih hmem (hP s x hs)

/-- The parts of an advance: stations that fall silent, and on a running line the records whose point T has reached. -/
theorem State.mem_advanceParts (s : State) (x : AdvancePart) :
    x ∈ s.advanceParts ↔
      (∃ p, x = .silence p ∧ (s.port p).fallsSilent = true) ∨
      ∃ l ∈ s.ft.live, x = .point l.slot ∧ s.running = true ∧ s.awaited l.record = some s.bpu.T := by
  have hstations : ∀ p : Station, p ∈ stations := fun p => by cases p <;> decide
  have hsilence : x ∈ (stations.filter fun p => (s.port p).fallsSilent).map AdvancePart.silence ↔
      ∃ p, x = .silence p ∧ (s.port p).fallsSilent = true := by
    simp only [List.mem_map, List.mem_filter, hstations, true_and]
    exact exists_congr fun p => and_comm.trans (and_congr_left fun _ => eq_comm)
  rw [State.advanceParts, List.mem_append, hsilence]
  refine or_congr_right ?_
  cases s.running with
  | false => simp
  | true =>
    simp only [if_true, List.mem_map, List.mem_filter, State.reaches, beq_iff_eq, true_and]
    exact exists_congr fun l => by rw [and_assoc, and_comm (b := _ = x), eq_comm (b := x)]

/-! ### Stations -/

theorem State.PartMove.T {s t : State} (h : s.PartMove t) : t.bpu.T = s.bpu.T := by
  rcases h.line with ⟨e, _⟩ | ⟨e, _⟩ <;> rw [e]

/-- After the parts of an advance no station is left that falls silent (R21). -/
theorem State.takeParts_silent (s : State) (p : Station) : (s.takeParts.port p).fallsSilent = false := by
  cases hp : (s.port p).fallsSilent with
  | false =>
    rw [← Bool.not_eq_true, s.takeParts_partMove.fallsSilent_iff, hp]
    simp
  | true =>
    refine foldl_establishes (P := fun _ => True) (Q := fun u => (u.port p).fallsSilent = false) (a := .silence p)
      (fun _ _ _ => trivial) (fun u x hu => ?_) (fun u _ => ?_)
      (mem_orderParts.2 ((s.mem_advanceParts _).2 (.inl ⟨p, rfl, hp⟩))) trivial
    · rw [← Bool.not_eq_true, (u.takePart_partMove x).fallsSilent_iff, hu]
      simp
    · change ((u.goSilent p).port p).fallsSilent = false
      rcases u.goSilent_cases p with ⟨hf, e⟩ | ⟨_, e⟩ <;> rw [e]
      · exact hf
      · have hport : ((u.setPort p { u.port p with state := .silent }).raise .stationSilent (.station p) none).port p =
            { u.port p with state := .silent } := u.port_setPort_same p _
        rw [hport]
        rfl

/-- A station falling silent touches ports and notices alone (R21). -/
theorem State.goSilent_frame (s : State) (p : Station) :
    (s.goSilent p).ft = s.ft ∧ (s.goSilent p).bars = s.bars ∧ (s.goSilent p).lc.mode = s.lc.mode := by
  rcases s.goSilent_cases p with ⟨_, e⟩ | ⟨_, e⟩ <;> rw [e]
  · exact ⟨rfl, rfl, rfl⟩
  · exact ⟨rfl, rfl, by simp⟩

/-! ### Records -/

/-- The event of a reached point: nothing, or on a running line the run of points from the one that T has reached (R43). -/
theorem State.takeReached_cases (s : State) (slot : Nat) :
    s.takeReached slot = s ∨
    ∃ r, s.ft.find slot = some r ∧ s.running = true ∧ s.awaited r = some s.bpu.T ∧
      s.takeReached slot = s.runDue 5 slot := by
  unfold State.takeReached
  cases hf : s.ft.find slot with
  | none => exact .inl rfl
  | some r =>
    cases hc : s.running && s.reaches r with
    | false => exact .inl (by simp [hc])
    | true =>
      simp only [Bool.and_eq_true, State.reaches, beq_iff_eq] at hc
      exact .inr ⟨r, rfl, hc.1, hc.2, by simp [hc, State.reaches, State.takeOverdue]⟩

/-- The event of a record whose point T has reached, on a running line. -/
theorem State.takeReached_of {s : State} {slot : Nat} {r : Record} (hf : s.ft.find slot = some r)
    (hr : s.running = true) (ha : s.awaited r = some s.bpu.T) : s.takeReached slot = s.runDue 5 slot := by
  simp [State.takeReached, hf, hr, State.reaches, ha, State.takeOverdue]

theorem State.takeReached_slotMove (s : State) (slot : Nat) : s.SlotMove slot (s.takeReached slot) := by
  rcases s.takeReached_cases slot with e | ⟨r, _, _, _, e⟩ <;> rw [e]
  · exact .refl slot s
  · exact State.runDue_slotMove 5 s slot

theorem State.takePart_tableMove (s : State) (x : AdvancePart) : s.TableMove (s.takePart x) := by
  cases x with
  | silence p =>
    obtain ⟨hft, -, hm⟩ := s.goSilent_frame p
    exact .of_eq hft hm
  | point slot => exact (s.takeReached_slotMove slot).toTableMove

/-- What holds of every state between two parts of an advance that began at `base`. -/
structure State.Advancing (base u : State) : Prop where
  parts : base.PartMove u
  table : base.TableMove u

theorem State.Advancing.start (base : State) : base.Advancing { base with draws := base.draws + 1 } :=
  ⟨base.draws_partMove _, .of_eq rfl rfl⟩

theorem State.Advancing.next {base u : State} (h : base.Advancing u) (x : AdvancePart) :
    base.Advancing (u.takePart x) :=
  ⟨h.parts.trans (u.takePart_partMove x), h.table.trans (u.takePart_tableMove x)⟩

theorem State.Advancing.takeParts (base : State) : base.Advancing base.takeParts :=
  foldl_keeps (fun _ x _ h => h.next x) (.start base)

/-- A point that equals T is reached (R43). -/
theorem State.reached_T (s : State) : s.reached (some s.bpu.T) = true := by
  simp [State.reached, atOrBehind_iff]

/-- The record in a live record's slot has moved on, and awaits no point at the new T (R43). -/
def State.MovedOn (base u : State) (l : Live) : Prop :=
  ∀ x ∈ u.ft.live, x.slot = l.slot → x.record.st ≠ l.record.st ∧ base.awaited x.record ≠ some base.bpu.T

/-- Another record's event leaves a record as it is. -/
theorem State.takePart_other {u : State} {l : Live} (hl : l ∈ u.ft.live) {x : AdvancePart} (hx : x ≠ .point l.slot) :
    l ∈ (u.takePart x).ft.live := by
  cases x with
  | silence p => rwa [State.takePart, (u.goSilent_frame p).1]
  | point slot =>
    exact ((u.takeReached_slotMove slot).other l fun e => hx (congrArg AdvancePart.point e.symm)).2 hl

/-- A record that has moved on is not touched again. -/
theorem State.Advancing.movedOn {base u : State} (h : base.Advancing u) {l : Live} (hm : base.MovedOn u l)
    (x : AdvancePart) : base.MovedOn (u.takePart x) l := by
  intro y hy hslot
  cases x with
  | silence p =>
    rw [State.takePart, (u.goSilent_frame p).1] at hy
    exact hm y hy hslot
  | point slot =>
    by_cases he : y.slot = slot
    · rcases u.takeReached_cases slot with e | ⟨r, hf, _, hr, _⟩
      · exact hm y (by rw [← e]; exact hy) hslot
      · have hmem := FragTable.mem_of_find hf
        rw [h.parts.samePoints.awaited, h.parts.T] at hr
        exact absurd hr (hm _ hmem (he.symm.trans hslot)).2
    · exact hm y (((u.takeReached_slotMove slot).other y he).1 hy) hslot

section
variable {base u : State} (h : base.Advancing u) (hs : base.ft.Sound)
include h hs

/-- A record whose point T has not reached stays (R43). -/
theorem State.Advancing.stays {l : Live} (hl : l ∈ u.ft.live) (ha : base.awaited l.record ≠ some base.bpu.T)
    (x : AdvancePart) : l ∈ (u.takePart x).ft.live := by
  cases x with
  | silence p => rwa [State.takePart, (u.goSilent_frame p).1]
  | point slot =>
    change l ∈ (u.takeReached slot).ft.live
    by_cases hslot : l.slot = slot
    · rcases u.takeReached_cases slot with e | ⟨r, hf, _, hr, _⟩
      · rwa [e]
      · subst hslot
        rw [← (h.table.sound hs).record_eq hl hf, h.parts.samePoints.awaited, h.parts.T] at hr
        exact absurd hr ha
    · exact ((u.takeReached_slotMove slot).other l hslot).2 hl

/-- A record whose point T has reached moves on at its event (R43, R44). -/
theorem State.Advancing.moves {l : Live} (hl : l ∈ u.ft.live) (ha : base.awaited l.record = some base.bpu.T)
    (hrun : base.running = true) : base.MovedOn (u.takePart (.point l.slot)) l := by
  intro x hx hslot
  have hsound := h.table.sound hs
  have hf := hsound.find hl
  have hrun' : u.running = true := by
    rw [State.running, h.table.mode hs (List.ne_nil_of_mem hl)]
    exact hrun
  have hau : u.awaited l.record = some u.bpu.T := by rw [h.parts.samePoints.awaited, h.parts.T, ha]
  have hreach : u.reached (u.awaited l.record) = true := by
    rw [hau]
    exact u.reached_T
  have hmove := h.next (.point l.slot)
  have e : u.takePart (.point l.slot) = u.runDue 5 l.slot := State.takeReached_of hf hrun' hau
  rw [e] at hx hmove
  have hleft : l.record.st.left ≤ 5 := l.record.st.left_le.trans (by decide)
  obtain ⟨hend, hforward⟩ := State.runDue_ends hsound hrun' hf hleft hx hslot
  refine ⟨fun hst => ?_, fun hax => ?_⟩
  · have := hforward hreach
    rw [hst] at this
    omega
  · rw [hmove.parts.samePoints.awaited, hax, ← hmove.parts.T, State.reached_T] at hend
    cases hend

end

/-- After an advance a record whose point T has not reached is as it was (R43). -/
theorem State.takeParts_stays {base : State} (hs : base.ft.Sound) {l : Live} (hl : l ∈ base.ft.live)
    (ha : base.awaited l.record ≠ some base.bpu.T) : l ∈ base.takeParts.ft.live :=
  (foldl_keeps (P := fun u => base.Advancing u ∧ l ∈ u.ft.live)
    (fun _ x _ hu => ⟨hu.1.next x, hu.1.stays hs hu.2 ha x⟩) ⟨.start base, hl⟩).2

/-- After an advance of a running line a record whose point T has reached has moved on (R43). -/
theorem State.takeParts_moves {base : State} (hs : base.ft.Sound) (hrun : base.running = true) {l : Live}
    (hl : l ∈ base.ft.live) (ha : base.awaited l.record = some base.bpu.T) : base.MovedOn base.takeParts l := by
  have hpart : AdvancePart.point l.slot ∈ orderParts base.draws base.advanceParts :=
    mem_orderParts.2 ((base.mem_advanceParts _).2 (.inr ⟨l, hl, rfl, hrun, ha⟩))
  refine (foldl_establishes (P := fun u => base.Advancing u ∧ (l ∈ u.ft.live ∨ base.MovedOn u l))
    (Q := fun u => base.Advancing u ∧ base.MovedOn u l) (fun u x hu => ⟨hu.1.next x, ?_⟩)
    (fun u x hu => ⟨hu.1.next x, hu.1.movedOn hu.2 x⟩) (fun u hu => ⟨hu.1.next _, ?_⟩) hpart
    ⟨.start base, .inl hl⟩).2
  · rcases hu.2 with hlu | hm
    · by_cases hx : x = .point l.slot
      · rw [hx]
        exact .inr (hu.1.moves hs hlu ha hrun)
      · exact .inl (State.takePart_other hlu hx)
    · exact .inr (hu.1.movedOn hm x)
  · rcases hu.2 with hlu | hm
    · exact hu.1.moves hs hlu ha hrun
    · exact hu.1.movedOn hm _

/-- On a line that does not run an advance changes no record (R43). -/
theorem State.takeParts_idle {base : State} (h : base.running = false) : base.takeParts.ft = base.ft := by
  refine foldl_keeps (P := fun u => u.ft = base.ft) (fun u x hx hu => ?_) rfl
  rcases (base.mem_advanceParts x).1 (mem_orderParts.1 hx) with ⟨p, rfl, -⟩ | ⟨l, -, -, hr, -⟩
  · exact (u.goSilent_frame p).1.trans hu
  · exact absurd (h.symm.trans hr) (by decide)

/-! ### Intervals -/

/-- Some nozzle of the bar holds the interval (R121). -/
def State.Holds (s : State) (b : Bar) (iv : Interval) : Prop := ∃ n ∈ (s.bar b).nozzles, iv ∈ n.ivals

/-- Every interval that ends at a position is owned by a live ARMED record whose schedule ends there (R113). -/
def State.EndsOwned (s : State) (T : Pos) : Prop :=
  ∀ b iv, s.Holds b iv → iv.fireOff = T →
    ∃ l ∈ s.ft.live, ∃ v sch, s.ft.handle l.slot = iv.owner ∧ l.record.st = .armed v sch ∧ sch.bar = b ∧ sch.fireOff = T

theorem OwnersOk.endsOwned {s : State} (h : OwnersOk s) (T : Pos) : s.EndsOwned T := by
  rintro b iv ⟨n, hn, hiv⟩ rfl
  obtain ⟨l, hl, v, sch, hh, hst, hb, -, hoff⟩ := h.owned b n hn iv hiv
  exact ⟨l, hl, v, sch, hh, hst, hb, hoff⟩

theorem State.EndsOwned.congr {s t : State} {T : Pos} (h : s.EndsOwned T) (hft : t.ft = s.ft) (hbars : t.bars = s.bars) :
    t.EndsOwned T := by
  rintro b iv ⟨n, hn, hiv⟩ hT
  rw [State.bar, hbars] at hn
  rw [hft]
  exact h b iv ⟨n, hn, hiv⟩ hT

/-- A fire window does not end at the T of its arming: its fire-on is not behind T, and its fire-off is ahead of that
(R108, R109). -/
theorem fireOffOf_ne (st : BarSettings) (V : Nat) (T : Pos) (r : Record) : fireOffOf st V T r ≠ T := by
  have hlate : behind (fireOnOf st V T r) T = false := by
    unfold fireOnOf
    split
    · rw [← Bool.not_eq_true, behind_iff]
      simp
    · next h => simpa [isLate] using h
  have hahead : ahead (fireOffOf st V T r) (fireOnOf st V T r) = true := by
    unfold fireOffOf
    split
    · assumption
    · rw [ahead_iff, fwd]
      bv_omega
  intro e
  rw [e] at hahead
  exact absurd (hlate.symm.trans hahead) (by decide)

theorem mem_place {u : BarUnit} {set : List Nat} {iv x : Interval} {n : Nozzle} (hn : n ∈ (u.place set iv).nozzles)
    (hx : x ∈ n.ivals) : x = iv ∨ ∃ m ∈ u.nozzles, x ∈ m.ivals := by
  rw [BarUnit.place_nozzles, List.mem_map] at hn
  obtain ⟨⟨m, i⟩, hm, rfl⟩ := hn
  have hmem : m ∈ u.nozzles := by
    have := List.mem_map_of_mem (f := Prod.fst) hm
    rwa [List.zipIdx_map_fst] at this
  dsimp only at hx
  split at hx
  · exact ((mem_insertInterval _ _ _).1 hx).imp_right fun h => ⟨m, hmem, h⟩
  · exact .inr ⟨m, hmem, hx⟩

theorem State.reportWatch_bars (s : State) (b : Bar) (slot : Nat) (set : List Nat) :
    (s.reportWatch b slot set).bars = s.bars := by
  unfold State.reportWatch
  split <;> rfl

/-- A late arming leaves the intervals of every bar (R108). -/
theorem State.reportLate_holds {s : State} {b c : Bar} {slot : Nat} {late : Bool} {iv : Interval}
    (h : (s.reportLate b slot late).Holds c iv) : s.Holds c iv := by
  cases late with
  | false => exact h
  | true =>
    have hbar : (s.reportLate b slot true).bar c =
        (s.setBar b { s.bar b with lateFire := satAdd Config.countMax (s.bar b).lateFire 1 }).bar c := rfl
    obtain ⟨n, hn, hiv⟩ := h
    rw [hbar, State.bar_setBar] at hn
    split at hn
    · next e => exact ⟨n, e ▸ hn, hiv⟩
    · exact ⟨n, hn, hiv⟩

/-- The guard, the capacity and the commit add no interval but the schedule's (R113). -/
theorem State.guardAndCommit_holds {s : State} {slot : Nat} {r : Record} {v : Verdict} {sch : Schedule} {set : List Nat}
    {c : Bar} {iv : Interval} (h : (s.guardAndCommit slot r v sch set).Holds c iv) :
    s.Holds c iv ∨ iv.fireOff = sch.fireOff := by
  unfold State.guardAndCommit at h
  split at h
  · exact .inl h
  · split at h
    · exact .inl h
    · obtain ⟨n, hn, hiv⟩ := h
      have hbar : (s.commit slot v sch set).bar c = (s.setBar sch.bar
          ((s.bar sch.bar).place set ⟨sch.fireOn, sch.fireOff, s.ft.handle slot⟩)).bar c := rfl
      rw [hbar, State.bar_setBar] at hn
      split at hn
      · next e =>
        rcases mem_place hn hiv with rfl | ⟨m, hm, hiv'⟩
        · exact .inr rfl
        · exact .inl ⟨m, e ▸ hm, hiv'⟩
      · exact .inl ⟨n, hn, hiv⟩

/-- An arming adds no interval that ends at the T it is taken at (R108, R109, R113). -/
theorem State.arm_holds {s : State} {slot : Nat} {r : Record} {v : Verdict} {b c : Bar} {iv : Interval}
    (h : (s.arm slot r v b).Holds c iv) (hT : iv.fireOff = s.bpu.T) : s.Holds c iv := by
  unfold State.arm at h
  dsimp only at h
  split at h
  · exact h
  · split at h
    · exact h
    · split at h
      · exact h
      · rcases State.guardAndCommit_holds h with h | h
        · obtain ⟨n, hn, hiv⟩ := State.reportLate_holds h
          rw [State.bar, State.reportWatch_bars] at hn
          exact ⟨n, hn, hiv⟩
        · exact absurd (h.symm.trans hT) (fireOffOf_ne _ _ _ _)

/-- The event of a point leaves no interval that ends at T but those that stood, and none of an ARMED record that retires
(R52, R124). -/
theorem State.takePoint_holds {s : State} {slot : Nat} {r : Record} (hf : s.ft.find slot = some r) {c : Bar}
    {iv : Interval} (h : (s.takePoint slot r).Holds c iv) (hT : iv.fireOff = s.bpu.T) :
    s.Holds c iv ∧ ∀ v sch, r.st = .armed v sch → c = sch.bar → iv.owner ≠ s.ft.handle slot := by
  rcases s.takePoint_cases slot r with ⟨hst, e⟩ | ⟨v, d, hst, e⟩ | ⟨v, b, hst, e⟩ | ⟨v, sch, hst, e⟩ | ⟨v, d, o, hst, e⟩ <;>
    rw [e] at h
  · exact ⟨h, fun v sch h' => absurd (hst.symm.trans h') nofun⟩
  · exact ⟨h, fun v sch h' => absurd (hst.symm.trans h') nofun⟩
  · exact ⟨State.arm_holds h hT, fun v sch h' => absurd (hst.symm.trans h') nofun⟩
  · obtain ⟨n, hn, hiv⟩ := h
    rw [State.bar, (State.retire_frees (s := s.setBar sch.bar ((s.bar sch.bar).without (s.ft.handle slot))) hf .fired).2.1,
      ← State.bar, State.bar_setBar] at hn
    split at hn
    · next hc =>
      rw [BarUnit.without_nozzles, List.mem_map] at hn
      obtain ⟨m, hm, rfl⟩ := hn
      obtain ⟨hiv, howner⟩ := (m.mem_without _ _).1 hiv
      exact ⟨⟨m, hc ▸ hm, hiv⟩, fun _ _ _ _ => howner⟩
    · next hc =>
      refine ⟨⟨n, hn, hiv⟩, fun v' sch' h' hc' => ?_⟩
      cases hst.symm.trans h'
      exact absurd hc' hc
  · obtain ⟨n, hn, hiv⟩ := h
    rw [State.bar, (State.retire_frees hf o).2.1] at hn
    exact ⟨⟨n, hn, hiv⟩, fun v sch h' => absurd (hst.symm.trans h') nofun⟩

/-- Intervals that end at T stay owned through the event of a point: those of the record taken go with it (R124). -/
theorem State.EndsOwned.takePoint {s : State} (h : s.EndsOwned s.bpu.T) (hs : s.ft.Sound) {slot : Nat} {r : Record}
    (hf : s.ft.find slot = some r) : (s.takePoint slot r).EndsOwned s.bpu.T := by
  intro b iv hiv hT
  obtain ⟨hold, hgone⟩ := State.takePoint_holds hf hiv hT
  obtain ⟨l, hl, v, sch, howner, hst, hb, hoff⟩ := h b iv hold hT
  have hmove := State.takePoint_slotMove hf
  have hslot : l.slot ≠ slot := by
    rintro rfl
    rw [hs.record_eq hl hf] at hst
    exact hgone v sch hst hb.symm howner.symm
  refine ⟨l, (hmove.other l hslot).2 hl, v, sch, ?_, hst, hb, hoff⟩
  rw [← howner, FragTable.handle, FragTable.handle, hmove.gen _ hslot]

/-- Intervals that end at the new T stay owned through the parts of an advance (R124). -/
theorem State.EndsOwned.takeParts {base : State} (h : base.EndsOwned base.bpu.T) (hs : base.ft.Sound) :
    base.takeParts.EndsOwned base.bpu.T := by
  refine (foldl_keeps (P := fun u => base.Advancing u ∧ u.EndsOwned base.bpu.T) (fun u x _ hu => ⟨hu.1.next x, ?_⟩)
    ⟨.start base, h⟩).2
  cases x with
  | silence p =>
    obtain ⟨hft, hbars, -⟩ := u.goSilent_frame p
    exact hu.2.congr hft hbars
  | point slot =>
    change (u.takeReached slot).EndsOwned base.bpu.T
    rcases u.takeReached_cases slot with e | ⟨r, hf, _, _, e⟩ <;> rw [e]
    · exact hu.2
    · refine (State.runDue_keeps (P := fun w => w.ft.Sound ∧ w.bpu.T = base.bpu.T ∧ w.EndsOwned base.bpu.T)
        (fun w k r hf _ hw => ⟨(State.takePoint_slotMove hf).sound hw.1,
          (w.takePoint_partMove k r).T.trans hw.2.1, ?_⟩) 5 u slot ⟨hu.1.table.sound hs, hu.1.parts.T, hu.2⟩).2.2
      obtain ⟨hsound, hT, howned⟩ := hw
      rw [← hT] at howned ⊢
      exact howned.takePoint hsound hf

/-- After an advance of a running line no interval is left that ends at the new T (R43, R124). -/
theorem State.takeParts_noEnd {base : State} (hs : base.ft.Sound) (hrun : base.running = true)
    (ho : base.EndsOwned base.bpu.T) {b : Bar} {iv : Interval} (h : base.takeParts.Holds b iv) :
    iv.fireOff ≠ base.bpu.T := by
  intro hT
  obtain ⟨l, hl, v, sch, -, hst, -, hoff⟩ := ho.takeParts hs b iv h hT
  have hal : base.awaited l.record = some base.bpu.T := by rw [State.awaited, hst, ← hoff]
  obtain ⟨l0, hl0, hslot⟩ := (State.Advancing.takeParts base).table.slots l hl
  by_cases ha : base.awaited l0.record = some base.bpu.T
  · exact (State.takeParts_moves hs hrun hl0 ha l hl hslot.symm).2 hal
  · have hstay := State.takeParts_stays hs hl0 ha
    have := ((State.Advancing.takeParts base).table.sound hs).unique hstay hl hslot
    exact ha (this ▸ hal)

end Sys2Proof.Machine
end

