-- ==== Sys2Proof/Proofs/Advance.lean ====
section
/-! SUPPORT. A T advance, block by block; settles O8. -/

namespace Sys2Proof.Machine

/-! ### The new T and the pending switch -/

/-- The state of a T advance at the new T, before its parts are taken (R3, R7, R9, R12, R21, R26). -/
def State.atNewT (s : State) : State :=
  let t := State.endStall { s with bpu := s.bpu.advance }
  { t with ports := t.ports.map (Port.advance t.bpu.T) }

theorem State.advance_eq (s : State) : s.advance = s.atNewT.takeParts.switchIfReached.settle := rfl

/-- A stall that ends, ends with BELT_MOVING (R12). -/
theorem State.endStall_cases (s : State) :
    (s.bpu.stalled = false ∧ s.endStall = s) ∨
    (s.bpu.stalled = true ∧
      s.endStall = State.raise { s with bpu := { s.bpu with stalled := false, Z := 0, G := 0 } } .beltMoving .none none) := by
  unfold State.endStall
  cases s.bpu.stalled <;> simp

/-- The belt at the new T, the guard countdown apart (R3, R7, R9, R12). -/
theorem State.atNewT_bpu (s : State) :
    s.atNewT.bpu =
      { s.bpu with
        P := s.bpu.P + 1, T := s.bpu.T + 1, owed := min (s.bpu.owed + 1) 255
        windowCount := min (s.bpu.windowCount + 1) 65535, stalled := false
        Z := if s.bpu.stalled then 0 else s.bpu.Z, G := s.atNewT.bpu.G } := by
  have ho : s.bpu.advance.owed = min (s.bpu.owed + 1) 255 := satAdd_eq_min _ _ _
  have hw : s.bpu.advance.windowCount = min (s.bpu.windowCount + 1) 65535 := satAdd_eq_min _ _ _
  rw [← ho, ← hw]
  unfold State.atNewT
  rcases State.endStall_cases { s with bpu := s.bpu.advance } with ⟨hst, e⟩ | ⟨hst, e⟩ <;> rw [e]
  · have hst' : s.bpu.stalled = false := hst
    simp only [hst', Bool.false_eq_true, if_false]
    rw [← hst']
    rfl
  · have hst' : s.bpu.stalled = true := hst
    rw [hst']
    rfl

theorem State.atNewT_T (s : State) : s.atNewT.bpu.T = s.bpu.T + 1 := by rw [s.atNewT_bpu]

/-- What the move to the new T leaves alone. -/
theorem State.atNewT_frame (s : State) :
    s.atNewT.pins = s.pins ∧ s.atNewT.ft = s.ft ∧ s.atNewT.tracking = s.tracking ∧ s.atNewT.ae = s.ae ∧
    s.atNewT.banks = s.banks ∧ s.atNewT.bars = s.bars ∧ s.atNewT.link = s.link ∧
    s.atNewT.lc.mode = s.lc.mode ∧ s.atNewT.lc.mask = s.lc.mask := by
  unfold State.atNewT
  rcases State.endStall_cases { s with bpu := s.bpu.advance } with ⟨_, e⟩ | ⟨_, e⟩
  all_goals simp [e]

theorem State.atNewT_port (s : State) (p : Station) : s.atNewT.port p = (s.port p).advance (s.bpu.T + 1) := by
  have hports : (State.endStall { s with bpu := s.bpu.advance }).ports = s.ports := by
    rcases State.endStall_cases { s with bpu := s.bpu.advance } with ⟨_, e⟩ | ⟨_, e⟩
    all_goals simp [e]
  rw [← s.atNewT_T]
  change (((State.endStall { s with bpu := s.bpu.advance }).ports).map _).get p = _
  rw [hports, PerStation.get_map]
  rfl

/-- A stall that the advance ends: the countdown is 0 and BELT_MOVING waits (R12). -/
theorem State.atNewT_stalled {s : State} (h : s.bpu.stalled = true) :
    s.atNewT.bpu.G = 0 ∧ s.atNewT.lc.pendingSet.getLsbD 12 = true := by
  unfold State.atNewT
  rcases State.endStall_cases { s with bpu := s.bpu.advance } with ⟨hst, _⟩ | ⟨_, e⟩
  · exact absurd (hst.symm.trans h) (by decide)
  · rw [e]
    exact ⟨rfl, s.lc.raise_notice_self (s.bpu.T + 1) .beltMoving .none none⟩

theorem State.atNewT_samePoints (s : State) : s.SamePoints s.atNewT where
  port p := by
    rw [s.atNewT_port]
    exact ⟨rfl, rfl⟩
  tracking := s.atNewT_frame.2.2.1
  settings b := by rw [State.bar, s.atNewT_frame.2.2.2.2.2.1, State.bar]

/-- A pending switch takes effect with BANK_SWITCHED where T reaches its coordinate, and nothing happens otherwise (R97). -/
theorem State.switchIfReached_cases (s : State) :
    ((∀ w, s.banks.pendingSwitch = some w → w.c ≠ s.bpu.T) ∧ s.switchIfReached = s) ∨
    ∃ w, s.banks.pendingSwitch = some w ∧ w.c = s.bpu.T ∧
      s.switchIfReached =
        State.raise { s with banks := { s.banks with active := w.target, pendingSwitch := none } } .bankSwitched .none
          none := by
  unfold State.switchIfReached
  cases hw : s.banks.pendingSwitch with
  | none => exact .inl ⟨nofun, rfl⟩
  | some w =>
    by_cases hc : w.c = s.bpu.T
    · exact .inr ⟨w, rfl, hc, if_pos hc⟩
    · exact .inl ⟨fun w' e => Option.some.inj e ▸ hc, if_neg hc⟩

/-- What a pending switch leaves alone (R97). -/
theorem State.switchIfReached_frame (s : State) :
    s.switchIfReached.pins = s.pins ∧ s.switchIfReached.bpu = s.bpu ∧ s.switchIfReached.ports = s.ports ∧
    s.switchIfReached.ft = s.ft ∧ s.switchIfReached.tracking = s.tracking ∧ s.switchIfReached.ae = s.ae ∧
    s.switchIfReached.bars = s.bars ∧ s.switchIfReached.link = s.link ∧
    s.switchIfReached.banks.data = s.banks.data ∧ s.switchIfReached.lc.mask = s.lc.mask ∧
    ∀ k, s.lc.pendingSet.getLsbD k = true → s.switchIfReached.lc.pendingSet.getLsbD k = true := by
  rcases s.switchIfReached_cases with ⟨_, e⟩ | ⟨w, _, _, e⟩ <;> rw [e]
  · exact ⟨rfl, rfl, rfl, rfl, rfl, rfl, rfl, rfl, rfl, rfl, fun _ h => h⟩
  · exact ⟨rfl, rfl, rfl, rfl, rfl, rfl, rfl, rfl, rfl, s.lc.raise_mask _ _ _ _,
      fun k => s.lc.raise_notices s.bpu.T .bankSwitched .none none k⟩

/-! ### The advance -/

section
variable (s : State)

theorem State.advance_frame :
    s.advance.pins = s.pins ∧ s.advance.ft = s.atNewT.takeParts.ft ∧ s.advance.ports = s.atNewT.takeParts.ports ∧
    s.advance.bpu = s.atNewT.takeParts.bpu ∧ s.advance.banks.data = s.banks.data ∧ s.advance.tracking = s.tracking ∧
    s.advance.ae = s.ae ∧ s.advance.link = s.link ∧ s.advance.lc.mask = s.lc.mask ∧
    ∀ k, s.atNewT.takeParts.lc.pendingSet.getLsbD k = true → s.advance.lc.pendingSet.getLsbD k = true := by
  have hm := s.atNewT.takeParts_partMove
  obtain ⟨ipins, -, itr, iae, ibanks, -, ilink, -, imask⟩ := s.atNewT_frame
  obtain ⟨hpins, hbpu, hports, hft, htr, hae, -, hlink, hdata, hmask, hn⟩ := s.atNewT.takeParts.switchIfReached_frame
  rw [s.advance_eq]
  simp only [State.settle_pins, State.settle_ft, State.settle_ports, State.settle_bpu, State.settle_banks,
    State.settle_tracking, State.settle_ae, State.settle_link, State.settle_lc]
  exact ⟨hpins.trans (hm.pins.trans ipins), hft, hports, hbpu, hdata.trans (hm.data.trans (congrArg Banks.data ibanks)),
    htr.trans (hm.tracking.trans itr), hae.trans (hm.ae.trans iae), hlink.trans (hm.link.trans ilink),
    hmask.trans (hm.mask.trans imask), hn⟩

/-- The belt after an advance (R3, R7, R9, R12). -/
theorem State.advance_bpu :
    s.advance.bpu =
      { s.bpu with
        P := s.bpu.P + 1, T := s.bpu.T + 1, owed := min (s.bpu.owed + 1) 255
        windowCount := min (s.bpu.windowCount + 1) 65535, stalled := false
        Z := if s.bpu.stalled then 0 else s.bpu.Z, G := s.advance.bpu.G } := by
  obtain ⟨-, -, -, hbpu, -⟩ := s.advance_frame
  rw [hbpu]
  rcases s.atNewT.takeParts_partMove.line with ⟨e, _⟩ | ⟨e, _⟩ <;> rw [e] <;> rw [s.atNewT_bpu]

/-- An advance of a stalled belt (R12). -/
theorem State.advance_stalled (h : s.bpu.stalled = true) :
    s.advance.bpu.G = 0 ∧ s.advance.lc.pendingSet.getLsbD 12 = true := by
  obtain ⟨-, -, -, hbpu, -, -, -, -, -, hn⟩ := s.advance_frame
  obtain ⟨hG, hp⟩ := State.atNewT_stalled h
  have hm := s.atNewT.takeParts_partMove
  refine ⟨?_, hn 12 (hm.notices 12 hp)⟩
  rw [hbpu]
  rcases hm.line with ⟨e, _⟩ | ⟨e, _⟩ <;> rw [e]
  exact hG

/-- A port after an advance (R21, R26, R31). -/
theorem State.advance_port (p : Station) :
    s.advance.port p =
      { s.port p with
        silence := if (s.port p).state = .up then min ((s.port p).silence + 1) 65535 else (s.port p).silence
        state :=
          if (s.port p).state = .up ∧ (s.port p).silentSteps ≤ min ((s.port p).silence + 1) 65535 then .silent
          else (s.port p).state
        rateCount := if (s.bpu.T + 1).toNat % 256 = 0 then 0 else (s.port p).rateCount
        queue := (s.advance.port p).queue, hold := (s.advance.port p).hold } ∧
    ((s.advance.port p).queue = (s.port p).queue ∨ (s.advance.port p).queue = []) ∧
    ((s.port p).state = .up → (s.port p).silentSteps ≤ min ((s.port p).silence + 1) 65535 →
      s.advance.lc.pendingSet.getLsbD 1 = true) := by
  obtain ⟨-, -, hports, -, -, -, -, -, -, hn⟩ := s.advance_frame
  have hm := s.atNewT.takeParts_partMove
  have hport : s.advance.port p = s.atNewT.takeParts.port p := congrArg (PerStation.get · p) hports
  have hfalls : ((s.port p).advance (s.bpu.T + 1)).fallsSilent = true ↔
      (s.port p).state = .up ∧ (s.port p).silentSteps ≤ min ((s.port p).silence + 1) 65535 := by
    simp only [Port.fallsSilent, Port.advance_state, Port.advance_silentSteps, Port.advance_silence, satAdd_eq_min,
      Config.halfMax, Bool.and_eq_true, beq_iff_eq, decide_eq_true_eq]
    exact and_congr_right fun hup => by rw [if_pos hup]
  have hsilent := hm.silent p
  have hgone := s.atNewT.takeParts_silent p
  rw [← Bool.not_eq_true, hm.fallsSilent_iff] at hgone
  have hkeep := hm.port p
  have hqueue := hm.queue p
  rw [s.atNewT_port] at hsilent hgone hkeep hqueue
  rw [hfalls] at hsilent hgone
  rw [Port.advance_state] at hsilent hgone
  have hstate : (s.atNewT.takeParts.port p).state =
      if (s.port p).state = .up ∧ (s.port p).silentSteps ≤ min ((s.port p).silence + 1) 65535 then .silent
      else (s.port p).state := by
    split
    · next hf =>
      rcases hsilent with e | ⟨e, -⟩
      · exact absurd ⟨hf, e⟩ hgone
      · exact e
    · next hf => exact hsilent.resolve_right fun h => hf h.2.1
  rw [hport]
  refine ⟨?_, hqueue, fun hup hle => hn 1 ?_⟩
  · rw [hstate] at hkeep
    refine hkeep.trans ?_
    simp only [Port.advance, satAdd_eq_min, Config.halfMax]
  · rcases hsilent with e | ⟨-, -, h1⟩
    · exact absurd ⟨⟨hup, hle⟩, e⟩ hgone
    · exact h1

/-- The pending switch at an advance (R97). -/
theorem State.advance_switch :
    (∀ w, s.banks.pendingSwitch = some w → w.c = s.bpu.T + 1 →
      s.advance.banks.active = w.target ∧ s.advance.banks.pendingSwitch = none ∧
        s.advance.lc.pendingSet.getLsbD 14 = true) ∧
    ((∀ w, s.banks.pendingSwitch = some w → w.c ≠ s.bpu.T + 1) →
      s.advance.banks.active = s.banks.active ∧ s.advance.banks.pendingSwitch = s.banks.pendingSwitch) := by
  have hm := s.atNewT.takeParts_partMove
  obtain ⟨-, -, -, -, ibanks, -⟩ := s.atNewT_frame
  have hsw : s.atNewT.takeParts.banks.pendingSwitch = s.banks.pendingSwitch := hm.switch.trans (by rw [ibanks])
  have hact : s.atNewT.takeParts.banks.active = s.banks.active := hm.active.trans (by rw [ibanks])
  have hT : s.atNewT.takeParts.bpu.T = s.bpu.T + 1 := hm.T.trans s.atNewT_T
  rw [s.advance_eq, State.settle_banks, State.settle_lc]
  rcases s.atNewT.takeParts.switchIfReached_cases with ⟨hno, e⟩ | ⟨w, hw, hc, e⟩ <;> rw [e]
  · rw [hsw, hT] at hno
    exact ⟨fun w hw hc => absurd hc (hno w hw), fun _ => ⟨hact, hsw⟩⟩
  · rw [hsw] at hw
    rw [hT] at hc
    refine ⟨fun w' hw' _ => ?_, fun hno => absurd hc (hno w hw)⟩
    cases hw.symm.trans hw'
    exact ⟨rfl, rfl, s.atNewT.takeParts.lc.raise_notice_self s.atNewT.takeParts.bpu.T .bankSwitched .none none⟩

/-- A bar after an advance: evaluated at the new T, its intervals apart as it was (R122). -/
theorem State.advance_bar (b : Bar) :
    ∃ u go T, (s.bar b).SameButIvals u ∧ s.advance.bar b = u.evalAll go T := by
  obtain ⟨-, -, -, -, -, ibars, -⟩ := s.atNewT_frame
  obtain ⟨-, -, -, -, -, -, hbars, -⟩ := s.atNewT.takeParts.switchIfReached_frame
  have hbar : s.atNewT.takeParts.switchIfReached.bar b = s.atNewT.takeParts.bar b := congrArg (PerBar.get · b) hbars
  have hsame := s.atNewT.takeParts_partMove.bars b
  have hnew : s.atNewT.bar b = s.bar b := congrArg (PerBar.get · b) ibars
  rw [hnew] at hsame
  exact ⟨_, _, _, hsame, (State.bar_settle _ b).trans (congrArg (BarUnit.evalAll · _ _) hbar)⟩

/-- The intervals after an advance are those that the events of the records have left (R122). -/
theorem State.advance_holds {b : Bar} {n : Nozzle} (hn : n ∈ (s.advance.bar b).nozzles) {iv : Interval}
    (hiv : iv ∈ n.ivals) : s.atNewT.takeParts.Holds b iv := by
  obtain ⟨-, -, -, -, -, -, hbars, -⟩ := s.atNewT.takeParts.switchIfReached_frame
  rw [s.advance_eq, State.bar_settle, BarUnit.evalAll_nozzles, List.mem_map] at hn
  obtain ⟨m, hm, rfl⟩ := hn
  rw [State.bar, hbars] at hm
  exact ⟨m, hm, by rwa [Nozzle.eval_ivals] at hiv⟩

end

/-! ### What an evaluation fires and owes -/

/-- A bar evaluated, seen from a bar that differs in its intervals: zones fired by the nozzles that open, and the frame
owed by those that change (R103, R122, R123, R128). -/
theorem BarUnit.SameButIvals.evalAll {u v : BarUnit} (h : u.SameButIvals v) (go : Bool) (T : Pos) :
    (v.evalAll go T).nozzles.length = u.nozzles.length ∧ (v.evalAll go T).zones.length = u.zones.length ∧
    (∀ (i : Nat) (z : Zone), u.zones[i]? = some z →
      ∃ fired, (v.evalAll go T).zones[i]? = some { z with fired } ∧
        (fired = true ↔ z.fired = true ∨
          ∃ m, m < u.nozzles.length ∧ (u.nozzle m).st = .closed ∧ ((v.evalAll go T).nozzle m).st = .opened ∧
            governing u.zones m = some i)) ∧
    (v.evalAll go T).bus = { u.bus with owed := (v.evalAll go T).bus.owed } ∧
    ((v.evalAll go T).bus.owed = true ↔ u.bus.owed = true ∨
      ∃ m, m < u.nozzles.length ∧ (u.nozzle m).st ≠ ((v.evalAll go T).nozzle m).st) := by
  have hlen := h.length
  have hst : ∀ m, m < u.nozzles.length → ((v.evalAll go T).nozzle m) = (v.nozzle m).eval go T := fun m hm =>
    BarUnit.nozzle_evalAll (by rwa [hlen]) go T
  obtain ⟨hbus, howed⟩ := v.evalAll_bus go T
  refine ⟨(v.length_evalAll go T).trans hlen, ?_, fun i z hz => ?_, by rw [hbus, h.bus], ?_⟩
  · rw [v.evalAll_zones, length_markFired, h.zones]
  · rw [v.evalAll_zones, getElem?_markFired, h.zones, hz]
    refine ⟨_, rfl, ?_⟩
    simp only [Bool.or_eq_true, List.any_eq_true, beq_iff_eq, v.mem_opening, hlen, Nozzle.willOpen_iff, h.nozzle_st]
    refine or_congr_right (exists_congr fun m => ?_)
    constructor
    · rintro ⟨⟨hm, hc, ho⟩, hg⟩
      exact ⟨hm, hc, by rwa [hst m hm], hg⟩
    · rintro ⟨hm, hc, ho, hg⟩
      exact ⟨⟨hm, hc, by rwa [hst m hm] at ho⟩, hg⟩
  · rw [howed, h.bus, hlen]
    refine or_congr_right (exists_congr fun m => and_congr_right fun hm => ?_)
    rw [hst m hm, h.nozzle_st]

/-- Settles O8. -/
theorem t_advance_reaches_every_block : Obligations.T_advance_reaches_every_block := by
  intro s0 hr href hsub hPT
  set s : State := { s0 with
    pins := { s0.pins with levels := ⟨false, false⟩ }, bpu := { s0.bpu with ref := ⟨false, false⟩, sub := 0 } } with hs
  have hexec : exec (.encoderTransition false false) s0 = .next s.advance := by
    rw [exec_forward hr href, State.forwardCount_step, State.forwardStep_advance]
    exacts [hPT, hsub]
  obtain ⟨hpins, hft, -, -, hdata, htr, hae, hlink, hmask, -⟩ := s.advance_frame
  obtain ⟨-, ift, -, -, -, ibars, -, imode, -⟩ := s.atNewT_frame
  have hrun : s.atNewT.running = s0.running := by rw [State.running, imode]; rfl
  have hawaited : ∀ r, s.atNewT.awaited r = s0.awaited r := fun r => s.atNewT_samePoints.awaited r
  have hT : s.atNewT.bpu.T = s0.bpu.T + 1 := s.atNewT_T
  refine ⟨s.advance, hexec, hpins, s.advance_bpu, s.advance_stalled, s.advance_port, s.advance_switch.1, s.advance_switch.2,
    fun hidle => ?_, fun hgo htable l hl => ⟨fun ha => ?_, fun ha => ?_⟩, fun hgo htable howners b n hn iv hiv => ?_,
    State.settle_evaluated _, fun b => ?_, hdata, fun b => ?_, htr, hae, hlink, hmask⟩
  · rw [hft, State.takeParts_idle (hrun.trans hidle), ift]
  · rw [hft]
    exact State.takeParts_stays (ift ▸ htable.sound) (ift ▸ hl) (by rwa [hawaited, hT])
  · have hmoved := State.takeParts_moves (base := s.atNewT) (ift ▸ htable.sound) (hrun.trans hgo) (ift ▸ hl)
      (by rwa [hawaited, hT])
    intro x hx hslot
    obtain ⟨hne, hax⟩ := hmoved x (by rwa [← hft]) hslot
    exact ⟨hne, by rwa [hawaited, hT] at hax⟩
  · have howned : s.atNewT.EndsOwned s.atNewT.bpu.T := (howners.endsOwned _).congr ift ibars
    rw [← hT]
    exact State.takeParts_noEnd (ift ▸ htable.sound) (hrun.trans hgo) howned (s.advance_holds hn hiv)
  · obtain ⟨u, go, T, hu, e⟩ := s.advance_bar b
    rw [e]
    exact hu.evalAll go T
  · obtain ⟨u, go, T, hu, e⟩ := s.advance_bar b
    rw [e]
    exact ⟨hu.settings, hu.state, hu.maxonCuts⟩

end Sys2Proof.Machine
end

