-- ==== Sys2Proof/Proofs/Arrivals.lean ====
section
/-! SUPPORT. Station frames that arrive at a port: the checks in the statements' words, and what each check leads to (R17 to
R30); settles O12, O13, O14 and O15. -/

namespace Sys2Proof.Machine

/-! ### Counters and the sequence -/

theorem PortCounters.addAccepted_eq (c : PortCounters) :
    c.addAccepted = { c with accepted := min (c.accepted + 1) 4294967295 } := by
  rw [PortCounters.addAccepted, satAdd_eq_min, Config.countMax]

theorem PortCounters.addBadFrame_eq (c : PortCounters) :
    c.addBadFrame = { c with badFrame := min (c.badFrame + 1) 4294967295 } := by
  rw [PortCounters.addBadFrame, satAdd_eq_min, Config.countMax]

theorem PortCounters.addDuplicate_eq (c : PortCounters) :
    c.addDuplicate = { c with duplicate := min (c.duplicate + 1) 4294967295 } := by
  rw [PortCounters.addDuplicate, satAdd_eq_min, Config.countMax]

theorem PortCounters.addSeqGap_eq (c : PortCounters) (gap : Nat) :
    c.addSeqGap gap = { c with seqGap := min (c.seqGap + gap) 4294967295 } := by
  rw [PortCounters.addSeqGap, satAdd_eq_min, Config.countMax]

theorem PortCounters.addStorm_eq (c : PortCounters) :
    c.addStorm = { c with stormDrop := min (c.stormDrop + 1) 4294967295 } := by
  rw [PortCounters.addStorm, satAdd_eq_min, Config.countMax]

theorem PortCounters.addQueueDrop_eq (c : PortCounters) :
    c.addQueueDrop = { c with queueDrop := min (c.queueDrop + 1) 4294967295 } := by
  rw [PortCounters.addQueueDrop, satAdd_eq_min, Config.countMax]

theorem PortCounters.addNoBase_eq (c : PortCounters) :
    c.addNoBase = { c with noBase := min (c.noBase + 1) 4294967295 } := by
  rw [PortCounters.addNoBase, satAdd_eq_min, Config.countMax]

/-- The gap between the last sequence number of a port and another one (R20). -/
def gapAfter (last : Option Byte) (n : Byte) : Nat :=
  match last with
  | none => 0
  | some l => (n - l - 1).toNat

theorem seqGap_same (n : Byte) : seqGap (some n) n = none := if_pos rfl

theorem seqGap_of_ne {last : Option Byte} {n : Byte} (h : last ≠ some n) : seqGap last n = some (gapAfter last n) := by
  cases last with
  | none => rfl
  | some l => exact if_neg fun e => h (congrArg some e.symm)

/-- A port past the sequence check, its receiver hunting again (R17, R20, R21, R164). -/
def Port.taken (p : Port) (n : Byte) : Port :=
  { p with
    rx := .hunting, lastSeq := some n, silence := 0
    counters := { p.counters with seqGap := min (p.counters.seqGap + gapAfter p.lastSeq n) 4294967295 } }

theorem Port.sequenced_eq_taken (p : Port) (n : Byte) :
    p.hunting.sequenced n (gapAfter p.lastSeq n) = p.taken n := by
  rw [Port.sequenced, Port.count, PortCounters.addSeqGap_eq]
  rfl

/-! ### The checks in the statements' words -/

theorem stationNo_lt (p : Station) : stationNo p < 256 := by cases p <;> decide

theorem formatOk_iff (p : Station) (station : Byte) (check sum : Half) :
    formatOk p station check sum = true ↔ check = sum ∧ station.toNat = stationNo p := by
  rw [formatOk, Bool.and_eq_true, beq_iff_eq, beq_iff_eq]
  refine and_congr_right fun _ => ?_
  rw [← BitVec.toNat_inj, byte, BitVec.toNat_ofNat, Nat.mod_eq_of_lt (stationNo_lt p)]

theorem lanesOk_iff (first last : Byte) :
    lanesOk first last = true ↔ first.toNat ≤ last.toNat ∧ last.toNat ≤ 159 := by
  rw [lanesOk, Bool.and_eq_true, decide_eq_true_eq, decide_eq_true_eq, Config.lastLane]

/-- A yes-or-no byte has a meaning for 0 and 1 alone (R162). -/
theorem yesNo_isSome_iff (b : Byte) : (yesNo b).isSome = true ↔ b = 0 ∨ b = 1 := by
  simp only [yesNo, ← BitVec.toNat_inj]
  split <;> simp_all

theorem yesNo_of_isSome {b : Byte} (h : (yesNo b).isSome = true) : yesNo b = some (b == 1) := by
  rcases (yesNo_isSome_iff b).1 h with rfl | rfl <;> rfl

/-- A length below 2^20 already says that the start is not ahead of the end (R5). -/
theorem ordered_and_short_iff (lead trail : Pos) :
    atOrAhead trail lead = true ∧ stepsTo lead trail < Config.span ↔ (trail - lead).toNat < 1048576 := by
  rw [atOrAhead_iff, stepsTo, Config.span]
  omega

theorem one_le_toNat_iff (a : Half) : 1 ≤ a.toNat ↔ a ≠ 0 := by
  rw [Ne, ← BitVec.toNat_inj, Nat.one_le_iff_ne_zero]
  rfl

/-- The content check, condition by condition (R19, R164); an optional part that is absent is never out of range. -/
theorem contentOk_iff (f : DetectFrame) : contentOk f = true ↔
    f.first.toNat ≤ f.last.toNat ∧ f.last.toNat ≤ 159 ∧ f.cls.toNat ≤ 63 ∧ (∀ a, f.area = some a → a ≠ 0) ∧
    (∀ m, f.metal = some m → m = 0 ∨ m = 1) ∧ (f.lTrail - f.lLead).toNat < 1048576 := by
  obtain ⟨_, _, lead, trail, first, last, cls, _, area, metal, _⟩ := f
  rw [← ordered_and_short_iff]
  cases area <;> cases metal <;>
    simp [contentOk, lanesOk_iff, one_le_toNat_iff, yesNo_isSome_iff, and_assoc]

/-! ### The arrival of a frame -/

section
variable {s : State} {p : Station} {seq : Byte} {sound : Bool} {handle : State → Port → State}

/-- At a DISABLED station a frame is discarded uncounted (R17). -/
theorem State.arrive_disabled (h : (s.port p).state = .disabled) :
    s.arrive p seq sound handle = s.setPort p { s.port p with rx := .hunting } := if_pos h

variable (h : (s.port p).state ≠ .disabled)
include h

/-- A frame that fails a check counts BAD_FRAME (R18, R19). -/
theorem State.arrive_unsound :
    s.arrive p seq false handle =
      s.setPort p
        { s.port p with
          rx := .hunting
          counters := { (s.port p).counters with badFrame := min ((s.port p).counters.badFrame + 1) 4294967295 } } := by
  rw [← PortCounters.addBadFrame_eq]
  exact if_neg h

/-- A frame that repeats the last sequence number counts DUPLICATE (R20). -/
theorem State.arrive_duplicate (hl : (s.port p).lastSeq = some seq) :
    s.arrive p seq true handle =
      s.setPort p
        { s.port p with
          rx := .hunting
          counters := { (s.port p).counters with duplicate := min ((s.port p).counters.duplicate + 1) 4294967295 } } := by
  have hs : seqGap (s.port p).lastSeq seq = none := by rw [hl, seqGap_same]
  rw [← PortCounters.addDuplicate_eq]
  simp only [State.arrive, Port.hunting_state, Port.hunting_lastSeq, h, hs, if_true, if_false]
  rfl

/-- A good frame is handed on with the port past the sequence check (R17, R20). -/
theorem State.arrive_good (hl : (s.port p).lastSeq ≠ some seq) :
    s.arrive p seq true handle = handle s ((s.port p).taken seq) := by
  simp only [State.arrive, Port.hunting_state, Port.hunting_lastSeq, h, seqGap_of_ne hl, ← Port.sequenced_eq_taken,
    if_true, if_false]

end

section
variable {s : State} {p : Station} (hr : s.pins.inReset = false) (hst : (s.port p).rx.atStart = true)
include hr hst

theorem exec_sync_atStart (f : SyncFrame) : exec (.sync p f) s = .next (s.syncArrives p f) :=
  congrArg Host.Outcome.next ((State.awake_of hr _).trans (State.portFrame_start hst _ _))

theorem exec_detect_atStart (f : DetectFrame) : exec (.detect p f) s = .next (s.detectArrives p f) :=
  congrArg Host.Outcome.next ((State.awake_of hr _).trans (State.portFrame_start hst _ _))

/-- A good SYNC is handled (R17). -/
theorem exec_sync_good {f : SyncFrame} (hd : (s.port p).state ≠ .disabled)
    (hc : f.check = stationCheck syncKind (syncBody f)) (hn : f.station.toNat = stationNo p)
    (hl : (s.port p).lastSeq ≠ some f.seq) :
    exec (.sync p f) s = .next (s.handleSync f.lSync p ((s.port p).taken f.seq)) := by
  rw [exec_sync_atStart hr hst, State.syncArrives, (formatOk_iff ..).2 ⟨hc, hn⟩, State.arrive_good hd hl]

/-- A good DETECT is handled (R17). -/
theorem exec_detect_good {f : DetectFrame} (hd : (s.port p).state ≠ .disabled)
    (hc : f.check = stationCheck detectKind (detectBody f)) (hn : f.station.toNat = stationNo p)
    (hok : contentOk f = true) (hl : (s.port p).lastSeq ≠ some f.seq) :
    exec (.detect p f) s = .next (s.handleDetect f p ((s.port p).taken f.seq)) := by
  rw [exec_detect_atStart hr hst, State.detectArrives, (formatOk_iff ..).2 ⟨hc, hn⟩, hok, Bool.and_self,
    State.arrive_good hd hl]

end

/-- Settles O12. -/
theorem station_frame_discarded : Obligations.Station_frame_discarded := by
  refine ⟨fun p s hr hst => ⟨fun hd f g => ?_, fun hd => ⟨fun f => ⟨fun hbad => ?_, fun hc hn hl => ?_⟩,
    fun f => ⟨fun hbad => ?_, fun hc hn hok hl => ?_⟩⟩⟩, contentOk_iff⟩
  · rw [exec_sync_atStart hr hst, exec_detect_atStart hr hst]
    exact ⟨congrArg Host.Outcome.next (State.arrive_disabled hd), congrArg Host.Outcome.next (State.arrive_disabled hd)⟩
  · have hunsound : formatOk p f.station f.check (stationCheck syncKind (syncBody f)) = false := by
      rw [← Bool.not_eq_true, formatOk_iff]
      tauto
    rw [exec_sync_atStart hr hst, State.syncArrives, hunsound, State.arrive_unsound hd]
  · rw [exec_sync_atStart hr hst, State.syncArrives, (formatOk_iff ..).2 ⟨hc, hn⟩, State.arrive_duplicate hd hl]
  · have hunsound : (formatOk p f.station f.check (stationCheck detectKind (detectBody f)) && contentOk f) = false := by
      rw [← Bool.not_eq_true, Bool.and_eq_true, formatOk_iff]
      rcases hbad with hc | hn | hok <;> simp_all
    rw [exec_detect_atStart hr hst, State.detectArrives, hunsound, State.arrive_unsound hd]
  · rw [exec_detect_atStart hr hst, State.detectArrives, (formatOk_iff ..).2 ⟨hc, hn⟩, hok, Bool.and_self,
      State.arrive_duplicate hd hl]

/-! ### SYNC -/

theorem withinSlip_iff (tol : Nat) (candidate base : Pos) :
    withinSlip tol candidate base = true ↔ -(tol : Int) ≤ (candidate - base).toInt ∧ (candidate - base).toInt ≤ tol := by
  rw [withinSlip, Bool.and_eq_true, decide_eq_true_eq, decide_eq_true_eq, signedDiff]

/-- A station that is not UP latches its Base (R22). -/
theorem State.handleSync_latches {q : Port} (h : q.state ≠ .up) (l : Pos) (p : Station) (s : State) :
    s.handleSync l p q = s.latchBase p q l := by
  unfold State.handleSync
  split
  · next hup _ => exact absurd hup h
  · rfl

/-- An UP station tests its Base for slip (R23). -/
theorem State.handleSync_up {q : Port} (h : q.state = .up) {base : Pos} (hb : q.base = some base) (l : Pos) (p : Station)
    (s : State) :
    s.handleSync l p q =
      if withinSlip q.slipTol (s.bpu.T - l) base then s.setPort p q
      else (s.setPort p { q with base := some (s.bpu.T - l) }).raise .stationSlip (.station p) none := by
  rw [State.handleSync, h, hb]

/-- Settles O13. -/
theorem good_SYNC_latches_or_tests_the_Base : Obligations.Good_SYNC_latches_or_tests_the_Base := by
  intro p f s hr hst hc hn hl
  refine ⟨fun hw => ?_, fun base hup hb => ?_⟩
  · have hd : (s.port p).state ≠ .disabled := by rcases hw with e | e <;> rw [e] <;> decide
    have hu : (s.port p).state ≠ .up := by rcases hw with e | e <;> rw [e] <;> decide
    exact (exec_sync_good hr hst hd hc hn hl).trans
      (congrArg Host.Outcome.next (State.handleSync_latches (q := (s.port p).taken f.seq) hu _ _ _))
  · have hd : (s.port p).state ≠ .disabled := by rw [hup]; decide
    rw [exec_sync_good hr hst hd hc hn hl, State.handleSync_up (q := (s.port p).taken f.seq) hup hb, ← withinSlip_iff]
    exact ⟨fun hin => congrArg Host.Outcome.next (if_pos hin), fun hout => congrArg Host.Outcome.next (if_neg hout)⟩

/-! ### DETECT -/

theorem State.not_running_of {s : State} (h : s.lc.mode = .config ∨ s.lc.mode = .halted) : s.running = false := by
  rcases h with e | e <;> rw [State.running, e] <;> rfl

theorem Port.passesRate_iff (p : Port) : p.passesRate = true ↔ p.rate = 0 ∨ p.rateCount < p.rate := by
  rw [Port.passesRate, Bool.or_eq_true, beq_iff_eq, decide_eq_true_eq]

section
variable {s : State} {q : Port} {f : DetectFrame} {p : Station}

/-- A line that does not sort counts a good DETECT and discards it (R24). -/
theorem State.handleDetect_idle (h : s.running = false) :
    s.handleDetect f p q =
      s.setPort p { q with counters := { q.counters with accepted := min (q.counters.accepted + 1) 4294967295 } } := by
  rw [State.handleDetect, h, ← PortCounters.addAccepted_eq]
  rfl

variable (h : s.running = true)
include h

/-- A station that is not UP has no Base to relocate by (R25). -/
theorem State.handleDetect_noBase (hq : q.state ≠ .up) :
    s.handleDetect f p q =
      s.setPort p { q with counters := { q.counters with noBase := min (q.counters.noBase + 1) 4294967295 } } := by
  rw [← PortCounters.addNoBase_eq, State.handleDetect, if_pos h]
  split
  · next hup _ => exact absurd hup hq
  · rfl

variable (hq : q.state = .up) {base : Pos} (hb : q.base = some base)
include hq hb

/-- An UP station relocates a DETECT that passes the rate test, and drops any other (R26, R27). -/
theorem State.handleDetect_up :
    s.handleDetect f p q =
      if q.passesRate then s.enqueue p { q with rateCount := satAdd 255 q.rateCount 1 } (relocate p q base f)
      else (s.setPort p (q.count (·.addStorm))).raise .storm (.station p) none := by
  unfold State.handleDetect
  rw [if_pos h]
  split
  · next hb' =>
    cases hb.symm.trans hb'
    rfl
  · next hno => exact absurd hb (hno base hq)

theorem State.handleDetect_storm (hrate : q.passesRate = false) :
    s.handleDetect f p q =
      (s.setPort p
          { q with counters := { q.counters with stormDrop := min (q.counters.stormDrop + 1) 4294967295 } }).raise
        .storm (.station p) none := by
  rw [State.handleDetect_up h hq hb, hrate, ← PortCounters.addStorm_eq]
  rfl

theorem State.handleDetect_passes (hrate : q.passesRate = true) :
    s.handleDetect f p q =
      s.enqueue p { q with rateCount := min (q.rateCount + 1) 255 } (relocate p q base f) := by
  rw [State.handleDetect_up h hq hb, if_pos hrate, satAdd_eq_min]

end

/-- A good DETECT in belt coordinates (R27, R29): its metal flag, where it carries one, is 0 or 1. -/
theorem relocate_eq {f : DetectFrame} (hok : contentOk f = true) (p : Station) (q : Port) (base : Pos) :
    relocate p q base f =
      { station := p
        X := f.lLead + base - BitVec.ofNat 32 q.D
        Xt := f.lTrail + base - BitVec.ofNat 32 q.D
        first := f.first.toNat, last := f.last.toNat, cls := f.cls.toNat, conf := f.conf.toNat
        area := f.area.map (·.toNat), metal := f.metal.map (· == 1) } := by
  obtain ⟨-, -, -, -, hm, -⟩ := (contentOk_iff f).1 hok
  have hmetal : f.metal.bind yesNo = f.metal.map (· == 1) := by
    cases he : f.metal with
    | none => rfl
    | some m => exact yesNo_of_isSome ((yesNo_isSome_iff m).2 (hm m he))
  rw [relocate, hmetal]

theorem State.enqueue_joins {s : State} {q : Port} (h : q.queue.length < 32) (p : Station) (d : Detection) :
    s.enqueue p q d =
      s.setPort p
        { q with
          queue := q.queue ++ [d]
          hold := q.hold || decide (q.queue.length + 1 = 24)
          counters := { q.counters with accepted := min (q.counters.accepted + 1) 4294967295 } } := by
  rw [← PortCounters.addAccepted_eq]
  exact if_pos h

theorem State.enqueue_drops {s : State} {q : Port} (h : 32 ≤ q.queue.length) (p : Station) (d : Detection) :
    s.enqueue p q d =
      (s.setPort p
          { q with counters := { q.counters with queueDrop := min (q.counters.queueDrop + 1) 4294967295 } }).raise
        .queueDrop (.station p) none := by
  rw [← PortCounters.addQueueDrop_eq]
  exact if_neg h.not_gt

/-- Settles O14. -/
theorem good_DETECT_is_relocated_and_queued : Obligations.Good_DETECT_is_relocated_and_queued := by
  intro p f base s hr hst hc hn hok hl hrun hup hb hrate
  have hd : (s.port p).state ≠ .disabled := by rw [hup]; decide
  rw [exec_detect_good hr hst hd hc hn hok hl,
    State.handleDetect_passes (q := (s.port p).taken f.seq) (s.running_iff.2 hrun) hup hb ((Port.passesRate_iff _).2 hrate),
    relocate_eq hok]
  exact ⟨fun hlen => congrArg Host.Outcome.next
      (State.enqueue_joins (q := { (s.port p).taken f.seq with rateCount := _ }) hlen _ _),
    fun hlen => congrArg Host.Outcome.next
      (State.enqueue_drops (q := { (s.port p).taken f.seq with rateCount := _ }) hlen _ _)⟩

/-- Settles O15. -/
theorem good_DETECT_discarded : Obligations.Good_DETECT_discarded := by
  intro p f s hr hst hc hn hok hd hl
  have hgood := exec_detect_good hr hst hd hc hn hok hl
  refine ⟨fun hidle => ?_, fun hrun => ⟨fun hw => ?_, fun hup hb hpos hrate => ?_⟩⟩
  · exact hgood.trans (congrArg Host.Outcome.next (State.handleDetect_idle (State.not_running_of hidle)))
  · have hu : ((s.port p).taken f.seq).state ≠ .up := by rcases hw with e | e <;> rw [Port.taken, e] <;> decide
    exact hgood.trans (congrArg Host.Outcome.next (State.handleDetect_noBase (s.running_iff.2 hrun) hu))
  · obtain ⟨base, hb⟩ := Option.isSome_iff_exists.1 hb
    have hstorm : ((s.port p).taken f.seq).passesRate = false := by
      rw [← Bool.not_eq_true, Port.passesRate_iff]
      exact not_or.2 ⟨Nat.ne_of_gt hpos, Nat.not_lt.2 hrate⟩
    exact hgood.trans
      (congrArg Host.Outcome.next
        (State.handleDetect_storm (q := (s.port p).taken f.seq) (s.running_iff.2 hrun) hup hb hstorm))

end Sys2Proof.Machine
end

