-- ==== Sys2Proof/Proofs/StationFrames.lean ====
section
/-! SUPPORT. The receiver of a port, byte by byte, and the station frames it reads (11.3, R162, R164); settles O16 and O50. -/

namespace Sys2Proof.Machine

/-! ### A port's receiver -/

@[simp] theorem State.setPort_setPort (s : State) (p : Station) (x y : Port) :
    (s.setPort p x).setPort p y = s.setPort p y := by
  cases p <;> rfl

theorem State.setPort_self (s : State) (p : Station) : s.setPort p (s.port p) = s := by cases p <;> rfl

/-- The state with another receiver at a port. -/
def State.setRx (s : State) (p : Station) (rx : Rx) : State := s.setPort p { s.port p with rx }

@[simp] theorem State.port_setRx (s : State) (p : Station) (rx : Rx) :
    (s.setRx p rx).port p = { s.port p with rx } := s.port_setPort_same p _

@[simp] theorem State.setRx_setRx (s : State) (p : Station) (rx rx' : Rx) :
    (s.setRx p rx).setRx p rx' = s.setRx p rx' := by
  rw [State.setRx, State.port_setRx, State.setRx, State.setPort_setPort]
  rfl

theorem State.setRx_self {s : State} {p : Station} {rx : Rx} (h : (s.port p).rx = rx) : s.setRx p rx = s := by
  rw [State.setRx, ← h]
  exact s.setPort_self p

/-! ### Arrivals do not see the receiver -/

theorem State.handleSync_setPort (l : Pos) (p : Station) (s : State) (x q : Port) :
    (s.setPort p x).handleSync l p q = s.handleSync l p q := by
  simp only [State.handleSync, State.latchBase, State.setPort_setPort, State.setPort_bpu]

theorem State.enqueue_setPort (s : State) (p : Station) (x q : Port) (d : Detection) :
    (s.setPort p x).enqueue p q d = s.enqueue p q d := by
  simp only [State.enqueue, State.setPort_setPort]

theorem State.handleDetect_setPort (f : DetectFrame) (p : Station) (s : State) (x q : Port) :
    (s.setPort p x).handleDetect f p q = s.handleDetect f p q := by
  simp only [State.handleDetect, State.running_setPort, State.setPort_setPort, State.enqueue_setPort]

theorem State.arrive_setRx (s : State) (p : Station) (rx : Rx) (seq : Byte) (sound : Bool) {handle : State → Port → State}
    (hh : ∀ x q, handle (s.setPort p x) q = handle s q) :
    (s.setRx p rx).arrive p seq sound handle = s.arrive p seq sound handle := by
  have hport : ((s.setRx p rx).port p).hunting = (s.port p).hunting := by rw [State.port_setRx]; rfl
  simp only [State.arrive, hport]
  simp only [State.setRx, State.setPort_setPort, hh]

theorem State.syncArrives_setRx (s : State) (p : Station) (rx : Rx) (f : SyncFrame) :
    (s.setRx p rx).syncArrives p f = s.syncArrives p f :=
  s.arrive_setRx p rx _ _ fun x q => State.handleSync_setPort f.lSync p s x q

theorem State.detectArrives_setRx (s : State) (p : Station) (rx : Rx) (f : DetectFrame) :
    (s.setRx p rx).detectArrives p f = s.detectArrives p f :=
  s.arrive_setRx p rx _ _ fun x q => State.handleDetect_setPort f p s x q

theorem State.badFrameArrives_setRx (s : State) (p : Station) (rx : Rx) :
    (s.setRx p rx).badFrameArrives p = s.badFrameArrives p := by
  have hport : ((s.setRx p rx).port p).hunting = (s.port p).hunting := by rw [State.port_setRx]; rfl
  simp only [State.badFrameArrives, hport]
  exact s.setPort_setPort p _ _

/-- A bad frame counts BAD_FRAME unless the station is DISABLED (R17, R18, R164). -/
theorem State.badFrameArrives_eq (s : State) (p : Station) :
    s.badFrameArrives p =
      s.setPort p
        { s.port p with
          rx := .hunting
          counters :=
            if (s.port p).state = .disabled then (s.port p).counters
            else { (s.port p).counters with badFrame := min ((s.port p).counters.badFrame + 1) 4294967295 } } := by
  rw [← PortCounters.addBadFrame_eq]
  by_cases h : (s.port p).state = .disabled
  · rw [if_pos h]
    exact congrArg (s.setPort p) (if_pos h)
  · rw [if_neg h]
    exact congrArg (s.setPort p) (if_neg h)

/-! ### One byte -/

/-- The lengths the table of 11.3 allows (R164). -/
theorem stationLengthOk_iff (length kind : Byte) :
    stationLengthOk length kind = true ↔
      kind = 1 ∧ length = 6 ∨ kind = 2 ∧ 14 ≤ length.toNat ∧ length.toNat ≤ 17 := by
  simp only [stationLengthOk, syncKind, detectKind, Bool.or_eq_true, Bool.and_eq_true, beq_iff_eq, decide_eq_true_eq,
    and_assoc]

section
variable {s : State} {p : Station}

theorem State.portByte_mark (h : (s.port p).rx = .hunting) : s.portByte p sensorMark = s.setRx p (.collecting []) := by
  rw [State.portByte, h]
  exact if_pos rfl

theorem State.portByte_noise (h : (s.port p).rx = .hunting) {b : Byte} (hb : b ≠ sensorMark) : s.portByte p b = s := by
  rw [State.portByte, h]
  exact if_neg hb

theorem State.portByte_collecting {got : List Byte} (h : (s.port p).rx = .collecting got) (b : Byte) :
    s.portByte p b = s.portCollected p (got ++ [b]) := by
  rw [State.portByte, h]

theorem State.portByte_length (h : (s.port p).rx = .collecting []) (b : Byte) :
    s.portByte p b = s.setRx p (.collecting [b]) := State.portByte_collecting h b

theorem State.portByte_badKind {length kind : Byte} (h : (s.port p).rx = .collecting [length])
    (hfit : stationLengthOk length kind = false) : s.portByte p kind = s.badFrameArrives p := by
  rw [State.portByte_collecting h]
  exact if_pos (by rw [hfit]; rfl)

variable {length kind : Byte} (hfit : stationLengthOk length kind = true)
include hfit

/-- Short of the whole frame the bytes are collected (R164). -/
theorem State.portCollected_short {rest : List Byte} (hlen : rest.length ≠ length.toNat + 2) :
    s.portCollected p (length :: kind :: rest) = s.setRx p (.collecting (length :: kind :: rest)) :=
  (if_neg (by rw [hfit]; decide)).trans (if_neg hlen)

theorem State.portByte_goodKind (h : (s.port p).rx = .collecting [length]) :
    s.portByte p kind = s.setRx p (.collecting [length, kind]) :=
  (State.portByte_collecting h kind).trans (State.portCollected_short hfit (by simp))

theorem State.portByte_short {rest : List Byte} (h : (s.port p).rx = .collecting (length :: kind :: rest))
    (hlen : rest.length + 1 < length.toNat + 2) (b : Byte) :
    s.portByte p b = s.setRx p (.collecting (length :: kind :: (rest ++ [b]))) :=
  (State.portByte_collecting h b).trans
    (State.portCollected_short hfit (rest := rest ++ [b]) (by rw [List.length_append, List.length_singleton]; omega))

/-- Several bytes short of the whole frame. -/
theorem State.portBytes_short {rest : List Byte} (h : (s.port p).rx = .collecting (length :: kind :: rest))
    (bytes : List Byte) (hlen : rest.length + bytes.length < length.toNat + 2) :
    s.portBytes p bytes = s.setRx p (.collecting (length :: kind :: (rest ++ bytes))) := by
  induction bytes generalizing s rest with
  | nil => rw [List.append_nil, State.setRx_self h]; rfl
  | cons b bs ih =>
    rw [List.length_cons] at hlen
    have hb := State.portByte_short hfit h (by omega) b
    have hrx : ((s.portByte p b).port p).rx = .collecting (length :: kind :: (rest ++ [b])) := by
      rw [hb, State.port_setRx]
    refine (ih hrx (by rw [List.length_append, List.length_singleton]; omega)).trans ?_
    rw [hb, State.setRx_setRx, List.append_assoc, List.singleton_append]

end

/-! ### The frame that the bytes spell -/

theorem halfOf_extract (h : Half) : halfOf (h.extractLsb' 8 8) (h.extractLsb' 0 8) = h :=
  (BitVec.extractLsb'_append_extractLsb'_eq_extractLsb' rfl).trans BitVec.extractLsb'_eq_self

theorem wordOf_extract (w : BitVec 32) :
    wordOf (w.extractLsb' 24 8) (w.extractLsb' 16 8) (w.extractLsb' 8 8) (w.extractLsb' 0 8) = w := by
  have high : w.extractLsb' 24 8 ++ w.extractLsb' 16 8 = w.extractLsb' 16 16 :=
    BitVec.extractLsb'_append_extractLsb'_eq_extractLsb' rfl
  have upper : w.extractLsb' 16 16 ++ w.extractLsb' 8 8 = w.extractLsb' 8 24 :=
    BitVec.extractLsb'_append_extractLsb'_eq_extractLsb' rfl
  have whole : w.extractLsb' 8 24 ++ w.extractLsb' 0 8 = w.extractLsb' 0 32 :=
    BitVec.extractLsb'_append_extractLsb'_eq_extractLsb' rfl
  rw [wordOf, high, upper, whole]
  exact BitVec.extractLsb'_eq_self

theorem byte_toNat {n : Nat} (h : n < 256) : (byte n).toNat = n := by
  rw [byte, BitVec.toNat_ofNat, Nat.mod_eq_of_lt h]

/-- The optional parts of a DETECT are read back from its length (R164). -/
theorem optionalParts_bytes (area : Option Half) (metal : Option Byte) :
    optionalParts ((area.map halfBytes).getD [] ++ (metal.map fun m => [m]).getD []) = some (area, metal) := by
  cases area <;> cases metal <;> simp [optionalParts, halfBytes, halfOf_extract]

theorem length_detectBody (g : DetectFrame) :
    14 ≤ (detectBody g).length ∧ (detectBody g).length ≤ 17 := by
  obtain ⟨_, _, _, _, _, _, _, _, area, metal, _⟩ := g
  cases area <;> cases metal <;> simp [detectBody, wordBytes, halfBytes]

section
variable (p : Station) {length kind : Byte} (hfit : stationLengthOk length kind = true) (check : Half)
include hfit

/-- Six bytes of a length and kind that fit are a SYNC (11.3). -/
theorem stationCommand_six (hlen : 6 = length.toNat) (station seq l3 l2 l1 l0 : Byte) :
    stationCommand p length kind [station, seq, l3, l2, l1, l0] check =
      some (.sync p { station, seq, lSync := wordOf l3 l2 l1 l0, check }) :=
  (if_pos hfit).trans (if_pos hlen)

/-- Fourteen bytes and the optional parts are a DETECT (11.3, R164). -/
theorem stationCommand_fourteen {rest : List Byte} (hlen : 14 + rest.length = length.toNat) {area : Option Half}
    {metal : Option Byte} (ho : optionalParts rest = some (area, metal))
    (station seq l3 l2 l1 l0 t3 t2 t1 t0 first last cls conf : Byte) :
    stationCommand p length kind
        (station :: seq :: l3 :: l2 :: l1 :: l0 :: t3 :: t2 :: t1 :: t0 :: first :: last :: cls :: conf :: rest) check =
      some (.detect p
        { station, seq, lLead := wordOf l3 l2 l1 l0, lTrail := wordOf t3 t2 t1 t0, first, last, cls, conf, area, metal
          check }) := by
  unfold stationCommand
  rw [if_pos hfit, if_pos (by simp only [List.length_cons]; omega)]
  simp only [ho]

end

/-- A SYNC is read back from its bytes (11.3). -/
theorem stationCommand_sync (p : Station) (f : SyncFrame) :
    stationCommand p (byte (syncBody f).length) syncKind (syncBody f) f.check = some (.sync p f) := by
  refine (stationCommand_six p rfl f.check rfl _ _ _ _ _ _).trans ?_
  rw [wordOf_extract]

/-- The length of a DETECT fits its kind (11.3, R164). -/
theorem fits_detect (g : DetectFrame) :
    stationLengthOk (byte (detectBody g).length) detectKind = true ∧
      (detectBody g).length = (byte (detectBody g).length).toNat := by
  obtain ⟨hmin, hmax⟩ := length_detectBody g
  rw [stationLengthOk_iff, byte_toNat (by omega)]
  exact ⟨.inr ⟨rfl, hmin, hmax⟩, rfl⟩

/-- A DETECT is read back from its bytes, its optional parts from its length (11.3, R164). -/
theorem stationCommand_detect (p : Station) (g : DetectFrame) :
    stationCommand p (byte (detectBody g).length) detectKind (detectBody g) g.check = some (.detect p g) := by
  obtain ⟨hfit, hlen⟩ := fits_detect g
  refine (stationCommand_fourteen p hfit g.check ?_ (optionalParts_bytes g.area g.metal)
    _ _ _ _ _ _ _ _ _ _ _ _ _ _).trans ?_
  · rw [← hlen]
    simp only [detectBody, wordBytes, List.length_cons, List.length_append, List.length_nil]
    omega
  · rw [wordOf_extract, wordOf_extract]

/-- A list of six, element by element. -/
theorem exists_of_length_six {α : Type} {l : List α} (h : l.length = 6) : ∃ a b c d e f, l = [a, b, c, d, e, f] :=
  let [a, b, c, d, e, f] := l
  ⟨a, b, c, d, e, f, rfl⟩

/-- A list of fourteen or more, its first fourteen element by element. -/
theorem exists_of_fourteen_le_length {α : Type} {l : List α} (h : 14 ≤ l.length) :
    ∃ a b c d e f g h i j k m n o rest, l = a :: b :: c :: d :: e :: f :: g :: h :: i :: j :: k :: m :: n :: o :: rest :=
  match l, h with
  | a :: b :: c :: d :: e :: f :: g :: h :: i :: j :: k :: m :: n :: o :: rest, _ =>
    ⟨a, b, c, d, e, f, g, h, i, j, k, m, n, o, rest, rfl⟩

theorem optionalParts_isSome {bs : List Byte} (h : bs.length ≤ 3) : ∃ area metal, optionalParts bs = some (area, metal) :=
  match bs, h with
  | [], _ => ⟨_, _, rfl⟩
  | [_], _ => ⟨_, _, rfl⟩
  | [_, _], _ => ⟨_, _, rfl⟩
  | [_, _, _], _ => ⟨_, _, rfl⟩

/-- A body of the length that its kind allows is a SYNC or a DETECT (R164). -/
theorem stationCommand_fits (p : Station) {length kind : Byte} (hfit : stationLengthOk length kind = true)
    {body : List Byte} (hlen : body.length = length.toNat) (check : Half) :
    (∃ f, stationCommand p length kind body check = some (.sync p f)) ∨
    ∃ f, stationCommand p length kind body check = some (.detect p f) := by
  rcases (stationLengthOk_iff length kind).1 hfit with ⟨-, h6⟩ | ⟨-, h14, h17⟩
  · obtain ⟨a, b, c, d, e, f, rfl⟩ := exists_of_length_six (hlen.trans (congrArg BitVec.toNat h6))
    exact .inl ⟨_, stationCommand_six p hfit check hlen a b c d e f⟩
  · obtain ⟨a, b, c, d, e, f, g, h, i, j, k, m, n, o, rest, rfl⟩ := exists_of_fourteen_le_length (hlen ▸ h14)
    simp only [List.length_cons] at hlen
    obtain ⟨area, metal, ho⟩ := optionalParts_isSome (bs := rest) (by omega)
    exact .inr ⟨_, stationCommand_fourteen p hfit check (by omega) ho a b c d e f g h i j k m n o⟩

/-! ### A whole frame -/

theorem State.portBytes_cons (s : State) (p : Station) (b : Byte) (bs : List Byte) :
    s.portBytes p (b :: bs) = (s.portByte p b).portBytes p bs := rfl

theorem State.portBytes_append (s : State) (p : Station) (bs cs : List Byte) :
    s.portBytes p (bs ++ cs) = (s.portBytes p bs).portBytes p cs := List.foldl_append

section
variable {s : State} {p : Station} {length kind : Byte} (hfit : stationLengthOk length kind = true) {body : List Byte}
  (hlen : body.length = length.toNat) (hi lo : Byte)
include hfit hlen

/-- The last byte of a frame hands it on as the command it spells, the receiver hunting again (R164). -/
theorem State.portCollected_whole (hr : s.pins.inReset = false) :
    ∃ c, stationCommand p length kind body (halfOf hi lo) = some c ∧
      exec c (s.setRx p .hunting) = .next (s.portCollected p (length :: kind :: (body ++ [hi, lo]))) := by
  have hst : ((s.setRx p .hunting).port p).rx.atStart = true := by rw [State.port_setRx]; rfl
  rcases stationCommand_fits p hfit hlen (halfOf hi lo) with ⟨f, hf⟩ | ⟨f, hf⟩
  · refine ⟨_, hf, (exec_sync_atStart (s := s.setRx p .hunting) hr hst f).trans (congrArg Host.Outcome.next ?_)⟩
    simp [State.syncArrives_setRx, State.portCollected, hfit, List.take_left' hlen, List.drop_left' hlen, hlen, lastHalf,
      hf]
  · refine ⟨_, hf, (exec_detect_atStart (s := s.setRx p .hunting) hr hst f).trans (congrArg Host.Outcome.next ?_)⟩
    simp [State.detectArrives_setRx, State.portCollected, hfit, List.take_left' hlen, List.drop_left' hlen, hlen, lastHalf,
      hf]

/-- The last byte of a frame (R164). -/
theorem State.portByte_whole (hr : s.pins.inReset = false)
    (h : (s.port p).rx = .collecting (length :: kind :: (body ++ [hi]))) :
    ∃ c, stationCommand p length kind body (halfOf hi lo) = some c ∧
      exec c (s.setRx p .hunting) = .next (s.portByte p lo) := by
  have hgot : length :: kind :: (body ++ [hi]) ++ [lo] = length :: kind :: (body ++ [hi, lo]) := by simp
  rw [State.portByte_collecting h, hgot]
  exact State.portCollected_whole hfit hlen hi lo hr

/-- The bytes of a frame at a hunting receiver do what the frame does (11.3, R164). -/
theorem exec_of_portBytes {c : Instr} (hr : s.pins.inReset = false) (hh : (s.port p).rx = .hunting)
    (hc : stationCommand p length kind body (halfOf hi lo) = some c) :
    exec c s = .next (s.portBytes p (sensorMark :: length :: kind :: (body ++ [hi, lo]))) := by
  set u := s.setRx p (.collecting (length :: kind :: (body ++ [hi]))) with hu
  have hbytes : s.portBytes p (sensorMark :: length :: kind :: (body ++ [hi])) = u := by
    have hmark := State.portByte_mark hh
    have hlength : (s.setRx p (.collecting [])).portByte p length = s.setRx p (.collecting [length]) := by
      rw [State.portByte_length (by rw [State.port_setRx]), State.setRx_setRx]
    have hkind : (s.setRx p (.collecting [length])).portByte p kind = s.setRx p (.collecting [length, kind]) := by
      rw [State.portByte_goodKind hfit (by rw [State.port_setRx]), State.setRx_setRx]
    have hrest := State.portBytes_short hfit (s := s.setRx p (.collecting [length, kind])) (rest := [])
      (by rw [State.port_setRx]) (body ++ [hi]) (by simp [hlen])
    rw [State.setRx_setRx, List.nil_append] at hrest
    rw [State.portBytes_cons, hmark, State.portBytes_cons, hlength, State.portBytes_cons, hkind, hrest]
  obtain ⟨c', hc', he⟩ := State.portByte_whole hfit hlen hi lo (s := u) hr (by rw [hu, State.port_setRx])
  cases hc.symm.trans hc'
  rw [hu, State.setRx_setRx, State.setRx_self hh, ← hu] at he
  have hsplit : sensorMark :: length :: kind :: (body ++ [hi, lo]) =
      (sensorMark :: length :: kind :: (body ++ [hi])) ++ [lo] := by simp
  rw [he, hsplit, State.portBytes_append, hbytes]
  rfl

end

theorem exec_portStartMark {s : State} (hr : s.pins.inReset = false) (p : Station) :
    exec (.portStartMark p) s = .next (s.portByte p sensorMark) := congrArg Host.Outcome.next (State.awake_of hr _)

/-- Inside a frame cut short a frame's bytes are taken for the missing ones (R164; entry 4). -/
theorem State.portFrame_inside {s : State} {p : Station} (h : ∃ b got, (s.port p).rx = .collecting (b :: got))
    (bytes : List Byte) (taken : State → State) : s.portFrame p bytes taken = s.portBytes p bytes := by
  obtain ⟨b, got, h⟩ := h
  rw [State.portFrame, h]
  rfl

/-- Settles O50. -/
theorem station_frames_decode_to_their_frame : Obligations.Station_frames_decode_to_their_frame := by
  refine ⟨fun p f g => ⟨⟨stationCommand_sync p f, stationCommand_detect p g⟩, fun s hr hrx => ?_⟩,
    fun p b length kind s => ?_, fun f g kind body => ⟨rfl, rfl, rfl, ?_, rfl⟩⟩
  · rcases hrx with hh | hin
    · have hsync := stationCommand_sync p f
      have hdetect := stationCommand_detect p g
      rw [← halfOf_extract f.check] at hsync
      rw [← halfOf_extract g.check] at hdetect
      obtain ⟨hfit, hlen⟩ := fits_detect g
      exact ⟨exec_of_portBytes rfl rfl _ _ hr hh hsync, exec_of_portBytes hfit hlen _ _ hr hh hdetect⟩
    · exact ⟨congrArg Host.Outcome.next ((State.awake_of hr _).trans (State.portFrame_inside hin _ _)),
        congrArg Host.Outcome.next ((State.awake_of hr _).trans (State.portFrame_inside hin _ _))⟩
  · simp only [← stationLengthOk_iff]
    refine ⟨fun hr => exec_portStartMark hr p, fun hh => ⟨State.portByte_mark hh, State.portByte_noise hh⟩,
      fun h => State.portByte_length h b, fun h => ⟨fun hfit => State.portByte_goodKind hfit h, fun hfit => ?_⟩,
      fun rest h hfit => ⟨fun hlen => State.portByte_short hfit h hlen b, ?_⟩⟩
    · rw [State.portByte_badKind h (Bool.not_eq_true _ ▸ hfit), State.badFrameArrives_eq]
    · rintro body hi rfl hlen hr
      exact State.portByte_whole hfit hlen hi b hr h
  · obtain ⟨_, _, _, _, _, _, _, _, area, metal, _⟩ := g
    cases area <;> cases metal <;> rfl

theorem Rx.atStart_iff (rx : Rx) : rx.atStart = true ↔ rx = .hunting ∨ rx = .collecting [] := by
  cases rx <;> simp [Rx.atStart]

/-- Length and kind that do not fit, after the start mark (R164). -/
theorem State.portBytes_bad {s : State} {p : Station} {length kind : Byte} (h : (s.port p).rx = .collecting [])
    (hfit : stationLengthOk length kind = false) : s.portBytes p [length, kind] = s.badFrameArrives p := by
  have hlength : ((s.setRx p (.collecting [length])).port p).rx = .collecting [length] := by rw [State.port_setRx]
  rw [State.portBytes_cons, State.portByte_length h]
  exact (State.portByte_badKind hlength hfit).trans (s.badFrameArrives_setRx p _)

/-- A BAD_FRAME at a receiver that stands at its start is a bad frame (R164; entry 4). -/
theorem exec_badFrame {s : State} {p : Station} {length kind : Byte} (hr : s.pins.inReset = false)
    (hst : (s.port p).rx.atStart = true) (hfit : stationLengthOk length kind = false) :
    exec (.badFrame p length kind) s = .next (s.badFrameArrives p) := by
  refine congrArg Host.Outcome.next ((State.awake_of hr _).trans ?_)
  rcases (Rx.atStart_iff _).1 hst with h | h <;> rw [h]
  · have hmark : ((s.setRx p (.collecting [])).port p).rx = .collecting [] := by rw [State.port_setRx]
    refine (s.portBytes_cons p sensorMark [length, kind]).trans ?_
    rw [State.portByte_mark h, State.portBytes_bad hmark hfit, State.badFrameArrives_setRx]
  · exact State.portBytes_bad h hfit

/-- The start mark is no kind (11.3). -/
theorem mark_no_kind (length : Byte) : stationLengthOk length sensorMark = false := by
  rw [← Bool.not_eq_true, stationLengthOk_iff]
  rintro (⟨h, -⟩ | ⟨h, -⟩) <;> exact absurd h (by decide)

/-- Settles O16. -/
theorem bad_frame_and_port_start_mark : Obligations.Bad_frame_and_port_start_mark := by
  intro p length kind s hr
  simp only [← State.badFrameArrives_eq, ← stationLengthOk_iff, exec_portStartMark hr]
  refine ⟨fun hst hfit => exec_badFrame hr hst (Bool.not_eq_true _ ▸ hfit), fun h => ?_, fun h => ?_, fun h => ?_,
    fun rest h hfit hlen => ?_⟩
  · rw [State.portByte_mark h]
    rfl
  · rw [State.portByte_length h]
    rfl
  · rw [State.portByte_badKind h (mark_no_kind length)]
  · rw [State.portByte_short hfit h hlen]
    rfl

end Sys2Proof.Machine
end

