-- ==== Sys2Proof/Proofs/PortsKept.lean ====
section
/-! SUPPORT. The events that leave the ports alone but for the completion of a drain: the relation PortsKept (R31, R151). -/

namespace Sys2Proof.Machine

/-- An event leaves ports and mode as they are, or completes a drain: every queue empty, the line in CONFIG. -/
def State.PortsKept (s t : State) : Prop :=
  t.ports = s.ports ∧ t.lc.mode = s.lc.mode ∨ t.ports = s.ports.map Port.emptied ∧ t.lc.mode = .config

theorem State.PortsKept.of_eq {s t : State} (hp : t.ports = s.ports) (hm : t.lc.mode = s.lc.mode) : s.PortsKept t :=
  .inl ⟨hp, hm⟩

theorem State.PortsKept.refl (s : State) : s.PortsKept s := .of_eq rfl rfl

theorem State.PortsKept.trans {s t u : State} (h : s.PortsKept t) (k : t.PortsKept u) : s.PortsKept u := by
  rcases h with ⟨hp, hm⟩ | ⟨hp, hm⟩ <;> rcases k with ⟨kp, km⟩ | ⟨kp, km⟩
  · exact .inl ⟨kp.trans hp, km.trans hm⟩
  · exact .inr ⟨by rw [kp, hp], km⟩
  · exact .inr ⟨kp.trans hp, km.trans hm⟩
  · exact .inr ⟨by rw [kp, hp]; rfl, km⟩

/-! ### The events of records -/

theorem State.raise_portsKept (s : State) (k : NoticeKind) (src : Source) (h : Option Handle) :
    s.PortsKept (s.raise k src h) := .of_eq rfl (by simp)

theorem State.setBar_portsKept (s : State) (b : Bar) (u : BarUnit) : s.PortsKept (s.setBar b u) := .of_eq rfl rfl

theorem State.ft_portsKept (s : State) (ft : FragTable) : s.PortsKept { s with ft } := .of_eq rfl rfl

theorem State.settleFrom_portsKept (t s : State) : t.PortsKept (t.settleFrom s) := by
  obtain ⟨-, hports, -, -, hlc, -⟩ := State.settleFrom_frame t s
  exact .of_eq hports (by rw [hlc])

theorem State.drainIfEmpty_portsKept (s : State) : s.PortsKept s.drainIfEmpty :=
  State.drainIfEmpty_keeps (.refl s) fun _ _ => .inr ⟨rfl, rfl⟩

theorem State.retire_portsKept (s : State) (slot : Nat) (o : RecOutcome) : s.PortsKept (s.retire slot o) := by
  rcases s.retire_cases slot o with ⟨_, e⟩ | ⟨r, _, e⟩ <;> rw [e]
  · exact .refl s
  · exact .trans (.of_eq rfl rfl) (State.drainIfEmpty_portsKept _)

theorem State.absorbPart_portsKept (s : State) (x : AdvancePart) : s.PortsKept (s.absorbPart x) := by
  cases x with
  | silence p => exact .refl s
  | point slot =>
    rcases s.absorb_cases slot with ⟨_, e⟩ | ⟨r, _, e⟩ <;> rw [State.absorbPart, e]
    · exact .refl s
    · exact .of_eq rfl rfl

theorem State.reportWatch_ports (s : State) (b : Bar) (slot : Nat) (set : List Nat) :
    (s.reportWatch b slot set).ports = s.ports := by
  unfold State.reportWatch
  split <;> rfl

theorem State.reportLate_ports (s : State) (b : Bar) (slot : Nat) (late : Bool) :
    (s.reportLate b slot late).ports = s.ports := by
  cases late <;> rfl

theorem State.guardAndCommit_ports (s : State) (slot : Nat) (r : Record) (v : Verdict) (sch : Schedule) (set : List Nat) :
    (s.guardAndCommit slot r v sch set).ports = s.ports := by
  unfold State.guardAndCommit
  split
  · rfl
  · split <;> rfl

theorem State.arm_portsKept (s : State) (slot : Nat) (r : Record) (v : Verdict) (b : Bar) :
    s.PortsKept (s.arm slot r v b) := by
  refine .of_eq ?_ (s.arm_mode slot r v b)
  unfold State.arm
  dsimp only
  split
  · rfl
  · split
    · rfl
    · split
      · rfl
      · rw [State.guardAndCommit_ports, State.reportLate_ports, State.reportWatch_ports]

theorem State.takePoint_portsKept (s : State) (slot : Nat) (r : Record) : s.PortsKept (s.takePoint slot r) := by
  rcases s.takePoint_cases slot r with ⟨_, e⟩ | ⟨v, d, _, e⟩ | ⟨v, b, _, e⟩ | ⟨v, sch, _, e⟩ | ⟨v, d, o, _, e⟩ <;> rw [e]
  · exact .of_eq rfl rfl
  · exact .of_eq rfl rfl
  · exact s.arm_portsKept _ _ _ _
  · exact .trans (.of_eq rfl rfl) (State.retire_portsKept _ _ _)
  · exact s.retire_portsKept _ _

theorem State.takeOverdue_portsKept (s : State) (slot : Nat) : s.PortsKept (s.takeOverdue slot) :=
  State.takeOverdue_keeps (P := s.PortsKept) (fun t k r _ _ h => h.trans (t.takePoint_portsKept k r)) s slot (.refl s)

theorem State.takeReached_portsKept (s : State) (slot : Nat) : s.PortsKept (s.takeReached slot) := by
  rcases s.takeReached_cases slot with e | ⟨_, _, _, _, e⟩ <;> rw [e]
  · exact .refl s
  · exact s.takeOverdue_portsKept slot

theorem State.dropArmed_portsKept (s : State) (x : AdvancePart) : s.PortsKept (s.dropArmed x) := by
  unfold State.dropArmed
  split
  · exact .refl s
  · split
    · exact .refl s
    · split
      · exact .trans (.of_eq rfl rfl) (State.takeOverdue_portsKept _ _)
      · exact .refl s

/-- What each part of a list leaves alone, the whole list does. -/
theorem State.foldl_portsKept {f : State → AdvancePart → State} (h : ∀ (s : State) x, s.PortsKept (f s x))
    (parts : List AdvancePart) (s : State) : s.PortsKept (parts.foldl f s) :=
  foldl_keeps (P := s.PortsKept) (fun t x _ ht => ht.trans (h t x)) (.refl s)

/-! ### Records made and completed -/

theorem State.create_portsKept {s t : State} {r : Record} {slot : Nat} (h : s.create r = some (slot, t)) :
    s.PortsKept t := by
  cases hf : s.ft.freeList with
  | nil =>
    rw [State.create_nil hf] at h
    cases h
  | cons a rest =>
    rw [State.create_cons hf] at h
    cases h
    exact .of_eq rfl rfl

theorem State.makeRecord_portsKept (s : State) (d : Detection) (clipped : Bool) :
    s.PortsKept (s.makeRecord d clipped) := by
  unfold State.makeRecord
  split
  · next hc => exact ((State.create_portsKept hc).trans (State.takeOverdue_portsKept _ _)).trans (.of_eq rfl rfl)
  · exact s.raise_portsKept _ _ _

theorem State.complete_portsKept (s : State) (slot : Nat) (redecide : Bool) : s.PortsKept (s.complete slot redecide) := by
  have hdecided : s.PortsKept (if redecide then s.modRecord slot (decideRecord s) else s) := by
    split <;> exact .of_eq rfl rfl
  exact (hdecided.trans (State.takeOverdue_portsKept _ _)).trans (.of_eq rfl rfl)

theorem State.merge_portsKept (s : State) (d : Detection) (clipped : Bool) (c : Live) (cs : List Live) :
    s.PortsKept (s.merge d clipped c cs) := by
  have habsorbed := State.foldl_portsKept State.absorbPart_portsKept
    (orderParts s.draws (cs.map fun l => .point l.slot)) { s with draws := s.draws + 1 }
  have hstart : s.PortsKept { s with draws := s.draws + 1 } := .of_eq rfl rfl
  exact ((hstart.trans habsorbed).trans (State.ft_portsKept _ _)).trans (State.complete_portsKept _ _ _)

/-! ### Faults and settings of bars, and the requests -/

theorem State.faultBar_portsKept (s : State) (b : Bar) : s.PortsKept (s.faultBar b) := by
  have hdropped := State.foldl_portsKept State.dropArmed_portsKept (orderParts s.draws ((s.armedAt b).map .point))
    { (s.setBar b (s.bar b).faultNow) with draws := s.draws + 1 }
  have hfault : s.PortsKept { (s.setBar b (s.bar b).faultNow) with draws := s.draws + 1 } := .of_eq rfl rfl
  exact ((hfault.trans hdropped).trans (State.raise_portsKept _ _ _ _)).trans (State.settleFrom_portsKept _ _)

theorem State.configureBar_portsKept (s : State) (b : Bar) (st : BarSettings) : s.PortsKept (s.configureBar b st) := by
  unfold State.configureBar State.faultIfActive
  dsimp only
  split
  · exact (s.setBar_portsKept _ _).trans (State.faultBar_portsKept _ _)
  · exact s.setBar_portsKept _ _

theorem setBarOp_portsKept (r : BarRequest) (s : State) : s.PortsKept (setBarOp r s).1 := by
  unfold setBarOp
  split
  · exact .refl s
  · split
    · exact s.configureBar_portsKept _ _
    · exact .refl s

theorem writeBank_portsKept (bank : Byte) (change : Option (BankData → BankData)) (s : State) :
    s.PortsKept (writeBank bank change s).1 := by
  unfold writeBank
  repeat' split
  all_goals exact .of_eq rfl rfl

theorem switchBankOp_portsKept (target : Byte) (c : Pos) (s : State) : s.PortsKept (switchBankOp target c s).1 := by
  unfold switchBankOp
  repeat' split
  all_goals exact .of_eq rfl rfl

theorem setBeltOp_portsKept (r : BeltRequest) (s : State) : s.PortsKept (setBeltOp r s).1 := by
  unfold setBeltOp
  repeat' split
  all_goals exact .of_eq rfl rfl

theorem setTrackingOp_portsKept (r : TrackingRequest) (s : State) : s.PortsKept (setTrackingOp r s).1 := by
  unfold setTrackingOp
  repeat' split
  all_goals exact .of_eq rfl rfl

theorem setZoneOp_portsKept (r : ZoneRequest) (s : State) : s.PortsKept (setZoneOp r s).1 := by
  unfold setZoneOp
  repeat' split
  all_goals exact .of_eq rfl rfl

theorem enableBarOp_portsKept (bar : Byte) (s : State) : s.PortsKept (enableBarOp bar s).1 := by
  unfold enableBarOp
  repeat' split
  all_goals exact .of_eq rfl rfl

theorem overrideOp_portsKept (h : HandleField) (dest : Byte) (s : State) : s.PortsKept (overrideOp h dest s).1 := by
  unfold overrideOp
  repeat' split
  all_goals exact .of_eq rfl rfl

theorem forgetOp_portsKept (h : HandleField) (s : State) : s.PortsKept (forgetOp h s).1 := by
  unfold forgetOp
  split
  · exact .refl s
  · next r _ =>
    split
    · exact .refl s
    · have hdropped : s.PortsKept (s.dropIntervals h.slot.toNat r) := by
        unfold State.dropIntervals
        split <;> exact .of_eq rfl rfl
      exact (hdropped.trans (State.retire_portsKept _ _ _)).trans (.of_eq rfl rfl)

theorem insertOp_portsKept (r : InsertRequest) (s : State) : s.PortsKept (insertOp r s).1 := by
  unfold insertOp
  split
  · exact .refl s
  · split
    · exact .refl s
    · split
      · exact .refl s
      · split
        · exact .refl s
        · split
          · exact .refl s
          · next hc => exact (State.create_portsKept hc).trans (.of_eq rfl rfl)

end Sys2Proof.Machine
end

