-- ==== Sys2Proof/Proofs/OnePort.lean ====
section
/-! SUPPORT. One port in order under each of its updates: state, Base, queue and HOLD, counts and receiver (2.1, R19 to
R35, R164). -/

namespace Sys2Proof.Machine

/-! ### Counters within their width -/

/-- The nine counters of a port within 32 bits (R32). -/
structure PortCounters.InWidth (c : PortCounters) : Prop where
  accepted  : c.accepted ≤ 4294967295
  badFrame  : c.badFrame ≤ 4294967295
  duplicate : c.duplicate ≤ 4294967295
  seqGap    : c.seqGap ≤ 4294967295
  stormDrop : c.stormDrop ≤ 4294967295
  queueDrop : c.queueDrop ≤ 4294967295
  noBase    : c.noBase ≤ 4294967295
  dust      : c.dust ≤ 4294967295
  late      : c.late ≤ 4294967295

section
variable {c : PortCounters} (h : c.InWidth)
include h

theorem PortCounters.InWidth.addAccepted : c.addAccepted.InWidth := { h with accepted := satAdd_le _ _ _ }
theorem PortCounters.InWidth.addBadFrame : c.addBadFrame.InWidth := { h with badFrame := satAdd_le _ _ _ }
theorem PortCounters.InWidth.addDuplicate : c.addDuplicate.InWidth := { h with duplicate := satAdd_le _ _ _ }
theorem PortCounters.InWidth.addSeqGap (gap : Nat) : (c.addSeqGap gap).InWidth := { h with seqGap := satAdd_le _ _ _ }
theorem PortCounters.InWidth.addStorm : c.addStorm.InWidth := { h with stormDrop := satAdd_le _ _ _ }
theorem PortCounters.InWidth.addQueueDrop : c.addQueueDrop.InWidth := { h with queueDrop := satAdd_le _ _ _ }
theorem PortCounters.InWidth.addNoBase : c.addNoBase.InWidth := { h with noBase := satAdd_le _ _ _ }
theorem PortCounters.InWidth.addDust : c.addDust.InWidth := { h with dust := satAdd_le _ _ _ }
theorem PortCounters.InWidth.addLate : c.addLate.InWidth := { h with late := satAdd_le _ _ _ }

end

/-! ### One port -/

theorem stationInRange_iff (r : StationRequest) :
    stationInRange r = true ↔ r.slipTol.toNat ≤ 15 ∧ 256 ≤ r.silentSteps.toNat := by
  rw [stationInRange, Bool.and_eq_true, decide_eq_true_eq, decide_eq_true_eq]

/-- A receiver collects only a frame that is not whole yet (R164). -/
def Rx.Partial (rx : Rx) : Prop :=
  ∀ length kind rest, rx = .collecting (length :: kind :: rest) →
    stationLengthOk length kind = true ∧ rest.length < length.toNat + 2

section
variable {port : Station} {p : Port} (h : PortOk port p)
include h

theorem PortOk.inWidth : p.counters.InWidth := by
  obtain ⟨hacc, hbad, hdup, hgap, hstorm, hdrop, hbase, hdust, hlate⟩ := h.counters
  exact ⟨hacc, hbad, hdup, hgap, hstorm, hdrop, hbase, hdust, hlate⟩

theorem PortOk.withCounters {c : PortCounters} (hc : c.InWidth) : PortOk port { p with counters := c } :=
  { h with
    counters := ⟨hc.accepted, hc.badFrame, hc.duplicate, hc.seqGap, hc.stormDrop, hc.queueDrop, hc.noBase, hc.dust, hc.late⟩ }

theorem PortOk.count {f : PortCounters → PortCounters} (hf : ∀ c, PortCounters.InWidth c → (f c).InWidth) :
    PortOk port (p.count f) := h.withCounters (hf _ h.inWidth)

theorem PortOk.withRx {rx : Rx} (hrx : rx.Partial) : PortOk port { p with rx } := { h with collected := hrx }

theorem PortOk.hunting : PortOk port p.hunting := h.withRx nofun

theorem PortOk.sequenced (n : Byte) (gap : Nat) : PortOk port (p.sequenced n gap) :=
  { h.count fun _ hc => hc.addSeqGap gap with silence := ⟨Nat.zero_le _, h.silence.2⟩ }

theorem PortOk.enabled_of (hd : p.state ≠ .disabled) : p.enabled = true := by
  rwa [Ne, h.state, Bool.not_eq_false] at hd

/-- A station that is not DISABLED latches a Base and is UP (R22). -/
theorem PortOk.latched (hd : p.state ≠ .disabled) (b : Pos) : PortOk port { p with base := some b, state := .up } :=
  { h with state := by simp [h.enabled_of hd], base := fun _ => rfl }

theorem PortOk.withBase (b : Pos) : PortOk port { p with base := some b } := { h with base := fun _ => rfl }

/-- An UP station that falls SILENT keeps its Base (R21). -/
theorem PortOk.silenced (hup : p.state = .up) : PortOk port { p with state := .silent } :=
  { h with state := by simp [h.enabled_of (by rw [hup]; decide)], base := fun _ => h.base (.inl hup) }

theorem PortOk.withRate {n : Nat} (hn : n ≤ 255) : PortOk port { p with rateCount := n } :=
  { h with silence := ⟨h.silence.1, hn⟩ }

/-- A detection joins a queue that has a place: HOLD is asserted at 24 entries and not released (R28, R30). -/
theorem PortOk.join {d : Detection} (hd : DetectionOk port d) (hroom : p.queue.length < 32) : PortOk port (p.join d) :=
  { h.count fun _ hc => hc.addAccepted with
    queue := by
      simp only [Port.join_queue, List.length_append, List.length_singleton]
      omega
    holdHigh := by
      simp only [Port.join_queue, Port.join_hold, List.length_append, List.length_singleton, Bool.or_eq_true, beq_iff_eq,
        Config.holdAt]
      intro hlen
      by_cases h24 : p.queue.length + 1 = 24
      · exact .inr h24
      · exact .inl (h.holdHigh (by omega))
    holdLow := by
      simp only [Port.join_queue, Port.join_hold, List.length_append, List.length_singleton, Bool.or_eq_false_iff,
        beq_eq_false_iff_ne, Config.holdAt]
      intro hlen
      exact ⟨h.holdLow (by omega), by omega⟩
    entries := by
      simp only [Port.join_queue, List.mem_append, List.mem_singleton]
      rintro x (hx | rfl)
      · exact h.entries x hx
      · exact hd }

/-- The head entry leaves the queue: HOLD is released at 8 entries and not asserted (R29, R30). -/
theorem PortOk.removeHead : PortOk port p.removeHead :=
  { h with
    queue := by
      simp only [Port.removeHead_queue, List.length_tail]
      exact (Nat.sub_le _ _).trans h.queue
    holdHigh := by
      simp only [Port.removeHead_queue, Port.removeHead_hold, List.length_tail, Bool.and_eq_true, decide_eq_true_eq,
        Config.releaseAt]
      intro hlen
      exact ⟨h.holdHigh (by omega), by omega⟩
    holdLow := by
      simp only [Port.removeHead_queue, Port.removeHead_hold, List.length_tail, Bool.and_eq_false_iff,
        decide_eq_false_iff_not, Config.releaseAt]
      intro hlen
      exact .inr (by omega)
    entries := fun d hd => h.entries d (List.mem_of_mem_tail hd) }

theorem PortOk.emptied : PortOk port p.emptied :=
  { h with
    queue := Nat.zero_le _
    holdHigh := fun hlen => absurd (show 24 ≤ 0 from hlen) (by decide)
    holdLow := fun _ => rfl
    entries := fun _ hd => nomatch hd }

/-- The counts of a port at a T advance (R21, R26). -/
theorem PortOk.advance (T : Pos) : PortOk port (p.advance T) :=
  { h with
    silence := by
      rw [Port.advance_silence, Port.advance_rateCount]
      constructor
      · split
        · exact satAdd_le _ _ _
        · exact h.silence.1
      · split
        · exact Nat.zero_le _
        · exact h.silence.2 }

/-- A port at a RESET request (R35). -/
theorem PortOk.afterReset : PortOk port p.afterReset := by
  unfold Port.afterReset
  dsimp only
  split
  · next he =>
    exact { h.emptied with state := by simp [he], base := nofun, silence := ⟨Nat.zero_le _, Nat.zero_le _⟩ }
  · next he =>
    have hd : p.state = .disabled := h.state.2 (Bool.not_eq_true _ ▸ he)
    exact { h.emptied with base := by simp [hd], silence := ⟨Nat.zero_le _, Nat.zero_le _⟩ }

/-- The running state after SET_STATION (R34). -/
theorem PortOk.setEnabled (on : Bool) : PortOk port (p.setEnabled on) ∧ (p.setEnabled on).enabled = on := by
  unfold Port.setEnabled
  split
  · next he =>
    obtain ⟨rfl, -⟩ := Bool.and_eq_true _ _ ▸ he
    exact ⟨{ h with state := by simp, base := nofun, silence := ⟨Nat.zero_le _, Nat.zero_le _⟩ }, rfl⟩
  · next hon =>
    split
    · next he =>
      obtain ⟨hoff, -⟩ := Bool.and_eq_true _ _ ▸ he
      exact ⟨{ h.emptied with state := by simpa using hoff, base := nofun }, rfl⟩
    · next hoff => exact ⟨h, by cases on <;> simp_all⟩

theorem PortOk.configure (on : Bool) {r : StationRequest} (hr : stationInRange r = true) :
    PortOk port (p.configure on r) := by
  obtain ⟨hslip, hsilent⟩ := (stationInRange_iff r).1 hr
  exact
    { (h.setEnabled on).1 with
      settings := ⟨Nat.le_of_lt_succ r.D.isLt, Nat.le_of_lt_succ r.rate.isLt, hslip, hsilent,
        Nat.le_of_lt_succ r.silentSteps.isLt⟩ }

end

theorem Port.configure_queue (p : Port) (on : Bool) (r : StationRequest) :
    (p.configure on r).queue = p.queue ∨ (p.configure on r).queue = [] := by
  change (p.setEnabled on).queue = p.queue ∨ (p.setEnabled on).queue = []
  unfold Port.setEnabled
  split
  · exact .inl rfl
  · split
    · exact .inr rfl
    · exact .inl rfl

/-- A DETECT that passes the content check relocates to a detection in order (R19, R27, R29). -/
theorem relocate_ok {f : DetectFrame} (hok : contentOk f = true) (port : Station) (p : Port) (base : Pos) :
    DetectionOk port (relocate port p base f) := by
  obtain ⟨hfirst, hlast, hcls, -, -, hlen⟩ := (contentOk_iff f).1 hok
  refine ⟨rfl, ⟨hfirst, hlast⟩, ?_, hcls, Nat.le_of_lt_succ f.conf.isLt⟩
  have hdiff : f.lTrail + base - BitVec.ofNat 32 p.D - (f.lLead + base - BitVec.ofNat 32 p.D) = f.lTrail - f.lLead := by
    ring
  rwa [stepsTo, relocate, hdiff]

end Sys2Proof.Machine
end

