-- ==== Sys2Proof/Proofs/PortsInOrder.lean ====
section
/-! SUPPORT. The ports in order under every command and every step; settles O54. -/

namespace Sys2Proof.Machine

/-! ### What the order of the ports depends on -/

/-- The order of the ports speaks of the ports and of CONFIG alone. -/
theorem PortsOk.congr {s t : State} (h : PortsOk s) (hp : t.ports = s.ports)
    (hm : t.lc.mode = .config → s.lc.mode = .config) : PortsOk t := by
  have hport : ∀ p, t.port p = s.port p := fun p => congrArg (PerStation.get · p) hp
  exact ⟨fun p => hport p ▸ h.port p, fun hc p => hport p ▸ h.config (hm hc) p⟩

/-- The same update at every port. -/
theorem PortsOk.mapPorts {s t : State} (h : PortsOk s) {f : Port → Port} (hp : t.ports = s.ports.map f)
    (hf : ∀ p q, PortOk p q → PortOk p (f q)) (hc : t.lc.mode = .config → ∀ p, (f (s.port p)).queue = []) :
    PortsOk t := by
  have hport : ∀ p, t.port p = f (s.port p) := fun p =>
    (congrArg (PerStation.get · p) hp).trans (PerStation.get_map f s.ports p)
  exact ⟨fun p => hport p ▸ hf p _ (h.port p), fun hm p => hport p ▸ hc hm p⟩

theorem PortsOk.kept {s t : State} (h : PortsOk s) (k : s.PortsKept t) : PortsOk t := by
  rcases k with ⟨hp, hm⟩ | ⟨hp, _⟩
  · exact h.congr hp fun hc => hm ▸ hc
  · exact h.mapPorts hp (fun _ _ hq => hq.emptied) fun _ _ => rfl

theorem PortsOk.setPort {s : State} (h : PortsOk s) {p : Station} {x : Port} (hx : PortOk p x)
    (hc : s.lc.mode = .config → x.queue = []) : PortsOk (s.setPort p x) := by
  constructor
  · intro q
    rw [State.port_setPort]
    split
    · next e => exact e ▸ hx
    · exact h.port q
  · intro hm q
    rw [State.port_setPort]
    split
    · exact hc hm
    · exact h.config hm q

theorem PortsOk.raise {s : State} (h : PortsOk s) (k : NoticeKind) (src : Source) (hd : Option Handle) :
    PortsOk (s.raise k src hd) := h.kept (s.raise_portsKept k src hd)

/-- A counter of a port. -/
theorem PortsOk.countAt {s : State} (h : PortsOk s) (p : Station) {f : PortCounters → PortCounters}
    (hf : ∀ c, PortCounters.InWidth c → (f c).InWidth) : PortsOk (s.setPort p ((s.port p).count f)) :=
  h.setPort ((h.port p).count hf) fun hm => h.config hm p

/-! ### Station frames -/

section
variable {s : State} (h : PortsOk s)
include h

/-- The handling of a frame past the sequence check keeps the ports in order where the checks before it do (R17). -/
theorem PortsOk.arrive (p : Station) (seq : Byte) (sound : Bool) {handle : State → Port → State}
    (hh : sound = true → ∀ q, PortOk p q → q.state ≠ .disabled → (s.lc.mode = .config → q.queue = []) →
      PortsOk (handle s q)) : PortsOk (s.arrive p seq sound handle) := by
  have hp : PortOk p (s.port p).hunting := (h.port p).hunting
  have hc : s.lc.mode = .config → (s.port p).hunting.queue = [] := fun hm => h.config hm p
  unfold State.arrive
  dsimp only
  split
  · exact h.setPort hp hc
  · next hd =>
    split
    · next hs =>
      split
      · exact h.setPort (hp.count fun _ hw => hw.addDuplicate) hc
      · exact hh hs _ (hp.sequenced _ _) hd hc
    · exact h.setPort (hp.count fun _ hw => hw.addBadFrame) hc

theorem PortsOk.syncArrives (p : Station) (f : SyncFrame) : PortsOk (s.syncArrives p f) := by
  refine h.arrive p _ _ fun _ q hq hd hc => ?_
  unfold State.handleSync
  split
  · split
    · exact h.setPort hq hc
    · exact (h.setPort (hq.withBase _) hc).raise _ _ _
  · exact (h.setPort (hq.latched hd _) hc).raise _ _ _

/-- A detection in order is queued, where the queue has a place, on a running line alone (R28). -/
theorem PortsOk.enqueue (hrun : s.running = true) {p : Station} {q : Port} (hq : PortOk p q) {d : Detection}
    (hd : DetectionOk p d) : PortsOk (s.enqueue p q d) := by
  have hc : ∀ x : Port, s.lc.mode = .config → x.queue = [] := fun _ hm => by simp [State.running, hm] at hrun
  unfold State.enqueue
  split
  · next hroom => exact h.setPort (hq.join hd hroom) (hc _)
  · exact (h.setPort (hq.count fun _ hw => hw.addQueueDrop) (hc _)).raise _ _ _

theorem PortsOk.detectArrives (p : Station) (f : DetectFrame) : PortsOk (s.detectArrives p f) := by
  refine h.arrive p _ _ fun hs q hq hd hc => ?_
  obtain ⟨-, hok⟩ := Bool.and_eq_true _ _ ▸ hs
  unfold State.handleDetect
  split
  · next hrun =>
    split
    · split
      · exact h.enqueue hrun (hq.withRate (satAdd_le _ _ _)) (relocate_ok hok p q _)
      · exact (h.setPort (hq.count fun _ hw => hw.addStorm) hc).raise _ _ _
    · exact h.setPort (hq.count fun _ hw => hw.addNoBase) hc
  · exact h.setPort (hq.count fun _ hw => hw.addAccepted) hc

theorem PortsOk.badFrameArrives (p : Station) : PortsOk (s.badFrameArrives p) := by
  have hp : PortOk p (s.port p).hunting := (h.port p).hunting
  unfold State.badFrameArrives
  dsimp only
  split
  · exact h.setPort hp fun hm => h.config hm p
  · exact h.setPort (hp.count fun _ hw => hw.addBadFrame) fun hm => h.config hm p

theorem PortsOk.setRx (p : Station) {rx : Rx} (hrx : rx.Partial) : PortsOk (s.setRx p rx) :=
  h.setPort ((h.port p).withRx hrx) fun hm => h.config hm p

/-- Bytes collected that are at most a whole frame: judged, handed on, or collected still (R164). -/
theorem PortsOk.portCollected (p : Station) {length kind : Byte} (rest : List Byte)
    (hlen : stationLengthOk length kind = true → rest.length ≤ length.toNat + 2) :
    PortsOk (s.portCollected p (length :: kind :: rest)) := by
  unfold State.portCollected
  dsimp only
  split
  · exact h.badFrameArrives p
  · next hfit =>
    have hfit : stationLengthOk length kind = true := by simpa using hfit
    split
    · next hwhole =>
      rcases stationCommand_fits p hfit (body := rest.take length.toNat) (List.length_take_of_le (by omega))
        (lastHalf (rest.drop length.toNat)) with ⟨f, hf⟩ | ⟨f, hf⟩ <;> rw [hf]
      · exact h.syncArrives p f
      · exact h.detectArrives p f
    · next hshort =>
      refine h.setRx p (rx := .collecting (length :: kind :: rest)) fun l k r e => ?_
      cases e
      exact ⟨hfit, lt_of_le_of_ne (hlen hfit) hshort⟩

/-- A byte on a Sensor Link (R164). -/
theorem PortsOk.portByte (p : Station) (b : Byte) : PortsOk (s.portByte p b) := by
  cases hrx : (s.port p).rx with
  | hunting =>
    by_cases hb : b = sensorMark
    · rw [hb, State.portByte_mark hrx]
      exact h.setRx p nofun
    · rw [State.portByte_noise hrx hb]
      exact h
  | collecting got =>
    match got with
    | [] =>
      rw [State.portByte_length hrx]
      exact h.setRx p nofun
    | [length] =>
      rw [State.portByte_collecting hrx]
      exact h.portCollected p [] fun _ => Nat.zero_le _
    | length :: kind :: rest =>
      obtain ⟨-, hlt⟩ := (h.port p).collected length kind rest hrx
      rw [State.portByte_collecting hrx]
      refine h.portCollected p (rest ++ [b]) fun _ => ?_
      rw [List.length_append, List.length_singleton]
      omega

theorem PortsOk.portBytes (p : Station) (bytes : List Byte) : PortsOk (s.portBytes p bytes) :=
  State.portBytes_keeps p (fun _ b hu => hu.portByte p b) bytes s h

theorem PortsOk.portFrame (p : Station) (bytes : List Byte) {taken : State → State} (ht : PortsOk (taken s)) :
    PortsOk (s.portFrame p bytes taken) := by
  unfold State.portFrame
  split
  · exact ht
  · exact h.portBytes p bytes

/-! ### The Association Engine -/

theorem PortsOk.noCandidate (d : Detection) (clipped frozen : Bool) : PortsOk (s.noCandidate d clipped frozen) := by
  unfold State.noCandidate
  split
  · exact (h.countAt d.station fun _ hw => hw.addLate).raise _ _ _
  · split
    · exact h.kept (s.makeRecord_portsKept d clipped)
    · exact h

theorem PortsOk.giveTo (d : Detection) (clipped frozen : Bool) (c : Live) : PortsOk (s.giveTo d clipped frozen c) := by
  unfold State.giveTo
  split
  · exact h.kept ((s.ft_portsKept _).trans (State.complete_portsKept _ _ _))
  · exact h.noCandidate d clipped frozen

theorem PortsOk.treat (d : Detection) : PortsOk (s.treat d) := by
  unfold State.treat
  split
  · exact h.countAt d.station fun _ hw => hw.addDust
  · unfold State.matchAndTreat
    dsimp only
    split
    · exact h.noCandidate _ _ _
    · exact h.giveTo _ _ _ _
    · split
      · exact h.kept (s.merge_portsKept _ _ _ _)
      · exact h.giveTo _ _ _ _

theorem PortsOk.take (p : Station) : PortsOk (s.take p) := by
  unfold State.take
  split
  · exact h
  · next d rest hq =>
    have hremoved : PortsOk (s.setPort p (s.port p).removeHead) :=
      h.setPort (h.port p).removeHead fun hm => by simp [h.config hm p] at hq
    have hbusy : PortsOk
        { s.setPort p (s.port p).removeHead with ae := { pointer := nextStation p, free := false } } :=
      hremoved.congr rfl id
    exact (hbusy.treat d).congr rfl id

/-! ### The belt -/

theorem PortsOk.goSilent (p : Station) : PortsOk (s.goSilent p) := by
  rcases s.goSilent_cases p with ⟨_, e⟩ | ⟨hf, e⟩ <;> rw [e]
  · exact h
  · rw [Port.fallsSilent, Bool.and_eq_true, beq_iff_eq] at hf
    exact (h.setPort ((h.port p).silenced hf.1) fun hm => h.config hm p).raise _ _ _

theorem PortsOk.takePart (x : AdvancePart) : PortsOk (s.takePart x) := by
  cases x with
  | silence p => exact h.goSilent p
  | point slot => exact h.kept (s.takeReached_portsKept slot)

theorem PortsOk.atNewT : PortsOk s.atNewT := by
  obtain ⟨-, -, -, -, -, -, -, hmode, -⟩ := s.atNewT_frame
  constructor
  · intro p
    rw [s.atNewT_port]
    exact (h.port p).advance _
  · intro hm p
    rw [s.atNewT_port]
    exact h.config (hmode ▸ hm) p

theorem PortsOk.switchIfReached : PortsOk s.switchIfReached := by
  rcases s.switchIfReached_cases with ⟨_, e⟩ | ⟨w, _, _, e⟩ <;> rw [e]
  · exact h
  · refine PortsOk.raise ?_ _ _ _
    exact h.congr rfl id

/-- A T advance (R6, R21, R26, R43). -/
theorem PortsOk.advance : PortsOk s.advance := by
  have hparts : PortsOk s.atNewT.takeParts :=
    foldl_keeps (P := PortsOk) (fun _ x _ hu => hu.takePart x) (h.atNewT.congr rfl id)
  exact hparts.switchIfReached.congr rfl id

theorem PortsOk.halt : PortsOk s.halt := by
  rcases s.halt_cases with ⟨_, e⟩ | ⟨_, e⟩ <;> rw [e]
  · exact h
  · exact h.congr rfl nofun

theorem PortsOk.forwardCount : PortsOk s.forwardCount := by
  unfold State.forwardCount
  split
  · have hsub : PortsOk { s with bpu := { s.bpu with sub := 0 } } := h.congr rfl id
    unfold State.forwardStep
    split
    · exact hsub.advance
    · exact hsub.congr rfl id
  · exact h.congr rfl id

theorem PortsOk.reverseCount : PortsOk s.reverseCount := by
  unfold State.reverseCount
  split
  · exact h.congr rfl id
  · split
    · exact h
    · have hstep : PortsOk
          { s with bpu := { s.bpu with sub := s.bpu.encDiv - 1, P := s.bpu.P - 1 } } := h.congr rfl id
      unfold State.reverseStep
      dsimp only
      split
      · exact hstep.halt.congr rfl id
      · exact hstep.congr rfl id

theorem PortsOk.decodeLevels (l : Levels) : PortsOk (s.decodeLevels l) := by
  have href : PortsOk { s with bpu := { s.bpu with ref := l } } := h.congr rfl id
  unfold State.decodeLevels
  dsimp only
  split
  · exact h
  · split
    · exact href.forwardCount
    · exact href
  · split
    · exact href.reverseCount
    · exact href
  · exact h.congr rfl id

theorem PortsOk.endWindow : PortsOk s.endWindow := by
  have hclosed : PortsOk (State.reportStall { s with bpu := s.bpu.closeWindow } s.bpu.declaresStall) := by
    unfold State.reportStall
    split
    · exact (h.congr rfl id : PortsOk { s with bpu := s.bpu.closeWindow }).raise _ _ _
    · exact h.congr rfl id
  refine PortsOk.kept ?_ (State.settleFrom_portsKept _ _)
  unfold State.countGuard
  split
  · dsimp only
    split
    · exact PortsOk.halt (hclosed.congr rfl id)
    · exact hclosed.congr rfl id
  · exact hclosed

/-! ### Requests -/

theorem PortsOk.setStationOp (r : StationRequest) : PortsOk (setStationOp r s).1 := by
  unfold Machine.setStationOp
  split
  · exact h
  · split
    · next p on _ _ =>
      split
      · exact h
      · next hr =>
        split
        · exact h
        · refine h.setPort ((h.port p).configure on (by simpa using hr)) fun hm => ?_
          rcases (s.port p).configure_queue on r with e | e
          · exact e.trans (h.config hm p)
          · exact e
    · exact h

/-- START leaves CONFIG or stays where it is (R148). -/
theorem PortsOk.startOp : PortsOk (startOp s).1 := by
  have hrun : PortsOk (s.withMode .run) :=
    (h.congr rfl nofun : PortsOk { s with lc := { s.lc with mode := .run } }).kept (State.settleFrom_portsKept _ _)
  unfold Machine.startOp
  cases s.lc.mode with
  | halted => exact h
  | run => exact h
  | draining => exact hrun
  | config =>
    dsimp only
    split
    · exact h
    · split
      · exact hrun
      · exact h

/-- STOP drains, and where no record is live the drain completes at once (R150, R151). -/
theorem PortsOk.stopOp : PortsOk (stopOp s).1 := by
  unfold Machine.stopOp
  cases s.lc.mode with
  | run =>
    have hdraining : PortsOk { s with lc := { s.lc with mode := .draining } } := h.congr rfl nofun
    exact hdraining.kept ((State.drainIfEmpty_portsKept _).trans (State.settleFrom_portsKept _ _))
  | _ => exact h

theorem PortsOk.resetOp : PortsOk (resetOp s).1 :=
  h.mapPorts rfl (fun _ _ hq => hq.afterReset) fun _ p => by
    unfold Port.afterReset
    dsimp only
    split <;> rfl

theorem PortsOk.clearTalliesOp : PortsOk (clearTalliesOp s).1 := by
  have hzero : PortCounters.InWidth ⟨0, 0, 0, 0, 0, 0, 0, 0, 0⟩ := by constructor <;> exact Nat.zero_le _
  exact h.mapPorts rfl (fun _ _ hq => hq.withCounters hzero) fun hm p => h.config hm p

/-- Every request keeps the ports in order. -/
theorem PortsOk.request {c : Instr} {kind : Byte} {op : State → Answer} (hc : requestOf c = some (kind, op)) :
    PortsOk (op s).1 := by
  cases c with
  | setStation r => cases hc; exact h.setStationOp r
  | start => cases hc; exact h.startOp
  | stop => cases hc; exact h.stopOp
  | reset => cases hc; exact h.resetOp
  | clearTallies => cases hc; exact h.clearTalliesOp
  | setBelt r => cases hc; exact h.kept (setBeltOp_portsKept r s)
  | setTracking r => cases hc; exact h.kept (setTrackingOp_portsKept r s)
  | writeClassmap bank station first entries => cases hc; exact h.kept (writeBank_portsKept _ _ s)
  | writeDestinations r => cases hc; exact h.kept (writeBank_portsKept _ _ s)
  | switchBank target c => cases hc; exact h.kept (switchBankOp_portsKept target c s)
  | setBar r => cases hc; exact h.kept (setBarOp_portsKept r s)
  | setZone r => cases hc; exact h.kept (setZoneOp_portsKept r s)
  | enableBar bar => cases hc; exact h.kept (enableBarOp_portsKept bar s)
  | override x dest => cases hc; exact h.kept (overrideOp_portsKept x dest s)
  | forget x => cases hc; exact h.kept (forgetOp_portsKept x s)
  | insert r => cases hc; exact h.kept (insertOp_portsKept r s)
  | enableGuard => cases hc; exact h.congr rfl id
  | clear => cases hc; exact h.congr rfl id
  | ackNotices kinds => cases hc; exact h.congr rfl id
  | setMask kinds => cases hc; exact h.congr rfl id
  | readPortCounters port => cases hc; unfold readPortCountersOp; split <;> exact h
  | readBank bank sect =>
    cases hc
    unfold readBankOp
    repeat' split
    all_goals exact h
  | lookup x => cases hc; unfold lookupOp; split <;> exact h
  | find c1 c2 first last => cases hc; unfold findOp; split <;> exact h
  | scan start count => cases hc; unfold scanOp; split <;> exact h
  | readTallies block => cases hc; unfold readTalliesOp; split <;> exact h
  | readStatus => cases hc; exact h
  | readNotices => cases hc; exact h
  | readFault => cases hc; exact h
  | _ => cases hc

/-! ### Every command -/

theorem PortsOk.linkBytes (bytes : List Byte) : PortsOk (s.linkBytes bytes) :=
  State.linkBytes_keeps (State.linkByte_keeps (fun _ _ hu => hu.congr rfl id) fun _ _ _ hc _ hu => hu.request hc) bytes s h

/-- Every command that is no request keeps the ports in order. -/
theorem PortsOk.event {c : Instr} (hc : requestOf c = none) {t : State} (he : exec c s = .next t) : PortsOk t := by
  cases c with
  | encoderTransition a b =>
    cases he
    have hpins : PortsOk { s with pins := { s.pins with levels := ⟨a, b⟩ } } := h.congr rfl id
    exact State.awake_keeps hpins fun _ => hpins.decodeLevels _
  | lclkPulseStart =>
    cases he
    refine State.awake_keeps h fun _ => ?_
    split <;> exact h.congr rfl id
  | lclkPulseEnd =>
    cases he
    refine State.awake_keeps h fun _ => ?_
    split <;> exact h.congr rfl id
  | windowEnd => cases he; exact State.awake_keeps h fun _ => h.endWindow
  | sync port f => cases he; exact State.awake_keeps h fun _ => h.portFrame port _ (h.syncArrives port f)
  | detect port f => cases he; exact State.awake_keeps h fun _ => h.portFrame port _ (h.detectArrives port f)
  | badFrame port length kind => cases he; exact State.awake_keeps h fun _ => h.portBytes port _
  | portStartMark port => cases he; exact State.awake_keeps h fun _ => h.portByte port _
  | assocTake =>
    cases he
    refine State.awake_keeps h fun _ => ?_
    split
    · split
      · exact h.take _
      · exact h
    · exact h
  | maxonCut b n =>
    cases he
    refine State.awake_keeps h fun _ => ?_
    split <;> exact h.congr rfl id
  | coolingEnd b n =>
    cases he
    refine State.awake_keeps h fun _ => ?_
    dsimp only
    split <;> exact h.congr rfl id
  | valveFrameStart b => cases he; exact State.awake_keeps h fun _ => h.congr rfl id
  | valveFrameEnd b =>
    cases he
    refine State.awake_keeps h fun _ => ?_
    dsimp only
    split <;> exact h.congr rfl id
  | refreshExpiry b => cases he; exact State.awake_keeps h fun _ => h.congr rfl id
  | driverFault b =>
    cases he
    have hpins : PortsOk { s with pins := { s.pins with faultLines := s.pins.faultLines.set b true } } := h.congr rfl id
    refine State.awake_keeps hpins fun _ => ?_
    split
    · exact hpins.kept (State.faultBar_portsKept _ _)
    · exact hpins
  | faultLineInactive b => cases he; exact h.congr rfl id
  | resetPin => cases he; exact (PortsOk.atRelease s.pins.levels s.pins.faultLines).congr rfl id
  | resetPinAsserted =>
    cases he
    exact h.mapPorts rfl (fun _ _ hq => hq.hunting) fun hm p => h.config hm p
  | overlongFrame length => cases he; exact State.awake_keeps h fun _ => h.linkBytes _
  | garbledFrame kind body check =>
    cases he
    refine State.awake_keeps h fun _ => ?_
    split
    · exact State.linkFrame_keeps (fun _ _ hu => hu.congr rfl id) (fun _ _ _ hc _ hu => hu.request hc) _
        (fun _ hu => State.takeFrame_keeps (fun _ _ hw => hw.congr rfl id) (fun _ _ _ hc _ hw => hw.request hc)
          kind body check hu) h
    · exact h.linkBytes _
  | replySent => cases he; exact State.awake_keeps h fun _ => h.congr rfl id
  | startMark => cases he; exact State.awake_keeps h fun _ => h.linkBytes [supervisorMark]
  | _ => cases hc

/-- Every command keeps the ports in order. -/
theorem PortsOk.exec {c : Instr} {t : State} (he : exec c s = .next t) : PortsOk t := by
  cases hc : requestOf c with
  | none => exact h.event hc he
  | some x => exact exec_request_keeps (fun _ _ hu => hu.congr rfl id) (fun _ _ _ hr _ hu => hu.request hr) hc h he

end

/-- Settles O54. -/
theorem step_keeps_the_ports_in_order : Obligations.Step_keeps_the_ports_in_order := fun _ _ h hs =>
  step_keeps (fun _ _ _ hu he => hu.exec he) (fun _ hu => State.awake_keeps hu fun _ => hu.congr rfl id)
    (fun _ _ hu => hu.congr rfl id) (fun _ _ hu => hu.congr rfl id) h hs

end Sys2Proof.Machine
end

