-- ==== Sys2Proof/Proofs/Readings.lean ====
section
/-! SUPPORT. The reading requests, the handles and ranges that are refused, and SET_STATION; settles O35, O36 and O42. -/

namespace Sys2Proof.Machine

/-! ### What a byte names (R162) -/

theorem stationOf_of {b : Byte} {p : Station} (h : b.toNat = stationNo p) : stationOf b = some p := by
  rw [stationOf, h]
  cases p <;> rfl

theorem stationOf_none {b : Byte} (h : 3 < b.toNat) : stationOf b = none := by
  unfold stationOf
  split <;> simp_all

theorem bankOf_of {b : Byte} {k : Bank} (h : b.toNat = k.no) : bankOf b = some k := by
  rw [bankOf, h]
  cases k <;> rfl

theorem bankOf_none {b : Byte} (h : 1 < b.toNat) : bankOf b = none := by
  unfold bankOf
  split <;> simp_all

theorem outcomeOf_of {b : Byte} {o : RecOutcome} (h : b.toNat = o.no) : outcomeOf b = some o := by
  rw [outcomeOf, h]
  cases o <;> rfl

theorem outcomeOf_none {b : Byte} (h : 5 < b.toNat) : outcomeOf b = none := by
  unfold outcomeOf
  split <;> simp_all

theorem yesNo_of {b : Byte} {on : Bool} (h : b.toNat = if on then 1 else 0) : yesNo b = some on := by
  rw [yesNo, h]
  cases on <;> rfl

theorem yesNo_none {b : Byte} (h : 1 < b.toNat) : yesNo b = none := by
  unfold yesNo
  split <;> simp_all

theorem sectionOf_station (d : BankData) (p : Station) :
    sectionOf d (byte (stationNo p)) = some (.classMap (d.classMap.get p)) := by
  cases p <;> rfl

theorem sectionOf_none (d : BankData) {sect : Byte} (h : 4 < sect.toNat) : sectionOf d sect = none := by
  unfold sectionOf
  split <;> simp_all

/-! ### Handles (R38) -/

section
variable {ft : FragTable} {h : HandleField}

theorem checkHandle_badValue (hs : 1024 ≤ h.slot.toNat) : checkHandle ft h = .error .badValue := if_neg hs.not_gt

theorem checkHandle_stale (hs : h.slot.toNat < 1024) (hn : ft.find h.slot.toNat = none ∨ ft.gen h.slot.toNat ≠ h.gen) :
    checkHandle ft h = .error .stale := by
  refine (if_pos hs).trans ?_
  split
  · next hf => exact if_neg (hn.resolve_left (by rw [hf]; exact Option.some_ne_none _))
  · rfl

theorem checkHandle_ok (hs : h.slot.toNat < 1024) {r : Record} (hf : ft.find h.slot.toNat = some r)
    (hg : ft.gen h.slot.toNat = h.gen) : checkHandle ft h = .ok r := by
  refine (if_pos hs).trans ?_
  rw [hf]
  exact if_pos hg

end

/-- The handle is checked before everything else (R38). -/
theorem handleOps_refused {s : State} {h : HandleField} {code : ReplyCode} (hs : Ready s)
    (he : checkHandle s.ft h = .error code) (dest : Byte) :
    exec (.lookup h) s = .next (s.answered 13 code .empty) ∧
    exec (.override h dest) s = .next (s.answered 16 code .empty) ∧
    exec (.forget h) s = .next (s.answered 17 code .empty) := by
  refine ⟨request_answered hs rfl ?_, request_answered hs rfl ?_, request_answered hs rfl ?_⟩
  · rw [lookupOp, he]
    rfl
  · rw [overrideOp, he]
    rfl
  · rw [forgetOp, he]
    rfl

/-! ### Ranges -/

/-- The ranges of FIND (R139). -/
theorem findBad_iff (c1 c2 : Pos) (first last : Byte) :
    (behind c2 c1 || decide (Config.span ≤ stepsTo c1 c2) || !lanesOk first last) = true ↔
      behind c2 c1 = true ∨ 1048576 ≤ stepsTo c1 c2 ∨ last.toNat < first.toNat ∨ 159 < last.toNat := by
  rw [Bool.or_eq_true, Bool.or_eq_true, decide_eq_true_eq, Bool.not_eq_true', ← Bool.not_eq_true, lanesOk_iff, Config.span,
    or_assoc]
  refine or_congr_right (or_congr_right ?_)
  omega

theorem findOp_refused {c1 c2 : Pos} {first last : Byte} {s : State}
    (h : behind c2 c1 = true ∨ 1048576 ≤ stepsTo c1 c2 ∨ last.toNat < first.toNat ∨ 159 < last.toNat) :
    findOp c1 c2 first last s = refuse s .badValue := if_pos ((findBad_iff c1 c2 first last).2 h)

/-- The ranges of SCAN (R140). -/
theorem scanGood_iff (count : Byte) :
    (decide (1 ≤ count.toNat) && decide (count.toNat ≤ 16)) = true ↔ 1 ≤ count.toNat ∧ count.toNat ≤ 16 := by
  rw [Bool.and_eq_true, decide_eq_true_eq, decide_eq_true_eq]

/-- Settles O42. -/
theorem handles_and_ranges_refused : Obligations.Handles_and_ranges_refused := by
  refine ⟨fun h dest s hs => ⟨fun hslot => handleOps_refused hs (checkHandle_badValue hslot) dest,
    fun hslot hn => handleOps_refused hs (checkHandle_stale hslot hn) dest⟩, fun s hs => ⟨fun port hp => ?_,
    fun bank sect hb => ?_, fun c1 c2 first last hbad => ?_, fun start count hbad => ?_, fun block hb => ?_⟩⟩
  · refine request_answered hs rfl ?_
    rw [readPortCountersOp, stationOf_none hp]
    rfl
  · refine request_answered hs rfl ?_
    unfold readBankOp
    split
    · next k hk =>
      have hsect : 4 < sect.toNat := hb.resolve_left fun h => by rw [bankOf_none h] at hk; cases hk
      rw [sectionOf_none _ hsect]
      rfl
    · rfl
  · exact request_answered hs rfl (findOp_refused hbad)
  · refine request_answered hs rfl (if_neg ?_)
    rw [scanGood_iff]
    rintro ⟨hmin, hmax⟩
    rcases hbad with rfl | hbig
    · exact absurd hmin (by decide)
    · omega
  · refine request_answered hs rfl ?_
    rw [readTalliesOp, outcomeOf_none hb]
    rfl

/-! ### Readings -/

theorem overlapsRange_eq (c1 c2 : Pos) (first last : Nat) (r : Record) :
    overlapsRange c1 c2 first last r =
      (atOrBehind r.X c2 && atOrBehind c1 r.Xt && decide (r.first ≤ last) && decide (first ≤ r.last)) := by
  rw [overlapsRange, rangesMeet, lanesMeet, Bool.and_assoc, Bool.and_assoc, Bool.and_assoc]

theorem readBankOp_section {bank sect : Byte} {s : State} {k : Bank} {body : ReplyBody} (hk : bankOf bank = some k)
    (hsect : sectionOf (s.banks.data.get k) sect = some body) : readBankOp bank sect s = (s, .ok, body) := by
  unfold readBankOp
  rw [hk]
  dsimp only
  rw [hsect]

/-- Settles O35. -/
theorem reading_requests_change_nothing : Obligations.Reading_requests_change_nothing := by
  intro s hs
  refine ⟨fun port p hp => ?_, fun bank k hk => ⟨fun p => ?_, ?_⟩, fun h r hslot hf hg => ?_,
    fun c1 c2 first last hc hlen hlane hlast => ?_, fun start count hmin hmax => ?_, request_answered hs rfl rfl,
    request_answered hs rfl rfl, request_answered hs rfl rfl, fun block o ho => ?_⟩
  · refine request_answered hs rfl ?_
    rw [readPortCountersOp, stationOf_of hp]
    rfl
  · exact request_answered hs rfl (readBankOp_section (bankOf_of hk) (sectionOf_station _ p))
  · exact request_answered hs rfl (readBankOp_section (bankOf_of hk) rfl)
  · refine request_answered hs rfl ?_
    rw [lookupOp, checkHandle_ok hslot hf hg]
    rfl
  · simp only [← overlapsRange_eq]
    refine request_answered hs rfl (if_neg ?_)
    rw [findBad_iff, hc]
    rintro (hbehind | hbad)
    · cases hbehind
    · omega
  · refine request_answered hs rfl ((if_pos ((scanGood_iff count).2 ⟨hmin, hmax⟩)).trans ?_)
    refine congrArg (fun xs => ((_ : State), ReplyCode.ok, ReplyBody.scanned _ xs)) (List.map_congr_left fun l _ => ?_)
    unfold FragTable.summary
    cases l.record.st <;> rfl
  · refine request_answered hs rfl ?_
    rw [readTalliesOp, outcomeOf_of ho]

/-! ### SET_STATION -/

/-- A SET_STATION out of range, outside HALTED (R33). -/
theorem setStationOp_badValue {r : StationRequest} {s : State} (hm : s.lc.mode ≠ .halted)
    (h : 3 < r.station.toNat ∨ 1 < r.enabled.toNat ∨ 15 < r.slipTol.toNat ∨ r.silentSteps.toNat < 256) :
    setStationOp r s = refuse s .badValue := by
  refine (if_neg hm).trans ?_
  split
  · next p on hp hon =>
    have hrange : ¬stationInRange r = true := by
      rw [stationInRange_iff]
      rcases h with h | h | h | h
      · rw [stationOf_none h] at hp; cases hp
      · rw [yesNo_none h] at hon; cases hon
      · omega
      · omega
    exact if_pos (by simpa using hrange)
  · rfl

/-- A SET_STATION in range: what RUN and DRAINING refuse, and the port it writes otherwise (R33). -/
theorem setStationOp_inRange {r : StationRequest} {s : State} {p : Station} {on : Bool} (hm : s.lc.mode ≠ .halted)
    (hp : r.station.toNat = stationNo p) (hon : r.enabled.toNat = if on then 1 else 0)
    (hrange : r.slipTol.toNat ≤ 15 ∧ 256 ≤ r.silentSteps.toNat) :
    setStationOp r s =
      if s.running = true ∧ ((s.port p).enabled ≠ on ∨ (s.port p).D ≠ r.D.toNat) then refuse s .wrongMode
      else done (s.setPort p ((s.port p).configure on r)) := by
  refine (if_neg hm).trans ?_
  rw [stationOf_of hp, yesNo_of hon]
  simp [(stationInRange_iff r).2 hrange]

/-- The running state after SET_STATION (R33, R34; entry 27). -/
theorem Port.configure_eq (q : Port) (on : Bool) (r : StationRequest) :
    q.configure on r =
      { q with
        enabled := on, D := r.D.toNat, rate := r.rate.toNat, slipTol := r.slipTol.toNat
        silentSteps := r.silentSteps.toNat
        state := if q.enabled = on then q.state else if on then .waiting else .disabled
        base := if q.enabled = on then q.base else none
        lastSeq := if q.enabled = on then q.lastSeq else none
        silence := if q.enabled = false ∧ on = true then 0 else q.silence
        rateCount := if q.enabled = false ∧ on = true then 0 else q.rateCount
        queue := if q.enabled = true ∧ on = false then [] else q.queue
        hold := if q.enabled = true ∧ on = false then false else q.hold } := by
  rcases q with ⟨enabled⟩
  cases enabled <;> cases on <;> rfl

/-- Settles O36. -/
theorem set_STATION_by_mode_and_range : Obligations.SET_STATION_by_mode_and_range := by
  intro r p on s hs
  refine ⟨fun hm => request_answered hs rfl (if_pos hm), fun hm =>
    ⟨fun hbad => request_answered hs rfl (setStationOp_badValue hm hbad), fun hp hon hslip hsilent =>
      ⟨fun hrun hne => request_answered hs rfl ?_, fun hok => ?_⟩⟩⟩
  · exact (setStationOp_inRange (s := { s with link := s.link.takeUp 3 }) hm hp hon ⟨hslip, hsilent⟩).trans
      (if_pos ⟨hrun, hne⟩)
  · have hfree : ¬(s.running = true ∧ ((s.port p).enabled ≠ on ∨ (s.port p).D ≠ r.D.toNat)) := by
      rintro ⟨hrun, hne⟩
      rcases hok with hidle | ⟨hsame, hD⟩
      · exact absurd (hidle.symm.trans hrun) (by decide)
      · exact hne.elim (· hsame) (· hD)
    rw [← Port.configure_eq]
    refine request_answered (t := s.setPort p ((s.port p).configure on r)) hs rfl ?_
    exact (setStationOp_inRange (s := { s with link := s.link.takeUp 3 }) hm hp hon ⟨hslip, hsilent⟩).trans (if_neg hfree)

end Sys2Proof.Machine
end

