-- ==== Sys2Proof/Proofs/ResetRequest.lean ====
section
/-! SUPPORT. What the RESET request leaves of ports, bars and generations; settles O48. -/

namespace Sys2Proof.Machine

/-- A port at a RESET request (R35). -/
theorem Port.afterReset_eq (q : Port) :
    q.afterReset =
      { q with
        state := if q.enabled then .waiting else q.state
        base := none, lastSeq := none, silence := 0, rateCount := 0, queue := [], hold := false } := by
  rcases q with ⟨enabled⟩
  cases enabled <;> rfl

theorem State.afterReset_port (s : State) (p : Station) : s.afterReset.port p = (s.port p).afterReset :=
  PerStation.get_map Port.afterReset s.ports p

theorem State.afterReset_bar (s : State) (b : Bar) : s.afterReset.bar b = (s.bar b).cleared :=
  PerBar.get_map BarUnit.cleared s.bars b

/-- The generations of the slots after a list of records has been freed (R38): those of other slots stay. -/
theorem foldl_gens_other {live : List Live} {slot : Nat} (h : ∀ l ∈ live, l.slot ≠ slot) (gens : List Byte) :
    (live.foldl (fun g l => g.modify l.slot fun x => x + 1) gens)[slot]? = gens[slot]? := by
  induction live generalizing gens with
  | nil => rfl
  | cons l ls ih =>
    rw [List.foldl_cons, ih fun x hx => h x (List.mem_cons_of_mem _ hx), List.getElem?_modify_ne]
    exact h l List.mem_cons_self

/-- A slot that one of the freed records has held goes on to its next generation (R38, R57). -/
theorem foldl_gens {live : List Live} {slot : Nat} (h : (live.filter fun l => l.slot == slot).length ≤ 1)
    (gens : List Byte) :
    (live.foldl (fun g l => g.modify l.slot fun x => x + 1) gens)[slot]? =
      if live.any (fun l => l.slot == slot) then gens[slot]?.map (· + 1) else gens[slot]? := by
  induction live generalizing gens with
  | nil => rfl
  | cons l ls ih =>
    by_cases hl : l.slot = slot
    · have hothers : ∀ x ∈ ls, x.slot ≠ slot := by
        rw [List.filter_cons_of_pos (by simpa using hl), List.length_cons] at h
        have hnil := List.length_eq_zero_iff.1 (Nat.le_zero.1 (Nat.le_of_succ_le_succ h))
        simpa using List.filter_eq_nil_iff.1 hnil
      rw [List.foldl_cons, foldl_gens_other hothers, hl, List.getElem?_modify_eq, List.any_cons, if_pos (by simp [hl])]
      rfl
    · rw [List.filter_cons_of_neg (by simpa using hl)] at h
      have hany : ((l :: ls).any fun x => x.slot == slot) = ls.any fun x => x.slot == slot := by simp [hl]
      have hkeep : (gens.modify l.slot fun x => x + 1)[slot]? = gens[slot]? := List.getElem?_modify_ne _ _ hl
      rw [List.foldl_cons, ih h, hkeep, hany]

/-- The generation of a slot after a RESET request (R38, R57). -/
theorem State.afterReset_gen (s : State) {slot : Nat} (hslot : slot < s.ft.gens.length)
    (h : (s.ft.live.filter fun l => l.slot == slot).length ≤ 1) :
    s.afterReset.ft.gen slot =
      if s.ft.live.any (fun l => l.slot == slot) then s.ft.gen slot + 1 else s.ft.gen slot := by
  have hgen : s.ft.gens[slot]? = some (s.ft.gens[slot]) := List.getElem?_eq_getElem hslot
  have hfree := foldl_gens h s.ft.gens
  change (s.ft.live.foldl (fun g l => g.modify l.slot fun x => x + 1) s.ft.gens).getD slot 0 = _
  rw [FragTable.gen, List.getD_eq_getElem?_getD, List.getD_eq_getElem?_getD, hfree, hgen]
  split <;> rfl

/-- Settles O48. -/
theorem reset_request : Obligations.RESET_request := by
  intro s hs
  refine ⟨s.afterReset.answered 21 .ok .empty, request_answered hs rfl rfl, rfl, rfl, fun p => ?_, rfl, rfl, rfl,
    fun slot hslot hone => s.afterReset_gen hslot hone, rfl, rfl, fun b => s.afterReset_bar b, rfl, rfl, rfl⟩
  rw [← Port.afterReset_eq]
  exact s.afterReset_port p

end Sys2Proof.Machine
end

