-- ==== Sys2Proof/Proofs/Quiet.lean ====
section
/-! SUPPORT. The events that leave records, reference counts and the settings behind the points alone: the relation Quiet;
and what every command keeps that these and the events of records keep. -/

namespace Sys2Proof.Machine

/-! ### The relation -/

theorem State.SamePoints.trans {s t u : State} (h : s.SamePoints t) (k : t.SamePoints u) : s.SamePoints u :=
  ⟨fun p => ⟨(k.port p).1.trans (h.port p).1, (k.port p).2.trans (h.port p).2⟩, k.tracking.trans h.tracking,
    fun b => (k.settings b).trans (h.settings b)⟩

/-- An event leaves the Fragment Table, the reference counts, the active bank and the pending switch, neither enters nor
leaves CONFIG, and moves no point of a record (R42). -/
structure State.Quiet (s t : State) : Prop where
  ft     : t.ft = s.ft
  refs   : t.banks.refs = s.banks.refs
  active : t.banks.active = s.banks.active
  switch : t.banks.pendingSwitch = s.banks.pendingSwitch
  mode   : t.lc.mode = .config ↔ s.lc.mode = .config
  points : s.SamePoints t

theorem State.Quiet.trans {s t u : State} (h : s.Quiet t) (k : t.Quiet u) : s.Quiet u :=
  ⟨k.ft.trans h.ft, k.refs.trans h.refs, k.active.trans h.active, k.switch.trans h.switch, k.mode.trans h.mode,
    h.points.trans k.points⟩

theorem State.SamePoints.of_eq {s t : State} (hports : t.ports = s.ports) (htracking : t.tracking = s.tracking)
    (hbars : t.bars = s.bars) : s.SamePoints t :=
  ⟨fun p => by rw [State.port, hports]; exact ⟨rfl, rfl⟩, htracking, fun b => by rw [State.bar, hbars]; rfl⟩

theorem State.Quiet.of_points {s t : State} (hft : t.ft = s.ft) (hbanks : t.banks = s.banks)
    (hmode : t.lc.mode = .config ↔ s.lc.mode = .config) (hpoints : s.SamePoints t) : s.Quiet t :=
  ⟨hft, by rw [hbanks], by rw [hbanks], by rw [hbanks], hmode, hpoints⟩

/-- An event on what no record, point or bank depends on. -/
theorem State.Quiet.of_eq {s t : State} (hft : t.ft = s.ft) (hbanks : t.banks = s.banks) (hports : t.ports = s.ports)
    (htracking : t.tracking = s.tracking) (hbars : t.bars = s.bars)
    (hmode : t.lc.mode = .config ↔ s.lc.mode = .config) : s.Quiet t :=
  .of_points hft hbanks hmode (.of_eq hports htracking hbars)

theorem State.Quiet.refl (s : State) : s.Quiet s := .of_eq rfl rfl rfl rfl rfl Iff.rfl

theorem State.bpu_quiet (s : State) (bpu : Bpu) : s.Quiet { s with bpu } := .of_eq rfl rfl rfl rfl rfl Iff.rfl

theorem State.draws_quiet (s : State) (draws : Nat) : s.Quiet { s with draws } := .of_eq rfl rfl rfl rfl rfl Iff.rfl

theorem State.Quiet.raise {s t : State} (h : s.Quiet t) (k : NoticeKind) (src : Source) (hd : Option Handle) :
    s.Quiet (t.raise k src hd) := h.trans (.of_eq rfl rfl rfl rfl rfl (by simp))

theorem State.setPort_quiet (s : State) {p : Station} {x : Port} (he : x.enabled = (s.port p).enabled)
    (hD : x.D = (s.port p).D) : s.Quiet (s.setPort p x) := by
  refine .of_points rfl rfl Iff.rfl ⟨fun q => ?_, rfl, fun _ => rfl⟩
  rw [State.port_setPort]
  split
  · next e => exact e ▸ ⟨he, hD⟩
  · exact ⟨rfl, rfl⟩

theorem State.setPort_raise_quiet (s : State) {p : Station} {x : Port} (he : x.enabled = (s.port p).enabled)
    (hD : x.D = (s.port p).D) (k : NoticeKind) : s.Quiet ((s.setPort p x).raise k (.station p) none) :=
  (s.setPort_quiet he hD).raise _ _ _

theorem State.setBar_quiet (s : State) {b : Bar} {u : BarUnit} (h : u.settings = (s.bar b).settings) :
    s.Quiet (s.setBar b u) := by
  refine .of_points rfl rfl Iff.rfl ⟨fun _ => ⟨rfl, rfl⟩, rfl, fun c => ?_⟩
  rw [State.bar_setBar]
  split
  · next e => exact e ▸ h
  · rfl

/-- The same update at every port. -/
theorem State.mapPorts_quiet {s t : State} {f : Port → Port} (h : t = { s with ports := s.ports.map f })
    (hf : ∀ p, (f p).enabled = p.enabled ∧ (f p).D = p.D) : s.Quiet t := by
  subst h
  refine .of_points rfl rfl Iff.rfl ⟨fun p => ?_, rfl, fun _ => rfl⟩
  change ((s.ports.map f).get p).enabled = _ ∧ ((s.ports.map f).get p).D = _
  rw [PerStation.get_map]
  exact hf _

/-- The same update at every bar. -/
theorem State.mapBars_quiet {s t : State} {f : BarUnit → BarUnit} (h : t = { s with bars := s.bars.map f })
    (hf : ∀ u, (f u).settings = u.settings) : s.Quiet t := by
  subst h
  refine .of_points rfl rfl Iff.rfl ⟨fun _ => ⟨rfl, rfl⟩, rfl, fun b => ?_⟩
  change ((s.bars.map f).get b).settings = _
  rw [PerBar.get_map]
  exact hf _

theorem State.settle_quiet (s : State) : s.Quiet s.settle := State.mapBars_quiet rfl fun _ => rfl

theorem State.settleFrom_quiet (t s : State) : t.Quiet (t.settleFrom s) := by
  unfold State.settleFrom
  split
  · exact .refl t
  · exact t.settle_quiet

/-- A halt leaves a running line's records where they are (R152). -/
theorem State.halt_quiet (s : State) : s.Quiet s.halt := by
  rcases s.halt_cases with ⟨_, e⟩ | ⟨hr, e⟩ <;> rw [e]
  · exact .refl s
  · have hm : s.lc.mode ≠ .config := fun hm => by simp [State.running, hm] at hr
    exact .of_eq rfl rfl rfl rfl rfl ⟨nofun, fun h => absurd h hm⟩

theorem State.goSilent_quiet (s : State) (p : Station) : s.Quiet (s.goSilent p) := by
  rcases s.goSilent_cases p with ⟨_, e⟩ | ⟨_, e⟩ <;> rw [e]
  · exact .refl s
  · exact s.setPort_raise_quiet (by rfl) (by rfl) _

/-- The move to the new T touches no record (R3, R12, R21). -/
theorem State.atNewT_quiet (s : State) : s.Quiet s.atNewT := by
  obtain ⟨-, hft, -, -, hbanks, -, -, hmode, -⟩ := s.atNewT_frame
  exact .of_points hft hbanks (by rw [hmode]) s.atNewT_samePoints

/-! ### Station frames -/

section
variable {s : State} {p : Station}

theorem State.handleSync_quiet (l : Pos) {q : Port} (he : q.enabled = (s.port p).enabled) (hD : q.D = (s.port p).D) :
    s.Quiet (s.handleSync l p q) := by
  unfold State.handleSync
  split
  · split
    · exact s.setPort_quiet he hD
    · exact s.setPort_raise_quiet (by exact he) (by exact hD) _
  · exact s.setPort_raise_quiet (by exact he) (by exact hD) _

theorem State.handleDetect_quiet (f : DetectFrame) {q : Port} (he : q.enabled = (s.port p).enabled)
    (hD : q.D = (s.port p).D) : s.Quiet (s.handleDetect f p q) := by
  unfold State.handleDetect
  split
  · split
    · split
      · dsimp only [State.enqueue]
        split
        · exact s.setPort_quiet he hD
        · exact s.setPort_raise_quiet (by exact he) (by exact hD) _
      · exact s.setPort_raise_quiet (by exact he) (by exact hD) _
    · exact s.setPort_quiet he hD
  · exact s.setPort_quiet he hD

/-- The arrival of a frame is quiet where its handling is (R17). -/
theorem State.arrive_quiet (seq : Byte) (sound : Bool) {handle : State → Port → State}
    (hh : ∀ q : Port, q.enabled = (s.port p).enabled → q.D = (s.port p).D → s.Quiet (handle s q)) :
    s.Quiet (s.arrive p seq sound handle) := by
  unfold State.arrive
  dsimp only
  split
  · exact s.setPort_quiet rfl rfl
  · split
    · split
      · exact s.setPort_quiet rfl rfl
      · exact hh _ rfl rfl
    · exact s.setPort_quiet rfl rfl

end

theorem State.syncArrives_quiet (s : State) (p : Station) (f : SyncFrame) : s.Quiet (s.syncArrives p f) :=
  State.arrive_quiet _ _ fun _ => State.handleSync_quiet _

theorem State.detectArrives_quiet (s : State) (p : Station) (f : DetectFrame) : s.Quiet (s.detectArrives p f) :=
  State.arrive_quiet _ _ fun _ => State.handleDetect_quiet _

theorem State.portByte_quiet (s : State) (p : Station) (b : Byte) : s.Quiet (s.portByte p b) := by
  rcases s.portByte_cases p b with e | ⟨rx, e⟩ | e | ⟨f, e⟩ | ⟨f, e⟩ <;> rw [e]
  · exact .refl s
  · exact s.setPort_quiet rfl rfl
  · unfold State.badFrameArrives
    dsimp only
    split <;> exact s.setPort_quiet rfl rfl
  · exact s.syncArrives_quiet p f
  · exact s.detectArrives_quiet p f

theorem State.portBytes_quiet (s : State) (p : Station) (bytes : List Byte) : s.Quiet (s.portBytes p bytes) :=
  State.portBytes_keeps (P := s.Quiet) p (fun u b hu => hu.trans (u.portByte_quiet p b)) bytes s (.refl s)

theorem State.portFrame_quiet (s : State) (p : Station) (bytes : List Byte) {taken : State → State}
    (ht : s.Quiet (taken s)) : s.Quiet (s.portFrame p bytes taken) := by
  unfold State.portFrame
  split
  · exact ht
  · exact s.portBytes_quiet p bytes

/-! ### What quiet events and the events of records keep -/

/-- A property kept by quiet events, by the events of records and by the requests that concern them. A take of the
Association Engine is left out. -/
structure KeptByEvents (P : State → Prop) : Prop where
  quiet      : ∀ s t : State, s.Quiet t → P s → P t
  point      : ∀ (s : State) slot r, s.ft.find slot = some r → s.running = true → P s → P (s.takePoint slot r)
  drop       : ∀ (s : State) slot r v sch, s.ft.find slot = some r → r.st = .armed v sch → P s →
    P (s.setRecState slot (.passing v (.bar sch.bar) .dropped))
  retire     : ∀ (s : State) slot o, P s → P (s.retire slot o)
  switched   : ∀ s : State, P s → P s.switchIfReached
  settings   : ∀ s t : State, s.lc.mode = .config → t.lc = s.lc → t.ft = s.ft → t.banks = s.banks →
    (t.tracking = s.tracking ∨ 64 ≤ t.tracking.lMax ∧ t.tracking.lMax ≤ 4095) → P s → P t
  release    : ∀ levels faultLines, P (State.atRelease levels faultLines)
  override   : ∀ (s : State) slot d, P s → P (s.setOverride slot d)
  insert     : ∀ s r, P s → P (insertOp r s).1
  switchBank : ∀ s target c, P s → P (switchBankOp target c s).1
  start      : ∀ s, P s → P (startOp s).1
  stop       : ∀ s, P s → P (stopOp s).1
  reset      : ∀ s : State, P s → P s.afterReset

namespace KeptByEvents

variable {P : State → Prop} (k : KeptByEvents P)
include k

theorem takeOverdue {s : State} (h : P s) (slot : Nat) : P (s.takeOverdue slot) :=
  State.takeOverdue_keeps (fun u j r hf hr hu => k.point u j r hf hr hu) s slot h

theorem takePart {s : State} (h : P s) (x : AdvancePart) : P (s.takePart x) := by
  cases x with
  | silence p => exact k.quiet _ _ (s.goSilent_quiet p) h
  | point slot =>
    change P (s.takeReached slot)
    rcases s.takeReached_cases slot with e | ⟨_, _, _, _, e⟩ <;> rw [e]
    · exact h
    · exact k.takeOverdue h slot

theorem advance {s : State} (h : P s) : P s.advance := by
  have hparts : P s.atNewT.takeParts :=
    foldl_keeps (P := P) (fun _ x _ hu => k.takePart hu x)
      (k.quiet _ _ (s.atNewT_quiet.trans (State.draws_quiet _ _)) h)
  exact k.quiet _ _ (State.settle_quiet _) (k.switched _ hparts)

theorem forwardCount {s : State} (h : P s) : P s.forwardCount := by
  unfold State.forwardCount
  split
  · have hsub := k.quiet _ _ (s.bpu_quiet { s.bpu with sub := 0 }) h
    unfold State.forwardStep
    split
    · exact k.advance hsub
    · exact k.quiet _ _ ((State.bpu_quiet _ _).trans (State.settle_quiet _)) hsub
  · exact k.quiet _ _ (s.bpu_quiet _) h

theorem reverseCount {s : State} (h : P s) : P s.reverseCount := by
  unfold State.reverseCount
  split
  · exact k.quiet _ _ (s.bpu_quiet _) h
  · split
    · exact h
    · have hstep := (s.bpu_quiet { s.bpu with sub := s.bpu.encDiv - 1 }).trans
        (State.bpu_quiet _ { s.bpu with sub := s.bpu.encDiv - 1, P := s.bpu.P - 1 })
      unfold State.reverseStep
      dsimp only
      split
      · exact k.quiet _ _ ((hstep.trans (State.halt_quiet _)).trans (State.settle_quiet _)) h
      · exact k.quiet _ _ (hstep.trans (State.settle_quiet _)) h

theorem decodeLevels {s : State} (h : P s) (l : Levels) : P (s.decodeLevels l) := by
  have href := k.quiet _ _ (s.bpu_quiet { s.bpu with ref := l }) h
  rcases s.decodeLevels_cases l with ⟨_, e⟩ | e | e | e | e <;> rw [e]
  · exact h
  · exact href
  · exact k.forwardCount href
  · exact k.reverseCount href
  · exact k.quiet _ _ (State.bpu_quiet _ _) href

theorem endWindow {s : State} (h : P s) : P s.endWindow := by
  have hclosed : s.Quiet (State.reportStall { s with bpu := s.bpu.closeWindow } s.bpu.declaresStall) := by
    unfold State.reportStall
    split
    · exact State.Quiet.raise (s.bpu_quiet _) _ _ _
    · exact s.bpu_quiet _
  refine k.quiet _ _ (hclosed.trans (State.Quiet.trans ?_ (State.settleFrom_quiet _ _))) h
  unfold State.countGuard
  split
  · dsimp only
    split
    · exact (State.bpu_quiet _ _).trans (State.halt_quiet _)
    · exact State.bpu_quiet _ _
  · exact .refl _

/-- An ARMED record dropped by the fault of its bar, and retired where its retire line is overdue (R52, R119). -/
theorem dropArmed {s : State} (h : P s) (x : AdvancePart) : P (s.dropArmed x) := by
  unfold State.dropArmed
  split
  · exact h
  · split
    · exact h
    · next r hf =>
      split
      · next v sch hst => exact k.takeOverdue (k.drop s _ r v sch hf hst h) _
      · exact h

theorem faultBar {s : State} (h : P s) (b : Bar) : P (s.faultBar b) := by
  have hfaulted : s.Quiet { s.setBar b (s.bar b).faultNow with draws := s.draws + 1 } :=
    State.Quiet.trans (s.setBar_quiet (u := (s.bar b).faultNow) rfl) (.of_eq rfl rfl rfl rfl rfl Iff.rfl)
  have hdropped := foldl_keeps (P := P) (parts := orderParts s.draws ((s.armedAt b).map .point))
    (fun _ x _ hu => k.dropArmed hu x) (k.quiet _ _ hfaulted h)
  exact k.quiet _ _ (State.Quiet.trans (.raise (.refl _) _ _ _) (State.settleFrom_quiet _ s)) hdropped

/-! ### Requests -/

theorem setStationOp {s : State} (h : P s) (r : StationRequest) : P (Machine.setStationOp r s).1 := by
  unfold Machine.setStationOp
  split
  · exact h
  · next hhalt =>
    split
    · next p on _ _ =>
      split
      · exact h
      · split
        · exact h
        · next hkeep =>
          by_cases hm : s.lc.mode = .config
          · exact k.settings s _ hm rfl rfl rfl (.inl rfl) h
          · have hrun : s.running = true := by cases hmode : s.lc.mode <;> simp_all [State.running]
            simp only [hrun, Bool.true_and, Bool.or_eq_true, bne_iff_ne, not_or, not_not] at hkeep
            refine k.quiet _ _ (s.setPort_quiet (x := (s.port p).configure on r) ?_ hkeep.2.symm) h
            rw [Port.configure_eq]
            exact hkeep.1.symm
    · exact h

theorem setTrackingOp {s : State} (h : P s) (r : TrackingRequest) : P (Machine.setTrackingOp r s).1 := by
  unfold Machine.setTrackingOp
  split
  · exact h
  · next hm =>
    split
    · next hr =>
      obtain ⟨hlow, hhigh, -⟩ := (trackingInRange_iff r).1 hr
      exact k.settings s _ (not_not.1 hm) rfl rfl rfl (.inr ⟨hlow, hhigh⟩) h
    · exact h

theorem setBarOp {s : State} (h : P s) (r : BarRequest) : P (Machine.setBarOp r s).1 := by
  unfold Machine.setBarOp
  split
  · exact h
  · next hm =>
    split
    · next b st _ _ =>
      have hset : ∀ u : BarUnit, P (s.setBar b u) := fun u =>
        k.settings s _ (not_not.1 hm) rfl rfl rfl (.inl rfl) h
      change P (s.configureBar b st)
      unfold State.configureBar State.faultIfActive
      dsimp only
      split
      · exact k.faultBar (hset _) b
      · exact hset _
    · exact h

theorem forgetOp {s : State} (h : P s) (x : HandleField) : P (Machine.forgetOp x s).1 := by
  unfold Machine.forgetOp
  split
  · exact h
  · next r _ =>
    split
    · exact h
    · have hdropped : s.Quiet (s.dropIntervals x.slot.toNat r) := by
        unfold State.dropIntervals
        split
        · exact s.setBar_quiet rfl
        · exact .refl s
      exact k.quiet _ _ (State.settle_quiet _) (k.retire _ _ _ (k.quiet _ _ hdropped h))

theorem overrideOp {s : State} (h : P s) (x : HandleField) (dest : Byte) : P (Machine.overrideOp x dest s).1 := by
  unfold Machine.overrideOp
  split
  · exact h
  · split
    · exact h
    · split
      · exact h
      · split
        · exact k.override s _ _ h
        · exact h

theorem request {c : Instr} {kind : Byte} {op : State → Answer} (hc : requestOf c = some (kind, op)) {s : State}
    (h : P s) : P (op s).1 := by
  have hquiet : ∀ {u : State}, s.Quiet u → P u := fun q => k.quiet _ _ q h
  have hbank : ∀ bank change, P (writeBank bank change s).1 := fun bank change => by
    unfold writeBank
    split
    · exact h
    · split
      · split
        · exact h
        · exact hquiet ⟨rfl, rfl, rfl, rfl, Iff.rfl, .of_eq rfl rfl rfl⟩
      · exact h
  cases c with
  | setStation r => cases hc; exact k.setStationOp h r
  | setTracking r => cases hc; exact k.setTrackingOp h r
  | setBar r => cases hc; exact k.setBarOp h r
  | forget x => cases hc; exact k.forgetOp h x
  | override x dest => cases hc; exact k.overrideOp h x dest
  | insert r => cases hc; exact k.insert s r h
  | switchBank target c => cases hc; exact k.switchBank s target c h
  | start => cases hc; exact k.start s h
  | stop => cases hc; exact k.stop s h
  | reset => cases hc; exact k.reset s h
  | writeClassmap bank station first entries => cases hc; exact hbank _ _
  | writeDestinations r => cases hc; exact hbank _ _
  | setBelt r =>
    cases hc
    unfold setBeltOp
    split
    · exact h
    · split
      · exact hquiet (s.bpu_quiet _)
      · exact h
  | setZone r =>
    cases hc
    unfold setZoneOp
    split
    · exact h
    · split
      · split
        · exact hquiet (s.setBar_quiet rfl)
        · exact h
      · exact h
  | enableBar bar =>
    cases hc
    unfold enableBarOp
    split
    · exact h
    · split
      · exact h
      · split
        · exact h
        · exact h
        · split
          · exact h
          · exact hquiet (s.setBar_quiet rfl)
  | enableGuard => cases hc; exact hquiet (s.bpu_quiet _)
  | clear => cases hc; exact hquiet (.of_eq rfl rfl rfl rfl rfl Iff.rfl)
  | ackNotices kinds => cases hc; exact hquiet (.of_eq rfl rfl rfl rfl rfl Iff.rfl)
  | setMask kinds => cases hc; exact hquiet (.of_eq rfl rfl rfl rfl rfl Iff.rfl)
  | clearTallies =>
    cases hc
    have hports := State.mapPorts_quiet (s := s) (f := fun p => { p with counters := ⟨0, 0, 0, 0, 0, 0, 0, 0, 0⟩ }) rfl
      fun _ => ⟨rfl, rfl⟩
    exact hquiet (hports.trans (.of_eq rfl rfl rfl rfl rfl Iff.rfl))
  | readPortCounters port => cases hc; unfold readPortCountersOp; split <;> exact h
  | readBank bank sect =>
    cases hc
    unfold readBankOp
    repeat' split
    all_goals exact h
  | lookup x => cases hc; unfold lookupOp; split <;> exact h
  | find c1 c2 first last => cases hc; unfold findOp; split <;> exact h
  | scan start count => cases hc; unfold scanOp; split <;> exact h
  | readTallies block => cases hc; unfold readTalliesOp; split <;> exact h
  | readStatus => cases hc; exact h
  | readNotices => cases hc; exact h
  | readFault => cases hc; exact h
  | _ => cases hc

/-! ### Every command -/

theorem link (s : State) (link : Link) (h : P s) : P { s with link } := k.quiet s _ (.of_eq rfl rfl rfl rfl rfl Iff.rfl) h

theorem linkBytes {s : State} (h : P s) (bytes : List Byte) : P (s.linkBytes bytes) :=
  State.linkBytes_keeps (P := P) (State.linkByte_keeps k.link fun _ _ _ hc _ hu => k.request hc hu) bytes s h

theorem takeFrame {s : State} (h : P s) (kind : Byte) (body : List Byte) (check : Half) :
    P (s.takeFrame kind body check) :=
  State.takeFrame_keeps (P := P) k.link (fun _ _ _ hc _ hu => k.request hc hu) kind body check h

/-- Every command that is no request, the take of the Association Engine given. -/
theorem event {c : Instr} (hc : requestOf c = none) {s t : State} (h : P s)
    (htake : ∀ p, s.running = true → P (s.take p)) (he : Machine.exec c s = .next t) : P t := by
  have hquiet : ∀ {u : State}, s.Quiet u → P u := fun q => k.quiet _ _ q h
  cases c with
  | encoderTransition a b =>
    cases he
    have hpins : P { s with pins := { s.pins with levels := ⟨a, b⟩ } } := hquiet (.of_eq rfl rfl rfl rfl rfl Iff.rfl)
    exact State.awake_keeps hpins fun _ => k.decodeLevels hpins _
  | lclkPulseStart =>
    cases he
    refine State.awake_keeps h fun _ => ?_
    split
    · exact hquiet (s.bpu_quiet _)
    · exact h
  | lclkPulseEnd =>
    cases he
    refine State.awake_keeps h fun _ => ?_
    split
    · exact hquiet (s.bpu_quiet _)
    · exact h
  | windowEnd => cases he; exact State.awake_keeps h fun _ => k.endWindow h
  | sync port f =>
    cases he
    exact State.awake_keeps h fun _ => hquiet (s.portFrame_quiet port _ (s.syncArrives_quiet port f))
  | detect port f =>
    cases he
    exact State.awake_keeps h fun _ => hquiet (s.portFrame_quiet port _ (s.detectArrives_quiet port f))
  | badFrame port length kind => cases he; exact State.awake_keeps h fun _ => hquiet (s.portBytes_quiet port _)
  | portStartMark port => cases he; exact State.awake_keeps h fun _ => hquiet (s.portByte_quiet port _)
  | assocTake =>
    cases he
    refine State.awake_keeps h fun _ => ?_
    split
    · next hgo =>
      split
      · exact htake _ (Bool.and_eq_true_iff.1 hgo).1
      · exact h
    · exact h
  | maxonCut b n =>
    cases he
    refine State.awake_keeps h fun _ => ?_
    split
    · exact hquiet (s.setBar_quiet rfl)
    · exact h
  | coolingEnd b n =>
    cases he
    refine State.awake_keeps h fun _ => ?_
    dsimp only
    split
    · exact hquiet (s.setBar_quiet rfl)
    · exact h
  | valveFrameStart b =>
    cases he
    refine State.awake_keeps h fun _ => hquiet (s.setBar_quiet ?_)
    unfold BarUnit.startIfOwed
    split <;> rfl
  | valveFrameEnd b =>
    cases he
    refine State.awake_keeps h fun _ => ?_
    dsimp only
    split
    · refine hquiet (s.setBar_quiet ?_)
      unfold BarUnit.startIfOwed
      split <;> rfl
    · exact h
  | refreshExpiry b => cases he; exact State.awake_keeps h fun _ => hquiet (s.setBar_quiet rfl)
  | driverFault b =>
    cases he
    have hpins : P { s with pins := { s.pins with faultLines := s.pins.faultLines.set b true } } :=
      hquiet (.of_eq rfl rfl rfl rfl rfl Iff.rfl)
    refine State.awake_keeps hpins fun _ => ?_
    split
    · exact k.faultBar hpins b
    · exact hpins
  | faultLineInactive b => cases he; exact hquiet (.of_eq rfl rfl rfl rfl rfl Iff.rfl)
  | resetPin =>
    cases he
    exact k.quiet (State.atRelease s.pins.levels s.pins.faultLines) _ (.of_eq rfl rfl rfl rfl rfl Iff.rfl) (k.release _ _)
  | resetPinAsserted =>
    cases he
    have hports := State.mapPorts_quiet (s := s) (f := Port.hunting) rfl fun _ => ⟨rfl, rfl⟩
    have hbars := hports.trans
      (State.mapBars_quiet (f := fun u => { u with bus := u.bus.silenced }) rfl fun _ => rfl)
    exact hquiet (hbars.trans (.of_eq rfl rfl rfl rfl rfl Iff.rfl))
  | overlongFrame length => cases he; exact State.awake_keeps h fun _ => k.linkBytes h _
  | garbledFrame kind body check =>
    cases he
    refine State.awake_keeps h fun _ => ?_
    split
    · unfold State.linkFrame
      split
      · exact k.takeFrame h _ _ _
      · exact k.linkBytes h _
    · exact k.linkBytes h _
  | replySent => cases he; exact State.awake_keeps h fun _ => k.link s _ h
  | startMark => cases he; exact State.awake_keeps h fun _ => k.linkBytes h [supervisorMark]
  | _ => cases hc

/-- Every command keeps what quiet events, the events of records and a take of the Association Engine keep. -/
theorem exec {c : Instr} {s t : State} (h : P s) (htake : ∀ p, s.running = true → P (s.take p))
    (he : Machine.exec c s = .next t) : P t := by
  cases hc : requestOf c with
  | none => exact k.event hc h htake he
  | some x => exact exec_request_keeps (P := P) k.link (fun _ _ _ hr _ hu => k.request hr hu) hc h he

theorem tick {s : State} (h : P s) : P s.tick := by
  have hbars := State.mapBars_quiet (s := s) (f := BarUnit.tick) rfl fun _ => rfl
  exact State.awake_keeps h fun _ => k.quiet _ _ (hbars.trans (State.bpu_quiet _ _)) h

end KeptByEvents

end Sys2Proof.Machine
end

