-- ==== Sys2Proof/Proofs/TableInOrder.lean ====
section
/-! SUPPORT. The Fragment Table and the reference counts in agreement under every event of a record and every step; settles
O56. -/

namespace Sys2Proof.Machine

/-! ### One record among the others -/

/-- The live records are one of them and the others (R37). -/
theorem FragTable.Sound.perm_removeSlot {ft : FragTable} (h : ft.Sound) {slot : Nat} {r : Record}
    (hf : ft.find slot = some r) : ft.live.Perm (⟨slot, r⟩ :: removeSlot ft.live slot) := by
  have hlive : ft.live.Nodup := h.nodup.of_map
  have hmem := FragTable.mem_of_find hf
  refine (List.perm_ext_iff_of_nodup hlive (List.nodup_cons.2 ⟨by simp, hlive.filter _⟩)).2 fun l => ?_
  rw [List.mem_cons, ← removeSlot, mem_removeSlot]
  constructor
  · intro hl
    by_cases hs : l.slot = slot
    · exact .inl (h.unique hl hmem hs)
    · exact .inr ⟨hl, hs⟩
  · rintro (rfl | ⟨hl, -⟩)
    · exact hmem
    · exact hl

/-- The live records that name a bank (R91). -/
def bankCount (live : List Live) (k : Bank) : Nat := (live.filter fun l => l.record.bank == k).length

theorem bankCount_perm {xs ys : List Live} (h : xs.Perm ys) (k : Bank) : bankCount xs k = bankCount ys k :=
  (h.filter _).length_eq

theorem bankCount_cons (x : Live) (xs : List Live) (k : Bank) :
    bankCount (x :: xs) k = bankCount xs k + if x.record.bank = k then 1 else 0 := by
  by_cases hk : x.record.bank = k <;> simp [bankCount, hk]

/-- A change of records that leaves their slots and banks. -/
theorem map_slots_banks {live : List Live} {f : Live → Live}
    (h : ∀ l, (f l).slot = l.slot ∧ (f l).record.bank = l.record.bank) :
    (live.map f).map (·.slot) = live.map (·.slot) ∧ ∀ k, bankCount (live.map f) k = bankCount live k := by
  refine ⟨?_, fun k => ?_⟩
  · rw [List.map_map]
    exact List.map_congr_left fun l _ => (h l).1
  · simp only [bankCount, List.filter_map, List.length_map, Function.comp_def, (h _).2]

theorem TableOk.refs_eq {s : State} (h : TableOk s) (k : Bank) : s.banks.refs.get k = bankCount s.ft.live k := h.refs k

/-! ### What the agreement depends on -/

theorem TableOk.congr {s t : State} (h : TableOk s) (hft : t.ft = s.ft) (hrefs : t.banks.refs = s.banks.refs)
    (hactive : t.banks.active = s.banks.active) (hswitch : t.banks.pendingSwitch = s.banks.pendingSwitch)
    (hm : t.lc.mode = .config → s.lc.mode = .config) : TableOk t where
  count := hft ▸ h.count
  slots := hft ▸ h.slots
  gens := hft ▸ h.gens
  refs k := by rw [hrefs, hft]; exact h.refs k
  config hc := hft ▸ h.config (hm hc)
  switch w hw := by rw [hactive]; exact h.switch w (hswitch ▸ hw)

theorem TableOk.quiet {s t : State} (h : TableOk s) (q : s.Quiet t) : TableOk t :=
  h.congr q.ft q.refs q.active q.switch q.mode.1

/-- Another table under the same mode and switch, none of whose records is live in CONFIG. -/
theorem TableOk.withTable {s t : State} (h : TableOk s) (hcount : t.ft.liveCount = t.ft.live.length)
    (hslots : (t.ft.live.map (·.slot) ++ t.ft.freeList).Perm (s.ft.live.map (·.slot) ++ s.ft.freeList))
    (hgens : t.ft.gens.length = s.ft.gens.length) (hrefs : ∀ k, t.banks.refs.get k = bankCount t.ft.live k)
    (hconfig : t.lc.mode = .config → t.ft.live = []) (hactive : t.banks.active = s.banks.active)
    (hswitch : t.banks.pendingSwitch = s.banks.pendingSwitch) : TableOk t where
  count := hcount
  slots := hslots.trans h.slots
  gens := hgens.trans h.gens
  refs := hrefs
  config := hconfig
  switch w hw := by rw [hactive]; exact h.switch w (hswitch ▸ hw)

section
variable {s : State} (h : TableOk s)
include h

/-! ### The operations on the table -/

theorem TableOk.modRecord {slot : Nat} {f : Record → Record} (hf : ∀ r, (f r).bank = r.bank) :
    TableOk (s.modRecord slot f) := by
  obtain ⟨hslots, hbanks⟩ := map_slots_banks (live := s.ft.live)
    (f := fun l => if l.slot == slot then { l with record := f l.record } else l)
    fun l => by by_cases hl : l.slot = slot <;> simp [hl, hf]
  refine h.withTable ?_ (.of_eq (congrArg (· ++ s.ft.freeList) hslots)) rfl (fun k => ?_) (fun hc => ?_) rfl rfl
  · simpa using h.count
  · exact (h.refs_eq k).trans (hbanks k).symm
  · simpa using h.config hc

theorem TableOk.setRecState (slot : Nat) (st : RecState) : TableOk (s.setRecState slot st) := h.modRecord fun _ => rfl

/-- A record of the same slot and bank in its place (R41). -/
theorem TableOk.placeRecord {slot : Nat} {r r' : Record} (hf : s.ft.find slot = some r) (hb : r'.bank = r.bank) :
    TableOk { s with ft := s.ft.placeRecord slot r' } := by
  have hold := h.sound.perm_removeSlot hf
  have hnew := insertLive_perm ⟨slot, r'⟩ (removeSlot s.ft.live slot)
  refine h.withTable ?_ (.append_right _ ?_) rfl (fun k => ?_) (fun hc => ?_) rfl rfl
  · exact h.count.trans (hold.length_eq.trans hnew.length_eq.symm)
  · exact (hnew.map _).trans (hold.map (·.slot)).symm
  · refine (h.refs_eq k).trans ?_
    rw [FragTable.placeRecord_live, bankCount_perm hnew, bankCount_perm hold, bankCount_cons, bankCount_cons, hb]
  · have := FragTable.mem_of_find hf
    rw [h.config hc] at this
    cases this

/-- A record leaves the table (R37, R48, R55, R91). -/
theorem TableOk.freeRecord {slot : Nat} {r : Record} (hf : s.ft.find slot = some r) : TableOk (s.freeRecord slot r) := by
  have hold := h.sound.perm_removeSlot hf
  refine h.withTable ((h.sound.freeSlot hf).count) ?_ (List.length_modify _ _ _) (fun k => ?_) (fun hc => ?_) rfl rfl
  · rw [State.freeRecord_ft, FragTable.freeSlot_live, FragTable.freeSlot_freeList, ← List.append_assoc]
    have hfront : ((removeSlot s.ft.live slot).map (·.slot) ++ s.ft.freeList ++ [slot]).Perm
        (slot :: ((removeSlot s.ft.live slot).map (·.slot) ++ s.ft.freeList)) := List.perm_append_singleton _ _
    exact hfront.trans ((hold.map Live.slot).append_right s.ft.freeList).symm
  · have hr := h.refs_eq r.bank
    have hk := h.refs_eq k
    rw [bankCount_perm hold, bankCount_cons] at hr hk
    rw [State.freeRecord_banks, State.freeRecord_ft, FragTable.freeSlot_live, PerBank.get_set]
    split
    · next e =>
      subst e
      rw [if_pos rfl] at hr
      omega
    · next e =>
      rw [if_neg (Ne.symm e)] at hk
      exact hk
  · have := FragTable.mem_of_find hf
    rw [h.config hc] at this
    cases this

/-- A record joins the table, outside CONFIG (R37, R45, R46, R91). -/
theorem TableOk.withNew {slot : Nat} {rest : List Nat} {r : Record} (hm : s.lc.mode ≠ .config)
    (hfree : s.ft.freeList = slot :: rest) (hb : r.bank = s.banks.active) : TableOk (s.withNew slot rest r) := by
  have hnew := insertLive_perm ⟨slot, r⟩ s.ft.live
  refine h.withTable ?_ ?_ rfl (fun k => ?_) (fun hc => absurd hc hm) rfl rfl
  · exact (congrArg (· + 1) h.count).trans (length_insertLive _ _).symm
  · rw [hfree]
    exact ((hnew.map (·.slot)).append_right rest).trans List.perm_middle.symm
  · have hold := h.refs_eq
    refine Eq.trans ?_ (bankCount_perm hnew k).symm
    rw [bankCount_cons]
    change (s.banks.refs.set s.banks.active (s.banks.refs.get s.banks.active + 1)).get k =
      bankCount s.ft.live k + if r.bank = k then 1 else 0
    rw [PerBank.get_set, hb]
    split
    · next e => rw [if_pos e.symm, e, hold]
    · next e => rw [if_neg (Ne.symm e), hold, Nat.add_zero]

theorem TableOk.completeDrain (h0 : s.ft.liveCount = 0) : TableOk s.completeDrain :=
  h.withTable h.count (.refl _) rfl h.refs (fun _ => List.length_eq_zero_iff.1 (h.count.symm.trans h0)) rfl rfl

theorem TableOk.drainIfEmpty : TableOk s.drainIfEmpty := State.drainIfEmpty_keeps h fun _ h0 => h.completeDrain h0

theorem TableOk.retire (slot : Nat) (o : RecOutcome) : TableOk (s.retire slot o) := by
  rcases s.retire_cases slot o with ⟨_, e⟩ | ⟨r, hf, e⟩ <;> rw [e]
  · exact h
  · refine TableOk.drainIfEmpty ?_
    exact (h.freeRecord hf).congr rfl rfl rfl rfl id

theorem TableOk.absorb (slot : Nat) : TableOk (s.absorb slot) := by
  rcases s.absorb_cases slot with ⟨_, e⟩ | ⟨r, hf, e⟩ <;> rw [e]
  · exact h
  · exact h.freeRecord hf

/-- A RESET request frees every record (R57, R153). -/
theorem TableOk.afterReset : TableOk s.afterReset where
  count := rfl
  slots := (List.perm_append_comm : (s.ft.freeList ++ s.ft.live.map (·.slot)).Perm _).trans h.slots
  gens := by
    have hlen : ∀ (live : List Live) (gens : List Byte),
        (live.foldl (fun g l => g.modify l.slot fun x => x + 1) gens).length = gens.length := by
      intro live
      induction live with
      | nil => exact fun _ => rfl
      | cons l ls ih => exact fun gens => (ih _).trans (List.length_modify _ _ _)
    exact (hlen _ _).trans h.gens
  refs k := by cases k <;> rfl
  config _ := rfl
  switch _ hw := nomatch hw

end

/-! ### Arming -/

/-- The record of an arming: its new state, with the LATE_FIRE flag where the arming was late (R104, R108). -/
def Record.armedAs (st : RecState) (late : Bool) (r : Record) : Record :=
  { r with st, flags := { r.flags with lateFire := r.flags.lateFire || late } }

/-- What an arming for a bar can make of a record (R104, R110 to R113): ARMED with the window of 7.3, or PASSING with
SUPPRESSED, DROPPED or MASKED. -/
def State.ArmsTo (s : State) (r : Record) (v : Verdict) (b : Bar) (st : RecState) : Prop :=
  (∃ sch, st = .armed v sch ∧ sch.bar = b ∧ sch.fireOff = fireOffOf (s.bar b).settings s.bpu.V s.bpu.T r) ∨
  ∃ o, st = .passing v (.bar b) o ∧ (o = .suppressed ∨ o = .dropped ∨ o = .masked)

/-- An event at one record that otherwise touches bars and notices alone: mode and tallies stay. -/
def State.ArmMove (s t : State) (slot : Nat) (f : Record → Record) : Prop :=
  ∃ bars lc, t = { s with ft := s.ft.modRecord slot f, bars, lc } ∧ lc.mode = s.lc.mode ∧ lc.tallies = s.lc.tallies

theorem State.reportWatch_eq (s : State) (b : Bar) (slot : Nat) (set : List Nat) :
    ∃ lc, s.reportWatch b slot set = { s with lc } ∧ lc.mode = s.lc.mode ∧ lc.tallies = s.lc.tallies := by
  unfold State.reportWatch
  split
  · exact ⟨_, rfl, by simp, by simp⟩
  · exact ⟨_, rfl, rfl, rfl⟩

theorem State.reportLate_armMove (s : State) (b : Bar) (slot : Nat) (late : Bool) :
    s.ArmMove (s.reportLate b slot late) slot fun x => x.armedAs x.st late := by
  cases late
  · refine ⟨s.bars, s.lc, ?_, rfl, rfl⟩
    have hid : (fun x : Record => x.armedAs x.st false) = id := by
      funext x
      simp [Record.armedAs]
    rw [hid, FragTable.modRecord_id]
    rfl
  · have hlate : (fun x : Record => x.armedAs x.st true) =
        fun x => { x with flags := { x.flags with lateFire := true } } := by
      funext x
      simp [Record.armedAs]
    rw [hlate]
    exact ⟨_, _, rfl, by simp, by simp⟩

/-- The guard, the capacity and the commit (R110 to R113). -/
theorem State.guardAndCommit_armMove (s : State) (slot : Nat) (r : Record) (v : Verdict) (sch : Schedule) (set : List Nat) :
    ∃ st, s.ArmMove (s.guardAndCommit slot r v sch set) slot (fun x => { x with st }) ∧
      (st = .armed v sch ∨ st = .passing v (.bar sch.bar) .suppressed ∨ st = .passing v (.bar sch.bar) .dropped) := by
  unfold State.guardAndCommit
  split
  · exact ⟨_, ⟨_, _, rfl, rfl, rfl⟩, .inr (.inl rfl)⟩
  · split
    · exact ⟨_, ⟨_, (s.raise .valveFull (.bar sch.bar) (some (s.ft.handle slot))).lc, rfl, by simp, by simp⟩,
        .inr (.inr rfl)⟩
    · exact ⟨_, ⟨_, _, rfl, rfl, rfl⟩, .inl rfl⟩

theorem State.pass_armMove (s : State) (slot : Nat) (v : Verdict) (b : Bar) (o : RecOutcome) :
    s.ArmMove (s.pass slot v b o) slot fun x => x.armedAs (.passing v (.bar b) o) false := by
  have hst : (fun x : Record => x.armedAs (.passing v (.bar b) o) false) = fun x => { x with st := .passing v (.bar b) o } := by
    funext x
    simp [Record.armedAs]
  rw [hst]
  exact ⟨_, _, rfl, rfl, rfl⟩

/-- All that an arming does to the table, the mode and the tallies (R104). -/
theorem State.arm_armMove (s : State) (slot : Nat) (r : Record) (v : Verdict) (b : Bar) :
    ∃ st late, s.ArmMove (s.arm slot r v b) slot (Record.armedAs st late) ∧ s.ArmsTo r v b st := by
  have hpass : ∀ o, o = .suppressed ∨ o = .dropped ∨ o = .masked →
      ∃ st late, s.ArmMove (s.pass slot v b o) slot (Record.armedAs st late) ∧ s.ArmsTo r v b st := fun o ho =>
    ⟨_, _, s.pass_armMove slot v b o, .inr ⟨o, rfl, ho⟩⟩
  unfold State.arm
  dsimp only
  split
  · exact hpass .dropped (by simp)
  · split
    · exact hpass .dropped (by simp)
    · split
      · exact hpass .masked (by simp)
      · set sch : Schedule :=
          { bar := b
            fireOn := fireOnOf (s.bar b).settings s.bpu.V s.bpu.T r
            fireOff := fireOffOf (s.bar b).settings s.bpu.V s.bpu.T r
            firstNozzle := (committedSet (s.bar b) r).headD 0
            lastNozzle := (committedSet (s.bar b) r).getLastD 0 }
        obtain ⟨lc, hwatch, hmode, htallies⟩ := s.reportWatch_eq b slot (committedSet (s.bar b) r)
        rw [hwatch]
        obtain ⟨bars', lc', hlate, hmode', htallies'⟩ := State.reportLate_armMove { s with lc } b slot
          (isLate (s.bar b).settings s.bpu.V s.bpu.T r)
        rw [hlate]
        obtain ⟨st, ⟨bars'', lc'', hguard, hmode'', htallies''⟩, hst⟩ := State.guardAndCommit_armMove
          { s with
            ft := s.ft.modRecord slot fun x => x.armedAs x.st (isLate (s.bar b).settings s.bpu.V s.bpu.T r)
            bars := bars', lc := lc' } slot r v sch (committedSet (s.bar b) r)
        refine ⟨st, isLate (s.bar b).settings s.bpu.V s.bpu.T r, ⟨bars'', lc'', ?_, ?_, ?_⟩, ?_⟩
        · rw [hguard]
          dsimp only
          rw [FragTable.modRecord_modRecord]
          rfl
        · exact hmode''.trans (hmode'.trans hmode)
        · exact htallies''.trans (htallies'.trans htallies)
        · rcases hst with e | e | e
          · exact .inl ⟨sch, e, rfl, rfl⟩
          · exact .inr ⟨_, e, .inl rfl⟩
          · exact .inr ⟨_, e, .inr (.inl rfl)⟩

/-! ### The events of a record -/

section
variable {s : State} (h : TableOk s)
include h

theorem TableOk.arm (slot : Nat) (r : Record) (v : Verdict) (b : Bar) : TableOk (s.arm slot r v b) := by
  obtain ⟨st, late, ⟨bars, lc, e, hmode, -⟩, -⟩ := s.arm_armMove slot r v b
  rw [e]
  exact (h.modRecord (slot := slot) (f := Record.armedAs st late) fun _ => rfl).congr rfl rfl rfl rfl
    fun hc => hmode.symm.trans hc

theorem TableOk.takePoint (slot : Nat) (r : Record) : TableOk (s.takePoint slot r) := by
  rcases s.takePoint_cases slot r with ⟨_, e⟩ | ⟨v, d, _, e⟩ | ⟨v, b, _, e⟩ | ⟨v, sch, _, e⟩ | ⟨v, d, o, _, e⟩ <;> rw [e]
  · exact h.modRecord fun _ => rfl
  · exact h.setRecState _ _
  · exact h.arm _ _ _ _
  · exact TableOk.retire (h.quiet (s.setBar_quiet (by rfl))) slot .fired
  · exact h.retire _ _

theorem TableOk.takeOverdue (slot : Nat) : TableOk (s.takeOverdue slot) :=
  State.takeOverdue_keeps (P := TableOk) (fun _ j r _ _ hu => hu.takePoint j r) s slot h

theorem TableOk.switchIfReached : TableOk s.switchIfReached := by
  rcases s.switchIfReached_cases with ⟨_, e⟩ | ⟨w, _, _, e⟩ <;> rw [e]
  · exact h
  · exact ⟨h.count, h.slots, h.gens, h.refs, fun hc => h.config (by simpa using hc), nofun⟩

theorem TableOk.setOverride (slot : Nat) (d : Dest) : TableOk (s.setOverride slot d) :=
  h.modRecord fun r => by
    dsimp only
    split <;> rfl

/-! ### The Association Engine -/

theorem TableOk.makeRecord (hm : s.lc.mode ≠ .config) (d : Detection) (clipped : Bool) :
    TableOk (s.makeRecord d clipped) := by
  unfold State.makeRecord
  cases hfree : s.ft.freeList with
  | nil =>
    rw [State.create_nil hfree]
    exact h.quiet (.raise (.refl s) _ _ _)
  | cons slot rest =>
    rw [State.create_cons hfree]
    exact ((h.withNew hm hfree rfl).takeOverdue slot).quiet (State.settle_quiet _)

theorem TableOk.noCandidate (d : Detection) (clipped frozen : Bool) : TableOk (s.noCandidate d clipped frozen) := by
  unfold State.noCandidate
  split
  · exact h.quiet (s.setPort_raise_quiet (by rfl) (by rfl) _)
  · split
    · next hm => exact h.makeRecord (by rw [hm]; decide) d clipped
    · exact h

/-- The end of a treatment at a record (R72). -/
theorem TableOk.complete (slot : Nat) (redecide : Bool) : TableOk (s.complete slot redecide) := by
  have hdecided : TableOk (if redecide then s.modRecord slot (decideRecord s) else s) := by
    split
    · exact h.modRecord fun _ => rfl
    · exact h
  exact (hdecided.takeOverdue slot).quiet (State.settle_quiet _)

theorem TableOk.giveTo {c : Live} (hc : c ∈ s.ft.live) (d : Detection) (clipped frozen : Bool) :
    TableOk (s.giveTo d clipped frozen c) := by
  unfold State.giveTo
  split
  · exact (h.placeRecord (h.sound.find hc) (by rfl)).complete _ _
  · exact h.noCandidate d clipped frozen

end

/-- Of several candidates the one chosen is one of them (R71). -/
theorem bestOf_mem (tr : Tracking) (d : Detection) (c : Live) (cs : List Live) : bestOf tr d c cs ∈ c :: cs := by
  induction cs generalizing c with
  | nil => exact List.mem_singleton_self c
  | cons x xs ih =>
    unfold bestOf
    split
    · exact List.mem_cons_of_mem _ (ih x)
    · have := ih c
      simp only [List.mem_cons] at this ⊢
      tauto

/-- The candidates are live records, no two of one slot (R64). -/
theorem TableOk.candidates {s : State} (h : TableOk s) {d : Detection} {c : Live} {cs : List Live}
    (hc : s.candidates d = c :: cs) :
    (∀ l ∈ c :: cs, l ∈ s.ft.live ∧ l.record.st.takesEvidence = true) ∧ ∀ l ∈ cs, l.slot ≠ c.slot := by
  have hsub : (c :: cs).Sublist s.ft.live := by
    rw [← hc]
    exact List.filter_sublist.trans List.filter_sublist
  have hnodup : (((c :: cs)).map (·.slot)).Nodup := h.sound.nodup.sublist (hsub.map _)
  refine ⟨fun l hl => ⟨hsub.subset hl, ?_⟩, fun l hl e => ?_⟩
  · rw [← hc] at hl
    exact (List.mem_filter.1 hl).2
  · exact (List.nodup_cons.1 hnodup).1 (List.mem_map.2 ⟨l, hl, e⟩)

/-- The absorption of other records leaves a record live (R55). -/
theorem State.absorbPart_other {s : State} {l : Live} (hl : l ∈ s.ft.live) {x : AdvancePart} (hx : x ≠ .point l.slot) :
    l ∈ (s.absorbPart x).ft.live := by
  cases x with
  | silence p => exact hl
  | point slot =>
    change l ∈ (s.absorb slot).ft.live
    rcases s.absorb_cases slot with ⟨_, e⟩ | ⟨r, _, e⟩ <;> rw [e]
    · exact hl
    · exact (mem_removeSlot _ _ _).2 ⟨hl, fun e => hx (congrArg AdvancePart.point e.symm)⟩

/-- The state of a merge once the other candidates are absorbed (R55, R70). -/
def State.absorbed (s : State) (cs : List Live) : State :=
  (orderParts s.draws (cs.map fun l => .point l.slot)).foldl State.absorbPart { s with draws := s.draws + 1 }

theorem State.merge_eq (s : State) (d : Detection) (clipped : Bool) (c : Live) (cs : List Live) :
    s.merge d clipped c cs =
      State.complete { s.absorbed cs with ft := (s.absorbed cs).ft.placeRecord c.slot (merged d clipped c cs) } c.slot
        ((c :: cs).any fun l => l.record.st.isDecided) := rfl

section
variable {s : State} (h : TableOk s)
include h

/-- The absorption of records keeps the agreement and leaves the survivor of the merge live (R55). -/
theorem TableOk.absorbed {c : Live} {cs : List Live} (hc : c ∈ s.ft.live) (hne : ∀ l ∈ cs, l.slot ≠ c.slot) :
    TableOk (s.absorbed cs) ∧ c ∈ (s.absorbed cs).ft.live := by
  refine foldl_keeps (P := fun u => TableOk u ∧ c ∈ u.ft.live) (fun u x hx hu => ?_)
    ⟨h.quiet (s.draws_quiet _), hc⟩
  obtain ⟨l, hl, rfl⟩ := List.mem_map.1 (mem_orderParts.1 hx)
  refine ⟨hu.1.absorb l.slot, State.absorbPart_other hu.2 fun e => hne l hl ?_⟩
  injection e

theorem TableOk.merge {d : Detection} {c : Live} {cs : List Live} (hc : s.candidates d = c :: cs) (clipped : Bool) :
    TableOk (s.merge d clipped c cs) := by
  obtain ⟨hlive, hne⟩ := h.candidates hc
  obtain ⟨hok, hmem⟩ := h.absorbed (hlive c List.mem_cons_self).1 hne
  rw [State.merge_eq]
  exact (hok.placeRecord (hok.sound.find hmem) (by rfl)).complete _ _

theorem TableOk.treat (d : Detection) : TableOk (s.treat d) := by
  unfold State.treat
  split
  · exact h.quiet (s.setPort_quiet rfl rfl)
  · unfold State.matchAndTreat
    dsimp only
    split
    · exact h.noCandidate _ _ _
    · next c hc => exact h.giveTo ((h.candidates hc).1 c List.mem_cons_self).1 _ _ _
    · next c cs _ hc =>
      split
      · exact h.merge hc _
      · exact h.giveTo ((h.candidates hc).1 _ (bestOf_mem _ _ c cs)).1 _ _ _

theorem TableOk.take (p : Station) : TableOk (s.take p) := by
  unfold State.take
  split
  · exact h
  · have htaken := (h.quiet (s.setPort_quiet (p := p) (x := (s.port p).removeHead) rfl rfl)).congr
      (t := { s.setPort p (s.port p).removeHead with ae := { pointer := nextStation p, free := false } })
      rfl rfl rfl rfl id
    exact (htaken.treat _).congr rfl rfl rfl rfl id

/-! ### Requests -/

theorem TableOk.insertOp (r : InsertRequest) : TableOk (insertOp r s).1 := by
  unfold Machine.insertOp
  split
  · exact h
  · next hm =>
    split
    · exact h
    · split
      · exact h
      · split
        · exact h
        · next d _ _ _ =>
          cases hfree : s.ft.freeList with
          | nil =>
            rw [State.create_nil hfree]
            exact h
          | cons slot rest =>
            rw [State.create_cons hfree]
            have hrun : s.lc.mode ≠ .config := by rw [not_not.1 hm]; decide
            exact (h.withNew hrun hfree (r := { insertedRecord r d with bank := s.banks.active }) rfl).modRecord fun _ => rfl

theorem TableOk.switchBankOp (target : Byte) (c : Pos) : TableOk (switchBankOp target c s).1 := by
  unfold Machine.switchBankOp
  split
  · exact h
  · split
    · exact h
    · next k _ =>
      split
      · exact h
      · next hk =>
        split
        · exact h
        · next hsw =>
          split
          · exact ⟨h.count, h.slots, h.gens, h.refs, h.config, fun w hw => absurd (Option.isSome_of_eq_some hw) hsw⟩
          · split
            · exact ⟨h.count, h.slots, h.gens, h.refs, h.config, fun w hw => by cases hw; exact hk⟩
            · exact h

/-- Another mode that is not CONFIG. -/
theorem TableOk.withMode {m : Mode} (hm : m ≠ .config) : TableOk { s with lc := { s.lc with mode := m } } :=
  h.congr rfl rfl rfl rfl fun hc => absurd hc hm

theorem TableOk.startOp : TableOk (startOp s).1 := by
  have hrun : TableOk (s.withMode .run) :=
    (h.withMode (m := .run) (by decide)).quiet (State.settleFrom_quiet _ s)
  unfold Machine.startOp
  split
  · exact h
  · exact h
  · exact hrun
  · split
    · exact h
    · split
      · exact hrun
      · exact h

theorem TableOk.stopOp : TableOk (stopOp s).1 := by
  unfold Machine.stopOp
  split
  · exact h
  · exact (h.withMode (m := .draining) (by decide)).drainIfEmpty.quiet (State.settleFrom_quiet _ s)
  · exact h
  · exact h

end

/-- The agreement of table and reference counts is kept by every event but a take of the engine. -/
theorem TableOk.keptByEvents : KeptByEvents TableOk where
  quiet _ _ q h := h.quiet q
  point _ slot r _ _ h := h.takePoint slot r
  drop _ slot _ _ _ _ _ h := h.setRecState slot _
  retire _ slot o h := h.retire slot o
  switched _ h := h.switchIfReached
  settings _ _ hm hlc hft hbanks _ h :=
    h.congr hft (by rw [hbanks]) (by rw [hbanks]) (by rw [hbanks]) fun _ => hm
  release levels faultLines := TableOk.atRelease levels faultLines
  override _ slot d h := h.setOverride slot d
  insert _ r h := h.insertOp r
  switchBank _ target c h := h.switchBankOp target c
  start _ h := h.startOp
  stop _ h := h.stopOp
  reset _ h := h.afterReset

theorem TableOk.exec {c : Instr} {s t : State} (h : TableOk s) (he : Machine.exec c s = .next t) : TableOk t :=
  TableOk.keptByEvents.exec h (fun p _ => h.take p) he

/-- Settles O56: every event of a record moves its slot, its bank's count and the live count together. -/
theorem step_keeps_the_table_in_order : Obligations.Step_keeps_the_table_in_order := fun _ _ h hs =>
  step_keeps (fun _ _ _ hu he => hu.exec he) (fun _ hu => TableOk.keptByEvents.tick hu)
    (fun _ _ hu => hu.congr rfl rfl rfl rfl id) (fun _ _ hu => hu.congr rfl rfl rfl rfl id) h hs

end Sys2Proof.Machine
end

