-- ==== Sys2Proof/Proofs/RecordsInBounds.lean ====
section
/-! SUPPORT. Every live record in bounds, and the geometry behind its points, under every event and every step; settles O57. -/

namespace Sys2Proof.Machine

/-! ### Verdicts (R79, R80) -/

theorem foldl_max_mem (xs : List Nat) (a : Nat) : xs.foldl max a = a ∨ xs.foldl max a ∈ xs := by
  induction xs generalizing a with
  | nil => exact .inl rfl
  | cons x xs ih =>
    rw [List.foldl_cons]
    rcases ih (max a x) with e | hmem
    · rw [e]
      rcases max_choice a x with hm | hm <;> simp [hm]
    · exact .inr (List.mem_cons_of_mem _ hmem)

/-- The material chosen is one of those scored (R79, R80). -/
theorem chosenMaterial_lt (k : BankData) {xs : List Nat} (hxs : 0 < xs.length) : chosenMaterial k xs < xs.length := by
  unfold chosenMaterial
  split
  · exact hxs
  · next h => exact List.idxOf_lt_length_iff.2 ((foldl_max_mem xs 0).resolve_left fun e => h (.inl e))

theorem scores_length (k : BankData) (ev : PerStation (Option Entry)) : (scores k ev).length = 16 := by
  rw [scores, List.length_map, List.length_range]

/-- The material of a verdict is one of the sixteen, and its margin is within its top score (R79, R80). -/
theorem verdictOf_bounds (k : BankData) (ev : PerStation (Option Entry)) :
    (verdictOf k ev).material ≤ 15 ∧ (verdictOf k ev).margin ≤ (verdictOf k ev).top := by
  have hlen := scores_length k ev
  have hlt := chosenMaterial_lt k (xs := scores k ev) (by omega)
  rw [hlen] at hlt
  simp only [verdictOf, marginOf]
  exact ⟨Nat.le_of_lt_succ hlt, Nat.sub_le _ _⟩

theorem decideRecord_st (s : State) (r : Record) :
    ∃ d, (decideRecord s r).st = .decided (verdictOf (s.banks.data.get r.bank) r.evidence) d := ⟨_, rfl⟩

/-! ### One record -/

section
variable {tr : Tracking} {r : Record}

/-- A decided record is in order where its extents and lanes are (R76). -/
theorem decideRecord_ok (s : State) (hlen : stepsTo r.X r.Xt ≤ tr.lMax) (hlanes : r.first ≤ r.last ∧ r.last ≤ 159) :
    RecordOk tr (decideRecord s r) where
  length := hlen
  lanes := hlanes
  opened ho := by
    obtain ⟨d, hst⟩ := decideRecord_st s r
    cases hst.symm.trans ho
  passing v d o hp := by
    obtain ⟨d, hst⟩ := decideRecord_st s r
    cases hst.symm.trans hp
  verdict v hv := by
    obtain ⟨d, hst⟩ := decideRecord_st s r
    rw [hst] at hv
    exact Option.some.inj hv ▸ verdictOf_bounds _ _

variable (h : RecordOk tr r)
include h

theorem RecordOk.decide (s : State) : RecordOk tr (decideRecord s r) := decideRecord_ok s h.length h.lanes

/-- Another state with its verdict in bounds, and a pending outcome that suits its destination; the flags of a decision
stay (R44, R53). -/
theorem RecordOk.withState {st : RecState} (hst : st ≠ .opened)
    (hpassing : ∀ v d o, st = .passing v d o →
      (o = .passed ∨ o = .suppressed ∨ o = .dropped ∨ o = .masked) ∧ (o = .passed ↔ d = .pass))
    (hverdict : ∀ v, st.verdict = some v → v.material ≤ 15 ∧ v.margin ≤ v.top) (late : Bool) :
    RecordOk tr (r.armedAs st late) :=
  ⟨h.length, h.lanes, fun ho => absurd ho hst, hpassing, hverdict⟩

end

/-- The states of the freeze (R50). -/
theorem RecordOk.freeze {tr : Tracking} {r : Record} (h : RecordOk tr r) {v : Verdict}
    (hv : v.material ≤ 15 ∧ v.margin ≤ v.top) (d : Dest) : RecordOk tr { r with st := freezeState v d } := by
  cases d with
  | pass =>
    exact ⟨h.length, h.lanes, nofun, fun _ _ _ e => by cases e; simp, fun _ e => by cases e; exact hv⟩
  | bar b => exact ⟨h.length, h.lanes, nofun, nofun, fun _ e => by cases e; exact hv⟩

/-- A record dropped by the fault of its bar (R52). -/
theorem RecordOk.drop {tr : Tracking} {r : Record} (h : RecordOk tr r) {v : Verdict}
    (hv : v.material ≤ 15 ∧ v.margin ≤ v.top) (b : Bar) :
    RecordOk tr { r with st := .passing v (.bar b) .dropped } :=
  ⟨h.length, h.lanes, nofun, fun _ _ _ e => by cases e; simp, fun _ e => by cases e; exact hv⟩

/-- The states of an arming (R104, R110 to R113). -/
theorem RecordOk.arm {tr : Tracking} {r x : Record} (h : RecordOk tr r) {s : State} {v : Verdict}
    (hv : v.material ≤ 15 ∧ v.margin ≤ v.top) {b : Bar} {st : RecState} (hst : s.ArmsTo x v b st) (late : Bool) :
    RecordOk tr (r.armedAs st late) := by
  rcases hst with ⟨sch, rfl, -⟩ | ⟨o, rfl, ho⟩
  · exact h.withState (st := .armed v sch) nofun nofun (fun _ e => Option.some.inj e ▸ hv) late
  · refine h.withState (st := .passing v (.bar b) o) nofun (fun _ _ _ e => ?_) (fun _ e => Option.some.inj e ▸ hv) late
    cases e
    rcases ho with rfl | rfl | rfl <;> simp

/-! ### What the bounds depend on -/

theorem State.SamePoints.geometryOk {s t : State} (h : s.SamePoints t) : t.geometryOk = s.geometryOk := by
  have hbars : t.enabledBars = s.enabledBars := by simp only [State.enabledBars, h.settings]
  simp only [State.geometryOk, h.lowBar, hbars, h.settings, fun p => (h.port p).1, fun p => (h.port p).2, h.dMax, h.tracking]

section
variable {s t : State} (h : RecordsOk s)
include h

/-- An event that moves no point and enters no other mode from CONFIG. -/
theorem RecordsOk.of_points (hp : s.SamePoints t) (hm : s.lc.mode = .config → t.lc.mode = .config)
    (hlive : ∀ l ∈ t.ft.live, RecordOk s.tracking l.record) : RecordsOk t where
  lMax := hp.tracking ▸ h.lMax
  live l hl := hp.tracking ▸ hlive l hl
  geometry hc := hp.geometryOk.trans (h.geometry fun e => hc (hm e))

theorem RecordsOk.quiet (q : s.Quiet t) : RecordsOk t := h.of_points q.points q.mode.2 (q.ft ▸ h.live)

/-- The events of records move no point. -/
theorem RecordsOk.move (k : s.PartMove t) (hlive : ∀ l ∈ t.ft.live, RecordOk s.tracking l.record) : RecordsOk t := by
  refine h.of_points k.samePoints (fun hc => ?_) hlive
  rcases k.line with ⟨-, e⟩ | ⟨-, e⟩
  · exact e.trans hc
  · exact e

end

section
variable {s : State} (h : RecordsOk s)
include h

/-! ### The operations on the table -/

/-- A change of one record that keeps it in order. -/
theorem RecordsOk.changed {slot : Nat} {f : Record → Record} {t : State} (k : s.PartMove t)
    (hft : t.ft = s.ft.modRecord slot f) (hf : ∀ r, RecordOk s.tracking r → RecordOk s.tracking (f r)) : RecordsOk t := by
  refine h.move k fun l hl => ?_
  rw [hft] at hl
  rcases FragTable.mem_modRecord.1 hl with ⟨hl, -⟩ | ⟨-, r, hr, e⟩
  · exact h.live l hl
  · exact e ▸ hf r (h.live _ hr)

theorem RecordsOk.modRecord {slot : Nat} {f : Record → Record}
    (hf : ∀ r, RecordOk s.tracking r → RecordOk s.tracking (f r)) : RecordsOk (s.modRecord slot f) :=
  h.changed (s.modRecord_partMove slot f) rfl hf

theorem RecordsOk.retire (slot : Nat) (o : RecOutcome) : RecordsOk (s.retire slot o) := by
  refine h.move (s.retire_partMove slot o) fun l hl => h.live l ?_
  cases hf : s.ft.find slot with
  | none =>
    rcases s.retire_cases slot o with ⟨-, e⟩ | ⟨r, hr, -⟩
    · rwa [e] at hl
    · rw [hf] at hr
      cases hr
  | some r =>
    rw [(State.retire_frees hf o).1] at hl
    exact ((mem_removeSlot _ _ _).1 hl).1

theorem RecordsOk.absorbPart (x : AdvancePart) : RecordsOk (s.absorbPart x) := by
  refine h.move (s.absorbPart_partMove x) fun l hl => h.live l ?_
  cases x with
  | silence p => exact hl
  | point slot =>
    change l ∈ (s.absorb slot).ft.live at hl
    rcases s.absorb_cases slot with ⟨_, e⟩ | ⟨r, _, e⟩ <;> rw [e] at hl
    · exact hl
    · exact ((mem_removeSlot _ _ _).1 hl).1

theorem RecordsOk.withNew {slot : Nat} {rest : List Nat} {r : Record} (hr : RecordOk s.tracking r) :
    RecordsOk (s.withNew slot rest r) := by
  refine h.of_points (.of_eq rfl rfl rfl) id fun l hl => ?_
  rcases (mem_insertLive _ _ _).1 hl with rfl | hl
  · exact hr
  · exact h.live l hl

/-! ### The events of a record -/

theorem RecordsOk.takePoint {slot : Nat} {r : Record} (hf : s.ft.find slot = some r) : RecordsOk (s.takePoint slot r) := by
  have hr : RecordOk s.tracking r := h.live _ (FragTable.mem_of_find hf)
  rcases s.takePoint_cases slot r with ⟨_, e⟩ | ⟨v, d, hst, e⟩ | ⟨v, b, hst, e⟩ | ⟨v, sch, _, e⟩ | ⟨v, d, o, _, e⟩ <;> rw [e]
  · exact h.modRecord fun _ hx => hx.decide s
  · exact h.modRecord fun _ hx => hx.freeze (hr.verdict v (by rw [hst]; rfl)) d
  · obtain ⟨st, late, ⟨bars, lc, harm, -, -⟩, hto⟩ := s.arm_armMove slot r v b
    exact h.changed (s.arm_partMove slot r v b) (by rw [harm]) fun _ hx => hx.arm (hr.verdict v (by rw [hst]; rfl)) hto late
  · exact RecordsOk.retire (h.quiet (s.setBar_quiet (by rfl))) slot .fired
  · exact h.retire slot o

theorem RecordsOk.takeOverdue (slot : Nat) : RecordsOk (s.takeOverdue slot) :=
  State.takeOverdue_keeps (P := RecordsOk) (fun _ _ _ hf _ hu => hu.takePoint hf) s slot h

theorem RecordsOk.drop {slot : Nat} {r : Record} {v : Verdict} {sch : Schedule} (hf : s.ft.find slot = some r)
    (hst : r.st = .armed v sch) : RecordsOk (s.setRecState slot (.passing v (.bar sch.bar) .dropped)) := by
  have hr : RecordOk s.tracking r := h.live _ (FragTable.mem_of_find hf)
  exact h.modRecord fun _ hx => hx.drop (hr.verdict v (by rw [hst]; rfl)) sch.bar

theorem RecordsOk.switchIfReached : RecordsOk s.switchIfReached := by
  rcases s.switchIfReached_cases with ⟨_, e⟩ | ⟨w, _, _, e⟩ <;> rw [e]
  · exact h
  · exact h.of_points (.of_eq rfl rfl rfl) (fun hc => by simpa using hc) h.live

theorem RecordsOk.setOverride (slot : Nat) (d : Dest) : RecordsOk (s.setOverride slot d) := by
  refine h.modRecord fun r hr => ?_
  have hovr : RecordOk s.tracking { r with ovr := some d } := ⟨hr.length, hr.lanes, hr.opened, hr.passing, hr.verdict⟩
  dsimp only
  split
  · exact hovr.decide s
  · exact hovr

/-! ### Requests -/

theorem RecordsOk.insertOp (r : InsertRequest) : RecordsOk (insertOp r s).1 := by
  unfold Machine.insertOp
  split
  · exact h
  · split
    · exact h
    · split
      · exact h
      · split
        · exact h
        · next d _ hbad _ =>
          simp only [State.insertBad, Bool.or_eq_true, Bool.not_eq_true', decide_eq_true_eq, not_or, not_lt,
            Bool.not_eq_false, lanesOk_iff] at hbad
          obtain ⟨⟨⟨-, hlen⟩, hlanes⟩, -⟩ := hbad
          cases hfree : s.ft.freeList with
          | nil =>
            rw [State.create_nil hfree]
            exact h
          | cons slot rest =>
            rw [State.create_cons hfree]
            refine RecordsOk.modRecord (h.withNew (r := { insertedRecord r d with bank := s.banks.active }) ?_)
              fun _ hx => hx.decide _
            exact ⟨hlen, hlanes, fun _ => ⟨rfl, rfl, rfl⟩, nofun, nofun⟩

theorem RecordsOk.switchBankOp (target : Byte) (c : Pos) : RecordsOk (switchBankOp target c s).1 := by
  unfold Machine.switchBankOp
  repeat' split
  all_goals exact h.of_points (.of_eq rfl rfl rfl) id h.live

/-- Another mode, the geometry check passed (R148, R149). -/
theorem RecordsOk.withMode {m : Mode} (hg : s.geometryOk = true) : RecordsOk { s with lc := { s.lc with mode := m } } :=
  ⟨h.lMax, h.live, fun _ => hg⟩

/-- START leaves CONFIG with the geometry check passed alone (R148, R149). -/
theorem RecordsOk.startOp : RecordsOk (startOp s).1 := by
  have hrun : s.geometryOk = true → RecordsOk (s.withMode .run) := fun hg =>
    (h.withMode (m := .run) hg).quiet (State.settleFrom_quiet _ s)
  unfold Machine.startOp
  split
  · exact h
  · exact h
  · next hm => exact hrun (h.geometry (by rw [hm]; decide))
  · split
    · exact h
    · split
      · next hg => exact hrun hg
      · exact h

theorem RecordsOk.drainIfEmpty : RecordsOk s.drainIfEmpty := by
  refine h.move s.drainIfEmpty_partMove fun l hl => h.live l ?_
  rcases s.drainIfEmpty_cases with ⟨_, _, e⟩ | ⟨_, e⟩ <;> rw [e] at hl <;> exact hl

theorem RecordsOk.stopOp : RecordsOk (stopOp s).1 := by
  unfold Machine.stopOp
  split
  · exact h
  · next hm =>
    have hdraining : RecordsOk { s with lc := { s.lc with mode := .draining } } :=
      h.withMode (h.geometry (by rw [hm]; decide))
    exact hdraining.drainIfEmpty.quiet (State.settleFrom_quiet _ s)
  · exact h
  · exact h

theorem RecordsOk.afterReset : RecordsOk s.afterReset where
  lMax := h.lMax
  live l hl := nomatch (show l ∈ [] from hl)
  geometry hc := absurd (show s.lc.afterReset.mode = .config from rfl) hc

end

/-- Settings written in CONFIG, where no record is live (R33, R56, R99). -/
theorem RecordsOk.settings {s t : State} (h : RecordsOk s) (htable : TableOk s) (hm : s.lc.mode = .config)
    (hlc : t.lc = s.lc) (hft : t.ft = s.ft)
    (htr : t.tracking = s.tracking ∨ 64 ≤ t.tracking.lMax ∧ t.tracking.lMax ≤ 4095) : RecordsOk t where
  lMax := htr.elim (fun e => e ▸ h.lMax) id
  live l hl := by
    rw [hft, htable.config hm] at hl
    cases hl
  geometry hc := absurd (hlc ▸ hm) hc

/-! ### The Association Engine -/

/-- A detection clipped to L_MAX (R62). -/
theorem clip_within {tr : Tracking} (htr : tr.lMax ≤ 4095) (d : Detection) :
    stepsTo (clip tr d).X (clip tr d).Xt ≤ tr.lMax ∧ (clip tr d).first = d.first ∧ (clip tr d).last = d.last := by
  unfold clip needsClip
  split
  · refine ⟨?_, rfl, rfl⟩
    simp only [stepsTo, fwd]
    bv_omega
  · next h => exact ⟨by simpa using h, rfl, rfl⟩

/-- A record made from a detection within bounds (R45, R66). -/
theorem newRecord_ok {tr : Tracking} {d : Detection} (hlen : stepsTo d.X d.Xt ≤ tr.lMax)
    (hlanes : d.first ≤ d.last ∧ d.last ≤ 159) (clipped : Bool) (bank : Bank) :
    RecordOk tr { newRecord d clipped with bank } :=
  ⟨hlen, hlanes, fun _ => ⟨rfl, rfl, rfl⟩, nofun, nofun⟩

/-- A record with a detection attached, their union within L_MAX (R67). -/
theorem RecordOk.attached {tr : Tracking} {r : Record} (h : RecordOk tr r) {d : Detection} (hfits : unionFits tr r d = true)
    (hlanes : d.first ≤ d.last ∧ d.last ≤ 159) (clipped : Bool) : RecordOk tr (attached r d clipped) := by
  obtain ⟨hfirst, hlast⟩ := h.lanes
  exact ⟨of_decide_eq_true hfits,
    ⟨(min_le_left _ _).trans (hfirst.trans (le_max_left _ _)), max_le hlast hlanes.2⟩, h.opened, h.passing, h.verdict⟩

/-- The lanes of a merge (R69): the least first lane and the greatest last lane. -/
theorem foldl_lanes {cs : List Live} (h : ∀ l ∈ cs, l.record.last ≤ 159) {first last : Nat} (hlast : last ≤ 159) :
    cs.foldl (fun n l => min n l.record.first) first ≤ first ∧
    last ≤ cs.foldl (fun n l => max n l.record.last) last ∧
    cs.foldl (fun n l => max n l.record.last) last ≤ 159 := by
  induction cs generalizing first last with
  | nil => exact ⟨le_refl _, le_refl _, hlast⟩
  | cons l ls ih =>
    have hl : l.record.last ≤ 159 := h l List.mem_cons_self
    obtain ⟨hmin, hmax, hbound⟩ := ih (fun x hx => h x (List.mem_cons_of_mem _ hx)) (first := min first l.record.first)
      (max_le hlast hl)
    exact ⟨hmin.trans (min_le_left _ _), (le_max_left _ _).trans hmax, hbound⟩

/-- A flag of a merge is set where one of the records carries it (R70). -/
theorem foldl_union {g : Flags → Bool} (hg : ∀ a b, g (a.union b) = (g a || g b)) (cs : List Live) (f : Flags) :
    g (cs.foldl (fun f l => f.union l.record.flags) f) = (g f || cs.any fun l => g l.record.flags) := by
  induction cs generalizing f with
  | nil => simp
  | cons l ls ih => rw [List.foldl_cons, ih, hg, List.any_cons, Bool.or_assoc]

section
variable {tr : Tracking} {d : Detection} {c : Live} {cs : List Live} (h : ∀ l ∈ c :: cs, RecordOk tr l.record)
include h

/-- The lanes of a merged record are in order (R69). -/
theorem merged_lanes (hlanes : d.first ≤ d.last ∧ d.last ≤ 159) (clipped : Bool) :
    (merged d clipped c cs).first ≤ (merged d clipped c cs).last ∧ (merged d clipped c cs).last ≤ 159 := by
  have hc := (h c List.mem_cons_self).lanes
  obtain ⟨hmin, hmax, hbound⟩ := foldl_lanes (fun l hl => (h l (List.mem_cons_of_mem _ hl)).lanes.2)
    (first := min c.record.first d.first) (max_le hc.2 hlanes.2)
  exact ⟨hmin.trans ((min_le_left _ _).trans (hc.1.trans ((le_max_left _ _).trans hmax))), hbound⟩

/-- A merge of OPEN records shows no flag of a decision (R40, R70). -/
theorem merged_ok (hlen : stepsTo (mergedX d (c :: cs)) (mergedXt d (c :: cs)) ≤ tr.lMax)
    (hlanes : d.first ≤ d.last ∧ d.last ≤ 159) (hopen : ∀ l ∈ c :: cs, l.record.st = .opened) (clipped : Bool) :
    RecordOk tr (merged d clipped c cs) := by
  have hflag : ∀ g : Flags → Bool, (∀ a b, g (a.union b) = (g a || g b)) → (∀ l ∈ c :: cs, g l.record.flags = false) →
      g (cs.foldl (fun f l => f.union l.record.flags) c.record.flags) = false := fun g hg hno => by
    rw [foldl_union hg, hno c List.mem_cons_self, Bool.false_or, List.any_eq_false]
    exact fun l hl => by simp [hno l (List.mem_cons_of_mem _ hl)]
  have hclear := fun l hl => (h l hl).opened (hopen l hl)
  exact ⟨hlen, merged_lanes h hlanes clipped, fun _ =>
    ⟨hflag (·.degraded) (fun _ _ => rfl) fun l hl => (hclear l hl).1,
      hflag (·.conflict) (fun _ _ => rfl) fun l hl => (hclear l hl).2.1,
      hflag (·.weak) (fun _ _ => rfl) fun l hl => (hclear l hl).2.2⟩, nofun, nofun⟩

end

section
variable {s : State} (h : RecordsOk s)
include h

/-- A record placed and completed (R72): within bounds, and in order where it is not decided anew. -/
theorem RecordsOk.completed {slot : Nat} {r : Record} {redecide : Bool} (hlen : stepsTo r.X r.Xt ≤ s.tracking.lMax)
    (hlanes : r.first ≤ r.last ∧ r.last ≤ 159) (hr : redecide = false → RecordOk s.tracking r) :
    RecordsOk (State.complete { s with ft := s.ft.placeRecord slot r } slot redecide) := by
  have hplaced : ∀ l : Live, l ∈ (s.ft.placeRecord slot r).live → l = ⟨slot, r⟩ ∨ l ∈ s.ft.live ∧ l.slot ≠ slot := fun l hl =>
    ((mem_insertLive _ _ _).1 hl).imp_right (mem_removeSlot _ _ _).1
  unfold State.complete
  refine (RecordsOk.takeOverdue ?_ slot).quiet (State.settle_quiet _)
  cases redecide with
  | false =>
    refine h.of_points (.of_eq rfl rfl rfl) id fun l hl => ?_
    rcases hplaced l hl with rfl | ⟨hl, -⟩
    · exact hr rfl
    · exact h.live l hl
  | true =>
    refine h.of_points (.of_eq rfl rfl rfl) id fun l hl => ?_
    rcases FragTable.mem_modRecord.1 hl with ⟨hl, hs⟩ | ⟨-, x, hx, e⟩
    · rcases hplaced l hl with rfl | ⟨hl, -⟩
      · exact absurd rfl hs
      · exact h.live l hl
    · rcases hplaced _ hx with hx | ⟨-, hne⟩
      · cases hx
        exact e ▸ decideRecord_ok _ hlen hlanes
      · exact absurd rfl hne

theorem RecordsOk.makeRecord {d : Detection} (hlen : stepsTo d.X d.Xt ≤ s.tracking.lMax)
    (hlanes : d.first ≤ d.last ∧ d.last ≤ 159) (clipped : Bool) : RecordsOk (s.makeRecord d clipped) := by
  unfold State.makeRecord
  cases hfree : s.ft.freeList with
  | nil =>
    rw [State.create_nil hfree]
    exact h.quiet (.raise (.refl s) _ _ _)
  | cons slot rest =>
    rw [State.create_cons hfree]
    exact ((h.withNew (newRecord_ok hlen hlanes clipped _)).takeOverdue slot).quiet (State.settle_quiet _)

theorem RecordsOk.noCandidate {d : Detection} (hlen : stepsTo d.X d.Xt ≤ s.tracking.lMax)
    (hlanes : d.first ≤ d.last ∧ d.last ≤ 159) (clipped frozen : Bool) : RecordsOk (s.noCandidate d clipped frozen) := by
  unfold State.noCandidate
  split
  · exact h.quiet (s.setPort_raise_quiet (by rfl) (by rfl) _)
  · split
    · exact h.makeRecord hlen hlanes clipped
    · exact h

theorem RecordsOk.giveTo {d : Detection} (hlen : stepsTo d.X d.Xt ≤ s.tracking.lMax)
    (hlanes : d.first ≤ d.last ∧ d.last ≤ 159) {c : Live} (hc : c ∈ s.ft.live) (clipped frozen : Bool) :
    RecordsOk (s.giveTo d clipped frozen c) := by
  unfold State.giveTo
  split
  · next hfits =>
    have hok := (h.live c hc).attached hfits hlanes clipped
    exact h.completed hok.length hok.lanes fun _ => hok
  · exact h.noCandidate hlen hlanes clipped frozen

theorem RecordsOk.merge {d : Detection} {c : Live} {cs : List Live} (hlanes : d.first ≤ d.last ∧ d.last ≤ 159)
    (hcs : ∀ l ∈ c :: cs, l ∈ s.ft.live ∧ l.record.st.takesEvidence = true) (hmerge : canMerge s.tracking d c cs = true)
    (clipped : Bool) : RecordsOk (s.merge d clipped c cs) := by
  have hrecords := fun l hl => h.live l (hcs l hl).1
  obtain ⟨-, hlen⟩ := Bool.and_eq_true_iff.1 hmerge
  have hlen := of_decide_eq_true hlen
  obtain ⟨habsorbed, htr⟩ : RecordsOk (s.absorbed cs) ∧ (s.absorbed cs).tracking = s.tracking :=
    foldl_keeps (P := fun u => RecordsOk u ∧ u.tracking = s.tracking)
      (fun u x _ hu => ⟨hu.1.absorbPart x, (u.absorbPart_partMove x).tracking.trans hu.2⟩) ⟨h.quiet (s.draws_quiet _), rfl⟩
  rw [State.merge_eq]
  refine habsorbed.completed (htr ▸ hlen) (merged_lanes hrecords hlanes clipped) fun hno => htr ▸ ?_
  refine merged_ok hrecords hlen hlanes (fun l hl => ?_) clipped
  have hundecided := List.any_eq_false.1 hno l hl
  have htakes := (hcs l hl).2
  cases hst : l.record.st <;> simp_all [RecState.isDecided, RecState.takesEvidence]

/-- The treatment of a detection within the belt's lanes (R60 to R72). -/
theorem RecordsOk.treat (htable : TableOk s) {d : Detection} (hlanes : d.first ≤ d.last ∧ d.last ≤ 159) :
    RecordsOk (s.treat d) := by
  obtain ⟨hlen, hfirst, hlast⟩ := clip_within h.lMax.2 d
  have hlanes : (clip s.tracking d).first ≤ (clip s.tracking d).last ∧ (clip s.tracking d).last ≤ 159 := by
    rwa [hfirst, hlast]
  unfold State.treat
  split
  · exact h.quiet (s.setPort_quiet rfl rfl)
  · unfold State.matchAndTreat
    dsimp only
    split
    · exact h.noCandidate hlen hlanes _ _
    · next c hc => exact h.giveTo hlen hlanes ((htable.candidates hc).1 c List.mem_cons_self).1 _ _
    · next c cs _ hc =>
      split
      · next hmerge => exact h.merge hlanes (htable.candidates hc).1 hmerge _
      · exact h.giveTo hlen hlanes ((htable.candidates hc).1 _ (bestOf_mem _ _ c cs)).1 _ _

theorem RecordsOk.take (htable : TableOk s) (hports : PortsOk s) (p : Station) : RecordsOk (s.take p) := by
  unfold State.take
  split
  · exact h
  · next d rest hq =>
    have hd : DetectionOk p d := (hports.port p).entries d (by rw [hq]; exact List.mem_cons_self)
    have htaken : s.Quiet { s.setPort p (s.port p).removeHead with ae := { pointer := nextStation p, free := false } } :=
      (s.setPort_quiet (p := p) (x := (s.port p).removeHead) rfl rfl).trans (.of_eq rfl rfl rfl rfl rfl Iff.rfl)
    have htreated := (h.quiet htaken).treat (htable.quiet htaken) hd.lanes
    exact htreated.quiet (.of_eq rfl rfl rfl rfl rfl Iff.rfl)

end

/-- The table in agreement and every record in bounds: kept by every event but a take of the engine. -/
theorem RecordsOk.keptByEvents : KeptByEvents fun s => TableOk s ∧ RecordsOk s where
  quiet _ _ q h := ⟨h.1.quiet q, h.2.quiet q⟩
  point _ slot r hf _ h := ⟨h.1.takePoint slot r, h.2.takePoint hf⟩
  drop _ slot _ _ _ hf hst h := ⟨h.1.setRecState slot _, h.2.drop hf hst⟩
  retire _ slot o h := ⟨h.1.retire slot o, h.2.retire slot o⟩
  switched _ h := ⟨h.1.switchIfReached, h.2.switchIfReached⟩
  settings s t hm hlc hft hbanks htr h :=
    ⟨TableOk.keptByEvents.settings s t hm hlc hft hbanks htr h.1, h.2.settings h.1 hm hlc hft htr⟩
  release levels faultLines := ⟨TableOk.atRelease levels faultLines, RecordsOk.atRelease levels faultLines⟩
  override _ slot d h := ⟨h.1.setOverride slot d, h.2.setOverride slot d⟩
  insert _ r h := ⟨h.1.insertOp r, h.2.insertOp r⟩
  switchBank _ target c h := ⟨h.1.switchBankOp target c, h.2.switchBankOp target c⟩
  start _ h := ⟨h.1.startOp, h.2.startOp⟩
  stop _ h := ⟨h.1.stopOp, h.2.stopOp⟩
  reset _ h := ⟨h.1.afterReset, h.2.afterReset⟩

/-- Tables, ports and records in order (R37, R39, R42): what a step needs to keep the records in bounds. -/
def State.InOrder (s : State) : Prop := PortsOk s ∧ TableOk s ∧ RecordsOk s

/-- Settles O57: a take finds at its port a detection that the arrival checks have let through, and settings behind the
points are written in CONFIG alone, which START leaves with the geometry check passed. -/
theorem step_keeps_the_records_in_bounds : Obligations.Step_keeps_the_records_in_bounds := by
  intro s t htable hports hrecords hs
  have hstep : t.InOrder := by
    refine step_keeps (P := State.InOrder) (fun c u w hu he => ?_) (fun u hu => ?_) (fun u pending hu => ?_)
      (fun u draws hu => ?_) ⟨hports, htable, hrecords⟩ hs
    · obtain ⟨hp, hrest⟩ := hu
      exact ⟨hp.exec he, RecordsOk.keptByEvents.exec hrest (fun p _ => ⟨hrest.1.take p, hrest.2.take hrest.1 hp p⟩) he⟩
    · exact ⟨State.awake_keeps hu.1 fun _ => hu.1.congr rfl id, RecordsOk.keptByEvents.tick hu.2⟩
    · exact ⟨hu.1.congr rfl id, RecordsOk.keptByEvents.quiet u _ (.of_eq rfl rfl rfl rfl rfl Iff.rfl) hu.2⟩
    · exact ⟨hu.1.congr rfl id, RecordsOk.keptByEvents.quiet u _ (u.draws_quiet draws) hu.2⟩
  exact hstep.2.2

end Sys2Proof.Machine
end

