-- ==== Sys2Proof/Proofs/Forget.lean ====
section
/-! SUPPORT. The retirement of one record, intervals through an evaluation and a removal, and FORGET (R48, R54, R151);
settles O44. -/

namespace Sys2Proof.Machine

/-! ### A retirement -/

/-- A record freed and tallied, before the check for the end of a drain (R48). -/
def State.retired (s : State) (slot : Nat) (r : Record) (o : RecOutcome) : State :=
  { s.freeRecord slot r with lc := { s.lc with tallies := s.lc.tallies.bump o r.st.material } }

section
variable {s : State} {slot : Nat} {r : Record} (hf : s.ft.find slot = some r) (o : RecOutcome)
include hf

theorem State.retire_eq : s.retire slot o = (s.retired slot r o).drainIfEmpty := by
  rw [State.retire, hf]
  rfl

/-- Outside the end of a drain a retirement leaves ports and belt, and of Line Control all but a tally (R48). -/
theorem State.retire_stays (h : s.lc.mode ≠ .draining ∨ s.ft.liveCount - 1 ≠ 0) :
    s.retire slot o = s.retired slot r o := by
  rw [State.retire_eq hf, State.drainIfEmpty]
  refine if_neg ?_
  rintro ⟨hm, hcount⟩
  exact h.elim (absurd hm) (absurd hcount)

/-- The retirement that empties a draining line completes the drain (R151). -/
theorem State.retire_drains (hm : s.lc.mode = .draining) (hcount : s.ft.liveCount = 1) :
    s.retire slot o = (s.retired slot r o).completeDrain := by
  rw [State.retire_eq hf, State.drainIfEmpty]
  exact if_pos ⟨hm, by rw [State.retired, State.freeRecord_ft, FragTable.freeSlot_liveCount, hcount]⟩

/-- What a retirement does in every case (R48). -/
theorem State.retire_frame :
    (s.retire slot o).ft = s.ft.freeSlot slot ∧ (s.retire slot o).bars = s.bars ∧
    (s.retire slot o).banks = { s.banks with refs := s.banks.refs.set r.bank (s.banks.refs.get r.bank - 1) } ∧
    (s.retire slot o).lc.tallies = s.lc.tallies.bump o r.st.material ∧ (s.retire slot o).tracking = s.tracking ∧
    (s.retire slot o).ae = s.ae ∧ (s.retire slot o).link = s.link := by
  rw [State.retire_eq hf]
  rcases (s.retired slot r o).drainIfEmpty_cases with ⟨-, -, e⟩ | ⟨-, e⟩ <;> rw [e]
  · exact ⟨rfl, rfl, rfl, by rw [State.completeDrain_lc, LineControl.raise_tallies]; rfl, rfl, rfl, rfl⟩
  · exact ⟨rfl, rfl, rfl, rfl, rfl, rfl, rfl⟩

end

/-! ### Intervals -/

theorem BarUnit.nozzle_evalAll_ivals (u : BarUnit) (go : Bool) (T : Pos) (m : Nat) :
    ((u.evalAll go T).nozzle m).ivals = (u.nozzle m).ivals := by
  by_cases hm : m < u.nozzles.length
  · rw [BarUnit.nozzle_evalAll hm, Nozzle.eval_ivals]
  · simp [BarUnit.nozzle, BarUnit.evalAll_nozzles, hm]

theorem State.nozzle_settle_ivals (s : State) (b : Bar) (m : Nat) :
    ((s.settle.bar b).nozzle m).ivals = ((s.bar b).nozzle m).ivals := by
  rw [State.bar_settle, BarUnit.nozzle_evalAll_ivals]

theorem BarUnit.nozzle_without (u : BarUnit) (h : Handle) (m : Nat) :
    ((u.without h).nozzle m).ivals = (u.nozzle m).ivals.filter fun iv => iv.owner != h := by
  by_cases hm : m < u.nozzles.length
  · simp [BarUnit.nozzle, hm]
  · simp [BarUnit.nozzle, hm, Nozzle.atRelease]

/-- What the removal of a record's intervals leaves (R54). -/
theorem State.dropIntervals_frame (s : State) (slot : Nat) (r : Record) :
    s.dropIntervals slot r = { s with bars := (s.dropIntervals slot r).bars } := by
  unfold State.dropIntervals
  split <;> rfl

/-- The intervals of an ARMED record go, and no others (R54). -/
theorem State.dropIntervals_armed {s : State} {slot : Nat} {r : Record} {v : Verdict} {sch : Schedule}
    (hst : r.st = .armed v sch) :
    (∀ m, (((s.dropIntervals slot r).bar sch.bar).nozzle m).ivals =
      ((s.bar sch.bar).nozzle m).ivals.filter fun iv => iv.owner != s.ft.handle slot) ∧
    ∀ b, b ≠ sch.bar → (s.dropIntervals slot r).bar b = s.bar b := by
  have hdrop : s.dropIntervals slot r = s.setBar sch.bar ((s.bar sch.bar).without (s.ft.handle slot)) := by
    rw [State.dropIntervals, hst]
  rw [hdrop]
  exact ⟨fun m => by rw [State.bar_setBar_same, BarUnit.nozzle_without], fun b hb => by rw [State.bar_setBar, if_neg hb]⟩

theorem State.dropIntervals_other {s : State} {slot : Nat} {r : Record} (h : ∀ v sch, r.st ≠ .armed v sch) :
    s.dropIntervals slot r = s := by
  unfold State.dropIntervals
  split
  · next v sch hst => exact absurd hst (h v sch)
  · rfl

/-! ### FORGET -/

/-- A record forgotten: its intervals removed, retired FORGOTTEN, the nozzles evaluated (R54). -/
def State.forgotten (s : State) (slot : Nat) (r : Record) : State :=
  ((s.dropIntervals slot r).retire slot .forgotten).settle

theorem forgetOp_idle {s : State} {h : HandleField} {r : Record} (hh : checkHandle s.ft h = .ok r)
    (hrun : s.running = false) : forgetOp h s = refuse s .wrongMode := by
  rw [forgetOp, hh]
  exact if_pos (by rw [hrun]; rfl)

theorem forgetOp_running {s : State} {h : HandleField} {r : Record} (hh : checkHandle s.ft h = .ok r)
    (hrun : s.running = true) : forgetOp h s = done (s.forgotten h.slot.toNat r) := by
  rw [forgetOp, hh]
  exact if_neg (by rw [hrun]; decide)

section
variable {s : State} {slot : Nat} {r : Record} (hf : s.ft.find slot = some r)
include hf

theorem State.dropIntervals_find : (s.dropIntervals slot r).ft.find slot = some r := by
  rw [s.dropIntervals_frame]
  exact hf

theorem State.forgotten_frame :
    (s.forgotten slot r).ft = s.ft.freeSlot slot ∧
    (s.forgotten slot r).banks = { s.banks with refs := s.banks.refs.set r.bank (s.banks.refs.get r.bank - 1) } ∧
    (s.forgotten slot r).lc.tallies = s.lc.tallies.bump .forgotten r.st.material ∧
    (s.forgotten slot r).tracking = s.tracking ∧ (s.forgotten slot r).ae = s.ae ∧ (s.forgotten slot r).link = s.link ∧
    ∀ b m, (((s.forgotten slot r).bar b).nozzle m).ivals = (((s.dropIntervals slot r).bar b).nozzle m).ivals := by
  obtain ⟨hft, hbars, hbanks, htallies, htr, hae, hlink⟩ := State.retire_frame (s.dropIntervals_find hf) .forgotten
  have hsame := s.dropIntervals_frame slot r
  refine ⟨hft.trans ?_, hbanks.trans ?_, htallies.trans ?_, htr.trans ?_, hae.trans ?_, hlink.trans ?_, fun b m => ?_⟩
  · rw [hsame]
  · rw [hsame]
  · rw [hsame]
  · rw [hsame]
  · rw [hsame]
  · rw [hsame]
  · rw [State.forgotten, State.nozzle_settle_ivals]
    exact congrArg (fun bars => ((PerBar.get bars b).nozzle m).ivals) hbars

/-- Where the drain does not end, ports and belt stay, and of Line Control all but a tally (R48). -/
theorem State.forgotten_stays (h : s.lc.mode ≠ .draining ∨ s.ft.liveCount - 1 ≠ 0) :
    (s.forgotten slot r).lc = { s.lc with tallies := (s.forgotten slot r).lc.tallies } ∧
    (s.forgotten slot r).ports = s.ports ∧ (s.forgotten slot r).bpu = s.bpu := by
  have hsame := s.dropIntervals_frame slot r
  rw [State.forgotten, State.retire_stays (s.dropIntervals_find hf) .forgotten (by rw [hsame]; exact h), hsame]
  exact ⟨rfl, rfl, rfl⟩

/-- FORGET of the last record of a draining line completes the drain (R151). -/
theorem State.forgotten_drains (hm : s.lc.mode = .draining) (hcount : s.ft.liveCount = 1) :
    (s.forgotten slot r).lc.mode = .config ∧
    (s.forgotten slot r).lc.pendingSet = s.lc.pendingSet ||| 32768 ∧
    (s.forgotten slot r).lc.condition = s.lc.condition ∧ (s.forgotten slot r).bpu = { s.bpu with G := 0 } ∧
    ∀ p, (s.forgotten slot r).port p = { s.port p with queue := [], hold := false } := by
  have hsame := s.dropIntervals_frame slot r
  rw [State.forgotten,
    State.retire_drains (s.dropIntervals_find hf) .forgotten (by rw [hsame]; exact hm) (by rw [hsame]; exact hcount), hsame]
  exact ⟨rfl, rfl, rfl, rfl, fun p => PerStation.get_map _ _ p⟩

end

/-- The state that a request of this kind is carried out on (R135). -/
def State.takenUp (s : State) (kind : Byte) : State := { s with link := s.link.takeUp kind }

theorem State.carryOut_of {s t : State} {kind : Byte} {op : State → Answer} {code : ReplyCode} {body : ReplyBody}
    (h : op (s.takenUp kind) = (t, code, body)) :
    s.carryOut kind op = { t with link := t.link.form kind code body } :=
  congrArg (fun a : Answer => { a.1 with link := a.1.link.form kind a.2.1 a.2.2 }) h

theorem exec_forget {s : State} {h : HandleField} {r : Record} (hs : Ready s) (hh : checkHandle s.ft h = .ok r)
    (hrun : s.running = true) :
    exec (.forget h) s =
      .next { (s.takenUp 17).forgotten h.slot.toNat r with
        link := ((s.takenUp 17).forgotten h.slot.toNat r).link.form 17 .ok .empty } :=
  (request_ready hs (.forget h) 17 (forgetOp h)).trans
    (congrArg Host.Outcome.next (State.carryOut_of (forgetOp_running (s := s.takenUp 17) hh hrun)))

/-- Settles O44. -/
theorem forget_of_a_live_record : Obligations.FORGET_of_a_live_record := by
  intro h r s hs hslot hf hg
  have hh : checkHandle s.ft h = .ok r := checkHandle_ok hslot hf hg
  refine ⟨fun hrun => request_answered hs rfl (forgetOp_idle (s := s.takenUp 17) hh hrun), fun hrun => ?_⟩
  have hfu : (s.takenUp 17).ft.find h.slot.toNat = some r := hf
  have hhandle : s.ft.handle h.slot.toNat = ⟨h.slot.toNat, h.gen⟩ := by rw [FragTable.handle, hg]
  obtain ⟨hft, hbanks, htallies, htr, hae, hlink, hivals⟩ := State.forgotten_frame hfu
  refine ⟨_, exec_forget hs hh hrun, hft, hbanks, htallies, fun v sch hst => ?_, fun hst b m => ?_,
    State.settle_evaluated (((s.takenUp 17).dropIntervals h.slot.toNat r).retire h.slot.toNat .forgotten), htr, hae, ?_,
    fun hstay => ?_, fun hm hcount => State.forgotten_drains hfu hm hcount⟩
  · obtain ⟨hbar, hother⟩ := State.dropIntervals_armed (s := s.takenUp 17) (slot := h.slot.toNat) hst
    refine ⟨fun m => (hivals sch.bar m).trans ((hbar m).trans ?_), fun b hb m => (hivals b m).trans ?_⟩
    · rw [← hhandle]
      rfl
    · rw [hother b hb]
      rfl
  · refine (hivals b m).trans ?_
    rw [State.dropIntervals_other hst]
    rfl
  · dsimp only
    rw [hlink]
    rfl
  · refine State.forgotten_stays hfu (hstay.imp (fun hm => ?_) fun h2 => ?_)
    · rw [show (s.takenUp 17).lc.mode = .run from hm]
      decide
    · change s.ft.liveCount - 1 ≠ 0
      omega

end Sys2Proof.Machine
end

