-- ==== Sys2Proof/Proofs/Insert.lean ====
section
/-! SUPPORT. INSERT in its order of checks, and the record it makes (R46, R88, R144, R145); settles O45. -/

namespace Sys2Proof.Machine

/-! ### The values of an INSERT -/

theorem destOf_of {b : Byte} {d : Dest} (h : b.toNat = d.no) : destOf b = some d := by
  rw [destOf, h]
  rcases d with b | -
  · cases b <;> rfl
  · rfl

theorem destOf_none {b : Byte} (h : 3 < b.toNat) : destOf b = none := by
  unfold destOf
  split <;> simp_all

/-- A position is not both behind another and at or ahead of it (R5). -/
theorem atOrAhead_eq_false_of_behind {a b : Pos} (h : behind a b = true) : atOrAhead a b = false := by
  rw [behind_iff] at h
  rw [← Bool.not_eq_true, atOrAhead_iff]
  bv_omega

/-- A position is not both ahead of another and at or behind it (R5). -/
theorem ahead_eq_false_of_atOrBehind {a b : Pos} (h : atOrBehind a b = true) : ahead a b = false := by
  rw [atOrBehind_iff] at h
  rw [← Bool.not_eq_true, ahead_iff]
  bv_omega

/-- The freeze point of an object that an INSERT names (R42). -/
theorem State.freezePoint_low {s : State} {f : Bar} (hf : s.lowBar = some f) (x : Pos) :
    s.freezePoint x = some (x + BitVec.ofNat 32 (s.bar f).settings.E - BitVec.ofNat 32 (s.bar f).settings.A) := by
  rw [State.freezePoint, hf]
  rfl

section
variable {s : State} {x p : Pos} (hp : s.freezePoint x = some p)
include hp

theorem State.freezeTooFar_iff :
    s.freezeTooFar x = true ↔ ahead p s.bpu.T = true ∧ 1048576 ≤ stepsTo s.bpu.T p := by
  rw [State.freezeTooFar, hp, Bool.and_eq_true, decide_eq_true_eq, Config.span]

theorem State.freezePassed_eq : s.freezePassed x = !ahead p s.bpu.T := by
  rw [State.freezePassed, hp]

end

/-- The values that INSERT refuses with BAD_VALUE (R144 step 2). -/
theorem State.insertBad_iff (s : State) (r : InsertRequest) :
    s.insertBad r = true ↔ atOrAhead r.Xt r.X = false ∨ s.tracking.lMax < stepsTo r.X r.Xt ∨
      ¬(r.first.toNat ≤ r.last.toNat ∧ r.last.toNat ≤ 159) ∨ s.freezeTooFar r.X = true := by
  rw [State.insertBad, Bool.or_eq_true, Bool.or_eq_true, Bool.or_eq_true, Bool.not_eq_true', decide_eq_true_eq,
    Bool.not_eq_true', ← Bool.not_eq_true (lanesOk _ _), lanesOk_iff, or_assoc, or_assoc]

/-! ### A decision without evidence (R79, R88) -/

theorem scores_empty (k : BankData) : scores k ⟨none, none, none, none⟩ = List.replicate 16 0 :=
  List.eq_replicate_iff.2 ⟨scores_length k _, fun x hx => by
    obtain ⟨m, -, rfl⟩ := List.mem_map.1 hx
    rfl⟩

/-- A record without evidence has no top score, and its material is 0 (R79, R80). -/
theorem verdictOf_empty (k : BankData) : verdictOf k ⟨none, none, none, none⟩ = ⟨0, 0, 0⟩ := by
  simp only [verdictOf, scores_empty]
  have htop : topScore (List.replicate 16 0) = 0 := rfl
  rw [chosenMaterial, marginOf, htop, if_pos (.inl rfl), Nat.zero_sub]

theorem isWeak_empty (k : BankData) : isWeak k (scores k ⟨none, none, none, none⟩) = false := by
  rw [scores_empty]
  rfl

/-- A record without evidence is DEGRADED where an enabled station is not UP (R81). -/
theorem isDegraded_empty (ports : PerStation Port) :
    isDegraded ports ⟨none, none, none, none⟩ = true ↔
      ∃ p, (ports.get p).enabled = true ∧ (ports.get p).state ≠ .up := by
  have hnone : ∀ p : Station, (PerStation.get (⟨none, none, none, none⟩ : PerStation (Option Entry)) p).isNone = true :=
    fun p => by cases p <;> rfl
  have hstations : ∀ p : Station, p ∈ stations := fun p => by cases p <;> decide
  simp only [isDegraded, List.any_eq_true, hnone, hstations, true_and, Bool.and_true, Bool.and_eq_true, bne_iff_ne]

/-! ### INSERT carried out -/

/-- The record that an INSERT leaves (R145). -/
def State.inserted (s : State) (r : InsertRequest) (d : Dest) : Record :=
  decideRecord s { insertedRecord r d with bank := s.banks.active }

/-- An inserted record is DECIDED toward its override on no evidence (R46, R88). -/
theorem State.inserted_st (s : State) (r : InsertRequest) (d : Dest) : (s.inserted r d).st = .decided ⟨0, 0, 0⟩ d :=
  congrArg (RecState.decided · d) (verdictOf_empty _)

theorem decideRecord_weak (s : State) (r : Record) :
    (decideRecord s r).flags.weak = isWeak (s.banks.data.get r.bank) (scores (s.banks.data.get r.bank) r.evidence) := by
  simp only [decideRecord]

theorem State.inserted_weak (s : State) (r : InsertRequest) (d : Dest) : (s.inserted r d).flags.weak = false := by
  rw [State.inserted, decideRecord_weak]
  exact isWeak_empty (s.banks.data.get s.banks.active)

section
variable {s : State} {r : InsertRequest} (hm : s.lc.mode = .run)
include hm

theorem insertOp_badValue (h : destOf r.dest = none ∨ s.insertBad r = true) : insertOp r s = refuse s .badValue := by
  refine (if_neg (not_not.2 hm)).trans ?_
  split
  · rfl
  · next hd => exact if_pos (h.resolve_left (by rw [hd]; exact Option.some_ne_none _))

variable {d : Dest} (hd : destOf r.dest = some d) (hbad : s.insertBad r = false)
include hd hbad

/-- An INSERT with its values in range: too late, or created where a slot is free (R144 steps 3 and 4). -/
theorem insertOp_inRange :
    insertOp r s =
      if s.freezePassed r.X then refuse s .tooLate
      else
        match s.create (insertedRecord r d) with
        | none => refuse s .full
        | some (slot, s') => (s'.modRecord slot (decideRecord s'), .ok, .handle (s.ft.handle slot)) := by
  refine (if_neg (not_not.2 hm)).trans ?_
  rw [hd]
  exact if_neg (by rw [hbad]; decide)

theorem insertOp_tooLate (h : s.freezePassed r.X = true) : insertOp r s = refuse s .tooLate := by
  rw [insertOp_inRange hm hd hbad, if_pos h]

variable (hfreeze : s.freezePassed r.X = false)
include hfreeze

theorem insertOp_full (hfree : s.ft.freeList = []) : insertOp r s = refuse s .full := by
  rw [insertOp_inRange hm hd hbad, hfreeze, State.create_nil hfree]
  rfl

theorem insertOp_creates {slot : Nat} {rest : List Nat} (hfree : s.ft.freeList = slot :: rest)
    (hs : ∀ l ∈ s.ft.live, l.slot ≠ slot) :
    insertOp r s = (s.withNew slot rest (s.inserted r d), .ok, .handle (s.ft.handle slot)) := by
  rw [insertOp_inRange hm hd hbad, hfreeze, State.create_cons hfree]
  refine congrArg (fun t : State => (t, ReplyCode.ok, ReplyBody.handle (s.ft.handle slot))) ?_
  exact State.withNew_modRecord hs rfl rfl

end

/-- Settles O45. -/
theorem insert_creates_a_decided_record : Obligations.INSERT_creates_a_decided_record := by
  intro r d f s hs
  refine ⟨fun hm => request_answered hs rfl (if_pos hm), fun hm hf => ?_⟩
  intro freeze
  have hpoint : s.freezePoint r.X = some freeze := State.freezePoint_low hf r.X
  have hfar := State.freezeTooFar_iff hpoint
  have hpassed := State.freezePassed_eq hpoint
  refine ⟨fun hbad _ => request_answered hs rfl (insertOp_badValue (s := s.takenUp 18) hm ?_),
    fun hdest hX hlen hfirst hlast => ?_⟩
  · rcases hbad with hdest | hX | hlen | hfirst | hlast | hfreeze
    · exact .inl (destOf_none hdest)
    all_goals refine .inr ((s.insertBad_iff r).2 ?_)
    · exact .inl (atOrAhead_eq_false_of_behind hX)
    · exact .inr (.inl hlen)
    · exact .inr (.inr (.inl (by omega)))
    · exact .inr (.inr (.inl (by omega)))
    · exact .inr (.inr (.inr (hfar.2 hfreeze)))
  · have hd : destOf r.dest = some d := destOf_of hdest
    have hgood : s.freezeTooFar r.X = false → s.insertBad r = false := fun hnear => by
      rw [← Bool.not_eq_true, s.insertBad_iff, hX, hnear]
      rintro (h | h | h | h)
      · cases h
      · omega
      · exact h ⟨hfirst, hlast⟩
      · cases h
    refine ⟨fun hbehind => request_answered hs rfl (insertOp_tooLate (s := s.takenUp 18) hm hd ?_ ?_), fun hahead hnear => ?_⟩
    · refine hgood ?_
      rw [← Bool.not_eq_true, hfar, ahead_eq_false_of_atOrBehind hbehind]
      rintro ⟨h, -⟩
      cases h
    · exact hpassed.trans (by rw [ahead_eq_false_of_atOrBehind hbehind]; rfl)
    · have hbad : s.insertBad r = false := hgood (by
        rw [← Bool.not_eq_true, hfar]
        omega)
      have hfreeze : s.freezePassed r.X = false := hpassed.trans (by rw [hahead]; rfl)
      refine ⟨fun hfree => request_answered hs rfl (insertOp_full (s := s.takenUp 18) hm hd hbad hfreeze hfree),
        fun slot free hfree hslot => ?_⟩
      have hexec : exec (.insert r) s =
          .next ((s.withNew slot free (s.inserted r d)).answered 18 .ok (.handle (s.ft.handle slot))) :=
        request_answered (t := s.withNew slot free (s.inserted r d)) hs rfl
          (insertOp_creates (s := s.takenUp 18) hm hd hbad hfreeze hfree hslot)
      exact ⟨_, s.inserted r d, hexec, State.find_withNew hslot free _, s.inserted_st r d, rfl, rfl, rfl, rfl, rfl, rfl, rfl,
        rfl, s.inserted_weak r d, rfl, rfl, rfl, isDegraded_empty s.ports, rfl, rfl, rfl, rfl, rfl, rfl, rfl, rfl, rfl, rfl⟩

end Sys2Proof.Machine
end

