-- ==== Sys2Proof/Proofs/FaultLine.lean ====
section
/-! SUPPORT. The fault line of a bar, and the fate of each record ARMED at it (R52, R119); settles O29. -/

namespace Sys2Proof.Machine

/-! ### Tallies and the free order (entry 8) -/

theorem Tallies.get_set_same (t : Tallies) (o : RecOutcome) (x : List Nat) : (t.set o x).get o = x := by
  cases o <;> rfl

theorem Tallies.set_set_same (t : Tallies) (o : RecOutcome) (x y : List Nat) : (t.set o x).set o y = t.set o y := by
  cases o <;> rfl

theorem modify_comm {α : Type} (f : α → α) (xs : List α) (m n : Nat) :
    (xs.modify m f).modify n f = (xs.modify n f).modify m f := by
  refine List.ext_getElem? fun i => ?_
  simp only [List.getElem?_modify]
  cases xs[i]? with
  | none => rfl
  | some x => by_cases hm : m = i <;> by_cases hn : n = i <;> simp [hm, hn]

/-- Two tallies of one outcome can go up in either order (R160). -/
theorem Tallies.bump_comm (t : Tallies) (o : RecOutcome) (m n : Nat) :
    (t.bump o m).bump o n = (t.bump o n).bump o m := by
  simp only [Tallies.bump, Tallies.get_set_same, Tallies.set_set_same]
  rw [modify_comm]

/-- The free order of some records is one of their orders (entry 8). -/
theorem orderParts_records (draw : Nat) (ls : List Live) :
    ∃ order : List Live, orderParts draw (ls.map fun l => .point l.slot) = order.map (fun l => .point l.slot) ∧
      order.Perm ls :=
  Eq.mpr (congrFun₂ (List.eq_map_comp_perm fun l : Live => AdvancePart.point l.slot) _ _) (List.perm_insertionSort _ _)

/-! ### One record dropped (R52) -/

/-- On a running line the retire line of a record is at or behind T (R42, R52). -/
def State.pastRetire (s : State) (l : Live) : Bool := s.running && s.reached (s.retireLine l.record.Xt)

/-- The record is ARMED at the bar. -/
def Live.ArmedAt (l : Live) (b : Bar) : Prop := ∃ v sch, l.record.st = .armed v sch ∧ sch.bar = b

/-- The record as the fault of its bar leaves it: PASSING with DROPPED (R52). -/
def Live.dropped (l : Live) (v : Verdict) (b : Bar) : Live := ⟨l.slot, { l.record with st := .passing v (.bar b) .dropped }⟩

/-- The fate of a record ARMED at a faulted bar, seen from the table before and the table after (R52). -/
structure Live.Fate (l : Live) (b : Bar) (past : Bool) (ft ft' : FragTable) : Prop where
  retired : past = true → (∀ x ∈ ft'.live, x.slot ≠ l.slot) ∧ ft'.gen l.slot = ft.gen l.slot + 1
  stays   : past = false → ∀ v sch, l.record.st = .armed v sch → l.dropped v b ∈ ft'.live

theorem State.SamePoints.retireLine {s t : State} (h : s.SamePoints t) (x : Pos) : t.retireLine x = s.retireLine x := by
  simp only [State.retireLine, h.highBar, h.settings]

theorem FragTable.gen_freeSlot {ft : FragTable} {slot : Nat} (h : slot < ft.gens.length) :
    (ft.freeSlot slot).gen slot = ft.gen slot + 1 := by
  simp [FragTable.gen, h]

/-- The slot of a live record has a generation (R37, R38). -/
theorem TableOk.slot_lt {s : State} (h : TableOk s) {l : Live} (hl : l ∈ s.ft.live) : l.slot < s.ft.gens.length := by
  rw [h.gens]
  refine List.mem_range.1 (h.slots.mem_iff.1 ?_)
  exact List.mem_append_left _ (List.mem_map.2 ⟨l, hl, rfl⟩)

theorem TableOk.dropArmed {s : State} (h : TableOk s) (x : AdvancePart) : TableOk (s.dropArmed x) := by
  unfold State.dropArmed
  split
  · exact h
  · split
    · exact h
    · split
      · exact (h.setRecState _ _).takeOverdue _
      · exact h

theorem State.dropArmed_slotMove (s : State) (slot : Nat) : s.SlotMove slot (s.dropArmed (.point slot)) := by
  unfold State.dropArmed
  dsimp only
  split
  · exact .refl slot s
  · split
    · next v sch hst =>
      have hset : s.SlotMove slot (s.setRecState slot (.passing v (.bar sch.bar) .dropped)) :=
        .of_modRecord (f := fun r => { r with st := .passing v (.bar sch.bar) .dropped }) rfl rfl
      exact hset.trans (State.runDue_slotMove 5 _ slot)
    · exact .refl slot s

section
variable {s : State} {l : Live} {v : Verdict} {sch : Schedule} (hf : s.ft.find l.slot = some l.record)
  (hst : l.record.st = .armed v sch)
include hf hst

/-- The state of a drop before the retire line is looked at (R52). -/
theorem State.dropArmed_eq :
    s.dropArmed (.point l.slot) = (s.setRecState l.slot (.passing v (.bar sch.bar) .dropped)).takeOverdue l.slot := by
  simp only [State.dropArmed, hf, hst]

omit hst in
theorem State.find_dropped :
    (s.setRecState l.slot (.passing v (.bar sch.bar) .dropped)).ft.find l.slot = some (l.dropped v sch.bar).record := by
  rw [State.setRecState, State.modRecord_ft, FragTable.find_modRecord, hf]
  rfl

/-- A dropped record whose retire line is ahead, or on a line that does not run, stays (R52). -/
theorem State.dropArmed_stays (h : s.pastRetire l = false) :
    s.dropArmed (.point l.slot) = s.setRecState l.slot (.passing v (.bar sch.bar) .dropped) := by
  rw [State.dropArmed_eq hf hst]
  rcases Bool.and_eq_false_iff.1 h with hrun | hahead
  · exact State.runDue_idle (s := s.setRecState l.slot (.passing v (.bar sch.bar) .dropped)) hrun 5 l.slot
  · exact State.runDue_stop (State.find_dropped hf) hahead 5

/-- A dropped record whose retire line is at or behind T on a running line retires DROPPED at once (R52). -/
theorem State.dropArmed_retires (h : s.pastRetire l = true) :
    s.dropArmed (.point l.slot) = (s.setRecState l.slot (.passing v (.bar sch.bar) .dropped)).retire l.slot .dropped := by
  obtain ⟨hrun, hpast⟩ := Bool.and_eq_true_iff.1 h
  have hfind := State.find_dropped (v := v) (sch := sch) hf
  rw [State.dropArmed_eq hf hst]
  have hnone : ((s.setRecState l.slot (.passing v (.bar sch.bar) .dropped)).retire l.slot .dropped).ft.find l.slot = none :=
    FragTable.find_eq_none.2 fun x hx => by
      rw [(State.retire_frame hfind .dropped).1] at hx
      exact ((mem_removeSlot _ _ _).1 hx).2
  exact (State.runDue_take hfind hrun hpast 4).trans (State.runDue_none hnone 4)

/-- What the drop of one record leaves of bars and tallies (R52). -/
theorem State.dropArmed_frame :
    (s.dropArmed (.point l.slot)).bars = s.bars ∧
    (s.dropArmed (.point l.slot)).lc.tallies =
      if s.pastRetire l then s.lc.tallies.bump .dropped l.record.st.material else s.lc.tallies := by
  cases h : s.pastRetire l with
  | false =>
    rw [State.dropArmed_stays hf hst h]
    exact ⟨rfl, rfl⟩
  | true =>
    obtain ⟨-, hbars, -, htallies, -⟩ := State.retire_frame (State.find_dropped hf) .dropped
    rw [State.dropArmed_retires hf hst h, hst]
    exact ⟨hbars, htallies⟩

end

/-- The fate of one record (R52). -/
theorem TableOk.dropArmed_fate {s : State} (h : TableOk s) {l : Live} {b : Bar} (hl : l ∈ s.ft.live) (ha : l.ArmedAt b) :
    l.Fate b (s.pastRetire l) s.ft (s.dropArmed (.point l.slot)).ft := by
  obtain ⟨v, sch, hst, rfl⟩ := ha
  have hf := h.sound.find hl
  refine ⟨fun hpast => ?_, fun hpast v' sch' hst' => ?_⟩
  · rw [State.dropArmed_retires hf hst hpast, (State.retire_frame (State.find_dropped hf) .dropped).1]
    exact ⟨fun x hx => ((mem_removeSlot _ _ _).1 hx).2, FragTable.gen_freeSlot (h.slot_lt hl)⟩
  · cases hst.symm.trans hst'
    rw [State.dropArmed_stays hf hst hpast]
    exact FragTable.mem_of_find (State.find_dropped hf)

/-! ### All of them -/

/-- Some records dropped one after the other. -/
def State.dropAll (s : State) (ls : List Live) : State := (ls.map fun l => AdvancePart.point l.slot).foldl State.dropArmed s

theorem State.dropAll_nil (s : State) : s.dropAll [] = s := rfl

theorem State.dropAll_cons (s : State) (l : Live) (ls : List Live) :
    s.dropAll (l :: ls) = (s.dropArmed (.point l.slot)).dropAll ls := rfl

theorem State.dropAll_partMove (s : State) (ls : List Live) : s.PartMove (s.dropAll ls) :=
  State.foldl_partMove State.dropArmed_partMove _ s

theorem TableOk.dropAll {s : State} (h : TableOk s) (ls : List Live) : TableOk (s.dropAll ls) :=
  foldl_keeps (P := TableOk) (fun _ x _ hu => hu.dropArmed x) h

/-- Another record stays as it is, and so does its generation. -/
theorem State.dropAll_other (s : State) {ls : List Live} {l : Live} (hl : ∀ x ∈ ls, x.slot ≠ l.slot) :
    (l ∈ (s.dropAll ls).ft.live ↔ l ∈ s.ft.live) ∧ (s.dropAll ls).ft.gen l.slot = s.ft.gen l.slot := by
  induction ls generalizing s with
  | nil => exact ⟨.rfl, rfl⟩
  | cons x xs ih =>
    have hx : l.slot ≠ x.slot := (hl x List.mem_cons_self).symm
    obtain ⟨hlive, hgen⟩ := ih (s.dropArmed (.point x.slot)) fun y hy => hl y (List.mem_cons_of_mem _ hy)
    have hmove := s.dropArmed_slotMove x.slot
    exact ⟨hlive.trans (hmove.other l hx), hgen.trans (hmove.gen l.slot hx)⟩

theorem State.dropAll_slot_free (s : State) {ls : List Live} {slot : Nat} (h : ∀ x ∈ s.ft.live, x.slot ≠ slot) :
    ∀ x ∈ (s.dropAll ls).ft.live, x.slot ≠ slot := by
  refine foldl_keeps (P := fun u : State => ∀ x ∈ u.ft.live, x.slot ≠ slot) (fun u x hx hu y hy => ?_) h
  obtain ⟨l, -, rfl⟩ := List.mem_map.1 hx
  obtain ⟨z, hz, e⟩ := (u.dropArmed_slotMove l.slot).slots y hy
  exact e ▸ hu z hz

/-- The drop of another record moves no retire line, and the line runs on while a record is live (R42, R151). -/
theorem TableOk.pastRetire_dropArmed {s : State} (h : TableOk s) {l : Live} {slot : Nat} (hl : l ∈ s.ft.live)
    (hne : l.slot ≠ slot) : (s.dropArmed (.point slot)).pastRetire l = s.pastRetire l := by
  have hmove := s.dropArmed_slotMove slot
  have hpart := s.dropArmed_partMove (.point slot)
  have hmode := hmove.mode h.sound (List.ne_nil_of_mem ((hmove.other l hne).2 hl))
  simp only [State.pastRetire, State.running, hmode, State.reached, hpart.samePoints.retireLine, hpart.T]

/-- Records ARMED at a faulted bar are dropped: the fate of each, one tally for each that retires, and the bars as they
are (R52). -/
theorem TableOk.dropAll_spec {s : State} (h : TableOk s) {b : Bar} {ls : List Live} (hls : ∀ l ∈ ls, l ∈ s.ft.live ∧ l.ArmedAt b)
    (hnodup : (ls.map (·.slot)).Nodup) :
    (∀ l ∈ ls, l.Fate b (s.pastRetire l) s.ft (s.dropAll ls).ft) ∧ (s.dropAll ls).bars = s.bars ∧
    (s.dropAll ls).lc.tallies =
      (ls.filter s.pastRetire).foldl (fun x l => x.bump .dropped l.record.st.material) s.lc.tallies := by
  induction ls generalizing s with
  | nil =>
    rw [State.dropAll_nil]
    exact ⟨fun _ hl => absurd hl List.not_mem_nil, rfl, rfl⟩
  | cons x xs ih =>
    obtain ⟨hx, hxs⟩ := List.forall_mem_cons.1 hls
    obtain ⟨hxnot, hnodup⟩ := List.nodup_cons.1 hnodup
    have hne : ∀ l ∈ xs, l.slot ≠ x.slot := fun l hl e => hxnot (List.mem_map.2 ⟨l, hl, e⟩)
    have hpast : ∀ l ∈ xs, (s.dropArmed (.point x.slot)).pastRetire l = s.pastRetire l := fun l hl =>
      h.pastRetire_dropArmed (hxs l hl).1 (hne l hl)
    have hmove := s.dropArmed_slotMove x.slot
    obtain ⟨hfate, hbars, htallies⟩ := ih (h.dropArmed (.point x.slot))
      (fun l hl => ⟨(hmove.other l (hne l hl)).2 (hxs l hl).1, (hxs l hl).2⟩) hnodup
    have hxfate := h.dropArmed_fate hx.1 hx.2
    obtain ⟨v, sch, hst, -⟩ := hx.2
    obtain ⟨hxbars, hxtallies⟩ := State.dropArmed_frame (h.sound.find hx.1) hst
    rw [State.dropAll_cons]
    refine ⟨List.forall_mem_cons.2 ⟨⟨fun hp => ?_, fun hp v sch hst => ?_⟩, fun l hl => ?_⟩, hbars.trans hxbars, ?_⟩
    · obtain ⟨hgone, hgen⟩ := hxfate.retired hp
      exact ⟨State.dropAll_slot_free _ hgone, (State.dropAll_other _ hne).2.trans hgen⟩
    · exact (State.dropAll_other _ (l := x.dropped v b) hne).1.2 (hxfate.stays hp v sch hst)
    · have hl' := hfate l hl
      rw [hpast l hl] at hl'
      exact ⟨fun hp => ⟨(hl'.retired hp).1, (hl'.retired hp).2.trans (congrArg (· + 1) (hmove.gen l.slot (hne l hl)))⟩, hl'.stays⟩
    · rw [htallies, hxtallies, List.filter_congr hpast, List.filter_cons]
      cases s.pastRetire x <;> rfl

/-- No live record is left ARMED at the bar (R52). -/
theorem TableOk.dropAll_notArmed {s : State} (h : TableOk s) {b : Bar} {ls : List Live}
    (hls : ∀ l, l ∈ ls ↔ l ∈ s.ft.live ∧ l.ArmedAt b) (hnodup : (ls.map (·.slot)).Nodup) {l : Live}
    (hl : l ∈ (s.dropAll ls).ft.live) : ¬l.ArmedAt b := by
  intro ha
  by_cases hslot : ∃ x ∈ ls, x.slot = l.slot
  · obtain ⟨x, hx, e⟩ := hslot
    have hfate := (h.dropAll_spec (fun y hy => (hls y).1 hy) hnodup).1 x hx
    cases hp : s.pastRetire x with
    | true => exact (hfate.retired hp).1 l hl e.symm
    | false =>
      obtain ⟨v, sch, hst, -⟩ := ((hls x).1 hx).2
      rw [(h.dropAll ls).sound.unique hl (hfate.stays hp v sch hst) e.symm] at ha
      obtain ⟨v', sch', hst', -⟩ := ha
      cases hst'
  · have hno : ∀ x ∈ ls, x.slot ≠ l.slot := fun x hx e => hslot ⟨x, hx, e⟩
    exact hno l ((hls l).2 ⟨(s.dropAll_other hno).1.1 hl, ha⟩) rfl

/-! ### The fault -/

/-- The records ARMED at a bar, in belt order. -/
def State.liveAt (s : State) (b : Bar) : List Live := s.ft.live.filter fun l => (l.record.st.schedule.map (·.bar)) == some b

theorem State.armedAt_eq (s : State) (b : Bar) : s.armedAt b = (s.liveAt b).map (·.slot) := by
  refine congrArg (List.map _) (List.filter_congr fun l _ => ?_)
  cases l.record.st.schedule with
  | none => rfl
  | some sch => simp

theorem State.mem_liveAt (s : State) (b : Bar) (l : Live) : l ∈ s.liveAt b ↔ l ∈ s.ft.live ∧ l.ArmedAt b := by
  rw [State.liveAt, List.mem_filter]
  refine and_congr_right fun _ => ?_
  unfold Live.ArmedAt
  cases l.record.st <;> simp [RecState.schedule]

/-- The bar at its fault, one more draw taken for the order of its records (R119; entry 8). -/
def State.faulting (s : State) (b : Bar) : State := { s.setBar b (s.bar b).faultNow with draws := s.draws + 1 }

theorem State.faulting_samePoints (s : State) (b : Bar) : s.SamePoints (s.faulting b) :=
  ((s.setBar_quiet (b := b) (u := (s.bar b).faultNow) (by rfl)).trans (State.draws_quiet _ _)).points

/-- A fault drops the records ARMED at the bar in some order and raises DRIVER_FAULT (R119). -/
theorem State.faultBar_eq (s : State) (b : Bar) :
    ∃ order : List Live, order.Perm (s.liveAt b) ∧
      s.faultBar b = (((s.faulting b).dropAll order).raise .driverFault (.bar b) none).settleFrom s := by
  obtain ⟨order, he, hperm⟩ := orderParts_records s.draws (s.liveAt b)
  refine ⟨order, hperm, ?_⟩
  unfold State.faultBar State.dropAll
  dsimp only
  rw [s.armedAt_eq, List.map_map, ← he]
  rfl

/-- A bar settled: left as it is, or evaluated. -/
theorem State.settleFrom_bar (u s : State) (b : Bar) :
    (u.settleFrom s).bar b = u.bar b ∨ (u.settleFrom s).bar b = (u.bar b).evalAll (u.barOpen (u.bar b)) u.bpu.T := by
  unfold State.settleFrom
  split
  · exact .inl rfl
  · exact .inr (u.bar_settle b)

/-- The nozzles of a bar at its fault (R119). -/
theorem BarUnit.faultNow_nozzle {u : BarUnit} {n : Nozzle} (hn : n ∈ u.faultNow.nozzles) :
    n.st ≠ .opened ∧ n.onTime = 0 ∧ n.ivals = [] := by
  obtain ⟨m, -, rfl⟩ := List.mem_map.1 hn
  refine ⟨?_, rfl, rfl⟩
  rw [Nozzle.faulted_st]
  split
  · decide
  · assumption

/-- A bar at its fault has nothing left to close (R119, R122). -/
theorem BarUnit.evalAll_faultNow (u : BarUnit) (T : Pos) : u.faultNow.evalAll false T = u.faultNow := by
  have hnone : ∀ n ∈ u.faultNow.nozzles, n.st ≠ .opened := fun n hn => (BarUnit.faultNow_nozzle hn).1
  have hmap : (u.faultNow.nozzles.map fun n => if n.st = .opened then { n with st := .closed, onTime := 0 } else n) =
      u.faultNow.nozzles := (List.map_congr_left fun n hn => if_neg (hnone n hn)).trans (List.map_id' _)
  have hany : (u.faultNow.nozzles.any fun n => n.st == .opened) = false :=
    List.any_eq_false.2 fun n hn => by simpa using hnone n hn
  rw [BarUnit.evalAll_false, hmap, hany, Bool.or_false]

section
variable {w s : State} {b : Bar} (hbars : w.bars = (s.faulting b).bars)
include hbars

/-- The faulted bar after the event (R119). -/
theorem State.settleFrom_faulted (s' : State) : (w.settleFrom s').bar b = (s.bar b).faultNow := by
  have hbar : w.bar b = (s.bar b).faultNow := (congrArg (PerBar.get · b) hbars).trans (s.bar_setBar_same b _)
  have hclosed : w.barOpen (w.bar b) = false := by
    rw [State.barOpen, hbar]
    exact Bool.and_false _
  rcases w.settleFrom_bar s' b with e | e
  · rw [e, hbar]
  · rw [e, hclosed, hbar, BarUnit.evalAll_faultNow]

theorem State.settleFrom_unfaulted (s' : State) {c : Bar} (hc : c ≠ b) :
    ((w.settleFrom s').bar c).settings = (s.bar c).settings ∧ ((w.settleFrom s').bar c).state = (s.bar c).state := by
  have hbar : w.bar c = s.bar c := (congrArg (PerBar.get · c) hbars).trans (PerBar.get_set_other _ _ hc)
  rcases w.settleFrom_bar s' c with e | e <;> rw [e, hbar]
  · exact ⟨rfl, rfl⟩
  · exact ⟨rfl, rfl⟩

end

/-- What a DRIVER_FAULT notice leaves (R154, R156, R158). -/
theorem LineControl.raise_driverFault (lc : LineControl) (time : Pos) (src : Source) (h : Option Handle) :
    (lc.raise time .driverFault src h).pendingSet.getLsbD 10 = true ∧
    (lc.raise time .driverFault src h).condition ≠ .normal ∧
    (lc.raise time .driverFault src h).capture.isSome = true := by
  obtain ⟨-, -, -, -, -, -, hcond, hcapture⟩ := lc.raise_spec time .driverFault src h
  refine ⟨lc.raise_notice_self time .driverFault src h, ?_, ?_⟩
  · rw [hcond]
    cases lc.condition <;> decide
  · rw [hcapture]
    rfl

theorem exec_driverFault (b : Bar) (s : State) (h : s.pins.inReset = false) :
    exec (.driverFault b) s = .next
      (if (s.bar b).state = .ready then
        State.faultBar { s with pins := { s.pins with faultLines := s.pins.faultLines.set b true } } b
      else { s with pins := { s.pins with faultLines := s.pins.faultLines.set b true } }) :=
  congrArg Host.Outcome.next
    (State.awake_of (s := { s with pins := { s.pins with faultLines := s.pins.faultLines.set b true } }) h _)

/-- A driver fault of a bar that is not READY changes the level on the pin alone, in reset or out of it (R119, R132). -/
theorem exec_driverFault_notReady {b : Bar} {s : State} (h : (s.bar b).state ≠ .ready) :
    exec (.driverFault b) s = .next { s with pins := { s.pins with faultLines := s.pins.faultLines.set b true } } := by
  cases hr : s.pins.inReset with
  | false => rw [exec_driverFault b s hr, if_neg h]
  | true =>
    exact congrArg Host.Outcome.next
      (State.awake_inReset (s := { s with pins := { s.pins with faultLines := s.pins.faultLines.set b true } }) hr _)

/-- The tallies of the records that retire, whatever the order in which they are dropped (R160; entry 8). -/
theorem foldl_dropped_perm {xs ys : List Live} (h : xs.Perm ys) (t : Tallies) :
    xs.foldl (fun x l => x.bump .dropped l.record.st.material) t =
      ys.foldl (fun x l => x.bump .dropped l.record.st.material) t := by
  have : RightCommutative fun (x : Tallies) (l : Live) => x.bump .dropped l.record.st.material :=
    ⟨fun x y z => x.bump_comm .dropped _ _⟩
  exact h.foldl_eq t

/-- Settles O29: the records ARMED at the bar are dropped in some order, each with its own fate, and the bar at its fault
has nothing left to evaluate. -/
theorem fault_line_of_a_bar : Obligations.Fault_line_of_a_bar := by
  refine ⟨fun b s hreset hready htable => ?_, fun b s => ⟨exec_driverFault_notReady, rfl⟩⟩
  set s1 : State := { s with pins := { s.pins with faultLines := s.pins.faultLines.set b true } }
  intro armed overdue
  obtain ⟨order, hperm, hfault⟩ := s1.faultBar_eq b
  have hexec : exec (.driverFault b) s = .next (s1.faultBar b) := by
    rw [exec_driverFault b s hreset, if_pos hready]
  have htable1 : TableOk (s1.faulting b) := htable.congr rfl rfl rfl rfl id
  have hmem : ∀ l, l ∈ order ↔ l ∈ s.ft.live ∧ l.ArmedAt b := fun l => hperm.mem_iff.trans (s1.mem_liveAt b l)
  have hnodup : (order.map (·.slot)).Nodup :=
    ((hperm.map (·.slot)).nodup_iff).2 (htable.sound.nodup.sublist (List.filter_sublist.map _))
  have hoverdue : (s1.faulting b).pastRetire = overdue := by
    funext l
    exact congrArg (fun q => s.running && Option.any (fun q => atOrBehind q s.bpu.T) q)
      ((s1.faulting_samePoints b).retireLine l.record.Xt)
  obtain ⟨hfate, hbars, htallies⟩ := htable1.dropAll_spec (fun l hl => (hmem l).1 hl) hnodup
  rw [hoverdue] at hfate htallies
  have hother : ∀ l : Live, l ∉ order → l ∈ s.ft.live → l ∈ ((s1.faulting b).dropAll order).ft.live := fun l hno hl =>
    ((s1.faulting b).dropAll_other fun x hx e => hno (by rwa [← htable.sound.unique ((hmem x).1 hx).1 hl e])).1.2 hl
  have hpart := (s1.faulting b).dropAll_partMove order
  set u := (s1.faulting b).dropAll order
  obtain ⟨hbpu, -, hft, hbanks, hlc, hlink, hpins, htr, hae, -⟩ :=
    State.settleFrom_frame (u.raise .driverFault (.bar b) none) s1
  obtain ⟨hnotice, hcond, hcapture⟩ := u.lc.raise_driverFault u.bpu.T (.bar b) none
  have hbar : (s1.faultBar b).bar b = (s.bar b).faultNow := by
    rw [hfault]
    exact State.settleFrom_faulted (w := u.raise .driverFault (.bar b) none) hbars s1
  refine ⟨s1.faultBar b, hexec, ?_, ?_, ?_, ?_, ?_, ?_, ?_, ?_⟩
  · rw [hfault, hpins]
    exact hpart.pins
  · rw [hbar]
    rfl
  · rw [hbar]
    exact fun n hn => BarUnit.faultNow_nozzle hn
  · rw [hbar]
    rfl
  · rw [hbar]
    rfl
  · rw [hbar]
    rfl
  · rw [hbar]
    rfl
  rw [hfault, hft, hlc, hbpu, hlink, htr, hae, hbanks]
  refine ⟨fun l hl v sch hst e => htable1.dropAll_notArmed hmem hnodup hl ⟨v, sch, hst, e⟩, fun l hl => ?_,
    fun l hl hno => hother l (fun ho => hno (hperm.mem_iff.1 ho)) hl, ?_, hnotice, hcond, hcapture, ?_, hpart.link,
    hpart.tracking, hpart.ae, hpart.data, fun c hc => State.settleFrom_unfaulted (w := u.raise .driverFault (.bar b) none) hbars s1 hc⟩
  · have hl := hfate l (hperm.mem_iff.2 hl)
    exact ⟨hl.retired, hl.stays⟩
  · rw [State.raise_lc, LineControl.raise_tallies, htallies]
    exact foldl_dropped_perm (hperm.filter overdue) _
  · rcases hpart.line with ⟨e, -⟩ | ⟨e, -⟩ <;> rw [State.raise_bpu, e] <;> rfl

end Sys2Proof.Machine
end

