-- ==== Sys2Proof/Proofs/Overdue.lean ====
section
/-! SUPPORT. The overdue points of a record that has taken evidence: decision, freeze and arming, where its retire line is
ahead; the fire-off of an arming lies ahead of T (R42, R43, R72, R109). -/

namespace Sys2Proof.Machine

/-! ### Positions counted from one of them (R5) -/

/-- The position some steps ahead of another, or behind it for a negative number. -/
def stepsFrom (c : Pos) (i : Int) : Pos := c + BitVec.ofInt 32 i

theorem stepsFrom_zero (c : Pos) : stepsFrom c 0 = c := BitVec.add_zero c

theorem stepsFrom_add (c : Pos) (i j : Int) : stepsFrom (stepsFrom c i) j = stepsFrom c (i + j) := by
  rw [stepsFrom, stepsFrom, stepsFrom, BitVec.ofInt_add, BitVec.add_assoc]

theorem fwd_eq_stepsFrom (c : Pos) (n : Nat) : fwd c n = stepsFrom c n := by
  rw [fwd, stepsFrom, BitVec.ofInt_natCast]

theorem back_eq_stepsFrom (c : Pos) (n : Nat) : back c n = stepsFrom c (-n) := by
  have h : BitVec.ofNat 32 n + BitVec.ofInt 32 (-n) = 0 := by
    rw [← BitVec.ofInt_natCast, ← BitVec.ofInt_add, Int.add_right_neg]
    rfl
  rw [back, stepsFrom, BitVec.sub_eq_iff_eq_add, BitVec.add_assoc, BitVec.add_comm _ (BitVec.ofNat 32 n), h]
  exact (BitVec.add_zero c).symm

theorem stepsFrom_stepsTo (a b : Pos) : stepsFrom a (stepsTo a b) = b := by
  rw [stepsFrom, BitVec.ofInt_natCast, stepsTo, BitVec.ofNat_toNat, BitVec.setWidth_eq, BitVec.add_comm, BitVec.sub_add_cancel]

theorem stepsFrom_signedDiff (c p : Pos) : stepsFrom c (signedDiff p c) = p := by
  rw [stepsFrom, signedDiff, BitVec.ofInt_toInt, BitVec.add_comm, BitVec.sub_add_cancel]

theorem signedDiff_bounds (a b : Pos) : -2147483648 ≤ signedDiff a b ∧ signedDiff a b < 2147483648 :=
  ⟨BitVec.le_toInt _, BitVec.toInt_lt⟩

/-- Two positions less than 2^31 steps apart stand as their numbers of steps do. -/
theorem signedDiff_stepsFrom (c : Pos) {i j : Int} (h : -2147483648 ≤ i - j ∧ i - j < 2147483648) :
    signedDiff (stepsFrom c i) (stepsFrom c j) = i - j := by
  have hsub : stepsFrom c i - stepsFrom c j = BitVec.ofInt 32 (i - j) := by
    have hadd := stepsFrom_add c j (i - j)
    rw [Int.add_comm, Int.sub_add_cancel] at hadd
    rw [BitVec.sub_eq_iff_eq_add, BitVec.add_comm]
    exact hadd.symm
  rw [signedDiff, hsub, BitVec.toInt_ofInt_eq_self (by decide) h.1 h.2]

theorem ahead_stepsFrom (c : Pos) {i j : Int} (h : -2147483648 ≤ i - j ∧ i - j < 2147483648) :
    ahead (stepsFrom c i) (stepsFrom c j) = true ↔ j < i := by
  rw [ahead, signedDiff_stepsFrom c h, decide_eq_true_eq]
  omega

theorem atOrBehind_stepsFrom (c : Pos) {i j : Int} (h : -2147483648 ≤ j - i ∧ j - i < 2147483648) :
    atOrBehind (stepsFrom c i) (stepsFrom c j) = true ↔ i ≤ j := by
  rw [atOrBehind, atOrAhead, signedDiff_stepsFrom c h, decide_eq_true_eq]
  omega

/-! ### The fire window (R107 to R109) -/

theorem leadOn_le (st : BarSettings) (V : Nat) : leadOn st V ≤ 4095 := min_le_right _ _

theorem leadOff_le (st : BarSettings) (V : Nat) : leadOff st V ≤ 4095 := min_le_right _ _

/-- T lies near the place where an object with this leading edge reaches the bar. -/
def BarSettings.Near (st : BarSettings) (x T : Pos) : Prop :=
  ∃ t : Int, T = stepsFrom (fwd x st.E) t ∧ -262144 ≤ t ∧ t ≤ 262144

/-- The fire-on is T or not far ahead of it (R108). -/
theorem fireOnOf_from {st : BarSettings} {r : Record} (hst : SettingsOk st) (V : Nat) {t : Int} (hmin : -262144 ≤ t)
    (hmax : t ≤ 262144) :
    ∃ o : Int, fireOnOf st V (stepsFrom (fwd r.X st.E) t) r = stepsFrom (fwd r.X st.E) o ∧ t ≤ o ∧ o ≤ 262144 := by
  have hfront := hst.belt.1
  have hlead := leadOn_le st V
  have hraw : rawFireOn st V r = stepsFrom (fwd r.X st.E) (-st.mFront + -leadOn st V) := by
    rw [rawFireOn, back_eq_stepsFrom, back_eq_stepsFrom, stepsFrom_add]
  unfold fireOnOf
  split
  · exact ⟨t, rfl, le_refl _, hmax⟩
  · next hlate =>
    rw [isLate, hraw, behind, ahead_stepsFrom _ (by omega)] at hlate
    exact ⟨_, hraw, not_lt.1 hlate, by omega⟩

/-- The fire-off of an arming lies ahead of T, where T lies near the bar's reach of X (R109). -/
theorem fireOffOf_ahead {st : BarSettings} {T : Pos} {r : Record} (hst : SettingsOk st) (V : Nat)
    (hlen : stepsTo r.X r.Xt ≤ 4095) (hT : st.Near r.X T) : atOrBehind (fireOffOf st V T r) T = false := by
  obtain ⟨t, rfl, hmin, hmax⟩ := hT
  obtain ⟨o, hon, hto, homax⟩ := fireOnOf_from (r := r) hst V hmin hmax
  have hback := hst.belt.2
  have hlead := leadOff_le st V
  have hraw : rawFireOff st V r = stepsFrom (fwd r.X st.E) (stepsTo r.X r.Xt + st.mBack + -leadOff st V) := by
    have hXt : fwd r.Xt st.E = stepsFrom (fwd r.X st.E) (stepsTo r.X r.Xt) := by
      conv_lhs => rw [← stepsFrom_stepsTo r.X r.Xt]
      rw [fwd_eq_stepsFrom, fwd_eq_stepsFrom, stepsFrom_add, stepsFrom_add, Int.add_comm]
    rw [rawFireOff, back_eq_stepsFrom, fwd_eq_stepsFrom, hXt, stepsFrom_add, stepsFrom_add, Int.add_assoc]
  rw [← Bool.not_eq_true, fireOffOf, hon, hraw]
  split
  · next hahead =>
    rw [ahead_stepsFrom _ (by omega)] at hahead
    rw [atOrBehind_stepsFrom _ (by omega)]
    omega
  · rw [fwd_eq_stepsFrom, stepsFrom_add, atOrBehind_stepsFrom _ (by omega)]
    omega

/-! ### The retire line lies past every other point (R42, R149) -/

theorem le_getLast_of_strictlyRising {xs : List Nat} (h : strictlyRising xs = true) {n m : Nat} (hn : n ∈ xs)
    (hm : xs.getLast? = some m) : n ≤ m := by
  induction xs generalizing n with
  | nil => cases hn
  | cons a rest ih =>
    cases rest with
    | nil =>
      rw [List.mem_singleton.1 hn]
      exact (Option.some.inj hm).le
    | cons b rest =>
      rw [strictlyRising, Bool.and_eq_true, decide_eq_true_eq] at h
      rw [List.getLast?_cons_cons] at hm
      rcases List.mem_cons.1 hn with rfl | hn
      · exact h.1.le.trans (ih h.2 List.mem_cons_self hm)
      · exact ih h.2 hn hm

theorem State.mem_enabledBars (s : State) (b : Bar) : b ∈ s.enabledBars ↔ (s.bar b).settings.enabled = true := by
  have hall : b ∈ allBars := by cases b <;> decide
  simp [State.enabledBars, hall]

/-- Under the geometry check no enabled bar stands further along the belt than the highest one (R149). -/
theorem State.E_le_high {s : State} (h : s.geometryOk = true) {b : Bar} (hb : (s.bar b).settings.enabled = true) :
    ∃ l, s.highBar = some l ∧ (s.bar b).settings.E ≤ (s.bar l).settings.E := by
  have hmem := (s.mem_enabledBars b).2 hb
  cases hl : s.highBar with
  | none =>
    rw [State.highBar, List.getLast?_eq_none_iff] at hl
    rw [hl] at hmem
    cases hmem
  | some l =>
    have hrising : strictlyRising (s.enabledBars.map fun b => (s.bar b).settings.E) = true := by
      unfold State.geometryOk at h
      split at h
      · cases h
      · simp only [Bool.and_eq_true] at h
        exact h.1.1.1.2
    have hlast : (s.enabledBars.map fun b => (s.bar b).settings.E).getLast? = some (s.bar l).settings.E := by
      rw [List.getLast?_map]
      exact congrArg _ hl
    exact ⟨l, rfl, le_getLast_of_strictlyRising hrising (List.mem_map_of_mem hmem) hlast⟩

theorem State.lowBar_enabled {s : State} {f : Bar} (h : s.lowBar = some f) : (s.bar f).settings.enabled = true :=
  (s.mem_enabledBars f).1 (List.mem_of_head? h)

/-- An arm point is worked from an enabled bar: its own, or the lowest (R42). -/
theorem State.armPoint_enabled {s : State} {x p : Pos} {b : Bar} (h : s.armPoint x b = some p) :
    ∃ c, (s.bar c).settings.enabled = true ∧
      p = stepsFrom x ((s.bar c).settings.E + -(s.bar c).settings.A) := by
  have hsteps : ∀ c, back (fwd x (s.bar c).settings.E) (s.bar c).settings.A =
      stepsFrom x ((s.bar c).settings.E + -(s.bar c).settings.A) := fun c => by
    rw [back_eq_stepsFrom, fwd_eq_stepsFrom, stepsFrom_add]
  unfold State.armPoint at h
  split at h
  · next hb => exact ⟨b, hb, (Option.some.inj h).symm.trans (hsteps b)⟩
  · rw [State.freezePoint, Option.map_eq_some_iff] at h
    obtain ⟨f, hf, rfl⟩ := h
    exact ⟨f, State.lowBar_enabled hf, hsteps f⟩

/-- At an arm point that T has passed while the retire line is ahead, T lies near the bar's reach of X (R42). -/
theorem State.near_of_armPoint {s : State} (hs : s.InRange) (hgeo : s.geometryOk = true) {x xt : Pos} {b : Bar}
    (hlen : stepsTo x xt ≤ s.tracking.lMax) (hp : s.reached (s.armPoint x b) = true)
    (hq : s.reached (s.retireLine xt) = false) : (s.bar b).settings.Near x s.bpu.T := by
  have hmax := hs.lMax
  have hEb := (hs.bars b).E
  cases hpoint : s.armPoint x b with
  | none => rw [hpoint] at hp; cases hp
  | some p =>
    obtain ⟨c, hc, hpc⟩ := State.armPoint_enabled hpoint
    obtain ⟨l, hl, hle⟩ := State.E_le_high hgeo hc
    have hA := (hs.bars c).A
    have hEc := (hs.bars c).E
    have hEl := (hs.bars l).E
    have hback := (hs.bars l).belt.2
    have hretire : s.retireLine xt =
        some (stepsFrom x (stepsTo x xt + (s.bar l).settings.E + (s.bar l).settings.mBack)) := by
      rw [State.retireLine, hl, Option.map_some, ← stepsFrom_add, ← stepsFrom_add, stepsFrom_stepsTo, fwd_eq_stepsFrom,
        fwd_eq_stepsFrom]
    have hT : stepsFrom x ((s.bar c).settings.E + -(s.bar c).settings.A + signedDiff s.bpu.T p) = s.bpu.T := by
      rw [← stepsFrom_add, ← hpc, stepsFrom_signedDiff]
    have hbounds := signedDiff_bounds s.bpu.T p
    rw [hpoint, State.reached, Option.any_some, atOrBehind, atOrAhead, decide_eq_true_eq] at hp
    generalize signedDiff s.bpu.T p = k at *
    rw [hretire, State.reached, Option.any_some, ← hT, ← Bool.not_eq_true, atOrBehind_stepsFrom _ (by omega)] at hq
    refine ⟨-(s.bar b).settings.E + (s.bar c).settings.E + -(s.bar c).settings.A + k, ?_, by omega, by omega⟩
    rw [← hT, fwd_eq_stepsFrom, stepsFrom_add]
    congr 1
    omega

/-! ### A record placed among the others (R41) -/

/-- The state with a record at its place among the others. -/
def State.placed (v : State) (slot : Nat) (live : List Live) (x : Record) : State :=
  { v with ft := { v.ft with live := insertLive ⟨slot, x⟩ live } }

/-- A DECIDED record after its freeze, where its freeze point is at or behind T (R50). -/
def State.frozen (s : State) (r : Record) : Record :=
  match r.st with
  | .decided v d => if s.reached (s.freezePoint r.X) then { r with st := freezeState v d } else r
  | _ => r

/-- An OPEN record after its decision, where its decision point is at or behind T (R49). -/
def State.decidedIfDue (s : State) (r : Record) : Record :=
  if r.st = .opened ∧ s.reached (some (s.decisionPoint r)) = true then decideRecord s r else r

theorem State.overdue_eq (s : State) (r : Record) : s.overdue r = s.frozen (s.decidedIfDue r) := by
  unfold State.overdue State.frozen State.decidedIfDue
  dsimp only
  generalize (if r.st = .opened ∧ s.reached (some (s.decisionPoint r)) = true then decideRecord s r else r) = r1
  cases hst : r1.st with
  | decided v d => cases d <;> rfl
  | _ => rfl

/-- The overdue points depend on the points, T and what a decision reads (R42, R76). -/
theorem State.overdue_congr {s t : State} (h : s.SamePoints t) (hT : t.bpu.T = s.bpu.T)
    (hd : ∀ r, decideRecord t r = decideRecord s r) (r : Record) : t.overdue r = s.overdue r := by
  have hreached : ∀ q, t.reached q = s.reached q := fun q => by simp only [State.reached, hT]
  simp only [State.overdue, hreached, h.decisionPoint, h.freezePoint, hd]

theorem State.placed_samePoints (v : State) (slot : Nat) (live : List Live) (x : Record) :
    v.SamePoints (v.placed slot live x) := ⟨fun _ => ⟨rfl, rfl⟩, rfl, fun _ => rfl⟩

theorem State.decideRecord_placed (v : State) (slot : Nat) (live : List Live) (x r : Record) :
    decideRecord (v.placed slot live x) r = decideRecord v r :=
  decideRecord_congr (s := v) (t := v.placed slot live x) rfl (fun _ => ⟨rfl, rfl⟩) r

/-- The record that an arming leaves awaits a point ahead of T: its fire-off, or its retire line (R52, R53). -/
theorem State.arm_awaits {s : State} {r : Record} {v : Verdict} {b : Bar} {slot : Nat} (hf : s.ft.find slot = some r)
    (hst : SettingsOk (s.bar b).settings) (hlen : stepsTo r.X r.Xt ≤ 4095) (hnear : (s.bar b).settings.Near r.X s.bpu.T)
    (hret : s.reached (s.retireLine r.Xt) = false) (n : Nat) : (s.arm slot r v b).runDue n slot = s.arm slot r v b := by
  obtain ⟨st, late, ⟨bars, lc, harm, -⟩, hto⟩ := s.arm_armMove slot r v b
  have hpart := s.arm_partMove slot r v b
  have hfind : (s.arm slot r v b).ft.find slot = some (r.armedAs st late) := by
    rw [harm, FragTable.find_modRecord, hf]
    rfl
  refine State.runDue_stop hfind ?_ n
  have hreached : ∀ q, (s.arm slot r v b).reached q = s.reached q := fun q => by simp only [State.reached, hpart.T]
  rw [hreached, hpart.samePoints.awaited, State.awaited]
  rcases hto with ⟨sch, rfl, -, hoff⟩ | ⟨o, rfl, -⟩
  · exact (congrArg (fun q => s.reached (some q)) hoff).trans (fireOffOf_ahead hst s.bpu.V hlen hnear)
  · exact hret

/-- A record whose retire line is ahead, on a line whose settings are in range and pass the geometry check (R42, R100). -/
structure State.Ahead (v : State) (r : Record) : Prop where
  inRange  : v.InRange
  geometry : v.geometryOk = true
  length   : stepsTo r.X r.Xt ≤ v.tracking.lMax
  retire   : v.reached (v.retireLine r.Xt) = false

theorem State.Ahead.congr {v : State} {r x : Record} (h : v.Ahead r) (hX : x.X = r.X) (hXt : x.Xt = r.Xt) : v.Ahead x :=
  ⟨h.inRange, h.geometry, by rw [hX, hXt]; exact h.length, by rw [hXt]; exact h.retire⟩

section
variable {v : State} {slot : Nat} {live : List Live} (hfree : ∀ l ∈ live, l.slot ≠ slot)
include hfree

theorem State.find_placed (x : Record) : (v.placed slot live x).ft.find slot = some x := by
  refine FragTable.find_eq_some ((mem_insertLive _ _ _).2 (.inl rfl)) fun l hl hslot => ?_
  rcases (mem_insertLive _ _ _).1 hl with rfl | hl
  · rfl
  · exact absurd hslot (hfree l hl)

/-- A change that keeps X and first lane leaves the record's place. -/
theorem State.modRecord_placed {x : Record} {f : Record → Record} (hX : (f x).X = x.X) (hfirst : (f x).first = x.first) :
    (v.placed slot live x).modRecord slot f = v.placed slot live (f x) := by
  simp only [State.modRecord, FragTable.modRecord, State.placed, map_insertLive hfree hX hfirst]

/-! ### The run of its points -/

theorem State.runDue_placed_stop {r : Record} (h : v.reached (v.awaited r) = false) (n : Nat) :
    (v.placed slot live r).runDue n slot = v.placed slot live r := by
  refine State.runDue_stop (State.find_placed hfree r) ?_ n
  rw [(v.placed_samePoints slot live r).awaited]
  exact h

theorem State.runDue_placed_take {r : Record} (hrun : v.running = true) (h : v.reached (v.awaited r) = true) (n : Nat) :
    (v.placed slot live r).runDue (n + 1) slot = ((v.placed slot live r).takePoint slot r).runDue n slot := by
  refine State.runDue_take (State.find_placed hfree r) hrun ?_ n
  rw [(v.placed_samePoints slot live r).awaited]
  exact h

variable (hrun : v.running = true)
include hrun

/-- The arming that is due at a COMMITTED record (R51). -/
theorem State.runDue_committed {r : Record} (h : v.Ahead r) {w : Verdict} {b : Bar} (hst : r.st = .committed w b) (n : Nat) :
    (v.placed slot live r).runDue (n + 1) slot = (v.placed slot live r).armIfDue slot r := by
  have hsame := v.placed_samePoints slot live r
  have hawaited : v.awaited r = v.armPoint r.X b := by rw [State.awaited, hst]
  rw [State.armIfDue, hst]
  dsimp only
  split
  · next hdue =>
    have hdue : v.reached (v.armPoint r.X b) = true := hdue
    rw [State.runDue_placed_take hfree hrun (by rwa [hawaited]), State.takePoint, hst]
    exact State.arm_awaits (State.find_placed hfree r) (h.inRange.bars b) (h.length.trans h.inRange.lMax)
      (State.near_of_armPoint h.inRange h.geometry h.length hdue h.retire) h.retire n
  · next hdue =>
    have hdue : v.reached (v.armPoint r.X b) = false := Bool.not_eq_true _ ▸ hdue
    exact State.runDue_placed_stop hfree (by rwa [hawaited]) _

/-- The freeze that is due at a DECIDED record, and the arming that follows (R50). -/
theorem State.runDue_decided {r : Record} (h : v.Ahead r) {w : Verdict} {d : Dest} (hst : r.st = .decided w d) (n : Nat) :
    (v.placed slot live r).runDue (n + 2) slot = (v.placed slot live (v.frozen r)).armIfDue slot (v.frozen r) := by
  have hawaited : v.awaited r = v.freezePoint r.X := by rw [State.awaited, hst]
  cases hdue : v.reached (v.freezePoint r.X) with
  | false =>
    have hfrozen : v.frozen r = r := by rw [State.frozen, hst]; exact if_neg (by rw [hdue]; decide)
    rw [hfrozen, State.runDue_placed_stop hfree (by rwa [hawaited]), State.armIfDue, hst]
  | true =>
    have hfrozen : v.frozen r = { r with st := freezeState w d } := by rw [State.frozen, hst]; exact if_pos hdue
    have htake : (v.placed slot live r).takePoint slot r = v.placed slot live { r with st := freezeState w d } := by
      rw [State.takePoint, hst]
      exact State.modRecord_placed (f := fun x => { x with st := freezeState w d }) hfree rfl rfl
    rw [hfrozen, State.runDue_placed_take hfree hrun (by rwa [hawaited]), htake]
    cases d with
    | pass => exact State.runDue_placed_stop hfree h.retire _
    | bar b => exact State.runDue_committed hfree hrun (h.congr (x := { r with st := .committed w b }) rfl rfl) rfl n

/-- The overdue points of a record that has taken evidence: decision, freeze and arming in turn (R43, R72). -/
theorem State.takeOverdue_placed {r : Record} (h : v.Ahead r) (hst : r.st.takesEvidence = true) :
    (v.placed slot live r).takeOverdue slot = (v.placed slot live (v.overdue r)).armIfDue slot (v.overdue r) := by
  rw [v.overdue_eq, State.takeOverdue]
  cases hr : r.st with
  | decided w d =>
    have hdecided : v.decidedIfDue r = r := if_neg fun hc => by rw [hr] at hc; cases hc.1
    rw [hdecided]
    exact State.runDue_decided hfree hrun h hr 3
  | opened =>
    have hawaited : v.awaited r = some (v.decisionPoint r) := by rw [State.awaited, hr]
    cases hdue : v.reached (some (v.decisionPoint r)) with
    | false =>
      have hdecided : v.decidedIfDue r = r := if_neg fun hc => by rw [hdue] at hc; cases hc.2
      have hfrozen : v.frozen r = r := by rw [State.frozen, hr]
      rw [hdecided, hfrozen, State.runDue_placed_stop hfree (by rwa [hawaited]), State.armIfDue, hr]
    | true =>
      have hdecided : v.decidedIfDue r = decideRecord v r := if_pos ⟨hr, hdue⟩
      have htake : (v.placed slot live r).takePoint slot r = v.placed slot live (decideRecord v r) := by
        rw [State.takePoint, hr, ← v.decideRecord_placed slot live r r]
        exact State.modRecord_placed hfree rfl rfl
      obtain ⟨d, hd⟩ := decideRecord_st v r
      rw [hdecided, State.runDue_placed_take hfree hrun (by rwa [hawaited]), htake]
      exact State.runDue_decided hfree hrun (h.congr (x := decideRecord v r) rfl rfl) hd 2
  | committed _ _ => rw [hr] at hst; cases hst
  | armed _ _ => rw [hr] at hst; cases hst
  | passing _ _ _ => rw [hr] at hst; cases hst

end

end Sys2Proof.Machine
end

