-- ==== Sys2Proof/Proofs/Attach.lean ====
section
/-! SUPPORT. The end of a treatment at one record, and a detection attached to its candidate (R67, R68, R71, R72); settles
O20. -/

namespace Sys2Proof.Machine

/-! ### An arming and the engine -/

theorem State.reportWatch_engineFree (s : State) (b : Bar) (slot : Nat) (set : List Nat) :
    (s.reportWatch b slot set).engineFree = s.engineFree.reportWatch b slot set := by
  rw [State.reportWatch, apply_ite State.engineFree]
  rfl

theorem State.reportLate_engineFree (s : State) (b : Bar) (slot : Nat) (late : Bool) :
    (s.reportLate b slot late).engineFree = s.engineFree.reportLate b slot late := by
  cases late <;> rfl

theorem State.guardAndCommit_engineFree (s : State) (slot : Nat) (r : Record) (v : Verdict) (sch : Schedule)
    (set : List Nat) :
    (s.guardAndCommit slot r v sch set).engineFree = s.engineFree.guardAndCommit slot r v sch set := by
  rw [State.guardAndCommit, apply_ite State.engineFree, apply_ite State.engineFree]
  rfl

/-- An arming does not look at the engine. -/
theorem State.arm_engineFree (s : State) (slot : Nat) (r : Record) (v : Verdict) (b : Bar) :
    (s.arm slot r v b).engineFree = s.engineFree.arm slot r v b := by
  unfold State.arm
  dsimp only
  rw [apply_ite State.engineFree, apply_ite State.engineFree, apply_ite State.engineFree, State.guardAndCommit_engineFree,
    State.reportLate_engineFree, State.reportWatch_engineFree]
  rfl

theorem State.armIfDue_engineFree (s : State) (slot : Nat) (r : Record) :
    (s.armIfDue slot r).engineFree = s.engineFree.armIfDue slot r := by
  unfold State.armIfDue
  split
  · rw [apply_ite State.engineFree, State.arm_engineFree]
    rfl
  · rfl

/-- An arming touches the table, the bars and the notices alone. -/
theorem State.armIfDue_frame (s : State) (slot : Nat) (r : Record) :
    ∃ ft bars lc, s.armIfDue slot r = { s with ft, bars, lc } := by
  unfold State.armIfDue
  split
  · split
    · next v b _ _ =>
      obtain ⟨st, late, ⟨bars, lc, harm, -⟩, -⟩ := s.arm_armMove slot r v b
      exact ⟨_, bars, lc, harm⟩
    · exact ⟨_, _, _, rfl⟩
  · exact ⟨_, _, _, rfl⟩

/-- Settling changes nothing but what the evaluation of every nozzle changes (R122). -/
theorem State.settle_evaluatedFrom (s : State) : s.settle.EvaluatedFrom s where
  ft := rfl
  banks := rfl
  lc := rfl
  bpu := rfl
  bars b := by rw [State.bar_settle]; rfl
  ivals b m := s.nozzle_settle_ivals b m
  nozzles := s.settle_evaluated

/-! ### The end of a treatment (R72) -/

/-- The record of a treatment, decided anew where that is called for, after its overdue points (R72). -/
def State.treated (s : State) (r : Record) (redecide : Bool) : Record := s.overdue (if redecide then decideRecord s r else r)

theorem State.complete_placed {v : State} {slot : Nat} {live : List Live} (hfree : ∀ l ∈ live, l.slot ≠ slot)
    (hrun : v.running = true) {r : Record} (h : v.Ahead r) {redecide : Bool}
    (hst : redecide = false → r.st.takesEvidence = true) :
    (v.placed slot live r).complete slot redecide =
      ((v.placed slot live (v.treated r redecide)).armIfDue slot (v.treated r redecide)).settle := by
  cases redecide with
  | false => exact congrArg State.settle (State.takeOverdue_placed hfree hrun h (hst rfl))
  | true =>
    have hmod : (v.placed slot live r).modRecord slot (decideRecord (v.placed slot live r)) =
        v.placed slot live (decideRecord v r) := by
      rw [State.modRecord_placed hfree rfl rfl, v.decideRecord_placed]
    obtain ⟨d, hd⟩ := decideRecord_st v r
    have hover := State.takeOverdue_placed hfree hrun (h.congr (x := decideRecord v r) rfl rfl) (by rw [hd]; rfl)
    rw [State.complete, if_pos rfl, hmod, hover]
    rfl

/-- A treatment completed and the engine free again: an arming that is due, and every nozzle evaluated (R72). -/
theorem State.completed_evaluatedFrom (u : State) (slot : Nat) (x : Record) :
    (u.armIfDue slot x).settle.engineFree.EvaluatedFrom (u.engineFree.armIfDue slot x) := by
  rw [← State.armIfDue_engineFree]
  exact State.settle_evaluatedFrom (u.armIfDue slot x).engineFree

theorem State.completed_frame (u : State) (slot : Nat) (x : Record) :
    (u.armIfDue slot x).settle.engineFree.link = u.link ∧ (u.armIfDue slot x).settle.engineFree.tracking = u.tracking ∧
    (u.armIfDue slot x).settle.engineFree.ports = u.ports ∧ (u.armIfDue slot x).settle.engineFree.ae = u.engineFree.ae := by
  obtain ⟨ft, bars, lc, e⟩ := u.armIfDue_frame slot x
  rw [e]
  exact ⟨rfl, rfl, rfl, rfl⟩

/-! ### What a take leaves of points and ranges -/

theorem State.SamePoints.inRange {s t : State} (h : s.SamePoints t) (hs : s.InRange) : t.InRange :=
  ⟨fun b => by rw [h.settings b]; exact hs.bars b, by rw [h.tracking]; exact hs.lMax⟩

theorem State.SamePoints.ahead {s t : State} (h : s.SamePoints t) (hT : t.bpu.T = s.bpu.T) {r : Record} (hs : s.Ahead r) :
    t.Ahead r where
  inRange := h.inRange hs.inRange
  geometry := h.geometryOk.trans hs.geometry
  length := by rw [h.tracking]; exact hs.length
  retire := by
    rw [h.retireLine, State.reached, hT]
    exact hs.retire

theorem State.SamePoints.treated {s t : State} (h : s.SamePoints t) (hT : t.bpu.T = s.bpu.T)
    (hd : ∀ r, decideRecord t r = decideRecord s r) (r : Record) (redecide : Bool) : t.treated r redecide = s.treated r redecide := by
  rw [State.treated, State.treated, State.overdue_congr h hT hd, hd]

/-! ### One candidate -/

/-- The candidate that a detection is given to: the only one, or the one with the largest overlap of several that are not
merged (R67, R71). -/
theorem State.matchAndTreat_gives {s : State} {d : Detection} {c : Live} (hm : ¬s.merges d (s.openTo d))
    (hc : s.largestOf d (s.openTo d) c) (clipped : Bool) :
    s.matchAndTreat d clipped = s.giveTo d clipped (s.hasFrozen d) c := by
  unfold State.matchAndTreat
  dsimp only
  rw [s.candidates_eq_openTo]
  cases ho : s.openTo d with
  | nil =>
    rw [ho] at hc
    exact absurd hc State.not_largestOf_nil
  | cons x xs =>
    rw [ho] at hm hc
    have hbest := bestOf_eq hc
    cases xs with
    | nil => rw [← hbest]; rfl
    | cons y ys =>
      dsimp only
      rw [if_neg (fun h => hm ((canMerge_iff s d x y ys).1 h)), hbest]

theorem State.treat_gives {s : State} {d : Detection} {c : Live} (hd : isDust s.tracking d = false)
    (hm : ¬s.merges (s.shortened d) (s.openTo (s.shortened d)))
    (hc : s.largestOf (s.shortened d) (s.openTo (s.shortened d)) c) (hfits : s.fits (s.shortened d) c) :
    s.treat d =
      (s.placed c.slot (removeSlot s.ft.live c.slot)
        (attached c.record (s.shortened d) (decide (s.tracking.lMax < stepsTo d.X d.Xt)))).complete c.slot
          c.record.st.isDecided := by
  rw [State.treat, hd, clip_eq_shortened, needsClip_eq]
  refine (State.matchAndTreat_gives hm hc _).trans ((if_pos ?_).trans rfl)
  exact decide_eq_true hfits

/-- The largest of some candidates is one of them (R71). -/
theorem State.largestOf_mem {s : State} {d : Detection} {cs : List Live} {c : Live} (h : s.largestOf d cs c) : c ∈ cs := by
  obtain ⟨before, after, rfl, -⟩ := h
  simp

/-- A candidate is live, and OPEN or DECIDED (R64). -/
theorem State.mem_openTo {s : State} {d : Detection} {c : Live} (h : c ∈ s.openTo d) :
    c ∈ s.ft.live ∧ c.record.st.takesEvidence = true := by
  obtain ⟨hlive, hmatch⟩ := List.mem_filter.1 h
  exact ⟨hlive, (Bool.and_eq_true_iff.1 hmatch).2⟩

theorem RecState.isDecided_eq {st : RecState} (h : st.takesEvidence = true) : st.isDecided = !decide (st = .opened) := by
  cases st with
  | opened => rfl
  | decided _ _ => rfl
  | committed _ _ => cases h
  | armed _ _ => cases h
  | passing _ _ _ => cases h

/-- The record with a shortened detection attached, in the detection's own values (R62, R67, R68). -/
theorem attached_shortened (s : State) (r : Record) (d : Detection) (clipped : Bool) :
    attached r (s.shortened d) clipped =
      { r with
        X := behindMost r.X (s.shortened d).X
        Xt := aheadMost r.Xt (s.shortened d).Xt
        first := min r.first d.first
        last := max r.last d.last
        evidence := r.evidence.set d.station
          (match r.evidence.get d.station with
          | none => some d.entry
          | some held => if held.area.getD 0 < d.area.getD 0 then some d.entry else some held)
        flags := { r.flags with clipped := r.flags.clipped || clipped } } := by
  have hevidence : addEvidence r.evidence (s.shortened d) = addEvidence r.evidence d := by
    rw [s.shortened_eq d]
    rfl
  have hkeep : ∀ held, keepLarger held (some d.entry) =
      match held with
      | none => some d.entry
      | some held => if held.area.getD 0 < d.area.getD 0 then some d.entry else some held := by
    rintro (_ | held) <;> rfl
  unfold attached
  rw [hevidence, addEvidence, hkeep]
  unfold State.shortened
  split <;> rfl

/-- The decision anew of a candidate: of a DECIDED one (R72). -/
theorem State.treated_candidate (s : State) (r : Record) {st : RecState} (h : st.takesEvidence = true) :
    s.treated r st.isDecided = s.overdue (if st = .opened then r else decideRecord s r) := by
  rw [State.treated, RecState.isDecided_eq h]
  by_cases ho : st = .opened
  · rw [if_pos ho, decide_eq_true ho]
    rfl
  · rw [if_neg ho, decide_eq_false ho]
    rfl

/-- A take that completes the treatment of a record at its place among the others (R58, R72). -/
theorem exec_assocTake_completes {s v : State} {p : Station} {d : Detection} {rest : List Detection} (ht : Takes s p d rest)
    {slot : Nat} {live : List Live} {r : Record} {redecide : Bool}
    (htreat : (s.underTake p rest).treat d = (v.placed slot live r).complete slot redecide)
    (hfree : ∀ l ∈ live, l.slot ≠ slot) (hst : redecide = false → r.st.takesEvidence = true) (hmove : (s.underTake p rest).PartMove v)
    (hmode : v.lc.mode = s.lc.mode) (hports : v.ports = (s.underTake p rest).ports) (h : s.Ahead r) :
    ∃ t, exec .assocTake s = .next t ∧
      t.EvaluatedFrom ((v.placed slot live (s.treated r redecide)).engineFree.armIfDue slot (s.treated r redecide)) ∧
      t.link = s.link ∧ t.tracking = s.tracking ∧ t.ports = (s.afterTake p rest).ports ∧ t.ae = (s.afterTake p rest).ae := by
  have hsame : s.SamePoints v := (s.underTake_samePoints p rest).trans hmove.samePoints
  have hT : v.bpu.T = s.bpu.T := hmove.T
  have hdecide : ∀ x, decideRecord v x = decideRecord s x := fun x => by
    refine (decideRecord_congr hmove.data (fun q => ?_) x).trans (s.decideRecord_underTake p rest x)
    rw [State.port, hports]
    exact ⟨rfl, rfl⟩
  have hrun : v.running = true := by
    rw [State.running, hmode]
    exact ht.running
  have hcomplete := State.complete_placed hfree hrun (hsame.ahead hT h) hst
  rw [hsame.treated hT hdecide] at hcomplete
  obtain ⟨hlink, htr, hp, hae⟩ := State.completed_frame (v.placed slot live (s.treated r redecide)) slot (s.treated r redecide)
  refine ⟨_, (exec_assocTake ht).trans (congrArg (fun u : State => Host.Outcome.next u.engineFree) (htreat.trans hcomplete)),
    State.completed_evaluatedFrom _ slot _, hlink.trans hmove.link, htr.trans hmove.tracking, hp.trans hports, hae.trans ?_⟩
  exact congrArg (fun ae : Engine => { ae with free := true }) hmove.ae

/-! ### Matches and overlaps (R63, R64, R71) -/

theorem isMatch_iff (tr : Tracking) (d : Detection) (r : Record) :
    isMatch tr d r = true ↔
      atOrBehind r.X (wideEnd tr d) = true ∧ atOrBehind (wideStart tr d) r.Xt = true ∧ r.first ≤ wideLast tr d ∧
        wideFirst tr d ≤ r.last := by
  simp only [isMatch, rangesMeet, lanesMeet, Bool.and_eq_true, decide_eq_true_eq, and_assoc]

/-- Settles O20. -/
theorem detection_attaches_to_its_candidate : Obligations.Detection_attaches_to_its_candidate := by
  refine ⟨fun p d rest c s ht _ hs hgeo hd => ?_, fun tr d r => ⟨isMatch_iff tr d r, rfl⟩⟩
  intro d' hm hc hfits e r x hret w
  obtain ⟨-, htakes⟩ := State.mem_openTo (State.largestOf_mem hc)
  have hrec : attached c.record d' (decide (s.tracking.lMax < stepsTo d.X d.Xt)) = r := by
    refine (attached_shortened s c.record d _).trans ?_
    rw [ht.station]
    rfl
  have htreat : (s.underTake p rest).treat d =
      ((s.underTake p rest).placed c.slot (removeSlot s.ft.live c.slot) r).complete c.slot c.record.st.isDecided :=
    (State.treat_gives (s := s.underTake p rest) hd hm hc hfits).trans
      (congrArg (fun r => State.complete (State.placed _ _ _ r) _ _) hrec)
  have hx : s.treated r c.record.st.isDecided = x := s.treated_candidate r htakes
  have hother : ∀ l ∈ removeSlot s.ft.live c.slot, l.slot ≠ c.slot := fun l hl => ((mem_removeSlot _ _ _).1 hl).2
  have hdone := exec_assocTake_completes ht htreat hother (fun _ => htakes) (.refl _) rfl rfl ⟨hs, hgeo, hfits, hret⟩
  rw [hx] at hdone
  exact hdone

end Sys2Proof.Machine
end

