-- ==== Sys2Proof/Proofs/Merge.lean ====
section
/-! SUPPORT. Candidates merged: the union of their extents, the entry kept for a station, the others absorbed (R55, R69,
R70); settles O21. -/

namespace Sys2Proof.Machine

/-! ### The union of positions (R69) -/

/-- The result of a choice between positions, one by one, is one of them. -/
theorem foldl_choice_mem {f : Pos → Pos → Pos} (hf : ∀ a b, f a b = a ∨ f a b = b) (xs : List Pos) (a : Pos) :
    xs.foldl f a ∈ a :: xs := by
  induction xs generalizing a with
  | nil => exact List.mem_singleton_self a
  | cons x xs ih =>
    rw [List.foldl_cons]
    rcases hf a x with e | e <;> rw [e]
    · rcases List.mem_cons.1 (ih a) with h | h
      · exact List.mem_cons.2 (.inl h)
      · exact List.mem_cons_of_mem _ (List.mem_cons_of_mem _ h)
    · exact List.mem_cons_of_mem _ (ih x)

/-- All of some positions lie within 2^20 steps of each other (R5). -/
def AllNear (xs : List Pos) : Prop := ∀ p ∈ xs, ∀ q ∈ xs, (p - q).toInt.natAbs < 1048576

theorem AllNear.subset {xs ys : List Pos} (h : AllNear xs) (hsub : ys ⊆ xs) : AllNear ys :=
  fun p hp q hq => h p (hsub hp) q (hsub hq)

/-- Distances between near positions add up. -/
theorem signedDiff_add {p q r : Pos} (hpq : (signedDiff p q).natAbs < 1048576) (hqr : (signedDiff q r).natAbs < 1048576) :
    signedDiff p r = signedDiff p q + signedDiff q r := by
  have hp : p = stepsFrom r (signedDiff q r + signedDiff p q) := by
    rw [← stepsFrom_add, stepsFrom_signedDiff, stepsFrom_signedDiff]
  have h := signedDiff_stepsFrom r (i := signedDiff q r + signedDiff p q) (j := 0) (by omega)
  rw [← hp, stepsFrom_zero] at h
  omega

/-- Among near positions, not being ahead is transitive (R5). -/
theorem ahead_false_trans {p q r : Pos} (h : AllNear [p, q, r]) (hpq : ahead p q = false) (hqr : ahead q r = false) :
    ahead p r = false := by
  have hadd := signedDiff_add (h p (by simp) q (by simp)) (h q (by simp) r (by simp))
  simp only [ahead, decide_eq_false_iff_not, not_lt] at *
  omega

/-- Of two near positions at most one is ahead of the other (R5). -/
theorem ahead_asymm {a b : Pos} (h : ahead a b = true) : ahead b a = false := by
  rw [ahead_iff] at h
  rw [← Bool.not_eq_true, ahead_iff]
  bv_omega

theorem ahead_self (a : Pos) : ahead a a = false := by
  rw [← Bool.not_eq_true, ahead_iff]
  simp

/-- The choice by an order that is asymmetric, and whose negation is transitive on near positions, finds a position that
none of the others precedes (R69). -/
theorem foldl_choice_extreme {lt : Pos → Pos → Bool} (hself : ∀ a, lt a a = false)
    (hasymm : ∀ a b, lt a b = true → lt b a = false)
    (htrans : ∀ p q r, AllNear [p, q, r] → lt p q = false → lt q r = false → lt p r = false) (xs : List Pos) (a : Pos)
    (h : AllNear (a :: xs)) : ∀ p ∈ a :: xs, lt p (xs.foldl (fun a b => if lt b a then b else a) a) = false := by
  induction xs generalizing a with
  | nil =>
    intro p hp
    rw [List.mem_singleton.1 hp]
    exact hself a
  | cons x xs ih =>
    have hchoice : ∀ a b : Pos, (if lt b a then b else a) = a ∨ (if lt b a then b else a) = b := fun a b => by
      split
      · exact .inr rfl
      · exact .inl rfl
    have hm := hchoice a x
    have hma : lt a (if lt x a then x else a) = false := by
      split
      · next hlt => exact hasymm x a hlt
      · exact hself a
    have hmx : lt x (if lt x a then x else a) = false := by
      split
      · exact hself x
      · next hlt => exact Bool.not_eq_true _ ▸ hlt
    rw [List.foldl_cons]
    generalize (if lt x a then x else a) = m at *
    have hsub : m :: xs ⊆ a :: x :: xs := by
      intro p hp
      rcases List.mem_cons.1 hp with rfl | hp
      · rcases hm with rfl | rfl <;> simp
      · simp [hp]
    have hbest := ih m (h.subset hsub)
    have hmem := hsub (foldl_choice_mem hchoice xs m)
    have hstep : ∀ p ∈ a :: x :: xs, lt p m = false →
        lt p (xs.foldl (fun a b => if lt b a then b else a) m) = false := fun p hp hlt =>
      htrans p m _ (h.subset (by
        rintro q hq
        simp only [List.mem_cons, List.not_mem_nil, or_false] at hq
        rcases hq with rfl | rfl | rfl
        · exact hp
        · exact hsub List.mem_cons_self
        · exact hmem)) hlt (hbest m List.mem_cons_self)
    intro p hp
    rcases List.mem_cons.1 hp with rfl | hp'
    · exact hstep p hp hma
    · rcases List.mem_cons.1 hp' with rfl | hp'
      · exact hstep p hp hmx
      · exact hbest p (List.mem_cons_of_mem _ hp')

theorem mergedX_eq (d : Detection) (cs : List Live) : mergedX d cs = (cs.map (·.record.X)).foldl behindMost d.X := by
  rw [mergedX, List.foldl_map]

theorem mergedXt_eq (d : Detection) (cs : List Live) : mergedXt d cs = (cs.map (·.record.Xt)).foldl aheadMost d.Xt := by
  rw [mergedXt, List.foldl_map]

theorem behindMost_choice (a b : Pos) : behindMost a b = a ∨ behindMost a b = b := by
  unfold behindMost
  split
  · exact .inr rfl
  · exact .inl rfl

theorem aheadMost_choice (a b : Pos) : aheadMost a b = a ∨ aheadMost a b = b := by
  unfold aheadMost
  split
  · exact .inr rfl
  · exact .inl rfl

/-! ### The entry kept for a station (R70) -/

theorem keepLarger_none_right (held : Option Entry) : keepLarger held none = held := by cases held <;> rfl

/-- A record without an entry for the station offers nothing (R70). -/
theorem foldl_keepLarger_filterMap (f : Live → Option Entry) (cs : List Live) (held : Option Entry) :
    cs.foldl (fun e l => keepLarger e (f l)) held = (cs.filterMap f).foldl (fun e x => keepLarger e (some x)) held := by
  induction cs generalizing held with
  | nil => rfl
  | cons l ls ih =>
    cases hl : f l with
    | none => rw [List.foldl_cons, List.filterMap_cons_none hl, hl, keepLarger_none_right, ih]
    | some e => rw [List.foldl_cons, List.filterMap_cons_some hl, List.foldl_cons, hl, ih]

/-- The first with the greatest area among some entries (R70). -/
def FirstLargest (es : List Entry) (e : Entry) : Prop :=
  ∃ before after, es = before ++ e :: after ∧ (∀ x ∈ before, x.area.getD 0 < e.area.getD 0) ∧
    ∀ x ∈ after, x.area.getD 0 ≤ e.area.getD 0

/-- An entry put before others is the first largest where none of them is greater, and is passed over where the first
largest of them is greater. -/
theorem FirstLargest.cons_iff {h e : Entry} {es : List Entry} :
    FirstLargest (h :: es) e ↔
      e = h ∧ (∀ x ∈ es, x.area.getD 0 ≤ h.area.getD 0) ∨ h.area.getD 0 < e.area.getD 0 ∧ FirstLargest es e := by
  constructor
  · rintro ⟨before, after, he, hb, ha⟩
    cases before with
    | nil =>
      cases he
      exact .inl ⟨rfl, ha⟩
    | cons b bs =>
      cases he
      exact .inr ⟨hb _ List.mem_cons_self, bs, after, rfl, fun x hx => hb x (List.mem_cons_of_mem _ hx), ha⟩
  · rintro (⟨rfl, ha⟩ | ⟨hlt, before, after, rfl, hb, ha⟩)
    · exact ⟨[], es, rfl, nofun, ha⟩
    · exact ⟨h :: before, after, rfl, List.forall_mem_cons.2 ⟨hlt, hb⟩, ha⟩

/-- The first largest of some entries is at least as large as each. -/
theorem FirstLargest.le {es : List Entry} {e : Entry} (h : FirstLargest es e) : ∀ x ∈ es, x.area.getD 0 ≤ e.area.getD 0 := by
  obtain ⟨before, after, rfl, hb, ha⟩ := h
  intro x hx
  rcases List.mem_append.1 hx with hx | hx
  · exact (hb x hx).le
  · rcases List.mem_cons.1 hx with rfl | hx
    · exact le_refl _
    · exact ha x hx

/-- Entries kept one against the next: the first with the greatest area (R70). -/
theorem foldl_keepLarger_some (es : List Entry) (h : Entry) :
    ∃ e, es.foldl (fun o x => keepLarger o (some x)) (some h) = some e ∧ FirstLargest (h :: es) e := by
  induction es generalizing h with
  | nil => exact ⟨h, rfl, [], [], rfl, nofun, nofun⟩
  | cons x xs ih =>
    rw [List.foldl_cons]
    by_cases hlt : h.area.getD 0 < x.area.getD 0
    · obtain ⟨e, he, hfirst⟩ := ih x
      refine ⟨e, ?_, FirstLargest.cons_iff.2 (.inr ⟨hlt.trans_le (hfirst.le x List.mem_cons_self), hfirst⟩)⟩
      rw [← he]
      exact congrArg (List.foldl _ · xs) (if_pos hlt)
    · obtain ⟨e, he, hfirst⟩ := ih h
      have hkeep : keepLarger (some h) (some x) = some h := if_neg hlt
      refine ⟨e, by rw [hkeep, he], FirstLargest.cons_iff.2 ?_⟩
      rcases FirstLargest.cons_iff.1 hfirst with ⟨rfl, hle⟩ | ⟨hlt', hrest⟩
      · exact .inl ⟨rfl, List.forall_mem_cons.2 ⟨not_lt.1 hlt, hle⟩⟩
      · exact .inr ⟨hlt', FirstLargest.cons_iff.2 (.inr ⟨(not_lt.1 hlt).trans_lt hlt', hrest⟩)⟩

/-- The entries offered for a station: those of the candidates in belt order, then the detection's (R70). -/
def offered (cs : List Live) (d : Detection) (p : Station) : List Entry :=
  cs.filterMap (fun l => l.record.evidence.get p) ++ if d.station = p then [d.entry] else []

theorem mergedEntry_eq (cs : List Live) (d : Detection) (p : Station) :
    mergedEntry cs d p = (offered cs d p).foldl (fun e x => keepLarger e (some x)) none := by
  rw [mergedEntry, foldl_keepLarger_filterMap, offered, List.foldl_append]
  split
  · rfl
  · exact keepLarger_none_right _

/-- The entry kept for a station (R70). -/
theorem mergedEntry_spec (cs : List Live) (d : Detection) (p : Station) :
    (mergedEntry cs d p = none ↔ offered cs d p = []) ∧ ∀ e, mergedEntry cs d p = some e → FirstLargest (offered cs d p) e := by
  rw [mergedEntry_eq]
  cases offered cs d p with
  | nil => exact ⟨⟨fun _ => rfl, fun _ => rfl⟩, nofun⟩
  | cons x xs =>
    obtain ⟨e, he, hfirst⟩ := foldl_keepLarger_some xs x
    have hfold : (x :: xs).foldl (fun e x => keepLarger e (some x)) none = some e := he
    rw [hfold]
    exact ⟨⟨nofun, nofun⟩, fun e' he' => Option.some.inj he' ▸ hfirst⟩

/-! ### The others absorbed (R55) -/

/-- Some records absorbed one after the other. -/
def State.absorbAll (s : State) (ls : List Live) : State := (ls.map fun l => AdvancePart.point l.slot).foldl State.absorbPart s

/-- A merge absorbs the other candidates in one of their orders (entry 8). -/
theorem State.absorbed_eq (s : State) (cs : List Live) :
    ∃ order : List Live, order.Perm cs ∧ s.absorbed cs = State.absorbAll { s with draws := s.draws + 1 } order := by
  obtain ⟨order, he, hperm⟩ := orderParts_records s.draws cs
  exact ⟨order, hperm, by rw [State.absorbed, he, State.absorbAll]⟩

/-- The generations after some slots are freed, one advance for each (R38). -/
def advanceGens (gens : List Byte) (ls : List Live) : List Byte := ls.foldl (fun g l => g.modify l.slot fun x => x + 1) gens

theorem advanceGens_getD {ls : List Live} (hnodup : (ls.map (·.slot)).Nodup) {gens : List Byte} {slot : Nat}
    (hslot : slot < gens.length) :
    (advanceGens gens ls).getD slot 0 = if slot ∈ ls.map (·.slot) then gens.getD slot 0 + 1 else gens.getD slot 0 := by
  induction ls generalizing gens with
  | nil => simp [advanceGens]
  | cons l ls ih =>
    obtain ⟨hnot, hnodup⟩ := List.nodup_cons.1 hnodup
    have hstep : (gens.modify l.slot fun x => x + 1).getD slot 0 =
        if slot = l.slot then gens.getD slot 0 + 1 else gens.getD slot 0 := by
      by_cases he : slot = l.slot
      · subst he; simp [hslot]
      · simp [he, Ne.symm he]
    refine (ih hnodup (gens := gens.modify l.slot fun x => x + 1) (by rwa [List.length_modify])).trans ?_
    rw [hstep]
    by_cases he : slot = l.slot
    · subst he
      rw [if_neg hnot]
      simp
    · simp only [List.map_cons, List.mem_cons, he, false_or, if_false]

/-- The table after some records are absorbed: their slots at the tail of the free list in the order of the absorption, each
with its generation advanced (R37, R55). -/
def FragTable.without (ft : FragTable) (ls : List Live) : FragTable where
  live := ft.live.filter fun l => !(ls.map (·.slot)).contains l.slot
  liveCount := ft.liveCount - ls.length
  freeList := ft.freeList ++ ls.map (·.slot)
  gens := advanceGens ft.gens ls

theorem FragTable.without_nil (ft : FragTable) : ft.without [] = ft := by simp [FragTable.without, advanceGens]

theorem FragTable.without_cons (ft : FragTable) (l : Live) (ls : List Live) :
    ft.without (l :: ls) = (ft.freeSlot l.slot).without ls := by
  have hlive : (ft.live.filter fun x => !((l :: ls).map (·.slot)).contains x.slot) =
      (removeSlot ft.live l.slot).filter fun x => !(ls.map (·.slot)).contains x.slot := by
    rw [removeSlot, List.filter_filter]
    refine List.filter_congr fun x _ => ?_
    rw [List.map_cons, List.contains_cons, Bool.not_or, Bool.and_comm]
    rfl
  have hcount : ft.liveCount - (l :: ls).length = ft.liveCount - 1 - ls.length := by
    rw [List.length_cons]
    omega
  unfold FragTable.without
  rw [hlive, hcount, FragTable.freeSlot_live, FragTable.freeSlot_liveCount, FragTable.freeSlot_freeList,
    FragTable.freeSlot_gens, List.append_assoc]
  rfl

/-- The reference counts with one count of a bank lowered (R91). -/
def Banks.release (x : Banks) (k : Bank) (n : Nat) : Banks := { x with refs := x.refs.set k (x.refs.get k - n) }

theorem Banks.release_zero (x : Banks) (k : Bank) : x.release k 0 = x := by
  cases k <;> rfl

theorem Banks.release_release (x : Banks) (k : Bank) (m n : Nat) : (x.release k m).release k n = x.release k (m + n) := by
  cases k <;> simp [Banks.release, PerBank.set, PerBank.get, Nat.sub_add_eq]

/-- Live records of one bank absorbed: the table without them and their references given up (R55, R91). -/
theorem State.absorbAll_eq {s : State} (h : s.ft.Sound) {ls : List Live} {k : Bank}
    (hls : ∀ l ∈ ls, l ∈ s.ft.live ∧ l.record.bank = k) (hnodup : (ls.map (·.slot)).Nodup) :
    s.absorbAll ls = { s with ft := s.ft.without ls, banks := s.banks.release k ls.length } := by
  induction ls generalizing s with
  | nil => rw [FragTable.without_nil, List.length_nil, Banks.release_zero]; rfl
  | cons l ls ih =>
    obtain ⟨⟨hl, hk⟩, hls⟩ := List.forall_mem_cons.1 hls
    obtain ⟨hnot, hnodup⟩ := List.nodup_cons.1 hnodup
    have hf := h.find hl
    have habsorb : s.absorbPart (.point l.slot) =
        { s with ft := s.ft.freeSlot l.slot, banks := s.banks.release l.record.bank 1 } := by
      rw [State.absorbPart, State.absorb, hf]
      rfl
    have hrest : ∀ x ∈ ls, x ∈ (s.ft.freeSlot l.slot).live ∧ x.record.bank = k := fun x hx =>
      ⟨(mem_removeSlot _ _ _).2 ⟨(hls x hx).1, fun e => hnot (List.mem_map.2 ⟨x, hx, e⟩)⟩, (hls x hx).2⟩
    have hind := ih (s := s.absorbPart (.point l.slot)) (by rw [habsorb]; exact h.freeSlot hf) (by rw [habsorb]; exact hrest)
      hnodup
    refine hind.trans ?_
    rw [habsorb, FragTable.without_cons, List.length_cons, Nat.add_comm, ← Banks.release_release, hk]

/-- What the absorption of the other candidates of a merge leaves (R55; entry 8). -/
theorem State.absorbed_frame {s : State} (h : s.ft.Sound) {cs : List Live} {k : Bank}
    (hcs : ∀ l ∈ cs, l ∈ s.ft.live ∧ l.record.bank = k) (hnodup : (cs.map (·.slot)).Nodup) :
    ∃ order : List Live, order.Perm cs ∧ (s.absorbed cs).ft = s.ft.without order ∧
      (s.absorbed cs).banks = s.banks.release k cs.length ∧ (s.absorbed cs).bars = s.bars ∧ (s.absorbed cs).lc = s.lc ∧
      (s.absorbed cs).bpu = s.bpu ∧ (s.absorbed cs).ports = s.ports := by
  obtain ⟨order, hperm, hv⟩ := s.absorbed_eq cs
  rw [State.absorbAll_eq (s := { s with draws := s.draws + 1 }) h (fun l hl => hcs l (hperm.mem_iff.1 hl))
    (((hperm.map (·.slot)).nodup_iff).2 hnodup), hperm.length_eq] at hv
  rw [hv]
  exact ⟨order, hperm, rfl, rfl, rfl, rfl, rfl, rfl⟩

/-! ### The merge -/

/-- The candidates that are merged (R69). -/
theorem State.treat_merges {s : State} {d : Detection} {c : Live} {cs : List Live} (hd : isDust s.tracking d = false)
    (hc : s.openTo (s.shortened d) = c :: cs) (hm : s.merges (s.shortened d) (c :: cs)) :
    s.treat d = s.merge (s.shortened d) (decide (s.tracking.lMax < stepsTo d.X d.Xt)) c cs := by
  rw [State.treat, hd, clip_eq_shortened, needsClip_eq]
  change s.matchAndTreat (s.shortened d) _ = _
  unfold State.matchAndTreat
  dsimp only
  rw [s.candidates_eq_openTo, hc]
  cases cs with
  | nil => exact absurd hm.1 (by simp)
  | cons x xs => exact if_pos ((canMerge_iff s _ c x xs).2 hm)

/-- The decision anew of a survivor: where any candidate was DECIDED (R70, R72). -/
theorem State.treated_survivor (s : State) (r : Record) {ls : List Live} (h : ∀ l ∈ ls, l.record.st.takesEvidence = true) :
    s.treated r (ls.any fun l => l.record.st.isDecided) =
      s.overdue (if (∀ l ∈ ls, l.record.st = .opened) then r else decideRecord s r) := by
  have hopen : (ls.any fun l => l.record.st.isDecided) = !decide (∀ l ∈ ls, l.record.st = .opened) := by
    rw [Bool.eq_iff_iff, List.any_eq_true, Bool.not_eq_true', decide_eq_false_iff_not]
    simp only [not_forall, exists_prop]
    refine exists_congr fun l => and_congr_right fun hl => ?_
    rw [RecState.isDecided_eq (h l hl), Bool.not_eq_true', decide_eq_false_iff_not]
  rw [State.treated, hopen]
  by_cases ho : ∀ l ∈ ls, l.record.st = .opened
  · rw [if_pos ho, decide_eq_true ho]
    rfl
  · rw [if_neg ho, decide_eq_false ho]
    rfl

/-- The survivor of a merge in the words of R69 and R70. -/
theorem merged_eq (d : Detection) (clipped : Bool) (c : Live) (cs : List Live) :
    merged d clipped c cs =
      { st := .opened
        X := mergedX d (c :: cs)
        Xt := mergedXt d (c :: cs)
        first := ((c :: cs).map (·.record.first)).foldl min d.first
        last := ((c :: cs).map (·.record.last)).foldl max d.last
        bank := c.record.bank
        evidence := ⟨mergedEntry (c :: cs) d .s0, mergedEntry (c :: cs) d .s1, mergedEntry (c :: cs) d .s2,
          mergedEntry (c :: cs) d .s3⟩
        flags :=
          { clipped := ((c :: cs).any fun l => l.record.flags.clipped) || clipped, merged := true
            degraded := (c :: cs).any fun l => l.record.flags.degraded
            conflict := (c :: cs).any fun l => l.record.flags.conflict
            weak := (c :: cs).any fun l => l.record.flags.weak
            lateFire := (c :: cs).any fun l => l.record.flags.lateFire
            inserted := (c :: cs).any fun l => l.record.flags.inserted }
        ovr := (c :: cs).findSome? fun l => l.record.ovr } := by
  unfold merged
  dsimp only
  rw [foldl_union (g := (·.clipped)) (fun _ _ => rfl), foldl_union (g := (·.degraded)) (fun _ _ => rfl),
    foldl_union (g := (·.conflict)) (fun _ _ => rfl), foldl_union (g := (·.weak)) (fun _ _ => rfl),
    foldl_union (g := (·.lateFire)) (fun _ _ => rfl), foldl_union (g := (·.inserted)) (fun _ _ => rfl), List.foldl_map,
    List.foldl_map, List.foldl_cons, List.foldl_cons, min_comm d.first, max_comm d.last]
  rfl

/-- The records of the table without some of them and without one more. -/
theorem removeSlot_without (ft : FragTable) {c : Live} {cs order : List Live} (h : order.Perm cs) :
    removeSlot (ft.without order).live c.slot = ft.live.filter fun l => !((c :: cs).map (·.slot)).contains l.slot := by
  rw [removeSlot, FragTable.without, List.filter_filter]
  refine List.filter_congr fun l _ => ?_
  have hslots : (order.map (·.slot)).contains l.slot = (cs.map (·.slot)).contains l.slot := by
    simp only [List.contains_eq_mem, (h.map (·.slot)).mem_iff]
  rw [hslots, List.map_cons, List.contains_cons, Bool.not_or]
  rfl

/-- The survivor of a merge with a shortened detection, in the detection's own values (R62, R69, R70). -/
theorem merged_shortened (s : State) (d : Detection) (clipped : Bool) (c : Live) (cs : List Live) :
    merged (s.shortened d) clipped c cs =
      { merged d clipped c cs with
        X := mergedX (s.shortened d) (c :: cs)
        Xt := mergedXt (s.shortened d) (c :: cs) } := by
  have hentry : ∀ p, mergedEntry (c :: cs) (s.shortened d) p = mergedEntry (c :: cs) d p := fun p => by
    rw [s.shortened_eq d]
    rfl
  have hlanes : (s.shortened d).first = d.first ∧ (s.shortened d).last = d.last := by
    rw [s.shortened_eq d]
    exact ⟨rfl, rfl⟩
  unfold merged
  simp only [hentry, hlanes]

/-- Settles O21. -/
theorem merge_of_candidates : Obligations.Merge_of_candidates := by
  refine ⟨fun p d rest c cs s ht htable hs hgeo hd => ?_, mergedEntry_spec, fun d cs => ?_⟩
  · intro d' hc hm some_ r x hret
    obtain ⟨-, hbank, hlen⟩ := id hm
    have hcand : ∀ l ∈ c :: cs, l ∈ s.ft.live ∧ l.record.st.takesEvidence = true := fun l hl =>
      State.mem_openTo (by rwa [hc])
    have hnodup : ((c :: cs).map (·.slot)).Nodup := by
      rw [← hc]
      exact htable.sound.nodup.sublist (List.filter_sublist.map _)
    obtain ⟨order, hperm, hft, hbanks, hbars, hlc, hbpu, hvports⟩ := State.absorbed_frame (s := s.underTake p rest)
      htable.sound (cs := cs) (k := c.record.bank)
      (fun l hl => ⟨(hcand l (List.mem_cons_of_mem _ hl)).1, hbank l (List.mem_cons_of_mem _ hl) c List.mem_cons_self⟩)
      (List.nodup_cons.1 hnodup).2
    have hmove : (s.underTake p rest).PartMove ((s.underTake p rest).absorbed cs) :=
      ((s.underTake p rest).draws_partMove _).trans (State.foldl_partMove State.absorbPart_partMove _ _)
    set v := (s.underTake p rest).absorbed cs
    have hrec : merged d' (decide (s.tracking.lMax < stepsTo d.X d.Xt)) c cs = r := by
      rw [merged_shortened, merged_eq]
    have htreat : (s.underTake p rest).treat d =
        (v.placed c.slot (removeSlot v.ft.live c.slot) r).complete c.slot
          ((c :: cs).any fun l => l.record.st.isDecided) :=
      (State.treat_merges (s := s.underTake p rest) hd hc hm).trans ((State.merge_eq _ _ _ c cs).trans
        (congrArg (fun r => State.complete (State.placed _ _ _ r) _ _) hrec))
    have hother : ∀ l ∈ removeSlot v.ft.live c.slot, l.slot ≠ c.slot := fun l hl =>
      ((mem_removeSlot _ _ _).1 hl).2
    obtain ⟨t, hexec, heval, hlink, htr, hports, hae⟩ := exec_assocTake_completes ht htreat hother (fun _ => rfl) hmove
      (congrArg LineControl.mode hlc) hvports ⟨hs, hgeo, hlen, hret⟩
    rw [s.treated_survivor r fun l hl => (hcand l hl).2] at heval
    refine ⟨t, order.map (·.slot), (v.placed c.slot (removeSlot v.ft.live c.slot) x).engineFree, hexec, hperm.map _, ?_, ?_, ?_,
      fun slot hslot => ?_, hbanks, hbars, hlc, hbpu, heval, hlink, htr, hports, hae⟩
    · refine congrArg (insertLive _) ?_
      rw [hft]
      exact removeSlot_without s.ft hperm
    · refine (congrArg FragTable.liveCount hft).trans ?_
      exact congrArg (s.ft.liveCount - ·) hperm.length_eq
    · exact congrArg FragTable.freeList hft
    · refine (congrArg (fun ft : FragTable => ft.gens.getD slot 0) hft).trans ?_
      exact advanceGens_getD (((hperm.map (·.slot)).nodup_iff).2 (List.nodup_cons.1 hnodup).2)
        (hslot.trans_eq htable.gens.symm)
  · intro starts ends
    refine ⟨?_, ?_, fun hnear => ?_, fun hnear => ?_⟩
    · rw [mergedX_eq]
      exact foldl_choice_mem behindMost_choice _ _
    · rw [mergedXt_eq]
      exact foldl_choice_mem aheadMost_choice _ _
    · rw [mergedX_eq]
      exact foldl_choice_extreme (lt := behind) ahead_self (fun a b h => ahead_asymm h)
        (fun p q r hpqr hpq hqr => ahead_false_trans (hpqr.subset (by simp)) hqr hpq) _ _ hnear
    · rw [mergedXt_eq]
      exact foldl_choice_extreme (lt := ahead) ahead_self (fun a b h => ahead_asymm h)
        (fun p q r hpqr hpq hqr => ahead_false_trans hpqr hpq hqr) _ _ hnear

end Sys2Proof.Machine
end

