-- ==== Sys2Proof/Proofs/LonePoint.lean ====
section
/-! SUPPORT. A T advance with one live record, whose point T reaches: in RUN and DRAINING, in each of its five states; the
points of R42; settles O9. -/

namespace Sys2Proof.Machine

/-! ### Parts that only silence stations (R21) -/

/-- What stations falling silent leave alone: everything but their state and the notices. -/
structure State.OnlySilence (s t : State) : Prop where
  moved   : s.PartMove t
  ft      : t.ft = s.ft
  bars    : t.bars = s.bars
  banks   : t.banks = s.banks
  bpu     : t.bpu = s.bpu
  mode    : t.lc.mode = s.lc.mode
  tallies : t.lc.tallies = s.lc.tallies
  port    : ∀ p, t.port p = { s.port p with state := (t.port p).state }

theorem State.OnlySilence.draws (s : State) (n : Nat) : s.OnlySilence { s with draws := n } :=
  ⟨s.draws_partMove n, rfl, rfl, rfl, rfl, rfl, rfl, fun _ => rfl⟩

theorem State.OnlySilence.refl (s : State) : s.OnlySilence s :=
  ⟨.refl s, rfl, rfl, rfl, rfl, rfl, rfl, fun _ => rfl⟩

theorem State.OnlySilence.trans {s t u : State} (h : s.OnlySilence t) (k : t.OnlySilence u) : s.OnlySilence u where
  moved := h.moved.trans k.moved
  ft := k.ft.trans h.ft
  bars := k.bars.trans h.bars
  banks := k.banks.trans h.banks
  bpu := k.bpu.trans h.bpu
  mode := k.mode.trans h.mode
  tallies := k.tallies.trans h.tallies
  port p := by rw [k.port p, h.port p]

theorem State.goSilent_onlySilence (s : State) (p : Station) : s.OnlySilence (s.goSilent p) := by
  have hmove := s.goSilent_partMove p
  rcases s.goSilent_cases p with ⟨-, e⟩ | ⟨-, e⟩ <;> rw [e] at hmove ⊢
  · exact .refl s
  · refine ⟨hmove, rfl, rfl, rfl, rfl, by simp, by simp, fun q => ?_⟩
    have hport : ((s.setPort p { s.port p with state := .silent }).raise .stationSilent (.station p) none).port q =
        if q = p then { s.port p with state := .silent } else s.port q := s.port_setPort p q _
    rw [hport]
    split
    · next hq => rw [hq]
    · rfl

theorem State.foldl_onlySilence {parts : List AdvancePart} (h : ∀ x ∈ parts, ∃ p, x = .silence p) (s : State) :
    s.OnlySilence (parts.foldl State.takePart s) :=
  foldl_keeps (P := s.OnlySilence) (fun u x hx hu => by
    obtain ⟨p, rfl⟩ := h x hx
    exact hu.trans (u.goSilent_onlySilence p)) (.refl s)

/-- The record of a table with one live record. -/
theorem FragTable.find_lone {ft : FragTable} {slot : Nat} {r : Record} (h : ft.live = [⟨slot, r⟩]) :
    ft.find slot = some r := by
  rw [FragTable.find, h]
  simp

/-- The free order of stations falling silent and one point: the point stands among them (entry 8). -/
theorem orderParts_lone (draw : Nat) (ps : List Station) (slot : Nat) :
    ∃ before after, orderParts draw (ps.map AdvancePart.silence ++ [.point slot]) = before ++ .point slot :: after ∧
      ∀ x ∈ before ++ after, ∃ p, x = .silence p := by
  have hperm : (orderParts draw (ps.map AdvancePart.silence ++ [.point slot])).Perm
      (.point slot :: ps.map AdvancePart.silence) := (List.perm_insertionSort _ _).trans (List.perm_append_singleton _ _)
  obtain ⟨before, after, he⟩ := List.append_of_mem (hperm.mem_iff.2 List.mem_cons_self)
  rw [he] at hperm
  have hrest := (List.perm_middle.symm.trans hperm).cons_inv
  refine ⟨before, after, he, fun x hx => ?_⟩
  obtain ⟨p, -, e⟩ := List.mem_map.1 (hrest.mem_iff.1 hx)
  exact ⟨p, e.symm⟩

/-- With one record, whose point T reaches, the parts of an advance are that point among stations falling silent (R43). -/
theorem State.takeParts_lone {s : State} {slot : Nat} {r : Record} (hrun : s.running = true)
    (hlive : s.ft.live = [⟨slot, r⟩]) (ha : s.awaited r = some s.bpu.T) :
    ∃ u, s.OnlySilence u ∧ (u.runDue 5 slot).OnlySilence s.takeParts := by
  have hparts : s.advanceParts = ((stations.filter fun p => (s.port p).fallsSilent).map .silence) ++ [.point slot] := by
    simp [State.advanceParts, hrun, hlive, State.reaches, ha]
  obtain ⟨before, after, horder, hsilent⟩ :=
    orderParts_lone s.draws (stations.filter fun p => (s.port p).fallsSilent) slot
  have hbefore := State.foldl_onlySilence (parts := before) (fun x hx => hsilent x (List.mem_append_left _ hx))
    { s with draws := s.draws + 1 }
  have hu := (State.OnlySilence.draws s (s.draws + 1)).trans hbefore
  have htake : s.takeParts = after.foldl State.takePart
      ((before.foldl State.takePart { s with draws := s.draws + 1 }).takeReached slot) := by
    rw [State.takeParts, hparts, horder, List.foldl_append]
    rfl
  set u := before.foldl State.takePart { s with draws := s.draws + 1 }
  have hfind : u.ft.find slot = some r := FragTable.find_lone (by rw [hu.ft]; exact hlive)
  have hrunu : u.running = true := by
    rw [State.running, hu.mode]
    exact hrun
  have hau : u.awaited r = some u.bpu.T := by rw [hu.moved.samePoints.awaited, ha, hu.bpu]
  rw [State.takeReached_of hfind hrunu hau] at htake
  refine ⟨u, hu, ?_⟩
  rw [htake]
  exact State.foldl_onlySilence (fun x hx => hsilent x (List.mem_append_right _ hx)) _

/-! ### The advance around it -/

/-- The state of a forward count that completes a step, at its advance (R1, R2). -/
def State.counted (s : State) : State :=
  { s with
    pins := { s.pins with levels := ⟨false, false⟩ }
    bpu := { s.bpu with ref := ⟨false, false⟩, sub := 0 } }

theorem exec_advances {s : State} (hr : s.pins.inReset = false) (href : s.bpu.ref = ⟨false, true⟩)
    (hsub : s.bpu.sub + 1 = s.bpu.encDiv) (hPT : s.bpu.P = s.bpu.T) :
    exec (.encoderTransition false false) s = .next s.counted.advance := by
  rw [exec_forward hr href, State.forwardCount_step, State.forwardStep_advance]
  exacts [rfl, hPT, hsub]

theorem State.atNewT_tallies (s : State) : s.atNewT.lc.tallies = s.lc.tallies := by
  unfold State.atNewT
  rcases State.endStall_cases { s with bpu := s.bpu.advance } with ⟨-, e⟩ | ⟨-, e⟩ <;> simp [e]

/-- What the end of an advance adds to its parts: a switch and the evaluation of the nozzles (R97, R122). -/
structure State.AdvanceEnd (s t : State) : Prop where
  ft      : t.ft = s.ft
  refs    : t.banks.refs = s.banks.refs
  mode    : t.lc.mode = s.lc.mode
  tallies : t.lc.tallies = s.lc.tallies
  bpu     : t.bpu = s.bpu
  port    : ∀ p, t.port p = { s.port p with state := (t.port p).state }
  notices : ∀ k, s.lc.pendingSet.getLsbD k = true → t.lc.pendingSet.getLsbD k = true
  ivals   : ∀ b m, ((t.bar b).nozzle m).ivals = ((s.bar b).nozzle m).ivals
  late    : ∀ b, (t.bar b).lateFire = (s.bar b).lateFire
  holds   : ∀ b, ∀ n ∈ (t.bar b).nozzles, ∀ iv ∈ n.ivals, s.Holds b iv

theorem State.advanceEnd_of {s t : State} (h : s.OnlySilence t) : s.AdvanceEnd t.switchIfReached.settle := by
  obtain ⟨-, hbpu, hports, hft, -, -, hbars, -, -, -, hn⟩ := t.switchIfReached_frame
  have hbar : ∀ b, t.switchIfReached.bar b = s.bar b := fun b => by rw [State.bar, hbars, h.bars, State.bar]
  have hsame : t.switchIfReached.banks.refs = t.banks.refs ∧ t.switchIfReached.lc.mode = t.lc.mode ∧
      t.switchIfReached.lc.tallies = t.lc.tallies := by
    rcases t.switchIfReached_cases with ⟨-, e⟩ | ⟨w, -, -, e⟩ <;> rw [e]
    · exact ⟨rfl, rfl, rfl⟩
    · exact ⟨rfl, by simp, by simp⟩
  obtain ⟨hrefs, hmode, htallies⟩ := hsame
  exact
    { ft := hft.trans h.ft
      refs := hrefs.trans (congrArg Banks.refs h.banks)
      mode := hmode.trans h.mode
      tallies := htallies.trans h.tallies
      bpu := hbpu.trans h.bpu
      port := fun p => by
        rw [show t.switchIfReached.settle.port p = t.port p from congrArg (PerStation.get · p) hports]
        exact h.port p
      notices := fun k hk => hn k (h.moved.notices k hk)
      ivals := fun b m => by rw [State.nozzle_settle_ivals, hbar]
      late := fun b => by rw [State.bar_settle, hbar]; rfl
      holds := fun b n hn iv hiv => by
        rw [State.bar_settle, BarUnit.evalAll_nozzles, List.mem_map, hbar] at hn
        obtain ⟨m, hm, rfl⟩ := hn
        exact ⟨m, hm, by rwa [Nozzle.eval_ivals] at hiv⟩ }

/-- What a state at the new T keeps of the state before the count, stations falling silent apart. -/
structure State.NewT (s u : State) : Prop where
  points  : s.SamePoints u
  T       : u.bpu.T = s.bpu.T + 1
  V       : u.bpu.V = s.bpu.V
  ft      : u.ft = s.ft
  bars    : u.bars = s.bars
  banks   : u.banks = s.banks
  mode    : u.lc.mode = s.lc.mode
  tallies : u.lc.tallies = s.lc.tallies
  state   : ∀ p, (u.port p).state = (s.port p).state ∨ ((s.port p).advance (s.bpu.T + 1)).fallsSilent = true

theorem State.newT_of {s u : State} (h : s.counted.atNewT.OnlySilence u) : s.NewT u := by
  obtain ⟨-, hft, -, -, hbanks, hbars, -, hmode, -⟩ := s.counted.atNewT_frame
  have hcounted : s.SamePoints s.counted := ⟨fun _ => ⟨rfl, rfl⟩, rfl, fun _ => rfl⟩
  have hbpu := s.counted.atNewT_bpu
  refine ⟨(hcounted.trans s.counted.atNewT_samePoints).trans h.moved.samePoints, ?_, ?_, h.ft.trans hft, h.bars.trans hbars,
    h.banks.trans hbanks, h.mode.trans hmode, h.tallies.trans s.counted.atNewT_tallies, fun p => ?_⟩
  · rw [h.bpu, hbpu]
    rfl
  · rw [h.bpu, hbpu]
    rfl
  · have hport := s.counted.atNewT_port p
    rcases h.moved.silent p with e | ⟨-, hfalls, -⟩
    · exact .inl (e.trans (congrArg Port.state hport :))
    · exact .inr (hport ▸ hfalls)

/-- A T advance with one live record, whose point T reaches, on a running line (R43). -/
theorem State.advance_lone {s : State} {slot : Nat} {r : Record} (hrun : s.running = true)
    (hlive : s.ft.live = [⟨slot, r⟩]) (ha : s.awaited r = some (s.bpu.T + 1)) :
    ∃ u, s.NewT u ∧ (u.runDue 5 slot).AdvanceEnd s.counted.advance := by
  obtain ⟨-, hft, -, -, -, -, -, hmode, -⟩ := s.counted.atNewT_frame
  have hcounted : s.SamePoints s.counted := ⟨fun _ => ⟨rfl, rfl⟩, rfl, fun _ => rfl⟩
  obtain ⟨u, hu, hend⟩ := State.takeParts_lone (s := s.counted.atNewT) (slot := slot) (r := r)
    (by rw [State.running, hmode]; exact hrun) (by rw [hft]; exact hlive)
    (by rw [(hcounted.trans s.counted.atNewT_samePoints).awaited, ha, s.counted.atNewT_T]; rfl)
  exact ⟨u, State.newT_of hu, State.advanceEnd_of hend⟩

/-! ### The record at the new T -/

/-- The retirement of a record whose intervals are removed leaves none of them (R52, R124). -/
theorem State.retire_without_holds {u : State} {slot : Nat} {r : Record} (hf : u.ft.find slot = some r) {b : Bar}
    {h : Handle} {o : RecOutcome} {iv : Interval}
    (hholds : ((u.setBar b ((u.bar b).without h)).retire slot o).Holds b iv) : iv.owner ≠ h := by
  obtain ⟨n, hn, hiv⟩ := hholds
  obtain ⟨-, hbars, -⟩ := State.retire_frame (s := u.setBar b ((u.bar b).without h)) hf o
  rw [State.bar, hbars, State.setBar_bars, PerBar.get_set_same] at hn
  obtain ⟨m, -, rfl⟩ := List.mem_map.1 hn
  exact ((m.mem_without h iv).1 hiv).2

theorem State.placed_lone {u : State} {slot : Nat} {r : Record} (h : u.ft.live = [⟨slot, r⟩]) : u.placed slot [] r = u := by
  rw [State.placed, insertLive, ← h]

/-- The one live record has no others beside it. -/
theorem no_others (slot : Nat) : ∀ l ∈ ([] : List Live), l.slot ≠ slot := fun _ h => absurd h List.not_mem_nil

theorem State.modRecord_lone {u : State} {slot : Nat} {r : Record} (h : u.ft.live = [⟨slot, r⟩]) {f : Record → Record}
    (hX : (f r).X = r.X) (hfirst : (f r).first = r.first) : u.modRecord slot f = u.placed slot [] (f r) := by
  conv_lhs => rw [← State.placed_lone h]
  exact State.modRecord_placed (no_others slot) hX hfirst

/-- A station that the advance does not bring to its silent count does not fall silent (R21). -/
theorem Port.advance_not_silent {q : Port} (h : (q.state = .up → q.silence + 1 < q.silentSteps) ∧ q.silence < 65535)
    (T : Pos) : (q.advance T).fallsSilent = false := by
  rw [← Bool.not_eq_true]
  simp only [Port.fallsSilent, Port.advance_state, Port.advance_silentSteps, Port.advance_silence, satAdd_eq_min,
    Config.halfMax, Bool.and_eq_true, beq_iff_eq, decide_eq_true_eq]
  rintro ⟨hup, hle⟩
  rw [if_pos hup] at hle
  have := h.1 hup
  omega

/-- An arm point that is the freeze point: of a bar not enabled, or of the lowest (R42). -/
theorem State.armPoint_eq_freezePoint {s : State} {b : Bar} (h : (s.bar b).settings.enabled = false ∨ s.lowBar = some b)
    (x : Pos) : s.armPoint x b = s.freezePoint x := by
  unfold State.armPoint
  split
  · next hon =>
    rw [State.freezePoint, h.resolve_left (by rw [hon]; decide)]
    rfl
  · rfl

/-- At its arm point T lies near the bar's reach of X (R42). -/
theorem State.near_at_armPoint {s : State} (hs : s.InRange) {x T : Pos} {b : Bar} (h : s.armPoint x b = some T) :
    (s.bar b).settings.Near x T := by
  obtain ⟨c, -, rfl⟩ := State.armPoint_enabled h
  have hEb := (hs.bars b).E
  have hEc := (hs.bars c).E
  have hA := (hs.bars c).A
  refine ⟨-(s.bar b).settings.E + ((s.bar c).settings.E + -(s.bar c).settings.A), ?_, by omega, by omega⟩
  rw [fwd_eq_stepsFrom, stepsFrom_add]
  congr 1
  omega

section
variable {s u : State} (hu : s.NewT u)
include hu

theorem State.NewT.not_reached {q : Option Pos} (h : ∀ p, q = some p → atOrBehind p (s.bpu.T + 1) = false) :
    u.reached q = false := by
  cases q with
  | none => rfl
  | some p => rw [State.reached, Option.any_some, hu.T]; exact h p rfl

/-- The record as it stands after its point, where the table keeps it. -/
theorem State.NewT.becomes {slot : Nat} {x : Record} {t : State} (h : (u.placed slot [] x).AdvanceEnd t) :
    t.ft = { s.ft with live := [⟨slot, x⟩] } ∧ t.banks.refs = s.banks.refs ∧ t.lc.tallies = s.lc.tallies ∧
      t.lc.mode = s.lc.mode :=
  ⟨h.ft.trans (by rw [State.placed, hu.ft]; rfl), h.refs.trans (congrArg Banks.refs hu.banks), h.tallies.trans hu.tallies,
    h.mode.trans hu.mode⟩

/-- The state after an arming at the new T (R104). -/
theorem State.NewT.arms {slot : Nat} {x : Record} {v : Verdict} {b : Bar} {t : State}
    (h : ((u.placed slot [] x).arm slot x v b).AdvanceEnd t) :
    ∃ w : State, w.bars = s.bars ∧ w.banks = s.banks ∧ w.bpu.T = s.bpu.T + 1 ∧ w.bpu.V = s.bpu.V ∧
      w.ft = { s.ft with live := [⟨slot, x⟩] } ∧ t.ft = (w.arm slot x v b).ft ∧
      (∀ c m, ((t.bar c).nozzle m).ivals = (((w.arm slot x v b).bar c).nozzle m).ivals) ∧
      (∀ c, (t.bar c).lateFire = ((w.arm slot x v b).bar c).lateFire) ∧
      t.banks.refs = s.banks.refs ∧ t.lc.tallies = s.lc.tallies ∧ t.lc.mode = s.lc.mode := by
  obtain ⟨st, late, ⟨bars, lc, harm, hmode, htallies⟩, -⟩ := (u.placed slot [] x).arm_armMove slot x v b
  refine ⟨u.placed slot [] x, hu.bars, hu.banks, hu.T, hu.V, by rw [State.placed, hu.ft]; rfl, h.ft, h.ivals, h.late, ?_, ?_, ?_⟩
  · rw [h.refs, harm]
    exact congrArg Banks.refs hu.banks
  · rw [h.tallies, harm]
    exact htallies.trans hu.tallies
  · rw [h.mode, harm]
    exact hmode.trans hu.mode

/-- The state after the retirement of the one record (R48, R151). -/
theorem State.NewT.retires {z t : State} {slot : Nat} {r : Record} {o : RecOutcome} (hlive : s.ft.live = [⟨slot, r⟩])
    (hcount : s.ft.liveCount = 1) (hft : z.ft = u.ft) (hbanks : z.banks = u.banks) (hlc : z.lc = u.lc)
    (h : (z.retire slot o).AdvanceEnd t) :
    t.ft = { live := [], liveCount := 0, freeList := s.ft.freeList ++ [slot], gens := s.ft.gens.modify slot fun g => g + 1 } ∧
    t.banks.refs = s.banks.refs.set r.bank (s.banks.refs.get r.bank - 1) ∧
    t.lc.tallies = s.lc.tallies.bump o r.st.material ∧ (s.lc.mode = .run → t.lc.mode = .run) ∧
    (s.lc.mode = .draining →
      t.lc.mode = .config ∧ t.bpu.G = 0 ∧ t.lc.pendingSet.getLsbD 15 = true ∧
        ∀ p, (t.port p).queue = [] ∧ (t.port p).hold = false) := by
  have hzft : z.ft = s.ft := hft.trans hu.ft
  have hzmode : z.lc.mode = s.lc.mode := by rw [hlc]; exact hu.mode
  have hfind : z.ft.find slot = some r := FragTable.find_lone (by rw [hzft]; exact hlive)
  obtain ⟨hrft, -, hrbanks, hrtallies, -⟩ := State.retire_frame hfind o
  refine ⟨?_, ?_, ?_, fun hm => ?_, fun hm => ?_⟩
  · rw [h.ft, hrft, hzft, FragTable.freeSlot, hlive, hcount]
    simp [removeSlot]
  · rw [h.refs, hrbanks, hbanks, hu.banks]
  · rw [h.tallies, hrtallies, hlc, hu.tallies]
  · have hm' : z.lc.mode = .run := hzmode.trans hm
    rw [h.mode, State.retire_stays hfind o (.inl (by rw [hm']; decide))]
    exact hm'
  · have hdrain := State.retire_drains hfind o (hzmode.trans hm) ((congrArg FragTable.liveCount hzft).trans hcount)
    rw [hdrain] at h
    refine ⟨h.mode.trans rfl, by rw [h.bpu]; rfl, h.notices 15 ?_, fun p => ?_⟩
    · exact (z.retired slot r o).lc.raise_notice_self (z.retired slot r o).bpu.T .drained .none none
    · have hport : (z.retired slot r o).completeDrain.port p = ((z.retired slot r o).port p).emptied := PerStation.get_map _ _ p
      rw [h.port p, hport]
      exact ⟨rfl, rfl⟩

variable {slot : Nat} {r : Record} (hlive : s.ft.live = [⟨slot, r⟩]) (hrun : s.running = true)
  (ha : s.awaited r = some (s.bpu.T + 1))
include hlive hrun ha

/-- The point that T reaches is taken, and the run of points goes on (R43). -/
theorem State.NewT.takes (n : Nat) : u.runDue (n + 1) slot = (u.takePoint slot r).runDue n slot := by
  refine State.runDue_take (FragTable.find_lone (by rw [hu.ft]; exact hlive)) ?_ ?_ n
  · rw [State.running, hu.mode]
    exact hrun
  · rw [hu.points.awaited, ha, ← hu.T]
    exact u.reached_T

/-- A point that leaves the record in the table, awaiting a point ahead of T (R43). -/
theorem State.NewT.takes_stays {x : Record} (htake : u.takePoint slot r = u.placed slot [] x)
    (hnext : ∀ q, s.awaited x = some q → atOrBehind q (s.bpu.T + 1) = false) : u.runDue 5 slot = u.placed slot [] x := by
  rw [hu.takes hlive hrun ha 4, htake]
  refine State.runDue_placed_stop (no_others slot) (hu.not_reached ?_) 4
  rwa [hu.points.awaited]

/-- The decision at the new T, where no station falls silent (R49, R81). -/
theorem State.NewT.decides (hst : r.st = .opened)
    (hfreeze : ∀ q, s.freezePoint r.X = some q → atOrBehind q (s.bpu.T + 1) = false)
    (hsilent : ∀ q, ((s.port q).state = .up → (s.port q).silence + 1 < (s.port q).silentSteps) ∧ (s.port q).silence < 65535) :
    u.runDue 5 slot = u.placed slot [] (decideRecord s r) := by
  have hdecide : decideRecord u r = decideRecord s r :=
    decideRecord_congr (congrArg Banks.data hu.banks) (fun q => ⟨(hu.points.port q).1,
      (hu.state q).resolve_right (by rw [Port.advance_not_silent (hsilent q)]; decide)⟩) r
  have htake : u.takePoint slot r = u.placed slot [] (decideRecord u r) := by
    rw [State.takePoint, hst]
    exact State.modRecord_lone (by rw [hu.ft]; exact hlive) rfl rfl
  rw [hdecide] at htake
  refine hu.takes_stays hlive hrun ha htake ?_
  obtain ⟨d, hd⟩ := decideRecord_st s r
  rw [State.awaited, hd]
  exact hfreeze

/-- The freeze at the new T, with the next point still ahead (R50). -/
theorem State.NewT.freezes {v : Verdict} {d : Dest} (hst : r.st = .decided v d)
    (hnext : ∀ q, s.awaited { r with st := freezeState v d } = some q → atOrBehind q (s.bpu.T + 1) = false) :
    u.runDue 5 slot = u.placed slot [] { r with st := freezeState v d } := by
  refine hu.takes_stays hlive hrun ha ?_ hnext
  rw [State.takePoint, hst]
  exact State.modRecord_lone (f := fun x => { x with st := freezeState v d }) (by rw [hu.ft]; exact hlive) rfl rfl

/-- A point that retires the record (R43, R48). -/
theorem State.NewT.takes_retires {z : State} {o : RecOutcome} (htake : u.takePoint slot r = z.retire slot o)
    (hft : z.ft = u.ft) : u.runDue 5 slot = z.retire slot o := by
  have hfind : z.ft.find slot = some r := FragTable.find_lone (by rw [hft, hu.ft]; exact hlive)
  rw [hu.takes hlive hrun ha 4, htake]
  refine State.runDue_none (FragTable.find_eq_none.2 fun x hx => ?_) 4
  rw [(State.retire_frame hfind o).1] at hx
  exact ((mem_removeSlot _ _ _).1 hx).2

end

/-- An arming at the arm point leaves the record awaiting a point ahead of T, where its retire line is ahead (R51, R109). -/
theorem State.NewT.arm_stops {s u : State} (hu : s.NewT u) {slot : Nat} {x : Record} {v : Verdict} {b : Bar}
    (hs : s.InRange) (hlen : stepsTo x.X x.Xt ≤ s.tracking.lMax) (hp : s.armPoint x.X b = some (s.bpu.T + 1))
    (hret : ∀ q, s.retireLine x.Xt = some q → atOrBehind q (s.bpu.T + 1) = false) (n : Nat) :
    ((u.placed slot [] x).arm slot x v b).runDue n slot = (u.placed slot [] x).arm slot x v b := by
  refine State.arm_awaits (State.find_placed (no_others slot) x) ((hu.points.inRange hs).bars b) (hlen.trans hs.lMax) ?_ ?_ n
  · have hnear := State.near_at_armPoint hs hp
    change (u.bar b).settings.Near x.X u.bpu.T
    rw [hu.points.settings b, hu.T]
    exact hnear
  · refine hu.not_reached (q := u.retireLine x.Xt) ?_
    rwa [hu.points.retireLine]

section
variable {s u : State} (hu : s.NewT u) {slot : Nat} {r : Record} (hlive : s.ft.live = [⟨slot, r⟩]) (hrun : s.running = true)
  (ha : s.awaited r = some (s.bpu.T + 1)) (hs : s.InRange) (hlen : stepsTo r.X r.Xt ≤ s.tracking.lMax)
  (hret : ∀ q, s.retireLine r.Xt = some q → atOrBehind q (s.bpu.T + 1) = false) {v : Verdict} {b : Bar}
include hu hlive hrun ha hs hlen hret

/-- A COMMITTED record is armed at its arm point (R51). -/
theorem State.NewT.arms_committed (hst : r.st = .committed v b) :
    u.runDue 5 slot = (u.placed slot [] { r with st := .committed v b }).arm slot { r with st := .committed v b } v b := by
  have hr : ({ r with st := .committed v b } : Record) = r := by rw [← hst]
  have hpoint : s.armPoint r.X b = some (s.bpu.T + 1) := by rwa [State.awaited, hst] at ha
  have hplaced : u.placed slot [] r = u := State.placed_lone (by rw [hu.ft]; exact hlive)
  have hstop := hu.arm_stops (slot := slot) (x := r) (v := v) hs hlen hpoint hret 4
  rw [hplaced] at hstop
  rw [hr, hplaced, hu.takes hlive hrun ha 4, State.takePoint, hst]
  exact hstop

/-- A DECIDED record whose bar is the lowest or not enabled is armed in the event of its freeze (R50). -/
theorem State.NewT.arms_decided (hst : r.st = .decided v (.bar b))
    (hnow : (s.bar b).settings.enabled = false ∨ s.lowBar = some b) :
    u.runDue 5 slot = (u.placed slot [] { r with st := .committed v b }).arm slot { r with st := .committed v b } v b := by
  have hpoint : s.armPoint r.X b = some (s.bpu.T + 1) := by
    rw [State.armPoint_eq_freezePoint hnow]
    rwa [State.awaited, hst] at ha
  have htake : u.takePoint slot r = u.placed slot [] { r with st := .committed v b } := by
    rw [State.takePoint, hst]
    exact State.modRecord_lone (f := fun x => { x with st := .committed v b }) (by rw [hu.ft]; exact hlive) rfl rfl
  have hrunu : u.running = true := by
    rw [State.running, hu.mode]
    exact hrun
  have hreach : u.reached (u.awaited { r with st := .committed v b }) = true := by
    have hau : u.awaited { r with st := .committed v b } = some u.bpu.T := by
      rw [hu.points.awaited, hu.T]
      exact hpoint
    rw [hau]
    exact u.reached_T
  rw [hu.takes hlive hrun ha 4, htake, State.runDue_placed_take (no_others slot) hrunu hreach]
  exact hu.arm_stops (x := { r with st := .committed v b }) hs hlen hpoint hret 3

end

/-! ### The points (R42) -/

theorem le_foldl_max (xs : List Nat) (a : Nat) : a ≤ xs.foldl max a ∧ ∀ x ∈ xs, x ≤ xs.foldl max a := by
  induction xs generalizing a with
  | nil => exact ⟨le_refl a, nofun⟩
  | cons x xs ih =>
    obtain ⟨hstart, hmem⟩ := ih (max a x)
    exact ⟨(le_max_left a x).trans hstart, List.forall_mem_cons.2 ⟨(le_max_right a x).trans hstart, hmem⟩⟩

/-- D_max is the largest D_s among enabled stations (R42). -/
theorem State.dMax_eq {s : State} {D : Nat} (hsome : ∃ p, (s.port p).enabled = true ∧ (s.port p).D = D)
    (hall : ∀ p, (s.port p).enabled = true → (s.port p).D ≤ D) : s.dMax = D := by
  have hmap : s.dMax = ((stations.filter fun p => (s.port p).enabled).map fun p => (s.port p).D).foldl max 0 := by
    rw [State.dMax, List.foldl_map]
  obtain ⟨p, hp, rfl⟩ := hsome
  have hstation : p ∈ stations := by cases p <;> decide
  rw [hmap]
  refine le_antisymm ?_ ((le_foldl_max _ 0).2 _ (List.mem_map_of_mem (List.mem_filter.2 ⟨hstation, hp⟩)))
  rcases foldl_max_mem ((stations.filter fun p => (s.port p).enabled).map fun p => (s.port p).D) 0 with e | hmem
  · rw [e]
    exact Nat.zero_le _
  · obtain ⟨q, hq, e⟩ := List.mem_map.1 hmem
    rw [← e]
    exact hall q (List.mem_filter.1 hq).2

/-- Enabled bars stand in the order of their numbers (R42). -/
theorem State.enabledBars_pairwise (s : State) : s.enabledBars.Pairwise fun b c => barNo b < barNo c :=
  (by decide : allBars.Pairwise fun b c => barNo b < barNo c).filter _

/-- f is the lowest-numbered enabled bar (R42). -/
theorem State.lowBar_eq {s : State} {b : Bar} (hb : (s.bar b).settings.enabled = true)
    (hlow : ∀ c, (s.bar c).settings.enabled = true → barNo b ≤ barNo c) : s.lowBar = some b := by
  have hmem := (s.mem_enabledBars b).2 hb
  have hpair := s.enabledBars_pairwise
  have hon := s.mem_enabledBars
  rw [State.lowBar]
  cases he : s.enabledBars with
  | nil => rw [he] at hmem; cases hmem
  | cons f rest =>
    rw [he] at hmem hpair hon
    rcases List.mem_cons.1 hmem with rfl | hrest
    · rfl
    · have := (List.pairwise_cons.1 hpair).1 b hrest
      have := hlow f ((hon f).1 List.mem_cons_self)
      omega

/-- l is the highest-numbered enabled bar (R42). -/
theorem State.highBar_eq {s : State} {b : Bar} (hb : (s.bar b).settings.enabled = true)
    (hhigh : ∀ c, (s.bar c).settings.enabled = true → barNo c ≤ barNo b) : s.highBar = some b := by
  have hmem := (s.mem_enabledBars b).2 hb
  have hpair := s.enabledBars_pairwise
  have hon := s.mem_enabledBars
  rw [State.highBar]
  rcases List.eq_nil_or_concat s.enabledBars with he | ⟨init, l, he⟩
  · rw [he] at hmem
    cases hmem
  · rw [he] at hmem hpair hon ⊢
    rw [List.concat_eq_append] at *
    rcases List.mem_append.1 hmem with hinit | hlast
    · have := (List.pairwise_append.1 hpair).2.2 b hinit l (List.mem_singleton_self l)
      have := hhigh l ((hon l).1 (List.mem_append_right _ (List.mem_singleton_self l)))
      omega
    · rw [List.mem_singleton.1 hlast, List.getLast?_concat]

/-- Settles O9: of the parts of the advance, the one point stands among stations falling silent, and the run of points stops
after it, or in the same event after the arming that follows a freeze. -/
theorem point_of_a_lone_record_is_taken : Obligations.Point_of_a_lone_record_is_taken := by
  refine ⟨fun s slot r hreset href hsub hPT hrun hlive hcount ha => ?_, fun s r x b D => ?_⟩
  · intro after becomes arms retires retireAhead inRange
    obtain ⟨u, hu, hend⟩ := State.advance_lone hrun hlive ha
    refine ⟨_, exec_advances hreset href hsub hPT, fun hst hfreeze hsilent => ?_, fun v hst hret => ?_,
      fun v b hst => ⟨fun hon harm => ?_, fun hnow hret hin => ?_⟩, fun v b hst hret hin => ?_, fun v sch hst => ?_,
      fun v d o hst => ?_⟩
    · rw [hu.decides hlive hrun ha hst hfreeze hsilent] at hend
      exact hu.becomes hend
    · rw [hu.freezes hlive hrun ha hst hret] at hend
      exact hu.becomes hend
    · rw [hu.freezes hlive hrun ha hst harm] at hend
      exact hu.becomes hend
    · rw [hu.arms_decided hlive hrun ha hin.1 hin.2 hret hst hnow] at hend
      exact hu.arms hend
    · rw [hu.arms_committed hlive hrun ha hin.1 hin.2 hret hst] at hend
      exact hu.arms hend
    · have htake : u.takePoint slot r =
          (u.setBar sch.bar ((u.bar sch.bar).without (u.ft.handle slot))).retire slot .fired := by rw [State.takePoint, hst]
      rw [hu.takes_retires hlive hrun ha htake rfl] at hend
      have hretires := hu.retires hlive hcount (by rfl) (by rfl) (by rfl) hend
      rw [hst] at hretires
      refine ⟨hretires, fun n hn iv hiv => ?_⟩
      have hfind : u.ft.find slot = some r := FragTable.find_lone (by rw [hu.ft]; exact hlive)
      have howner := State.retire_without_holds hfind (hend.holds sch.bar n hn iv hiv)
      rwa [hu.ft] at howner
    · have htake : u.takePoint slot r = u.retire slot o := by rw [State.takePoint, hst]
      rw [hu.takes_retires hlive hrun ha htake rfl] at hend
      have hretires := hu.retires hlive hcount rfl rfl rfl hend
      rwa [hst] at hretires
  · intro on at_
    refine ⟨fun hsome hall => ?_, fun hb hlow => ?_, fun hb => if_pos hb, fun hb => if_neg hb, fun hb hhigh => ?_, ?_⟩
    · rw [State.decisionPoint, State.dMax_eq hsome hall, fwd, BitVec.ofNat_add, BitVec.add_assoc]
    · have hf := State.lowBar_eq hb hlow
      exact ⟨hf, State.freezePoint_low hf x⟩
    · rw [State.retireLine, State.highBar_eq hb hhigh]
      rfl
    · unfold State.awaited
      cases r.st <;> rfl

end Sys2Proof.Machine
end

