-- ==== Sys2Proof/Proofs/Service.lean ====
section
/-! SUPPORT. The service of the queues: what a treatment and a take can do, and the search from the service pointer (R58,
R59); settles O17. -/

namespace Sys2Proof.Machine

/-! ### What a treatment can do -/

/-- What the treatment of a detection of port p can do: an event counted there, with a notice or without one, or events of
records, after which every nozzle may be evaluated (R61, R65 to R72). -/
inductive State.TreatMove (p : Station) (s : State) : State → Prop
  | counts (f : PortCounters → PortCounters) : TreatMove p s (s.setPort p ((s.port p).count f))
  | tells (f : PortCounters → PortCounters) (k : NoticeKind) :
      TreatMove p s ((s.setPort p ((s.port p).count f)).raise k (.station p) none)
  | moves {t : State} (h : s.PartMove t) : TreatMove p s t
  | settles {t : State} (h : s.PartMove t) : TreatMove p s t.settle

/-- The record table may change in any way (R37). -/
theorem State.ft_partMove (s : State) (ft : FragTable) : s.PartMove { s with ft } :=
  .of_frame rfl rfl rfl rfl rfl rfl rfl rfl rfl rfl rfl (fun _ h => h) fun _ => .refl _

/-- A creation is a move of records (R45). -/
theorem State.create_partMove {s t : State} {r : Record} {slot : Nat} (h : s.create r = some (slot, t)) : s.PartMove t := by
  cases hfree : s.ft.freeList with
  | nil => rw [State.create_nil hfree] at h; cases h
  | cons head rest =>
    rw [State.create_cons hfree] at h
    cases h
    exact .of_frame rfl rfl rfl rfl rfl rfl rfl rfl rfl rfl rfl (fun _ h => h) fun _ => .refl _

section
variable {p : Station} {s u : State} (h : s.PartMove u)
include h

/-- The overdue points of a record, at the end of a treatment (R43). -/
theorem State.PartMove.overdue_treatMove (slot : Nat) : s.TreatMove p (u.takeOverdue slot).settle :=
  .settles (h.trans (u.takeOverdue_partMove slot))

/-- The end of a treatment at a record (R72). -/
theorem State.PartMove.complete_treatMove (slot : Nat) (redecide : Bool) : s.TreatMove p (u.complete slot redecide) := by
  unfold State.complete
  cases redecide with
  | false => exact h.overdue_treatMove slot
  | true => exact (h.trans (u.modRecord_partMove slot _)).overdue_treatMove slot

end

theorem State.makeRecord_treatMove (p : Station) (s : State) (d : Detection) (clipped : Bool) :
    s.TreatMove p (s.makeRecord d clipped) := by
  unfold State.makeRecord
  split
  · next hc => exact (State.create_partMove hc).overdue_treatMove _
  · exact .moves (s.raise_partMove _ _ _)

theorem State.noCandidate_treatMove (s : State) (d : Detection) (clipped frozen : Bool) :
    s.TreatMove d.station (s.noCandidate d clipped frozen) := by
  unfold State.noCandidate
  split
  · exact .tells (·.addLate) .lateEvidence
  · split
    · exact s.makeRecord_treatMove _ d clipped
    · exact .moves (.refl s)

theorem State.giveTo_treatMove (s : State) (d : Detection) (clipped frozen : Bool) (c : Live) :
    s.TreatMove d.station (s.giveTo d clipped frozen c) := by
  unfold State.giveTo
  split
  · exact (s.ft_partMove _).complete_treatMove _ _
  · exact s.noCandidate_treatMove d clipped frozen

theorem State.merge_treatMove (p : Station) (s : State) (d : Detection) (clipped : Bool) (c : Live) (cs : List Live) :
    s.TreatMove p (s.merge d clipped c cs) := by
  have habsorbed : s.PartMove (s.absorbed cs) :=
    (s.draws_partMove _).trans (State.foldl_partMove State.absorbPart_partMove _ _)
  rw [State.merge_eq]
  exact (habsorbed.trans (State.ft_partMove _ _)).complete_treatMove _ _

theorem State.matchAndTreat_treatMove (s : State) (d : Detection) (clipped : Bool) :
    s.TreatMove d.station (s.matchAndTreat d clipped) := by
  unfold State.matchAndTreat
  dsimp only
  split
  · exact s.noCandidate_treatMove _ _ _
  · exact s.giveTo_treatMove _ _ _ _
  · split
    · exact s.merge_treatMove _ _ _ _ _
    · exact s.giveTo_treatMove _ _ _ _

theorem State.treat_treatMove (s : State) (d : Detection) : s.TreatMove d.station (s.treat d) := by
  have hclip : (clip s.tracking d).station = d.station := by
    unfold clip
    split <;> rfl
  unfold State.treat
  split
  · exact .counts (·.addDust)
  · rw [← hclip]
    exact s.matchAndTreat_treatMove _ _

/-! ### What a treatment leaves alone -/

/-- An event leaves the engine, the link and the settings of the association as they are, and each queue too, or
completes a drain, which empties it (R151). -/
structure State.ServiceKept (s t : State) : Prop where
  ae       : t.ae = s.ae
  link     : t.link = s.link
  tracking : t.tracking = s.tracking
  queue    : ∀ q, (t.port q).queue = (s.port q).queue ∨ (t.port q).queue = []

theorem State.PartMove.serviceKept {s t : State} (h : s.PartMove t) : s.ServiceKept t :=
  ⟨h.ae, h.link, h.tracking, h.queue⟩

theorem State.count_serviceKept (s : State) (p : Station) (f : PortCounters → PortCounters) :
    s.ServiceKept (s.setPort p ((s.port p).count f)) := by
  refine ⟨rfl, rfl, rfl, fun q => .inl ?_⟩
  rw [State.port_setPort]
  split
  · next e => rw [e]; rfl
  · rfl

theorem State.TreatMove.serviceKept {p : Station} {s t : State} (h : s.TreatMove p t) : s.ServiceKept t := by
  cases h with
  | counts f => exact s.count_serviceKept p f
  | tells f k =>
    obtain ⟨hae, hlink, htracking, hqueue⟩ := s.count_serviceKept p f
    exact ⟨hae, hlink, htracking, hqueue⟩
  | moves h => exact h.serviceKept
  | settles h =>
    obtain ⟨hae, hlink, htracking, hqueue⟩ := h.serviceKept
    exact ⟨hae, hlink, htracking, hqueue⟩

theorem State.BeltKept.bpu_eq {s t : State} (h : s.BeltKept t) : t.bpu = { s.bpu with G := t.bpu.G } := by
  rcases h.line with ⟨e, -⟩ | ⟨e, -⟩ <;> rw [e]

/-! ### A take (R58, R59) -/

/-- A take removes the head entry of its port and treats it, and frees the engine again (R29, R58). -/
theorem State.take_eq {s : State} {p : Station} {d : Detection} {rest : List Detection} (h : (s.port p).queue = d :: rest) :
    s.take p = ((s.underTake p rest).treat d).engineFree := by
  have hremoved : (s.port p).removeHead =
      { s.port p with queue := rest, hold := (s.port p).hold && decide (8 < rest.length) } := by
    rw [Port.removeHead, h]
    rfl
  rw [State.take, h, hremoved]
  rfl

/-- The take of a waiting entry: the engine is free again with the pointer at the next port, the entry is gone, and the
other queues are left as they are or emptied by a drain that completes. -/
theorem State.take_frame {s : State} {p : Station} (hq : (s.port p).queue ≠ []) :
    (s.take p).ae = { pointer := nextStation p, free := true } ∧ (s.take p).link = s.link ∧
    (s.take p).tracking = s.tracking ∧
    (∀ q, q ≠ p → ((s.take p).port q).queue = (s.port q).queue ∨ ((s.take p).port q).queue = []) ∧
    (((s.take p).port p).queue = (s.port p).queue.tail ∨ ((s.take p).port p).queue = []) := by
  obtain ⟨d, rest, hcons⟩ := List.exists_cons_of_ne_nil hq
  obtain ⟨hae, hlink, htracking, hqueue⟩ := ((s.underTake p rest).treat_treatMove d).serviceKept
  rw [State.take_eq hcons, hcons]
  refine ⟨congrArg (fun ae : Engine => { ae with free := true }) hae, hlink, htracking, fun q hne => ?_, ?_⟩
  · have hother := hqueue q
    rwa [s.underTake_port, if_neg hne] at hother
  · have hself := hqueue p
    rwa [s.underTake_port, if_pos rfl] at hself

/-- The search from the service pointer: the first port whose queue holds an entry (R59). -/
theorem State.served_eq_some_iff (s : State) (p : Station) :
    s.served = some p ↔
      ∃ before after, searchOrder s.ae.pointer = before ++ p :: after ∧ (∀ q ∈ before, (s.port q).queue = []) ∧
        (s.port p).queue ≠ [] := by
  rw [State.served, List.find?_eq_some_iff_append]
  simp only [Bool.not_not, Bool.not_eq_true', List.isEmpty_iff, List.isEmpty_eq_false_iff]
  constructor
  · rintro ⟨hp, before, after, horder, hempty⟩
    exact ⟨before, after, horder, hempty, hp⟩
  · rintro ⟨before, after, horder, hempty, hp⟩
    exact ⟨hp, before, after, horder, hempty⟩

/-- With every queue empty the search finds no port (R59). -/
theorem State.served_eq_none {s : State} (h : ∀ p, (s.port p).queue = []) : s.served = none := by
  rw [State.served, List.find?_eq_none]
  exact fun p _ => by simp [h p]

/-- ASSOC_TAKE at a free engine of a running line takes at the port that the search finds (R58). -/
theorem exec_assocTake_served {s : State} {p : Station} (hreset : s.pins.inReset = false) (hrun : s.running = true)
    (hfree : s.ae.free = true) (hp : s.served = some p) : exec .assocTake s = .next (s.take p) := by
  refine congrArg Host.Outcome.next ((State.awake_of hreset _).trans ?_)
  rw [hrun, hfree, hp]
  rfl

/-- In CONFIG and HALTED, and where the search finds no port, ASSOC_TAKE changes nothing (R58; entry 3). -/
theorem exec_assocTake_idle {s : State} (hreset : s.pins.inReset = false) (h : s.running = false ∨ s.served = none) :
    exec .assocTake s = .next s := by
  refine congrArg Host.Outcome.next ((State.awake_of hreset _).trans ?_)
  rcases h with h | h <;> rw [h]
  · rfl
  · exact ite_self s

/-- The search visits the four ports in turn, S0 after S3 (R59). -/
theorem searchOrder_stationNo (p : Station) :
    (searchOrder p).map stationNo = (List.range 4).map fun k => (stationNo p + k) % 4 := by
  cases p <;> rfl

theorem stationNo_nextStation (p : Station) : stationNo (nextStation p) = (stationNo p + 1) % 4 := by
  cases p <;> rfl

/-- Settles O17: the search finds the port, and what a treatment can do leaves the engine and the queues behind it alone. -/
theorem engine_serves_the_ports_in_turn : Obligations.Engine_serves_the_ports_in_turn := by
  refine ⟨fun s hreset => ⟨fun h => exec_assocTake_idle hreset (h.imp_right State.served_eq_none), ?_⟩,
    fun s p => ⟨s.served_eq_some_iff p, searchOrder_stationNo p, stationNo_nextStation p⟩⟩
  intro before p after hrun hfree horder hempty hq
  have hserved : s.served = some p := (s.served_eq_some_iff p).2 ⟨before, after, horder, hempty, hq⟩
  obtain ⟨hae, hlink, htracking, hothers, hqueue⟩ := State.take_frame hq
  exact ⟨s.take p, exec_assocTake_served hreset hrun hfree hserved, hae, (s.take_beltKept p).bpu_eq, hlink, htracking, hothers,
    hqueue⟩

end Sys2Proof.Machine
end

