-- ==== Sys2Proof/Proofs/Discarded.lean ====
section
/-! SUPPORT. Detections that are taken and discarded: dust, late ones, and those that no candidate takes in DRAINING (R61,
R65, R66); settles O18. -/

namespace Sys2Proof.Machine

/-! ### Dust (R61) -/

theorem isDust_of_area {tr : Tracking} {d : Detection} {a : Nat} (h : d.area = some a) :
    isDust tr d = decide (a < tr.minArea) := by
  rw [isDust, h]

theorem isDust_of_no_area {tr : Tracking} {d : Detection} (h : d.area = none) : isDust tr d = false := by
  rw [isDust, h]

theorem State.treat_dust {s : State} {d : Detection} (h : isDust s.tracking d = true) :
    s.treat d = s.setPort d.station ((s.port d.station).count (·.addDust)) := if_pos h

/-! ### No candidate (R65, R66) -/

/-- The shortening of a detection leaves its would-be freeze point, which X gives (R42, R62). -/
theorem State.tooLateFor_shortened (s : State) (d : Detection) : s.tooLateFor (s.shortened d) ↔ s.tooLateFor d := by
  rw [s.shortened_eq d]
  rfl

/-- A detection with a frozen match or a freeze point at or behind T is late (R65). -/
theorem State.noCandidate_late {s : State} {d : Detection} (h : s.meetsFrozen d ∨ s.tooLateFor d) (clipped : Bool) :
    s.noCandidate d clipped (s.hasFrozen d) = s.countLate d := by
  rw [State.noCandidate, if_pos]
  rwa [Bool.or_eq_true, s.hasFrozen_iff, s.pastFreeze_iff]

/-- In DRAINING one that is not late is discarded without a trace (R66). -/
theorem State.noCandidate_draining {s : State} {d : Detection} (hm : s.lc.mode = .draining) (hfrozen : ¬s.meetsFrozen d)
    (hlate : ¬s.tooLateFor d) (clipped : Bool) : s.noCandidate d clipped (s.hasFrozen d) = s := by
  rw [← s.hasFrozen_iff, Bool.not_eq_true] at hfrozen
  rw [← s.pastFreeze_iff, Bool.not_eq_true] at hlate
  rw [State.noCandidate, hfrozen, hlate, hm]
  rfl

/-! ### The engine after a discard -/

/-- The state after a take with one counter of its port written. -/
def State.takenCounting (s : State) (p : Station) (rest : List Detection) (f : PortCounters → PortCounters) : State :=
  (s.afterTake p rest).setPort p { (s.afterTake p rest).port p with counters := f (s.port p).counters }

/-- An event counted at the port of a take, and the engine free again. -/
theorem State.underTake_count (s : State) (p : Station) (rest : List Detection) (f : PortCounters → PortCounters) :
    ((s.underTake p rest).setPort p (((s.underTake p rest).port p).count f)).engineFree = s.takenCounting p rest f := by
  have hcounters : ((s.underTake p rest).port p).counters = (s.port p).counters := by rw [s.underTake_port, if_pos rfl]
  rw [Port.count, hcounters]
  rfl

theorem PortCounters.addDust_eq (c : PortCounters) : c.addDust = { c with dust := min (c.dust + 1) 4294967295 } := by
  rw [PortCounters.addDust, satAdd_eq_min, Config.countMax]

theorem PortCounters.addLate_eq (c : PortCounters) : c.addLate = { c with late := min (c.late + 1) 4294967295 } := by
  rw [PortCounters.addLate, satAdd_eq_min, Config.countMax]

section
variable {s : State} {p : Station} {d : Detection} {rest : List Detection} (h : Takes s p d rest)
include h

theorem exec_assocTake_dust (hd : isDust s.tracking d = true) :
    exec .assocTake s = .next (s.takenCounting p rest fun c => { c with dust := min (c.dust + 1) 4294967295 }) := by
  have htreat := State.treat_dust (s := s.underTake p rest) hd
  rw [h.station] at htreat
  rw [exec_assocTake h, htreat, State.underTake_count]
  simp only [PortCounters.addDust_eq]

variable (hd : isDust s.tracking d = false) (hun : s.unclaimed (s.shortened d))
include hd hun

/-- The take of a detection that is no dust and that no candidate takes. -/
theorem exec_assocTake_unclaimed :
    exec .assocTake s =
      .next (State.engineFree ((s.underTake p rest).noCandidate (s.shortened d)
        (decide (s.tracking.lMax < stepsTo d.X d.Xt)) ((s.underTake p rest).hasFrozen (s.shortened d)))) :=
  (exec_assocTake h).trans (congrArg (fun t : State => Host.Outcome.next t.engineFree)
    (State.treat_unclaimed (s := s.underTake p rest) hd hun))

theorem exec_assocTake_late (hlate : s.meetsFrozen (s.shortened d) ∨ s.tooLateFor d) :
    exec .assocTake s =
      .next ((s.takenCounting p rest fun c => { c with late := min (c.late + 1) 4294967295 }).raise .lateEvidence (.station p)
        none) := by
  have hstation : (s.shortened d).station = p := by rw [s.shortened_eq d, ← h.station]
  have hcount : (s.underTake p rest).noCandidate (s.shortened d) (decide (s.tracking.lMax < stepsTo d.X d.Xt))
      ((s.underTake p rest).hasFrozen (s.shortened d)) = (s.underTake p rest).countLate (s.shortened d) :=
    State.noCandidate_late (s := s.underTake p rest) (hlate.imp_right (s.tooLateFor_shortened d).2) _
  rw [exec_assocTake_unclaimed h hd hun, hcount, State.countLate, hstation]
  refine congrArg (fun t : State => Host.Outcome.next (t.raise .lateEvidence (.station p) none))
    ((s.underTake_count p rest _).trans ?_)
  simp only [PortCounters.addLate_eq]

theorem exec_assocTake_draining (hm : s.lc.mode = .draining) (hfrozen : ¬s.meetsFrozen (s.shortened d))
    (hlate : ¬s.tooLateFor d) : exec .assocTake s = .next (s.afterTake p rest) :=
  (exec_assocTake_unclaimed h hd hun).trans (congrArg (fun t : State => Host.Outcome.next t.engineFree)
    (State.noCandidate_draining (s := s.underTake p rest) hm hfrozen (mt (s.tooLateFor_shortened d).1 hlate) _))

end

/-- Settles O18. -/
theorem dust_and_late_detections_are_discarded : Obligations.Dust_and_late_detections_are_discarded := by
  intro p d rest s ht counted
  refine ⟨fun a ha hlt => ?_, isDust_of_no_area, fun a ha hle => ?_, fun hd hun => ⟨?_, ?_⟩⟩
  · exact exec_assocTake_dust ht ((isDust_of_area ha).trans (decide_eq_true hlt))
  · exact (isDust_of_area ha).trans (decide_eq_false (not_lt.2 hle))
  · exact exec_assocTake_late ht hd hun
  · exact exec_assocTake_draining ht hd hun

end Sys2Proof.Machine
end

