-- ==== Sys2Proof/Proofs/Verdicts.lean ====
section
/-! SUPPORT. Verdicts and decisions: the score of a material, top and second, the material chosen, the flags and the
destination of a decision (R76 to R84); settles O22 and O23. -/

namespace Sys2Proof.Machine

theorem mem_stations (p : Station) : p ∈ stations := by cases p <;> decide

/-! ### Scores (R77, R78) -/

/-- What a station's place adds to the score of a material: the vote of its entry, nothing without one (R78). -/
def stationVote (k : BankData) (ev : PerStation (Option Entry)) (m : Nat) (p : Station) : Nat :=
  match ev.get p with
  | none => 0
  | some e => vote k p e m

/-- The votes of the entries among some stations add up to what these stations' places add. -/
theorem sum_votes_filterMap (k : BankData) (ev : PerStation (Option Entry)) (m : Nat) (ps : List Station) :
    ((ps.filterMap fun p => (ev.get p).map fun e => (p, e)).map fun pe => vote k pe.1 pe.2 m).sum =
      (ps.map (stationVote k ev m)).sum := by
  induction ps with
  | nil => rfl
  | cons p ps ih =>
    rw [List.map_cons, List.sum_cons, ← ih, stationVote]
    cases h : ev.get p <;> simp [h]

/-- A score is the sum of what the four stations' places add (R78). -/
theorem score_eq (k : BankData) (ev : PerStation (Option Entry)) (m : Nat) :
    score k ev m =
      stationVote k ev m .s0 + stationVote k ev m .s1 + stationVote k ev m .s2 + stationVote k ev m .s3 := by
  rw [score, evidenceList, sum_votes_filterMap, stations]
  simp only [List.map_cons, List.map_nil, List.sum_cons, List.sum_nil]
  omega

/-- Class codes of material 0 do not vote (R77). -/
theorem vote_zero (k : BankData) (p : Station) (e : Entry) : vote k p e 0 = 0 :=
  if_neg fun ⟨hm, hpos, _⟩ => hpos.ne' hm

theorem stationVote_zero (k : BankData) (ev : PerStation (Option Entry)) (p : Station) : stationVote k ev 0 p = 0 := by
  unfold stationVote
  split
  · rfl
  · exact vote_zero k p _

theorem score_zero (k : BankData) (ev : PerStation (Option Entry)) : score k ev 0 = 0 := by
  simp only [score_eq, stationVote_zero]

/-- With weights to 15 and confidences to 255 a station adds at most 3,825 to a score. -/
theorem stationVote_le {k : BankData} {ev : PerStation (Option Entry)} (hw : ∀ p c, (k.classEntry p c).weight ≤ 15)
    (hc : ∀ p e, ev.get p = some e → e.conf ≤ 255) (m : Nat) (p : Station) : stationVote k ev m p ≤ 3825 := by
  unfold stationVote
  split
  · exact Nat.zero_le _
  · next e he =>
    unfold vote
    dsimp only
    split
    · exact Nat.mul_le_mul (hw p e.cls) (hc p e he)
    · exact Nat.zero_le _

theorem score_le {k : BankData} {ev : PerStation (Option Entry)} (hw : ∀ p c, (k.classEntry p c).weight ≤ 15)
    (hc : ∀ p e, ev.get p = some e → e.conf ≤ 255) (m : Nat) : score k ev m ≤ 15300 := by
  have hle := stationVote_le hw hc m
  have h0 := hle .s0
  have h1 := hle .s1
  have h2 := hle .s2
  have h3 := hle .s3
  rw [score_eq]
  omega

/-! ### Top and second (R79) -/

theorem le_largest {xs : List Nat} {x : Nat} (h : x ∈ xs) : x ≤ largest xs := (le_foldl_max xs 0).2 x h

theorem largest_mem {xs : List Nat} (h : 0 < largest xs) : largest xs ∈ xs :=
  (foldl_max_mem xs 0).resolve_left h.ne'

theorem secondScore_le_topScore (xs : List Nat) : secondScore xs ≤ topScore xs := by
  rcases Nat.eq_zero_or_pos (secondScore xs) with h | h
  · exact h ▸ Nat.zero_le _
  · exact le_largest (List.mem_of_mem_eraseIdx (largest_mem h))

theorem scores_getElem? (k : BankData) (ev : PerStation (Option Entry)) {m x : Nat} :
    (scores k ev)[m]? = some x ↔ m < 16 ∧ score k ev m = x := by
  rw [scores, List.getElem?_map]
  rcases lt_or_ge m 16 with hm | hm
  · simp [hm]
  · simp [hm.not_gt]

theorem mem_scores {k : BankData} {ev : PerStation (Option Entry)} {x : Nat} :
    x ∈ scores k ev ↔ ∃ m, m < 16 ∧ score k ev m = x := by
  simp only [List.mem_iff_getElem?, scores_getElem?]

theorem mem_eraseIdx_bestMaterial {k : BankData} {ev : PerStation (Option Entry)} {x : Nat} :
    x ∈ (scores k ev).eraseIdx (bestMaterial (scores k ev)) ↔
      ∃ m, m < 16 ∧ m ≠ bestMaterial (scores k ev) ∧ score k ev m = x := by
  simp only [List.mem_eraseIdx_iff_getElem?, scores_getElem?]
  exact exists_congr fun m => and_left_comm

section
variable {k : BankData} {ev : PerStation (Option Entry)} {best : Nat} (hb : best < 16)
  (hmax : ∀ m, m < 16 → score k ev m ≤ score k ev best)
include hb hmax

theorem topScore_scores : topScore (scores k ev) = score k ev best := by
  refine le_antisymm ?_ (le_largest (mem_scores.2 ⟨best, hb, rfl⟩))
  rcases Nat.eq_zero_or_pos (topScore (scores k ev)) with h | h
  · exact h ▸ Nat.zero_le _
  · obtain ⟨m, hm, e⟩ := mem_scores.1 (largest_mem h)
    exact e.symm.trans_le (hmax m hm)

theorem bestMaterial_scores (hfirst : ∀ m, m < best → score k ev m < score k ev best) :
    bestMaterial (scores k ev) = best := by
  have hget : ∀ {m} (h : m < (scores k ev).length), (scores k ev)[m] = score k ev m := fun h =>
    ((scores_getElem? k ev).1 (List.getElem?_eq_getElem h)).2.symm
  rw [bestMaterial, topScore_scores hb hmax, List.idxOf]
  refine (List.findIdx_eq (by rwa [scores_length])).2 ⟨?_, fun m hm => ?_⟩
  · rw [hget, beq_self_eq_true]
  · rw [hget, beq_eq_false_iff_ne]
    exact (hfirst m hm).ne

end

/-! ### The material of a verdict (R80) -/

theorem isWeak_iff (k : BankData) (xs : List Nat) :
    isWeak k xs = true ↔ 0 < topScore xs ∧ (topScore xs < k.table.minScore ∨ marginOf xs < k.table.minMargin) := by
  simp only [isWeak, Bool.and_eq_true, Bool.or_eq_true, decide_eq_true_eq]

theorem chosenMaterial_of_weak {k : BankData} {xs : List Nat} (h : isWeak k xs = true) : chosenMaterial k xs = 0 :=
  if_pos (.inr h)

theorem chosenMaterial_of_top_zero {k : BankData} {xs : List Nat} (h : topScore xs = 0) : chosenMaterial k xs = 0 :=
  if_pos (.inl h)

theorem chosenMaterial_of_met {k : BankData} {xs : List Nat} (htop : 0 < topScore xs) (h : isWeak k xs = false) :
    chosenMaterial k xs = bestMaterial xs :=
  if_neg (by rintro (h0 | hw); exacts [htop.ne' h0, Bool.false_ne_true (h.symm.trans hw)])

/-- Settles O22: a score is one vote per station, and the sixteen scores give top, the best material and second. -/
theorem material_of_a_verdict : Obligations.Material_of_a_verdict := by
  refine ⟨fun k ev best hb hmax hfirst => ?_, fun k ev m => ?_⟩
  · have hbest := bestMaterial_scores hb hmax hfirst
    have hsecond : topScore (scores k ev) - marginOf (scores k ev) = secondScore (scores k ev) :=
      Nat.sub_sub_self (secondScore_le_topScore _)
    dsimp only [verdictOf]
    refine ⟨topScore_scores hb hmax, fun m hm hne => ?_, fun hlt => ?_, Nat.sub_le _ _, fun h0 => ?_,
      fun hpos hlow => ?_, fun hpos hscore hmargin => ?_, fun hw hc => ?_⟩
    · exact (le_largest (mem_eraseIdx_bestMaterial.2 ⟨m, hm, hbest.symm ▸ hne, rfl⟩)).trans hsecond.ge
    · have hpos : 0 < secondScore (scores k ev) := hsecond ▸ Nat.sub_pos_of_lt hlt
      obtain ⟨m, hm, hne, e⟩ := mem_eraseIdx_bestMaterial.1 (largest_mem hpos)
      exact ⟨m, hm, hbest ▸ hne, e.trans hsecond.symm⟩
    · refine ⟨chosenMaterial_of_top_zero h0, ?_⟩
      rw [← Bool.not_eq_true, isWeak_iff]
      exact fun h => h.1.ne' h0
    · have hweak := (isWeak_iff k (scores k ev)).2 ⟨hpos, hlow⟩
      exact ⟨chosenMaterial_of_weak hweak, hweak⟩
    · have hmet : isWeak k (scores k ev) = false := by
        rw [← Bool.not_eq_true, isWeak_iff]
        exact fun h => h.2.elim hscore.not_gt hmargin.not_gt
      exact ⟨(chosenMaterial_of_met hpos hmet).trans hbest, hmet⟩
    · exact (topScore_scores hb hmax).trans_le (score_le hw hc best)
  · intro from_
    have hfrom : ∀ p, stationVote k ev m p = from_ p := fun p => by
      dsimp only [stationVote, from_]
      cases ev.get p with
      | none => rfl
      | some e => simp only [vote, BankData.classEntry, Nat.pos_iff_ne_zero]
    refine ⟨?_, score_zero k ev⟩
    simp only [score_eq, hfrom]

/-! ### DEGRADED and CONFLICT (R81, R82) -/

theorem isDegraded_iff (ports : PerStation Port) (ev : PerStation (Option Entry)) :
    isDegraded ports ev = true ↔ ∃ p, (ports.get p).enabled = true ∧ (ports.get p).state ≠ .up ∧ ev.get p = none := by
  simp only [isDegraded, List.any_eq_true, mem_stations, true_and, Bool.and_eq_true, bne_iff_ne, Option.isNone_iff_eq_none,
    and_assoc]

theorem mem_evidenceList {ev : PerStation (Option Entry)} {p : Station} {e : Entry} :
    (p, e) ∈ evidenceList ev ↔ ev.get p = some e := by
  simp [evidenceList, mem_stations]

theorem disagrees_iff (a : MetalAttr) (flag : Bool) :
    disagrees a flag = true ↔ a = .metal ∧ flag = false ∨ a = .nonmetal ∧ flag = true := by
  cases a <;> simp [disagrees]

theorem isConflict_iff (k : BankData) (ev : PerStation (Option Entry)) (m : Nat) :
    isConflict k ev m = true ↔
      ∃ p e, ev.get p = some e ∧
        ((k.destEntry m).attr = .metal ∧ e.metal = some false ∨ (k.destEntry m).attr = .nonmetal ∧ e.metal = some true) := by
  simp only [isConflict, List.any_eq_true, Prod.exists, mem_evidenceList]
  refine exists_congr fun p => exists_congr fun e => and_congr_right fun _ => ?_
  cases hmetal : e.metal with
  | none => simp
  | some flag => simpa using disagrees_iff _ flag

/-! ### The destination (R84) -/

theorem chooseDest_override (k : BankData) (d : Dest) (degraded conflict : Bool) (m : Nat) :
    chooseDest k (some d) degraded conflict m = d := rfl

theorem chooseDest_degraded (k : BankData) (conflict : Bool) (m : Nat) :
    chooseDest k none true conflict m = k.table.degradedDest := rfl

theorem chooseDest_conflict (k : BankData) (m : Nat) : chooseDest k none false true m = k.table.conflictDest := rfl

theorem chooseDest_table (k : BankData) (m : Nat) : chooseDest k none false false m = (k.destEntry m).dest := rfl

/-- Settles O23: each flag by its own condition, the destination by the cases of R84. -/
theorem decision_sets_flags_and_destination : Obligations.Decision_sets_flags_and_destination := by
  intro s r k v r'
  refine ⟨isDegraded_iff s.ports r.evidence, isConflict_iff k r.evidence v.material,
    chooseDest k r.ovr r'.flags.degraded r'.flags.conflict v.material, rfl, fun o ho => ?_, fun ho hd => ?_,
    fun ho hd hc => ?_, fun ho hd hc => ?_⟩
  · rw [ho, chooseDest_override]
  · rw [ho, hd, chooseDest_degraded]
  · rw [ho, hd, hc, chooseDest_conflict]
  · rw [ho, hd, hc, chooseDest_table]

end Sys2Proof.Machine
end

