-- ==== Sys2Proof/Proofs/Override.lean ====
section
/-! SUPPORT. The override of a live record set by request (R86, R141); settles O43. -/

namespace Sys2Proof.Machine

/-! ### The record of one slot changed -/

/-- A change of the record in a slot puts the changed record there, and leaves every other (R37). -/
theorem FragTable.Sound.modRecord_eq {ft : FragTable} (h : ft.Sound) {slot : Nat} {r : Record}
    (hf : ft.find slot = some r) (f : Record → Record) :
    ft.modRecord slot f =
      { ft with live := ft.live.map fun l => if l.slot = slot then ⟨l.slot, f r⟩ else l } := by
  refine congrArg (fun live => { ft with live }) (List.map_congr_left fun l hl => ?_)
  by_cases hslot : l.slot = slot
  · rw [if_pos (beq_iff_eq.2 hslot), if_pos hslot, h.record_eq hl (hslot ▸ hf)]
  · rw [if_neg (mt beq_iff_eq.1 hslot), if_neg hslot]

/-! ### The override set (R86) -/

/-- What an override makes of the record it is set in: re-decided where it is DECIDED. -/
def State.overridden (s : State) (d : Dest) (r : Record) : Record :=
  if r.st.isDecided then decideRecord s { r with ovr := some d } else { r with ovr := some d }

theorem State.setOverride_eq (s : State) (slot : Nat) (d : Dest) :
    s.setOverride slot d = s.modRecord slot (s.overridden d) := by
  refine congrArg (s.modRecord slot) (funext fun r => ?_)
  dsimp only [State.overridden]
  cases r.st <;> rfl

theorem State.overridden_opened {s : State} {d : Dest} {r : Record} (h : r.st = .opened) :
    s.overridden d r = { r with ovr := some d } := by
  rw [State.overridden, h]
  rfl

theorem State.overridden_decided {s : State} {d x : Dest} {r : Record} {v : Verdict} (h : r.st = .decided v x) :
    s.overridden d r = decideRecord s { r with ovr := some d } := by
  rw [State.overridden, h]
  rfl

/-! ### OVERRIDE carried out (R141) -/

section
variable {s : State} {h : HandleField} {dest : Byte} {r : Record} (hh : checkHandle s.ft h = .ok r)
include hh

theorem overrideOp_idle (hrun : s.running = false) : overrideOp h dest s = refuse s .wrongMode := by
  rw [overrideOp, hh]
  exact if_pos (by rw [hrun]; rfl)

variable (hrun : s.running = true)
include hrun

theorem overrideOp_running :
    overrideOp h dest s =
      match destOf dest with
      | none => refuse s .badValue
      | some d => if r.st.takesEvidence then done (s.setOverride h.slot.toNat d) else refuse s .tooLate := by
  rw [overrideOp, hh]
  exact if_neg (by rw [hrun]; decide)

theorem overrideOp_badValue (hd : destOf dest = none) : overrideOp h dest s = refuse s .badValue := by
  rw [overrideOp_running hh hrun, hd]

variable {d : Dest} (hd : destOf dest = some d)
include hd

theorem overrideOp_tooLate (hst : r.st.takesEvidence = false) : overrideOp h dest s = refuse s .tooLate := by
  rw [overrideOp_running hh hrun, hd, hst]
  rfl

theorem overrideOp_accepted (hst : r.st.takesEvidence = true) :
    overrideOp h dest s = done (s.modRecord h.slot.toNat (s.overridden d)) := by
  rw [overrideOp_running hh hrun, hd, hst, ← s.setOverride_eq]
  rfl

end

/-- Settles O43: the checks of R141 in order; the table has one record in the slot, so one record changes. -/
theorem override_of_a_live_record : Obligations.OVERRIDE_of_a_live_record := by
  intro h dest d r s hs hslot hf hg htable
  have hh : checkHandle s.ft h = .ok r := checkHandle_ok hslot hf hg
  refine ⟨fun hrun => request_answered hs rfl (overrideOp_idle (s := s.takenUp 16) hh hrun), fun hrun =>
    ⟨fun hbad => request_answered hs rfl (overrideOp_badValue (s := s.takenUp 16) hh hrun (destOf_none hbad)),
      fun hdest => ?_⟩⟩
  have hd : destOf dest = some d := destOf_of hdest
  have haccept : r.st.takesEvidence = true → exec (.override h dest) s =
      .next ((s.modRecord h.slot.toNat (s.overridden d)).answered 16 .ok .empty) := fun hst =>
    request_answered hs rfl (overrideOp_accepted (s := s.takenUp 16) hh hrun hd hst)
  have hmod := htable.sound.modRecord_eq hf
  refine ⟨fun hfrozen => request_answered hs rfl (overrideOp_tooLate (s := s.takenUp 16) hh hrun hd ?_),
    fun hst => ?_, fun v x hst => ?_⟩
  · rcases hfrozen with ⟨_, _, e⟩ | ⟨_, _, e⟩ | ⟨_, _, _, e⟩ <;> rw [e] <;> rfl
  · rw [haccept (by rw [hst]; rfl), State.modRecord, State.modRecord, hmod, hmod, State.overridden_opened hst]
  · refine ⟨_, s.overridden d r, haccept (by rw [hst]; rfl), ?_, hmod _, State.overridden_decided hst, ?_, rfl, rfl, rfl, rfl,
      rfl, rfl⟩
    · exact (s.ft.find_modRecord _ _).trans (congrArg (Option.map _) hf)
    · rw [State.overridden_decided hst]
      rfl

end Sys2Proof.Machine
end

