-- ==== Sys2Proof/Proofs/LockedBanks.lean ====
section
/-! SUPPORT. What writes the contents of a bank: at most one request is carried out in one command, two requests write a
bank, and those only one that nothing locks (R92, R135); settles O38. -/

namespace Sys2Proof.Machine

/-! ### The lock of a bank (R92) -/

theorem Banks.switchTo_iff (rb : Banks) (k : Bank) :
    rb.switchTo k = true ↔ ∃ w, rb.pendingSwitch = some w ∧ w.target = k := by
  unfold Banks.switchTo
  cases rb.pendingSwitch <;> simp

theorem Banks.switchTo_eq_false_iff (rb : Banks) (k : Bank) :
    rb.switchTo k = false ↔ ∀ w, rb.pendingSwitch = some w → w.target ≠ k := by
  unfold Banks.switchTo
  cases rb.pendingSwitch <;> simp

/-- A bank is free to be written where it is not active, no switch to it is pending and no record names it (R92). -/
theorem Banks.locked_eq_none_iff (rb : Banks) (k : Bank) :
    rb.locked k = none ↔
      rb.active ≠ k ∧ (∀ w, rb.pendingSwitch = some w → w.target ≠ k) ∧ rb.refs.get k = 0 := by
  rw [← Banks.switchTo_eq_false_iff, Banks.locked]
  by_cases hactive : rb.active = k
  · simp [hactive]
  · cases rb.switchTo k <;> simp [hactive]

/-! ### Contents kept and contents written -/

/-- An event leaves the contents of both banks. -/
def State.DataKept (s t : State) : Prop := t.banks.data = s.banks.data

theorem State.DataKept.trans {s t u : State} (h : s.DataKept t) (k : t.DataKept u) : s.DataKept u := Eq.trans k h

theorem State.DataKept.of_banks {s t : State} (h : t.banks = s.banks) : s.DataKept t := congrArg Banks.data h

theorem State.PartMove.dataKept {s t : State} (h : s.PartMove t) : s.DataKept t := h.data

/-- An event leaves the contents of both banks, or writes one bank that nothing locked before the event (R92). -/
def State.DataWritten (s t : State) : Prop :=
  s.DataKept t ∨ ∃ k d, s.banks.locked k = none ∧ t.banks.data = s.banks.data.set k d

/-- A locked bank keeps its contents through such an event (R92). -/
theorem State.DataWritten.get_of_locked {s t : State} (h : s.DataWritten t) {k : Bank} (hk : s.banks.locked k ≠ none) :
    t.banks.data.get k = s.banks.data.get k := by
  rcases h with hkept | ⟨j, d, hj, hwritten⟩
  · exact congrArg (PerBank.get · k) hkept
  · have hne : k ≠ j := fun e => hk (e ▸ hj)
    rw [hwritten, PerBank.get_set, if_neg hne]

/-! ### Events that keep the contents -/

theorem State.settleFrom_dataKept (t s : State) : t.DataKept (t.settleFrom s) := by
  obtain ⟨-, -, -, hbanks, -⟩ := State.settleFrom_frame t s
  exact .of_banks hbanks

theorem State.halt_dataKept (s : State) : s.DataKept s.halt := by
  rcases s.halt_cases with ⟨_, e⟩ | ⟨_, e⟩ <;> rw [e] <;> rfl

theorem State.advance_dataKept (s : State) : s.DataKept s.advance := by
  obtain ⟨-, -, -, -, hdata, -⟩ := s.advance_frame
  exact hdata

theorem State.forwardCount_dataKept (s : State) : s.DataKept s.forwardCount := by
  unfold State.forwardCount State.forwardStep
  split
  · split
    · exact State.advance_dataKept { s with bpu := { s.bpu with sub := 0 } }
    · rfl
  · rfl

theorem State.reverseCount_dataKept (s : State) : s.DataKept s.reverseCount := by
  unfold State.reverseCount
  split
  · rfl
  · split
    · rfl
    · unfold State.reverseStep
      dsimp only
      split
      · exact State.halt_dataKept { s with bpu := { s.bpu with sub := s.bpu.encDiv - 1, P := s.bpu.P - 1 } }
      · rfl

theorem State.decodeLevels_dataKept (s : State) (l : Levels) : s.DataKept (s.decodeLevels l) := by
  rcases s.decodeLevels_cases l with ⟨_, e⟩ | e | e | e | e <;> rw [e]
  · rfl
  · rfl
  · exact State.forwardCount_dataKept { s with bpu := { s.bpu with ref := l } }
  · exact State.reverseCount_dataKept { s with bpu := { s.bpu with ref := l } }
  · rfl

theorem State.countGuard_dataKept (s : State) (counts : Bool) : s.DataKept (s.countGuard counts) := by
  unfold State.countGuard
  split
  · dsimp only
    split
    · exact State.halt_dataKept { s with bpu := { s.bpu with G := satAdd Config.byteMax s.bpu.G 1 } }
    · rfl
  · rfl

theorem State.endWindow_dataKept (s : State) : s.DataKept s.endWindow := by
  have hstall : s.DataKept (State.reportStall { s with bpu := s.bpu.closeWindow } s.bpu.declaresStall) := by
    cases s.bpu.declaresStall <;> rfl
  exact (hstall.trans (State.countGuard_dataKept _ _)).trans (State.settleFrom_dataKept _ s)

/-! ### The Association Engine and the bars -/

theorem State.makeRecord_dataKept (s : State) (d : Detection) (clipped : Bool) :
    s.DataKept (s.makeRecord d clipped) := by
  unfold State.makeRecord
  cases hfree : s.ft.freeList with
  | nil =>
    rw [State.create_nil hfree]
    rfl
  | cons slot rest =>
    rw [State.create_cons hfree]
    exact (State.takeOverdue_partMove _ slot).dataKept

theorem State.noCandidate_dataKept (s : State) (d : Detection) (clipped frozen : Bool) :
    s.DataKept (s.noCandidate d clipped frozen) := by
  unfold State.noCandidate
  split
  · rfl
  · split
    · exact s.makeRecord_dataKept d clipped
    · rfl

theorem State.complete_dataKept (s : State) (slot : Nat) (redecide : Bool) :
    s.DataKept (s.complete slot redecide) := by
  have hdecided : s.DataKept (if redecide then s.modRecord slot (decideRecord s) else s) := by split <;> rfl
  exact hdecided.trans (State.takeOverdue_partMove _ slot).dataKept

theorem State.giveTo_dataKept (s : State) (d : Detection) (clipped frozen : Bool) (c : Live) :
    s.DataKept (s.giveTo d clipped frozen c) := by
  unfold State.giveTo
  split
  · exact State.complete_dataKept { s with ft := s.ft.placeRecord c.slot (attached c.record d clipped) } _ _
  · exact s.noCandidate_dataKept d clipped frozen

theorem State.merge_dataKept (s : State) (d : Detection) (clipped : Bool) (c : Live) (cs : List Live) :
    s.DataKept (s.merge d clipped c cs) := by
  have habsorbed : s.DataKept (s.absorbed cs) :=
    (State.foldl_partMove State.absorbPart_partMove _ { s with draws := s.draws + 1 }).dataKept
  rw [State.merge_eq]
  exact habsorbed.trans (State.complete_dataKept _ _ _)

theorem State.treat_dataKept (s : State) (d : Detection) : s.DataKept (s.treat d) := by
  unfold State.treat
  split
  · rfl
  · unfold State.matchAndTreat
    dsimp only
    split
    · exact s.noCandidate_dataKept _ _ _
    · exact s.giveTo_dataKept _ _ _ _
    · split
      · exact s.merge_dataKept _ _ _ _
      · exact s.giveTo_dataKept _ _ _ _

theorem State.take_dataKept (s : State) (p : Station) : s.DataKept (s.take p) := by
  unfold State.take
  split
  · rfl
  · exact State.treat_dataKept
      { s.setPort p (s.port p).removeHead with ae := { pointer := nextStation p, free := false } } _

theorem State.faultBar_dataKept (s : State) (b : Bar) : s.DataKept (s.faultBar b) := by
  have hdropped := (State.foldl_partMove State.dropArmed_partMove
    (orderParts s.draws ((s.armedAt b).map .point)) { s.setBar b (s.bar b).faultNow with draws := s.draws + 1 }).dataKept
  exact State.DataKept.trans hdropped (State.settleFrom_dataKept _ s)

theorem State.portFrame_dataKept (s : State) (port : Station) (bytes : List Byte) {taken : State → State}
    (ht : ∀ u, State.PortEvent port u (taken u)) : s.DataKept (s.portFrame port bytes taken) :=
  State.portFrame_keeps (P := s.DataKept) (fun _ _ h => h) (fun _ _ h => h) bytes ht rfl

theorem State.portBytes_dataKept (s : State) (port : Station) (bytes : List Byte) :
    s.DataKept (s.portBytes port bytes) :=
  State.portBytes_keeps_of (P := s.DataKept) (fun _ _ h => h) (fun _ _ h => h) bytes rfl

/-! ### Requests -/

/-- A bank write writes one bank, and only one that nothing locks (R92). -/
theorem writeBank_dataWritten (bank : Byte) (change : Option (BankData → BankData)) (s : State) :
    s.DataWritten (writeBank bank change s).1 := by
  unfold writeBank
  split
  · exact .inl rfl
  · split
    · next _ k f _ =>
      split
      · exact .inl rfl
      · next hfree => exact .inr ⟨k, f (s.banks.data.get k), hfree, rfl⟩
    · exact .inl rfl

theorem setBarOp_dataKept (r : BarRequest) (s : State) : s.DataKept (setBarOp r s).1 := by
  unfold setBarOp
  split
  · rfl
  · split
    · next b st _ _ =>
      change s.DataKept (s.configureBar b st)
      unfold State.configureBar State.faultIfActive
      dsimp only
      split
      · exact State.DataKept.trans (t := s.setBar b _) rfl (State.faultBar_dataKept _ b)
      · rfl
    · rfl

theorem forgetOp_dataKept (x : HandleField) (s : State) : s.DataKept (forgetOp x s).1 := by
  unfold forgetOp
  split
  · rfl
  · next r _ =>
    split
    · rfl
    · have hdropped : s.DataKept (s.dropIntervals x.slot.toNat r) := by
        unfold State.dropIntervals
        split <;> rfl
      exact hdropped.trans (State.retire_partMove _ _ _).dataKept

theorem insertOp_dataKept (r : InsertRequest) (s : State) : s.DataKept (insertOp r s).1 := by
  unfold insertOp
  split
  · rfl
  · split
    · rfl
    · split
      · rfl
      · split
        · rfl
        · cases hfree : s.ft.freeList with
          | nil =>
            rw [State.create_nil hfree]
            rfl
          | cons slot rest =>
            rw [State.create_cons hfree]
            rfl

theorem startOp_dataKept (s : State) : s.DataKept (startOp s).1 := by
  have hrun : s.DataKept (s.withMode .run) := State.settleFrom_dataKept { s with lc := { s.lc with mode := .run } } s
  unfold startOp
  split
  · rfl
  · rfl
  · exact hrun
  · split
    · rfl
    · split
      · exact hrun
      · rfl

theorem stopOp_dataKept (s : State) : s.DataKept (stopOp s).1 := by
  unfold stopOp
  split
  · rfl
  · have hdrained := (State.drainIfEmpty_partMove { s with lc := { s.lc with mode := .draining } }).dataKept
    exact State.DataKept.trans hdrained (State.settleFrom_dataKept _ s)
  · rfl
  · rfl

/-- Every request leaves the contents of both banks, or writes a bank that nothing locks: two of them are bank writes, and
the others touch no contents (R92). -/
theorem request_dataWritten {c : Instr} {kind : Byte} {op : State → Answer} (hc : requestOf c = some (kind, op))
    (s : State) : s.DataWritten (op s).1 := by
  cases c with
  | writeClassmap bank station first entries => cases hc; exact writeBank_dataWritten _ _ s
  | writeDestinations r => cases hc; exact writeBank_dataWritten _ _ s
  | setBar r => cases hc; exact .inl (setBarOp_dataKept r s)
  | forget x => cases hc; exact .inl (forgetOp_dataKept x s)
  | insert r => cases hc; exact .inl (insertOp_dataKept r s)
  | start => cases hc; exact .inl (startOp_dataKept s)
  | stop => cases hc; exact .inl (stopOp_dataKept s)
  | setBelt r => cases hc; unfold setBeltOp; exact .inl (by (repeat' split) <;> rfl)
  | setStation r => cases hc; unfold setStationOp; exact .inl (by (repeat' split) <;> rfl)
  | setTracking r => cases hc; unfold setTrackingOp; exact .inl (by (repeat' split) <;> rfl)
  | switchBank target c => cases hc; unfold switchBankOp; exact .inl (by (repeat' split) <;> rfl)
  | setZone r => cases hc; unfold setZoneOp; exact .inl (by (repeat' split) <;> rfl)
  | enableBar bar => cases hc; unfold enableBarOp; exact .inl (by (repeat' split) <;> rfl)
  | override x dest => cases hc; unfold overrideOp; exact .inl (by (repeat' split) <;> rfl)
  | readPortCounters port => cases hc; unfold readPortCountersOp; exact .inl (by split <;> rfl)
  | readBank bank sect => cases hc; unfold readBankOp; exact .inl (by (repeat' split) <;> rfl)
  | lookup x => cases hc; unfold lookupOp; exact .inl (by split <;> rfl)
  | find c1 c2 first last => cases hc; unfold findOp; exact .inl (by split <;> rfl)
  | scan start count => cases hc; unfold scanOp; exact .inl (by split <;> rfl)
  | readTallies block => cases hc; unfold readTalliesOp; exact .inl (by split <;> rfl)
  | enableGuard | reset | clear | readStatus | readNotices | ackNotices _ | setMask _ | readFault | clearTallies =>
    cases hc; exact .inl rfl
  | _ => cases hc

/-! ### One request in one command (R135) -/

/-- All that bytes on the Supervisor Link do before a reply is sent: they change the link alone, or carry out one request,
which stays in progress. -/
def State.OneRequest (s t : State) : Prop :=
  (∃ link, t = { s with link }) ∨
  ∃ c kind op link link', requestOf c = some (kind, op) ∧ link'.inProgress.isSome = true ∧
    t = { (op { s with link }).1 with link := link' }

theorem State.OneRequest.refl (s : State) : s.OneRequest s := .inl ⟨s.link, rfl⟩

/-- A frame that is answered leaves the request in progress (R134, R135). -/
theorem Link.answer_inProgress (l : Link) (kind : Byte) (code : ReplyCode) :
    (l.answer kind code).inProgress = l.inProgress := by
  rcases l.answer_cases kind code with ⟨_, e⟩ | ⟨_, e⟩ <;> rw [e]

section
variable {s t : State} (h : s.OneRequest t)
include h

/-- The link moves on with the request in progress as it was. -/
theorem State.OneRequest.withLink {link : Link} (hl : link.inProgress = t.link.inProgress) :
    s.OneRequest { t with link } := by
  rcases h with ⟨_, rfl⟩ | ⟨c, kind, op, l, l', hc, hp, rfl⟩
  · exact .inl ⟨link, rfl⟩
  · exact .inr ⟨c, kind, op, l, link, hc, hl ▸ hp, rfl⟩

theorem State.OneRequest.frameReply (kind : Byte) (code : ReplyCode) : s.OneRequest (t.frameReply kind code) :=
  h.withLink (Link.answer_inProgress _ kind code)

/-- A second request finds the first in progress and is answered BUSY (R135). -/
theorem State.OneRequest.takeRequest {c : Instr} {kind : Byte} {op : State → Answer}
    (hc : requestOf c = some (kind, op)) : s.OneRequest (t.takeRequest kind op) := by
  rcases t.takeRequest_cases kind op with ⟨_, e⟩ | ⟨_, _, e⟩ | ⟨hidle, _, e⟩ <;> rw [e]
  · exact h.frameReply kind .busy
  · exact h.withLink rfl
  · rcases h with ⟨link, rfl⟩ | ⟨_, _, _, _, _, _, hp, rfl⟩
    · exact .inr ⟨c, kind, op, _, _, hc, rfl, rfl⟩
    · exact absurd hidle (Option.isSome_iff_ne_none.1 hp)

theorem State.OneRequest.takeFrame (kind : Byte) (body : List Byte) (check : Half) :
    s.OneRequest (t.takeFrame kind body check) := by
  rcases t.takeFrame_cases kind body check with ⟨code, e⟩ | ⟨_, _, _, _, hc, e⟩ <;> rw [e]
  · exact h.frameReply kind code
  · exact h.takeRequest hc

theorem State.OneRequest.linkByte (b : Byte) : s.OneRequest (t.linkByte b) := by
  rcases t.linkByte_cases b with ⟨rx, e⟩ | e | ⟨kind, body, check, e⟩ <;> rw [e]
  · exact h.withLink rfl
  · exact h.frameReply 0 .badLength
  · exact h.takeFrame kind body check

theorem State.OneRequest.linkFrame (bytes : List Byte) {taken : State → State} (ht : s.OneRequest (taken t)) :
    s.OneRequest (t.linkFrame bytes taken) := by
  unfold State.linkFrame
  split
  · exact ht
  · exact State.linkBytes_keeps (P := s.OneRequest) (fun _ b hu => hu.linkByte b) bytes t h

/-- One request writes at most one bank, and no bank that was locked (R92). -/
theorem State.OneRequest.dataWritten : s.DataWritten t := by
  rcases h with ⟨_, rfl⟩ | ⟨c, kind, op, link, _, hc, _, rfl⟩
  · exact .inl rfl
  · exact request_dataWritten hc { s with link }

end

theorem State.linkBytes_oneRequest (s : State) (bytes : List Byte) : s.OneRequest (s.linkBytes bytes) :=
  State.linkBytes_keeps (P := s.OneRequest) (fun _ b hu => hu.linkByte b) bytes s (.refl s)

/-! ### Every command but the release of the RESET pin -/

/-- A request command carries out its own request, or that of the frame its bytes complete (R133; entries 4 and 23). -/
theorem exec_request_dataWritten {c : Instr} {kind : Byte} {op : State → Answer} (hc : requestOf c = some (kind, op))
    {s t : State} (he : exec c s = .next t) : s.DataWritten t := by
  rcases exec_requestOf hc s with e | e <;> rw [e] at he <;> cases he
  · exact State.awake_keeps (.inl rfl) fun _ =>
      (State.OneRequest.linkFrame (.refl s) _ ((State.OneRequest.refl s).takeRequest hc)).dataWritten
  · exact State.awake_keeps (.inl rfl) fun _ => (s.linkBytes_oneRequest _).dataWritten

/-- Every command that is no request: those of the Supervisor Link may carry out one, and the others touch no contents. -/
theorem exec_event_dataWritten {c : Instr} (hc : requestOf c = none) (hpin : c ≠ .resetPin) {s t : State}
    (he : exec c s = .next t) : s.DataWritten t := by
  have hself : s.DataWritten s := .inl rfl
  cases c with
  | encoderTransition a b =>
    cases he
    exact .inl (State.awake_keeps (P := s.DataKept) rfl fun _ =>
      State.decodeLevels_dataKept { s with pins := { s.pins with levels := ⟨a, b⟩ } } _)
  | windowEnd => cases he; exact State.awake_keeps hself fun _ => .inl s.endWindow_dataKept
  | sync port f =>
    cases he
    exact State.awake_keeps hself fun _ =>
      .inl (s.portFrame_dataKept port _ fun u => u.syncArrives_portEvent port f)
  | detect port f =>
    cases he
    exact State.awake_keeps hself fun _ =>
      .inl (s.portFrame_dataKept port _ fun u => u.detectArrives_portEvent port f)
  | badFrame port length kind =>
    cases he; exact State.awake_keeps hself fun _ => .inl (s.portBytes_dataKept port _)
  | portStartMark port =>
    cases he; exact State.awake_keeps hself fun _ => .inl (s.portBytes_dataKept port [sensorMark])
  | assocTake =>
    cases he
    refine State.awake_keeps hself fun _ => ?_
    split
    · split
      · exact .inl (s.take_dataKept _)
      · exact hself
    · exact hself
  | driverFault b =>
    cases he
    refine State.awake_keeps (.inl rfl) fun _ => ?_
    split
    · exact .inl (State.faultBar_dataKept { s with pins := { s.pins with faultLines := s.pins.faultLines.set b true } } b)
    · exact .inl rfl
  | lclkPulseStart => cases he; exact State.awake_keeps hself fun _ => .inl (by split <;> rfl)
  | lclkPulseEnd => cases he; exact State.awake_keeps hself fun _ => .inl (by split <;> rfl)
  | maxonCut b n => cases he; exact State.awake_keeps hself fun _ => .inl (by split <;> rfl)
  | coolingEnd b n => cases he; exact State.awake_keeps hself fun _ => .inl (by dsimp only; split <;> rfl)
  | valveFrameStart b => cases he; exact State.awake_keeps hself fun _ => .inl rfl
  | valveFrameEnd b => cases he; exact State.awake_keeps hself fun _ => .inl (by dsimp only; split <;> rfl)
  | refreshExpiry b => cases he; exact State.awake_keeps hself fun _ => .inl rfl
  | faultLineInactive b => cases he; exact .inl rfl
  | resetPinAsserted => cases he; exact .inl rfl
  | resetPin => exact absurd rfl hpin
  | overlongFrame length =>
    cases he; exact State.awake_keeps hself fun _ => (s.linkBytes_oneRequest _).dataWritten
  | garbledFrame kind body check =>
    cases he
    refine State.awake_keeps hself fun _ => ?_
    split
    · exact (State.OneRequest.linkFrame (.refl s) _ ((State.OneRequest.refl s).takeFrame kind body check)).dataWritten
    · exact (s.linkBytes_oneRequest _).dataWritten
  | replySent => cases he; exact State.awake_keeps hself fun _ => .inl rfl
  | startMark =>
    cases he; exact State.awake_keeps hself fun _ => ((State.OneRequest.refl s).linkByte supervisorMark).dataWritten
  | _ => cases hc

/-- Settles O38: one command carries out one request at most, and a bank write meets the lock as it stood before. -/
theorem locked_bank_keeps_its_contents : Obligations.Locked_bank_keeps_its_contents := by
  intro c k s t hpin he hlock
  have hlocked : s.banks.locked k ≠ none := by
    rw [Ne, Banks.locked_eq_none_iff]
    rintro ⟨hactive, hswitch, hrefs⟩
    rcases hlock with hk | hk | ⟨w, hw, hk⟩
    · exact hactive hk
    · exact hk.ne' hrefs
    · exact hswitch w hw hk
  refine State.DataWritten.get_of_locked ?_ hlocked
  cases hc : requestOf c with
  | none => exact exec_event_dataWritten hc hpin he
  | some x => exact exec_request_dataWritten (kind := x.1) (op := x.2) hc he

end Sys2Proof.Machine
end

