-- ==== Sys2Proof/Proofs/BankRequests.lean ====
section
/-! SUPPORT. The writes of the Recipe Banks and SWITCH_BANK in the order of their checks (R92 to R94, R96); settles O37 and
O39. -/

namespace Sys2Proof.Machine

/-! ### Lists of values put through a check -/

section
variable {α β : Type} {f : α → Option β}

/-- A list fails a check where one of its members does. -/
theorem allOf_eq_none_iff {xs : List α} : allOf f xs = none ↔ ∃ x ∈ xs, f x = none := by
  induction xs with
  | nil => simp [allOf]
  | cons x xs ih =>
    rw [List.exists_mem_cons_iff, ← ih, allOf]
    cases f x <;> cases allOf f xs <;> simp

/-- What a list that passes a check gives, it gives member by member. -/
theorem forall₂_of_allOf {xs : List α} {ys : List β} (h : allOf f xs = some ys) :
    List.Forall₂ (fun x y => f x = some y) xs ys := by
  induction xs generalizing ys with
  | nil => cases h; exact .nil
  | cons x xs ih =>
    unfold allOf at h
    split at h
    · next y zs hx hxs => cases h; exact .cons hx (ih hxs)
    · cases h

theorem allOf_map {g : α → β} {xs : List α} (h : ∀ x ∈ xs, f x = some (g x)) : allOf f xs = some (xs.map g) := by
  induction xs with
  | nil => rfl
  | cons x xs ih =>
    rw [List.forall_mem_cons] at h
    rw [allOf, h.1, ih h.2]
    rfl

end

/-! ### The values of a Destination Table (R94, R162) -/

theorem exists_dest_no {n : Nat} (h : n ≤ 3) : ∃ d : Dest, n = d.no := by
  interval_cases n
  exacts [⟨.bar .bar0, rfl⟩, ⟨.bar .bar1, rfl⟩, ⟨.bar .bar2, rfl⟩, ⟨.pass, rfl⟩]

theorem destOf_eq_none_iff {b : Byte} : destOf b = none ↔ 3 < b.toNat := by
  refine ⟨fun h => ?_, destOf_none⟩
  by_contra hle
  obtain ⟨d, hd⟩ := exists_dest_no (not_lt.1 hle)
  exact absurd ((destOf_of hd).symm.trans h) (Option.some_ne_none d)

theorem no_of_destOf {b : Byte} {d : Dest} (h : destOf b = some d) : d.no = b.toNat := by
  unfold destOf at h
  split at h <;> cases h <;> exact Eq.symm ‹_›

theorem attrOf_of {b : Byte} {a : MetalAttr} (h : b.toNat = a.no) : attrOf b = some a := by
  rw [attrOf, h]
  cases a <;> rfl

theorem exists_attr_no {n : Nat} (h : n ≤ 2) : ∃ a : MetalAttr, n = a.no := by
  interval_cases n
  exacts [⟨.metal, rfl⟩, ⟨.nonmetal, rfl⟩, ⟨.either, rfl⟩]

theorem no_of_attrOf {b : Byte} {a : MetalAttr} (h : attrOf b = some a) : a.no = b.toNat := by
  unfold attrOf at h
  split at h <;> cases h <;> exact Eq.symm ‹_›

theorem attrOf_eq_none_iff {b : Byte} : attrOf b = none ↔ 2 < b.toNat := by
  constructor
  · intro h
    by_contra hle
    obtain ⟨a, ha⟩ := exists_attr_no (not_lt.1 hle)
    exact absurd ((attrOf_of ha).symm.trans h) (Option.some_ne_none a)
  · intro h
    by_contra hsome
    obtain ⟨a, ha⟩ := Option.ne_none_iff_exists'.1 hsome
    have hno := no_of_attrOf ha
    cases a <;> simp only [MetalAttr.no] at hno <;> omega

/-- An entry of the Destination Table is refused where one of its three values is out of range (R94). -/
theorem destEntryOf_eq_none_iff {x : DestRow} :
    destEntryOf x = none ↔ 3 < x.dest.toNat ∨ 7 < x.rank.toNat ∨ 2 < x.attr.toNat := by
  rw [← destOf_eq_none_iff, ← attrOf_eq_none_iff, ← not_le, destEntryOf]
  cases destOf x.dest <;> cases attrOf x.attr <;> simp

/-- An entry in range holds its three values as written (R94). -/
theorem destEntryOf_values {x : DestRow} {e : DestEntry} (h : destEntryOf x = some e) :
    (e.dest.no, e.rank, e.attr.no) = (x.dest.toNat, x.rank.toNat, x.attr.toNat) := by
  unfold destEntryOf at h
  split at h
  · next d a hd ha =>
    split at h
    · cases h
      rw [no_of_destOf hd, no_of_attrOf ha]
    · cases h
  · cases h

/-- A Destination Table is refused where a value is out of range anywhere (R94). -/
theorem destTableOf_eq_none_iff (r : DestinationsRequest) :
    destTableOf r = none ↔
      (∃ x ∈ r.rows, 3 < x.dest.toNat ∨ 7 < x.rank.toNat ∨ 2 < x.attr.toNat) ∨ 3 < r.degradedDest.toNat ∨
        3 < r.conflictDest.toNat ∨ 15300 < r.minScore.toNat ∨ 15300 < r.minMargin.toNat := by
  have hrows : (∃ x ∈ r.rows, 3 < x.dest.toNat ∨ 7 < x.rank.toNat ∨ 2 < x.attr.toNat) ↔
      allOf destEntryOf r.rows = none := by
    simp only [allOf_eq_none_iff, destEntryOf_eq_none_iff]
  rw [hrows, ← destOf_eq_none_iff, ← destOf_eq_none_iff]
  unfold destTableOf
  cases allOf destEntryOf r.rows <;> cases destOf r.degradedDest <;> cases destOf r.conflictDest <;>
    simp [imp_iff_not_or]

/-- The rows of a table in range hold their values as written (R94). -/
theorem destRows_values {xs : List DestRow} {es : List DestEntry} (h : allOf destEntryOf xs = some es) :
    es.map (fun e => (e.dest.no, e.rank, e.attr.no)) = xs.map fun x => (x.dest.toNat, x.rank.toNat, x.attr.toNat) := by
  rw [eq_comm, ← List.forall₂_eq_eq_eq, List.forall₂_map_left_iff, List.forall₂_map_right_iff]
  exact (forall₂_of_allOf h).imp fun _ _ he => (destEntryOf_values he).symm

/-- A table in range holds its values as written (R94). -/
theorem destTableOf_values {r : DestinationsRequest} {t : DestTable} (h : destTableOf r = some t) :
    t.minScore = r.minScore.toNat ∧ t.minMargin = r.minMargin.toNat ∧
    t.degradedDest.no = r.degradedDest.toNat ∧ t.conflictDest.no = r.conflictDest.toNat ∧
    t.rows.map (fun e => (e.dest.no, e.rank, e.attr.no)) =
      r.rows.map fun x => (x.dest.toNat, x.rank.toNat, x.attr.toNat) := by
  unfold destTableOf at h
  split at h
  · next rows degraded conflict hrows hdegraded hconflict =>
    split at h
    · cases h
      exact ⟨rfl, rfl, no_of_destOf hdegraded, no_of_destOf hconflict, destRows_values hrows⟩
    · cases h
  · cases h

/-! ### The run of a WRITE_CLASSMAP (R93) -/

theorem classEntryOf_of {x : ClassRow} (h : x.material.toNat ≤ 15 ∧ x.weight.toNat ≤ 15) :
    classEntryOf x = some ⟨x.material.toNat, x.weight.toNat⟩ := by
  simp [classEntryOf, h]

theorem classEntryOf_eq_none {x : ClassRow} (h : 15 < x.material.toNat ∨ 15 < x.weight.toNat) :
    classEntryOf x = none := by
  refine if_neg ?_
  simp only [Bool.and_eq_true, decide_eq_true_eq]
  omega

/-- The change of a WRITE_CLASSMAP out of range (R93). -/
theorem classmapChange_eq_none {station first : Byte} {entries : List ClassRow}
    (h : 3 < station.toNat ∨ entries = [] ∨ 64 < first.toNat + entries.length ∨
      ∃ e ∈ entries, 15 < e.material.toNat ∨ 15 < e.weight.toNat) : classmapChange station first entries = none := by
  unfold classmapChange
  split
  · next p run hp hrun =>
    exfalso
    unfold classRunOf at hrun
    split at hrun
    · next hcount =>
      simp only [Bool.and_eq_true, decide_eq_true_eq] at hcount
      rcases h with hs | rfl | hlong | ⟨e, he, hbad⟩
      · rw [stationOf_none hs] at hp; cases hp
      · exact absurd hcount.1.1 (by decide)
      · omega
      · rw [allOf_eq_none_iff.2 ⟨e, he, classEntryOf_eq_none hbad⟩] at hrun; cases hrun
    · cases hrun
  · rfl

/-- The change of a WRITE_CLASSMAP in range: its run written over one station's row (R93). -/
theorem classmapChange_of {station first : Byte} {entries : List ClassRow} {p : Station}
    {run : List ClassEntry} (hp : station.toNat = stationNo p) (hne : entries ≠ []) (hfit : first.toNat + entries.length ≤ 64)
    (hrun : run = entries.map fun e => ⟨e.material.toNat, e.weight.toNat⟩)
    (hrange : ∀ e ∈ entries, e.material.toNat ≤ 15 ∧ e.weight.toNat ≤ 15) :
    classmapChange station first entries = some fun d => d.writeClassmap p first.toNat run := by
  have hpos := List.length_pos_iff.2 hne
  have hcount : (decide (1 ≤ entries.length) && decide (entries.length ≤ 64) &&
      decide (first.toNat + entries.length ≤ 64)) = true := by
    simp only [Bool.and_eq_true, decide_eq_true_eq]
    omega
  have hof : classRunOf first entries = some run :=
    (if_pos hcount).trans (hrun ▸ allOf_map fun e he => classEntryOf_of (hrange e he))
  rw [classmapChange, stationOf_of hp, hof]

/-! ### A bank write in its order (R92) -/

section
variable {bank : Byte} {change : Option (BankData → BankData)} {s : State}

theorem writeBank_halted (hm : s.lc.mode = .halted) : writeBank bank change s = refuse s .wrongMode := if_pos hm

variable (hm : s.lc.mode ≠ .halted)
include hm

theorem writeBank_badValue (h : 1 < bank.toNat ∨ change = none) : writeBank bank change s = refuse s .badValue := by
  refine (if_neg hm).trans ?_
  rcases h with hbank | rfl
  · rw [bankOf_none hbank]
  · cases bankOf bank <;> rfl

variable {k : Bank} (hk : bank.toNat = k.no) {f : BankData → BankData}
include hk

theorem writeBank_locked {code : ReplyCode} (hl : s.banks.locked k = some code) :
    writeBank bank (some f) s = refuse s code := by
  refine (if_neg hm).trans ?_
  rw [bankOf_of hk]
  dsimp only
  rw [hl]

theorem writeBank_free (hl : s.banks.locked k = none) : writeBank bank (some f) s = done (s.modBank k f) := by
  refine (if_neg hm).trans ?_
  rw [bankOf_of hk]
  dsimp only
  rw [hl]

end

/-- Why a bank is locked, in the order of R92. -/
theorem Banks.locked_of {rb : Banks} {k : Bank} {code : ReplyCode}
    (h : rb.active = k ∧ code = .bankActive ∨
      rb.active ≠ k ∧ (∃ w, rb.pendingSwitch = some w ∧ w.target = k) ∧ code = .pending ∨
      rb.active ≠ k ∧ (∀ w, rb.pendingSwitch = some w → w.target ≠ k) ∧ 0 < rb.refs.get k ∧ code = .bankBusy) :
    rb.locked k = some code := by
  rw [← Banks.switchTo_iff, ← Banks.switchTo_eq_false_iff] at h
  unfold Banks.locked
  rcases h with ⟨hactive, rfl⟩ | ⟨hactive, hswitch, rfl⟩ | ⟨hactive, hswitch, hrefs, rfl⟩
  · exact if_pos hactive
  · rw [if_neg hactive, if_pos hswitch]
  · rw [if_neg hactive, hswitch, if_neg Bool.false_ne_true, if_pos hrefs]

/-! ### WRITE_CLASSMAP and WRITE_DESTINATIONS answered -/

section
variable {s t : State} (hs : Ready s) {code : ReplyCode} (hl : t.link = s.link)
include hs hl

/-- A WRITE_CLASSMAP of no more entries than a request has is answered as its bank write is (R93). -/
theorem exec_writeClassmap {bank station first : Byte} {entries : List ClassRow} (hlen : entries.length ≤ 64)
    (h : writeBank bank (classmapChange station first entries) (s.takenUp 6) =
      ({ t with link := s.link.takeUp 6 }, code, .empty)) :
    exec (.writeClassmap bank station first entries) s = .next (t.answered 6 code .empty) :=
  (if_pos hlen).trans (request_answered hs hl h)

/-- A WRITE_DESTINATIONS of 16 entries is answered as its bank write is (R94). -/
theorem exec_writeDestinations {r : DestinationsRequest} (hlen : r.rows.length = 16)
    (h : writeBank r.bank ((destTableOf r).map fun table d => { d with table }) (s.takenUp 7) =
      ({ t with link := s.link.takeUp 7 }, code, .empty)) :
    exec (.writeDestinations r) s = .next (t.answered 7 code .empty) :=
  (if_pos hlen).trans (request_answered hs hl h)

end

/-- Settles O37. -/
theorem bank_writes_in_order : Obligations.Bank_writes_in_order := by
  refine ⟨?_, fun r => ⟨destTableOf_eq_none_iff r, fun _ => destTableOf_values⟩⟩
  rintro bank station first entries r k p run table s hs hlen hrows rfl
  refine ⟨fun hm => ⟨exec_writeClassmap hs rfl hlen (writeBank_halted hm),
    exec_writeDestinations hs rfl hrows (writeBank_halted hm)⟩, fun hm => ⟨fun hbad => ?_, fun hbad => ?_, ?_⟩⟩
  · exact exec_writeClassmap hs rfl hlen (writeBank_badValue hm (hbad.imp_right classmapChange_eq_none))
  · exact exec_writeDestinations hs rfl hrows
      (writeBank_badValue hm (hbad.imp_right fun h => congrArg (Option.map _) h))
  · intro hk hp hne hfit hrun hrange htable
    have hmap := classmapChange_of hp hne hfit hrun hrange
    have hdest : (destTableOf r).map (fun table d => { d with table }) = some fun d : BankData => { d with table } :=
      congrArg (Option.map _) htable
    refine ⟨fun code hcode => ?_, fun hactive hswitch hrefs => ?_⟩
    · have hlocked := Banks.locked_of hcode
      refine ⟨exec_writeClassmap hs rfl hlen ?_, exec_writeDestinations hs rfl hrows ?_⟩
      · rw [hmap]
        exact writeBank_locked (s := s.takenUp 6) hm hk hlocked
      · rw [hdest]
        exact writeBank_locked (s := s.takenUp 7) hm hk hlocked
    · have hfree := (s.banks.locked_eq_none_iff k).2 ⟨hactive, hswitch, hrefs⟩
      refine ⟨exec_writeClassmap (t := s.modBank k fun d => d.writeClassmap p first.toNat run) hs rfl hlen ?_,
        exec_writeDestinations (t := s.modBank k fun d => { d with table }) hs rfl hrows ?_⟩
      · rw [hmap]
        exact writeBank_free (s := s.takenUp 6) hm hk hfree
      · rw [hdest]
        exact writeBank_free (s := s.takenUp 7) hm hk hfree

/-! ### SWITCH_BANK (R96) -/

theorem coordinateOk_iff (T c : Pos) : coordinateOk T c = true ↔ 1 ≤ (c - T).toNat ∧ (c - T).toNat ≤ 1048575 := by
  rw [coordinateOk, Bool.and_eq_true, decide_eq_true_eq, decide_eq_true_eq, stepsTo, Config.span, Nat.lt_succ_iff]

section
variable {target : Byte} {c : Pos} {s : State}

theorem switchBankOp_halted (hm : s.lc.mode = .halted) : switchBankOp target c s = refuse s .wrongMode := if_pos hm

variable (hm : s.lc.mode ≠ .halted)
include hm

/-- A switch to no bank or to the active one is refused (R96). -/
theorem switchBankOp_badTarget (h : 1 < target.toNat ∨ target.toNat = s.banks.active.no) :
    switchBankOp target c s = refuse s .badValue := by
  refine (if_neg hm).trans ?_
  rcases h with h | h
  · rw [bankOf_none h]
  · rw [bankOf_of h]
    exact if_pos rfl

variable {k : Bank} (hk : target.toNat = k.no) (hactive : s.banks.active ≠ k)
include hk hactive

/-- A switch to the bank that is not active: refused while one is pending, and by mode otherwise (R96). -/
theorem switchBankOp_inactive :
    switchBankOp target c s =
      if s.banks.pendingSwitch.isSome then refuse s .pending
      else if s.lc.mode = .config then done { s with banks := { s.banks with active := k } }
      else if coordinateOk s.bpu.T c then
        done { s with banks := { s.banks with pendingSwitch := some { target := k, c } } }
      else refuse s .badValue := by
  refine (if_neg hm).trans ?_
  rw [bankOf_of hk]
  exact if_neg hactive.symm

theorem switchBankOp_pending (hp : s.banks.pendingSwitch.isSome = true) :
    switchBankOp target c s = refuse s .pending := by
  rw [switchBankOp_inactive hm hk hactive, if_pos hp]

variable (hp : s.banks.pendingSwitch = none)
include hp

theorem switchBankOp_config (hconfig : s.lc.mode = .config) :
    switchBankOp target c s = done { s with banks := { s.banks with active := k } } := by
  rw [switchBankOp_inactive hm hk hactive, hp, if_neg (by decide), if_pos hconfig]

theorem switchBankOp_running (hrun : s.running = true) :
    switchBankOp target c s =
      if coordinateOk s.bpu.T c then
        done { s with banks := { s.banks with pendingSwitch := some { target := k, c } } }
      else refuse s .badValue := by
  have hconfig : s.lc.mode ≠ .config := fun h => by simp [State.running, h] at hrun
  rw [switchBankOp_inactive hm hk hactive, if_neg (by rw [hp]; decide), if_neg hconfig]

end

/-- Settles O39. -/
theorem switch_BANK_by_mode : Obligations.SWITCH_BANK_by_mode := by
  intro target c k s hs
  refine ⟨fun hm => request_answered hs rfl (switchBankOp_halted hm), fun hm =>
    ⟨fun hbad => request_answered hs rfl (switchBankOp_badTarget (s := s.takenUp 9) hm hbad), fun hk hactive =>
      ⟨fun hp => request_answered hs rfl (switchBankOp_pending (s := s.takenUp 9) hm hk hactive hp), fun hp =>
        ⟨fun hconfig => request_answered hs rfl (switchBankOp_config (s := s.takenUp 9) hm hk hactive hp hconfig),
          fun hrun => ?_⟩⟩⟩⟩
  have hop := switchBankOp_running (c := c) (s := s.takenUp 9) hm hk hactive hp hrun
  refine ⟨fun hmin hmax => request_answered hs rfl (hop.trans (if_pos ((coordinateOk_iff _ _).2 ⟨hmin, hmax⟩))),
    fun hbad => request_answered hs rfl (hop.trans (if_neg ?_))⟩
  rw [coordinateOk_iff]
  rintro ⟨hmin, hmax⟩
  rcases hbad with rfl | hbeyond
  · exact absurd hmin (by simp [State.takenUp])
  · exact absurd hmax hbeyond.not_ge

end Sys2Proof.Machine
end

