-- ==== Sys2Proof/Proofs/FireWindow.lean ====
section
/-! SUPPORT. Leads, fire-on and fire-off of an arming (R107 to R109); settles O25. -/

namespace Sys2Proof.Machine

/-! ### The leads (R107) -/

/-- lead_on is the product rounded up, or its bound where that is not less (R107). -/
theorem leadOn_spec (st : BarSettings) (V : Nat) :
    leadOn st V = 4095 ∧ 32768 * 4094 < st.tOpen * V ∨ leadOn st V < 4095 ∧ st.tOpen * V ≤ 32768 * leadOn st V ∧
      32768 * leadOn st V < st.tOpen * V + 32768 := by
  have hlead : leadOn st V = min ((st.tOpen * V + 32767) / 32768) 4095 := rfl
  omega

/-- lead_off is the product rounded down, or its bound where that is not less (R107). -/
theorem leadOff_spec (st : BarSettings) (V : Nat) :
    leadOff st V = 4095 ∧ 32768 * 4095 ≤ st.tClose * V ∨ leadOff st V < 4095 ∧ 32768 * leadOff st V ≤ st.tClose * V ∧
      st.tClose * V < 32768 * (leadOff st V + 1) := by
  have hlead : leadOff st V = min (st.tClose * V / 32768) 4095 := rfl
  omega

/-! ### The window (R108, R109) -/

theorem not_behind_self (p : Pos) : behind p p = false := by simp [behind, ahead, signedDiff]

theorem ahead_succ (p : Pos) : ahead (p + 1) p = true := by
  rw [ahead_iff]
  bv_omega

section
variable (st : BarSettings) (V : Nat) (T : Pos) (r : Record)

/-- The fire-on of an arming is not behind T (R108). -/
theorem fireOnOf_not_behind : behind (fireOnOf st V T r) T = false := by
  unfold fireOnOf
  split
  · exact not_behind_self T
  · next hlate => exact Bool.eq_false_iff.2 hlate

/-- The fire-off of an arming is ahead of its fire-on (R109). -/
theorem fireOffOf_ahead_fireOnOf : ahead (fireOffOf st V T r) (fireOnOf st V T r) = true := by
  unfold fireOffOf
  split
  · assumption
  · exact ahead_succ _

end

/-- Settles O25. -/
theorem fire_window_of_an_arming : Obligations.Fire_window_of_an_arming := fun st V T r =>
  ⟨leadOn_spec st V, leadOff_spec st V, fireOnOf_not_behind st V T r, fireOffOf_ahead_fireOnOf st V T r, rfl, rfl⟩

end Sys2Proof.Machine
end

