-- ==== Sys2Proof/Proofs/Arming.lean ====
section
/-! SUPPORT. An arming in the statements' words: nozzle set and zones, what it tells of, guard, capacity and commit (R101,
R104 to R106, R108, R110 to R113, R121); settles O24 and O26. -/

namespace Sys2Proof.Machine

/-! ### Nozzle set and zones (R101, R105, R106) -/

theorem Zone.covers_iff (z : Zone) (lane : Nat) : z.covers lane = true ↔ z.first ≤ lane ∧ lane ≤ z.last := by
  simp [Zone.covers]

/-- The lowest-numbered zone that covers a lane governs it and gives its key (R101). -/
theorem governing_of_first {zones : List Zone} {lane i : Nat} {z : Zone} (hz : zones[i]? = some z)
    (hfirst : z.first ≤ lane) (hlast : lane ≤ z.last)
    (hlower : ∀ j y, j < i → zones[j]? = some y → ¬(y.first ≤ lane ∧ lane ≤ y.last)) :
    governing zones lane = some i ∧ keyAt zones lane = z.key := by
  have hgov : governing zones lane = some i := by
    obtain ⟨hi, rfl⟩ := List.getElem?_eq_some_iff.1 hz
    refine List.findIdx?_eq_some_iff_getElem.2 ⟨hi, (Zone.covers_iff _ _).2 ⟨hfirst, hlast⟩, fun j hj => ?_⟩
    rw [Zone.covers_iff]
    exact hlower j _ hj (List.getElem?_eq_getElem _)
  refine ⟨hgov, ?_⟩
  rw [keyAt, List.find?_eq_bind_findIdx?_getElem?, ← governing, hgov, Option.bind_some, hz]

/-- A lane that no zone covers is governed by none and has key NORMAL (R101). -/
theorem governing_of_none {zones : List Zone} {lane : Nat} (h : ∀ z ∈ zones, ¬(z.first ≤ lane ∧ lane ≤ z.last)) :
    governing zones lane = none ∧ keyAt zones lane = .normal := by
  have hgov : governing zones lane = none := List.findIdx?_eq_none_iff.2 fun z hz => by
    rw [← Bool.not_eq_true, Zone.covers_iff]
    exact h z hz
  refine ⟨hgov, ?_⟩
  rw [keyAt, List.find?_eq_bind_findIdx?_getElem?, ← governing, hgov, Option.bind_none]

/-- The committed set is what is not under OFF of the nozzle set (R105, R106). -/
theorem mem_committedSet (u : BarUnit) (r : Record) (n : Nat) :
    n ∈ committedSet u r ↔
      r.first - u.settings.widen ≤ n ∧ n ≤ min (r.last + u.settings.widen) 159 ∧ keyAt u.zones n ≠ .off := by
  have hcount : nozzleCount u.settings r =
      min (r.last + u.settings.widen) 159 + 1 - (r.first - u.settings.widen) := rfl
  rw [committedSet, List.mem_filter, List.mem_range'_1, bne_iff_ne, hcount, firstNozzle, ← and_assoc]
  exact and_congr_left fun _ => by omega

theorem committedSet_pairwise (u : BarUnit) (r : Record) : (committedSet u r).Pairwise (· < ·) :=
  (List.pairwise_lt_range' 1).filter _

/-- A rising set lies between its first and its last member. -/
theorem mem_between_headD_getLastD {xs : List Nat} (hne : xs ≠ []) (hrise : xs.Pairwise (· < ·)) :
    xs.headD 0 ∈ xs ∧ xs.getLastD 0 ∈ xs ∧ ∀ n ∈ xs, xs.headD 0 ≤ n ∧ n ≤ xs.getLastD 0 := by
  have hle : xs.Pairwise (· ≤ ·) := hrise.imp le_of_lt
  have hhead : xs.headD 0 = xs.head hne := by rw [List.headD_eq_head?_getD, List.head?_eq_some_head hne, Option.getD_some]
  have hlast : xs.getLastD 0 = xs.getLast hne := by
    rw [List.getLastD_eq_getLast?, List.getLast?_eq_some_getLast hne, Option.getD_some]
  rw [hhead, hlast]
  exact ⟨List.head_mem hne, List.getLast_mem hne, fun n hn => ⟨hle.rel_head hn, hle.rel_getLast hn⟩⟩

/-! ### What an arming tells of (R106, R108) -/

/-- The two notices of an arming, one after the other. -/
theorem State.armingTold_eq (s : State) (b : Bar) (slot : Nat) (r : Record) :
    s.armingTold b slot r =
      (s.reportWatch b slot (committedSet (s.bar b) r)).reportLate b slot
        (isLate (s.bar b).settings s.bpu.V s.bpu.T r) := by
  have hbar : (s.reportWatch b slot (committedSet (s.bar b) r)).bar b = s.bar b :=
    congrArg (PerBar.get · b) (s.reportWatch_bars b slot _)
  have hft := s.reportWatch_ft b slot (committedSet (s.bar b) r)
  unfold State.reportLate
  rw [hbar]
  dsimp only
  rw [satAdd_eq_min, hft]
  rfl

/-- What the notices of an arming leave alone: all but Line Control, the bar's count and the record's flag (R108). -/
theorem State.armingTold_frame (s : State) (b : Bar) (slot : Nat) (r : Record) :
    (∃ late, (s.armingTold b slot r).ft = s.ft.modRecord slot fun x => x.armedAs x.st late) ∧
    (∃ lateFire, (s.armingTold b slot r).bar b = { s.bar b with lateFire }) ∧
    (∀ c, c ≠ b → (s.armingTold b slot r).bar c = s.bar c) ∧
    (s.armingTold b slot r).bpu = s.bpu ∧ (s.armingTold b slot r).banks = s.banks := by
  rw [s.armingTold_eq]
  obtain ⟨lc, hwatch, -⟩ := s.reportWatch_eq b slot (committedSet (s.bar b) r)
  rw [hwatch]
  cases isLate (s.bar b).settings s.bpu.V s.bpu.T r with
  | false =>
    refine ⟨⟨false, ?_⟩, ⟨(s.bar b).lateFire, rfl⟩, fun _ _ => rfl, rfl, rfl⟩
    have hid : (fun x : Record => x.armedAs x.st false) = id := by
      funext x
      simp [Record.armedAs]
    rw [hid, FragTable.modRecord_id]
    rfl
  | true =>
    have hlate : (fun x : Record => x.armedAs x.st true) =
        fun x => { x with flags := { x.flags with lateFire := true } } := by
      funext x
      simp [Record.armedAs]
    exact ⟨⟨true, by rw [hlate]; rfl⟩, ⟨_, PerBar.get_set_same _ b _⟩, fun c hc => PerBar.get_set_other _ _ hc, rfl, rfl⟩

/-! ### Refusals (R104 to R106) -/

section
variable {s : State} {slot : Nat} {r : Record} {v : Verdict} {b : Bar}

theorem State.arm_notReady (h : (s.bar b).state ≠ .ready) : s.arm slot r v b = s.pass slot v b .dropped := if_pos h

theorem State.arm_tooWide (hready : (s.bar b).state = .ready)
    (h : (s.bar b).settings.maxNoz < nozzleCount (s.bar b).settings r) : s.arm slot r v b = s.pass slot v b .dropped :=
  (if_neg (not_not.2 hready)).trans (if_pos h)

variable (hready : (s.bar b).state = .ready) (hwidth : nozzleCount (s.bar b).settings r ≤ (s.bar b).settings.maxNoz)
include hready hwidth

theorem State.arm_masked (h : committedSet (s.bar b) r = []) : s.arm slot r v b = s.pass slot v b .masked :=
  (if_neg (not_not.2 hready)).trans ((if_neg hwidth.not_gt).trans (if_pos (by rw [h]; rfl)))

/-- The schedule that an arming for a bar gives (R107 to R109, R113). -/
def State.scheduleFor (s : State) (r : Record) (b : Bar) : Schedule where
  bar := b
  fireOn := fireOnOf (s.bar b).settings s.bpu.V s.bpu.T r
  fireOff := fireOffOf (s.bar b).settings s.bpu.V s.bpu.T r
  firstNozzle := (committedSet (s.bar b) r).headD 0
  lastNozzle := (committedSet (s.bar b) r).getLastD 0

/-- An arming that is not refused tells of WATCH lanes and of its lateness, and comes to the guard (R106 to R110). -/
theorem State.arm_told (h : committedSet (s.bar b) r ≠ []) :
    s.arm slot r v b =
      (s.armingTold b slot r).guardAndCommit slot r v (s.scheduleFor r b) (committedSet (s.bar b) r) := by
  have hempty : ¬(committedSet (s.bar b) r).isEmpty = true := by simpa using h
  rw [s.armingTold_eq]
  exact (if_neg (not_not.2 hready)).trans ((if_neg hwidth.not_gt).trans (if_neg hempty))

end

/-! ### Guard and capacity (R110 to R112) -/

theorem contends_iff (b : Bar) (c : Record) : contends b c = true ↔ ∃ d, c.st.dest = some d ∧ d ≠ .bar b := by
  unfold contends
  cases c.st.dest <;> simp

/-- At a GUARDED bar some other live record bound elsewhere meets the record and outranks it (R110, R111). -/
theorem State.isSuppressed_iff (s : State) (b : Bar) (slot : Nat) (r : Record) :
    s.isSuppressed b slot r = true ↔
      (s.bar b).settings.guarded = true ∧ ∃ l ∈ s.ft.live, l.slot ≠ slot ∧ (∃ d, l.record.st.dest = some d ∧ d ≠ .bar b) ∧
        s.suppresses (s.bar b).settings l.record r = true := by
  simp only [State.isSuppressed, Bool.and_eq_true, List.any_eq_true, bne_iff_ne, contends_iff, and_assoc]

/-- The notices of an arming do not change who suppresses the record (R111). -/
theorem State.armingTold_isSuppressed (s : State) (b : Bar) (slot : Nat) (r a : Record) :
    (s.armingTold b slot r).isSuppressed b slot a = s.isSuppressed b slot a := by
  obtain ⟨⟨late, hft⟩, ⟨lateFire, hbar⟩, -, -, hbanks⟩ := s.armingTold_frame b slot r
  unfold State.isSuppressed State.suppresses State.rankOf
  rw [hft, hbar, hbanks, FragTable.modRecord_live, List.any_map]
  refine congrArg _ (List.any_congr rfl fun l => ?_)
  by_cases hl : l.slot = slot <;> simp [hl]

theorem anyFull_iff (u : BarUnit) (set : List Nat) : anyFull u set = true ↔ ∃ n ∈ set, 4 ≤ (u.nozzle n).ivals.length := by
  rw [anyFull, List.any_eq_true]
  exact exists_congr fun n => and_congr_right fun _ => decide_eq_true_iff

section
variable {s : State} {slot : Nat} {r : Record} {v : Verdict} {b : Bar} (hready : (s.bar b).state = .ready)
  (hwidth : nozzleCount (s.bar b).settings r ≤ (s.bar b).settings.maxNoz) (hset : committedSet (s.bar b) r ≠ [])
include hready hwidth hset

theorem State.arm_suppressed (h : s.isSuppressed b slot r = true) :
    s.arm slot r v b = (s.armingTold b slot r).pass slot v b .suppressed := by
  rw [State.arm_told hready hwidth hset]
  exact if_pos ((s.armingTold_isSuppressed b slot r r).trans h)

variable (h : s.isSuppressed b slot r = false)
include h

theorem State.arm_unsuppressed :
    s.arm slot r v b =
      if anyFull (s.bar b) (committedSet (s.bar b) r) then
        ((s.armingTold b slot r).raise .valveFull (.bar b) (some (s.ft.handle slot))).pass slot v b .dropped
      else (s.armingTold b slot r).commit slot v (s.scheduleFor r b) (committedSet (s.bar b) r) := by
  obtain ⟨⟨late, hft⟩, ⟨lateFire, hbar⟩, -⟩ := s.armingTold_frame b slot r
  have hhandle : (s.armingTold b slot r).ft.handle slot = s.ft.handle slot := by
    rw [hft]
    rfl
  have hfull : anyFull ((s.armingTold b slot r).bar b) (committedSet (s.bar b) r) =
      anyFull (s.bar b) (committedSet (s.bar b) r) := by
    rw [hbar]
    rfl
  have hguard : ¬(s.armingTold b slot r).isSuppressed b slot r = true := by
    rw [State.armingTold_isSuppressed, h]
    decide
  rw [State.arm_told hready hwidth hset, ← hhandle, ← hfull]
  exact if_neg hguard

theorem State.arm_full (hfull : ∃ n ∈ committedSet (s.bar b) r, 4 ≤ ((s.bar b).nozzle n).ivals.length) :
    s.arm slot r v b =
      ((s.armingTold b slot r).raise .valveFull (.bar b) (some (s.ft.handle slot))).pass slot v b .dropped := by
  rw [State.arm_unsuppressed hready hwidth hset h, if_pos ((anyFull_iff _ _).2 hfull)]

theorem State.arm_commits (hroom : ∀ n ∈ committedSet (s.bar b) r, ((s.bar b).nozzle n).ivals.length < 4) :
    s.arm slot r v b = (s.armingTold b slot r).commit slot v (s.scheduleFor r b) (committedSet (s.bar b) r) := by
  rw [State.arm_unsuppressed hready hwidth hset h, if_neg]
  rw [anyFull_iff]
  rintro ⟨n, hn, hfull⟩
  exact absurd (hroom n hn) hfull.not_gt

end

/-- Settles O24. -/
theorem arming_refused_and_guarded : Obligations.Arming_refused_and_guarded := by
  refine ⟨fun s slot r v b => ⟨State.arm_notReady, State.arm_tooWide, fun hready hwidth hoff => ?_,
    fun hready hwidth hsome hsup => ?_⟩, fun s b slot a => ?_⟩
  · refine State.arm_masked hready hwidth (List.eq_nil_iff_forall_not_mem.2 fun n hn => ?_)
    obtain ⟨hfirst, hlast, hkey⟩ := (mem_committedSet _ _ _).1 hn
    exact hkey (hoff n hfirst hlast)
  · obtain ⟨n, hfirst, hlast, hkey⟩ := hsome
    exact State.arm_suppressed hready hwidth
      (List.ne_nil_of_mem ((mem_committedSet _ _ _).2 ⟨hfirst, hlast, hkey⟩)) hsup
  · rw [s.isSuppressed_iff]
    simp only [State.suppresses, lanesMeet, Bool.and_eq_true, decide_eq_true_eq, and_assoc]
    rfl

/-! ### The commit (R113) -/

theorem BarUnit.nozzle_place {u : BarUnit} {m : Nat} (hm : m < u.nozzles.length) (set : List Nat) (iv : Interval) :
    (u.place set iv).nozzle m =
      { u.nozzle m with ivals := if m ∈ set then insertInterval iv (u.nozzle m).ivals else (u.nozzle m).ivals } := by
  by_cases hset : m ∈ set <;> simp [BarUnit.nozzle, hm, hset]

/-! ### Interval lists (R121) -/

theorem behind_of_behind_of_not {p q t : Pos} (hpq : (p - q).toInt.natAbs < 1048576)
    (hqt : (q - t).toInt.natAbs < 1048576) (hq : behind p q = true) (ht : behind t q = false) : behind p t = true := by
  rw [← Bool.not_eq_true] at ht
  rw [behind_iff] at *
  rw [near_iff] at *
  bv_omega

theorem atOrBehind_of_not_behind {p q : Pos} (hpq : (p - q).toInt.natAbs < 1048576) (h : behind q p = false) :
    atOrBehind p q = true := by
  rw [← Bool.not_eq_true, behind_iff] at h
  rw [near_iff] at hpq
  rw [atOrBehind_iff]
  bv_omega

theorem not_behind_of_behind {p q : Pos} (h : behind p q = true) : behind q p = false := by
  rw [← Bool.not_eq_true]
  rw [behind_iff] at *
  bv_omega

/-- The fire-ons of some intervals lie within 2^20 steps of each other (R5). -/
def Close (list : List Interval) : Prop :=
  ∀ x ∈ list, ∀ y ∈ list, (x.fireOn - y.fireOn).toInt.natAbs < 1048576

theorem Close.subset {xs ys : List Interval} (h : Close ys) (hsub : xs ⊆ ys) : Close xs :=
  fun x hx y hy => h x (hsub hx) y (hsub hy)

/-- An interval joins a list in order of fire-on after those of an earlier or an equal fire-on (R121). -/
theorem insertInterval_splits {iv : Interval} {list : List Interval}
    (hp : list.Pairwise fun x y => behind y.fireOn x.fireOn = false) (hn : Close (iv :: list)) :
    ∃ before after, list = before ++ after ∧ insertInterval iv list = before ++ iv :: after ∧
      (∀ x ∈ before, behind iv.fireOn x.fireOn = false) ∧ ∀ x ∈ after, behind iv.fireOn x.fireOn = true := by
  induction list with
  | nil => exact ⟨[], [], rfl, rfl, nofun, nofun⟩
  | cons x xs ih =>
    obtain ⟨hx, hxs⟩ := List.pairwise_cons.1 hp
    unfold insertInterval
    split
    · next hb =>
      refine ⟨[], x :: xs, rfl, rfl, nofun, List.forall_mem_cons.2 ⟨hb, fun y hy => ?_⟩⟩
      exact behind_of_behind_of_not (hn iv (by simp) x (by simp)) (hn x (by simp) y (by simp [hy])) hb (hx y hy)
    · next hb =>
      obtain ⟨before, after, hlist, hinsert, hbefore, hafter⟩ := ih hxs
        (hn.subset (List.cons_subset_cons iv (List.subset_cons_self x xs)))
      exact ⟨x :: before, after, by rw [hlist, List.cons_append], by rw [hinsert, List.cons_append],
        List.forall_mem_cons.2 ⟨Bool.eq_false_iff.2 hb, hbefore⟩, hafter⟩

/-- A list in order of fire-on stays in order when an interval joins it (R121). -/
theorem insertInterval_pairwise {iv : Interval} {list : List Interval}
    (hp : list.Pairwise fun x y => behind y.fireOn x.fireOn = false) (hn : Close (iv :: list)) :
    (insertInterval iv list).Pairwise fun x y => behind y.fireOn x.fireOn = false := by
  obtain ⟨before, after, hlist, hinsert, hbefore, hafter⟩ := insertInterval_splits hp hn
  rw [hlist, List.pairwise_append] at hp
  obtain ⟨hpb, hpa, hba⟩ := hp
  rw [hinsert, List.pairwise_append]
  refine ⟨hpb, List.pairwise_cons.2 ⟨fun y hy => not_behind_of_behind (hafter y hy), hpa⟩, fun x hx y hy => ?_⟩
  rcases List.mem_cons.1 hy with rfl | hy
  · exact hbefore x hx
  · exact hba x hx y hy

/-- Settles O26. -/
theorem arming_commits_or_finds_a_nozzle_full : Obligations.Arming_commits_or_finds_a_nozzle_full := by
  refine ⟨?_, fun iv list hp hn => ⟨insertInterval_pairwise hp hn, ?_⟩, fun u r n slot f ft => ?_⟩
  · intro s slot r v b hready hsup hwidth set on off told hset hcount
    refine ⟨fun hroom => ?_, State.arm_full hready hwidth hset hsup⟩
    obtain ⟨⟨late, hft⟩, ⟨lateFire, hbar⟩, hother, hbpu, hbanks⟩ := s.armingTold_frame b slot r
    obtain ⟨hfirst, hlast, hbetween⟩ := mem_between_headD_getLastD hset (committedSet_pairwise (s.bar b) r)
    have hhandle : (s.armingTold b slot r).ft.handle slot = s.ft.handle slot := by
      rw [hft]
      rfl
    set t := (s.armingTold b slot r).commit slot v (s.scheduleFor r b) set with ht
    have htb : t.bar b = ((s.armingTold b slot r).bar b).place set ⟨on, off, s.ft.handle slot⟩ := by
      rw [← hhandle]
      exact State.bar_setBar_same _ b _
    refine ⟨t, set.headD 0, set.getLastD 0, State.arm_commits hready hwidth hset hsup hroom, rfl, hfirst, hlast, hbetween,
      fun n hn => ?_, ?_, fun c hc => ?_, rfl, hbpu, hbanks⟩
    · rw [htb, hbar]
      exact BarUnit.nozzle_place (u := s.bar b) (by rwa [hcount]) set _
    · rw [htb]
      rfl
    · exact ((s.armingTold b slot r).bar_setBar b c _).trans ((if_neg hc).trans (hother c hc))
  · obtain ⟨before, after, hlist, hinsert, hbefore, hafter⟩ := insertInterval_splits hp hn
    refine ⟨before, after, hlist, hinsert, fun x hx => ?_, hafter⟩
    have hmem : x ∈ iv :: list := by simp [hlist, hx]
    exact atOrBehind_of_not_behind (hn x hmem iv (by simp)) (hbefore x hx)
  · refine ⟨rfl, mem_committedSet u r n, fun i z hz hfirst hlast hlower => governing_of_first hz hfirst hlast hlower,
      governing_of_none, ?_⟩
    simp only [FragTable.modRecord, beq_iff_eq]

end Sys2Proof.Machine
end

