-- ==== Sys2Proof/Proofs/BarsKept.lean ====
section
/-! SUPPORT. The events that leave settings, zones, states and nozzles of the bars, and every ARMED record: the relation
BarsKept (R113, R122). -/

namespace Sys2Proof.Machine

/-! ### Owners of intervals (R113) -/

/-- A live ARMED record has this handle and this schedule (R113). -/
def FragTable.Schedules (ft : FragTable) (h : Handle) (sch : Schedule) : Prop :=
  ∃ l ∈ ft.live, ∃ v, ft.handle l.slot = h ∧ l.record.st = .armed v sch

/-- The record has no schedule to lose. -/
def Record.Unarmed (r : Record) : Prop := ∀ v sch, r.st ≠ .armed v sch

theorem Record.unarmed_of_takesEvidence {r : Record} (h : r.st.takesEvidence = true) : r.Unarmed := by
  intro v sch hst
  rw [hst] at h
  cases h

/-- Every ARMED record stays, with its handle and its schedule. -/
def FragTable.KeepsArmed (ft ft' : FragTable) : Prop := ∀ h sch, ft.Schedules h sch → ft'.Schedules h sch

theorem FragTable.KeepsArmed.refl (ft : FragTable) : ft.KeepsArmed ft := fun _ _ hs => hs

/-- Where every ARMED record stays as it is with its generation, its schedule stays. -/
theorem FragTable.KeepsArmed.of_live {ft ft' : FragTable}
    (h : ∀ l ∈ ft.live, ¬l.record.Unarmed → l ∈ ft'.live ∧ ft'.gen l.slot = ft.gen l.slot) : ft.KeepsArmed ft' := by
  rintro hd sch ⟨l, hl, v, rfl, hst⟩
  obtain ⟨hl', hgen⟩ := h l hl fun hno => hno v sch hst
  refine ⟨l, hl', v, ?_, hst⟩
  rw [FragTable.handle, FragTable.handle, hgen]

/-- A change of one record that leaves it ARMED as it was, if it was. -/
theorem FragTable.KeepsArmed.modRecord {ft : FragTable} {slot : Nat} {f : Record → Record}
    (h : ∀ r, ⟨slot, r⟩ ∈ ft.live → ∀ v sch, r.st = .armed v sch → (f r).st = .armed v sch) :
    ft.KeepsArmed (ft.modRecord slot f) := by
  rintro hd sch ⟨⟨j, r⟩, hl, v, rfl, hst⟩
  by_cases hj : j = slot
  · subst hj
    exact ⟨⟨j, f r⟩, FragTable.mem_modRecord.2 (.inr ⟨rfl, r, hl, rfl⟩), v, rfl, h r hl v sch hst⟩
  · exact ⟨⟨j, r⟩, FragTable.mem_modRecord.2 (.inl ⟨hl, hj⟩), v, rfl, hst⟩

/-! ### The relation -/

/-- A bar with the settings, the zones, the state and the nozzles of another: they differ at most in counts and bus. -/
structure BarUnit.Like (u u' : BarUnit) : Prop where
  settings : u'.settings = u.settings
  zones    : u'.zones = u.zones
  state    : u'.state = u.state
  nozzles  : u'.nozzles = u.nozzles

theorem BarUnit.Like.refl (u : BarUnit) : u.Like u := ⟨rfl, rfl, rfl, rfl⟩

theorem BarUnit.Like.trans {u v w : BarUnit} (h : u.Like v) (k : v.Like w) : u.Like w :=
  ⟨k.settings.trans h.settings, k.zones.trans h.zones, k.state.trans h.state, k.nozzles.trans h.nozzles⟩

/-- An event leaves settings, zones, states and nozzles of the bars, and on an agreeing table every ARMED record. -/
structure State.BarsKept (s t : State) : Prop where
  bars  : ∀ b, (s.bar b).Like (t.bar b)
  table : TableOk s → TableOk t ∧ s.ft.KeepsArmed t.ft

theorem State.BarsKept.trans {s t u : State} (h : s.BarsKept t) (k : t.BarsKept u) : s.BarsKept u where
  bars b := (h.bars b).trans (k.bars b)
  table hs :=
    let ⟨ht, hkeep⟩ := h.table hs
    ⟨(k.table ht).1, fun hd sch hsch => (k.table ht).2 hd sch (hkeep hd sch hsch)⟩

theorem State.BarsKept.of_bars {s t : State} (hbars : t.bars = s.bars)
    (table : TableOk s → TableOk t ∧ s.ft.KeepsArmed t.ft) : s.BarsKept t :=
  ⟨fun b => by rw [State.bar, State.bar, hbars]; exact .refl _, table⟩

/-- An event on what neither table nor bars depend on. -/
theorem State.BarsKept.of_eq {s t : State} (hbars : t.bars = s.bars) (hft : t.ft = s.ft) (hbanks : t.banks = s.banks)
    (hmode : t.lc.mode = .config → s.lc.mode = .config) : s.BarsKept t :=
  .of_bars hbars fun h =>
    ⟨h.congr hft (by rw [hbanks]) (by rw [hbanks]) (by rw [hbanks]) hmode, by rw [hft]; exact .refl _⟩

theorem State.BarsKept.refl (s : State) : s.BarsKept s := .of_eq rfl rfl rfl id

theorem State.raise_barsKept (s : State) (k : NoticeKind) (src : Source) (h : Option Handle) :
    s.BarsKept (s.raise k src h) := .of_eq rfl rfl rfl (by simp)

theorem State.halt_barsKept (s : State) : s.BarsKept s.halt := by
  rcases s.halt_cases with ⟨_, e⟩ | ⟨_, e⟩ <;> rw [e]
  · exact .refl s
  · exact .of_eq rfl rfl rfl nofun

theorem State.drainIfEmpty_barsKept (s : State) : s.BarsKept s.drainIfEmpty := by
  have hframe : s.drainIfEmpty.bars = s.bars ∧ s.drainIfEmpty.ft = s.ft := by
    rcases s.drainIfEmpty_cases with ⟨_, _, e⟩ | ⟨_, e⟩ <;> rw [e] <;> exact ⟨rfl, rfl⟩
  exact .of_bars hframe.1 fun h => ⟨h.drainIfEmpty, by rw [hframe.2]; exact .refl _⟩

theorem State.goSilent_barsKept (s : State) (p : Station) : s.BarsKept (s.goSilent p) := by
  rcases s.goSilent_cases p with ⟨_, e⟩ | ⟨_, e⟩ <;> rw [e]
  · exact .refl s
  · exact .of_eq rfl rfl rfl (by simp)

theorem State.switchIfReached_barsKept (s : State) : s.BarsKept s.switchIfReached := by
  obtain ⟨-, -, -, hft, -, -, hbars, -⟩ := s.switchIfReached_frame
  exact .of_bars hbars fun h => ⟨h.switchIfReached, by rw [hft]; exact .refl _⟩

theorem State.atNewT_barsKept (s : State) : s.BarsKept s.atNewT := by
  obtain ⟨-, hft, -, -, hbanks, hbars, -, hmode, -⟩ := s.atNewT_frame
  exact .of_eq hbars hft hbanks (by rw [hmode]; exact id)

/-! ### Records -/

theorem State.dropIntervals_eq {s : State} {slot : Nat} {r : Record} {v : Verdict} {sch : Schedule}
    (hst : r.st = .armed v sch) :
    s.dropIntervals slot r = s.setBar sch.bar ((s.bar sch.bar).without (s.ft.handle slot)) := by
  rw [State.dropIntervals, hst]

/-- A change of one record that leaves its bank, and leaves it ARMED as it was, if it was. -/
theorem State.modRecord_barsKept {s : State} {slot : Nat} {f : Record → Record} (hb : ∀ r, (f r).bank = r.bank)
    (hf : TableOk s → ∀ r, ⟨slot, r⟩ ∈ s.ft.live → ∀ v sch, r.st = .armed v sch → (f r).st = .armed v sch) :
    s.BarsKept (s.modRecord slot f) :=
  .of_bars rfl fun h => ⟨h.modRecord hb, .modRecord (hf h)⟩

section
variable {s : State} {slot : Nat} {r : Record} (hf : s.ft.find slot = some r) (hr : r.Unarmed)
include hf hr

/-- A change of a record that is not ARMED. -/
theorem State.modUnarmed_barsKept {f : Record → Record} (hb : ∀ r, (f r).bank = r.bank) :
    s.BarsKept (s.modRecord slot f) :=
  State.modRecord_barsKept hb fun h _ hx v sch hst =>
    absurd ((congrArg Record.st (h.sound.record_eq hx hf)).symm.trans hst) (hr v sch)

theorem State.setRecState_barsKept (st : RecState) : s.BarsKept (s.setRecState slot st) :=
  State.modUnarmed_barsKept hf hr fun _ => rfl

end

/-- A record that is not ARMED, placed anew in belt order (R41). -/
theorem State.placeRecord_barsKept {s : State} {l : Live} {r' : Record} (hl : l ∈ s.ft.live) (hr : l.record.Unarmed)
    (hb : r'.bank = l.record.bank) : s.BarsKept { s with ft := s.ft.placeRecord l.slot r' } := by
  refine .of_bars rfl fun h => ⟨h.placeRecord (h.sound.find hl) hb, .of_live fun x hx harmed => ⟨?_, rfl⟩⟩
  refine (mem_insertLive _ _ _).2 (.inr ((mem_removeSlot _ _ _).2 ⟨hx, fun e => harmed ?_⟩))
  exact h.sound.record_eq hx (e ▸ h.sound.find hl) ▸ hr

/-- The record placed is the one found. -/
theorem FragTable.find_placeRecord (ft : FragTable) (slot : Nat) (r : Record) :
    (ft.placeRecord slot r).find slot = some r := by
  refine FragTable.find_eq_some ((mem_insertLive _ _ _).2 (.inl rfl)) fun l hl e => ?_
  rcases (mem_insertLive _ _ _).1 hl with rfl | hl
  · rfl
  · exact absurd e ((mem_removeSlot _ _ _).1 hl).2

/-- A record joins the table, outside CONFIG (R37, R45, R46). -/
theorem State.withNew_barsKept {s : State} {slot : Nat} {rest : List Nat} {r : Record} (hm : s.lc.mode ≠ .config)
    (hfree : s.ft.freeList = slot :: rest) (hb : r.bank = s.banks.active) : s.BarsKept (s.withNew slot rest r) :=
  .of_bars rfl fun h => ⟨h.withNew hm hfree hb, .of_live fun _ hl _ => ⟨(mem_insertLive _ _ _).2 (.inr hl), rfl⟩⟩

/-- The notices of an arming (R106, R108). -/
theorem State.armingTold_barsKept (s : State) (b : Bar) (slot : Nat) (r : Record) :
    s.BarsKept (s.armingTold b slot r) := by
  obtain ⟨⟨late, hft⟩, ⟨lateFire, hbar⟩, hother, -, hbanks⟩ := s.armingTold_frame b slot r
  have hmode : (s.armingTold b slot r).lc.mode = s.lc.mode := by
    rw [s.armingTold_eq, State.reportLate_mode, State.reportWatch_mode]
  refine ⟨fun c => ?_, fun h => ⟨?_, ?_⟩⟩
  · by_cases hc : c = b
    · subst hc
      rw [hbar]
      exact ⟨rfl, rfl, rfl, rfl⟩
    · rw [hother c hc]
      exact .refl _
  · exact (h.modRecord (f := fun x => x.armedAs x.st late) fun _ => rfl).congr hft (by rw [hbanks]; rfl)
      (by rw [hbanks]; rfl) (by rw [hbanks]; rfl) fun hm => hmode.symm.trans hm
  · rw [hft]
    exact .modRecord fun _ _ _ _ hst => hst

/-- The absorption of the other candidates of a merge touches no ARMED record (R55, R64). -/
theorem State.absorbed_barsKept {s : State} {d : Detection} {c : Live} {cs : List Live} (hc : s.candidates d = c :: cs) :
    s.BarsKept (s.absorbed cs) := by
  have hbars : (s.absorbed cs).bars = s.bars := by
    refine foldl_keeps (P := fun u : State => u.bars = s.bars) (fun u x _ hu => ?_) rfl
    cases x with
    | silence p => exact hu
    | point slot =>
      change (u.absorb slot).bars = s.bars
      rcases u.absorb_cases slot with ⟨_, e⟩ | ⟨_, _, e⟩ <;> rw [e] <;> exact hu
  refine .of_bars hbars fun h => ?_
  obtain ⟨hlive, hne⟩ := h.candidates hc
  refine ⟨(h.absorbed (hlive c List.mem_cons_self).1 hne).1, .of_live fun l hl harmed => ?_⟩
  refine foldl_keeps (P := fun u : State => l ∈ u.ft.live ∧ u.ft.gen l.slot = s.ft.gen l.slot) (fun u x hx hu => ?_)
    ⟨hl, rfl⟩
  obtain ⟨y, hy, rfl⟩ := List.mem_map.1 (mem_orderParts.1 hx)
  have hslot : l.slot ≠ y.slot := fun e => by
    obtain ⟨hy', hst⟩ := hlive y (List.mem_cons_of_mem _ hy)
    rw [h.sound.unique hl hy' e] at harmed
    exact harmed (Record.unarmed_of_takesEvidence hst)
  change l ∈ (u.absorb y.slot).ft.live ∧ (u.absorb y.slot).ft.gen l.slot = _
  rcases u.absorb_cases y.slot with ⟨_, e⟩ | ⟨_, _, e⟩ <;> rw [e]
  · exact hu
  · refine ⟨(mem_removeSlot _ _ _).2 ⟨hu.1, hslot⟩, ?_⟩
    rw [← hu.2, State.freeRecord_ft, FragTable.gen, FragTable.gen, FragTable.freeSlot_gens]
    simp [hslot.symm]

/-- The union of a merge in the place of its survivor (R70). -/
theorem State.merged_barsKept {s : State} {d : Detection} {c : Live} {cs : List Live} (hc : s.candidates d = c :: cs)
    (clipped : Bool) :
    s.BarsKept { s.absorbed cs with ft := (s.absorbed cs).ft.placeRecord c.slot (merged d clipped c cs) } := by
  refine ⟨(State.absorbed_barsKept hc).bars, fun h => ?_⟩
  obtain ⟨hlive, hne⟩ := h.candidates hc
  obtain ⟨hcl, hst⟩ := hlive c List.mem_cons_self
  obtain ⟨hok, hkeep⟩ := (State.absorbed_barsKept hc).table h
  obtain ⟨hplaced, hkeep'⟩ := (State.placeRecord_barsKept (h.absorbed hcl hne).2 (Record.unarmed_of_takesEvidence hst)
    (r' := merged d clipped c cs) rfl).table hok
  exact ⟨hplaced, fun hd sch hs => hkeep' hd sch (hkeep hd sch hs)⟩

end Sys2Proof.Machine
end

