-- ==== Sys2Proof/Proofs/BarEvents.lean ====
section
/-! SUPPORT. What every command keeps of bars and intervals, said once: events that leave the bars alone, events of records
with an evaluation of every nozzle at their end, and events of one bar (R113, R122). -/

namespace Sys2Proof.Machine

/-- A property of the bars between events, and a weaker one within an event, before every nozzle is evaluated: what keeps
them. -/
structure KeptByBarEvents (Within After : State → Prop) : Prop where
  within  : ∀ s, After s → Within s
  settled : ∀ s : State, Within s → After s.settle
  kept    : ∀ s t : State, s.BarsKept t → Within s → Within t
  still   : ∀ s t : State, s.BarsKept t → t.bpu.T = s.bpu.T → t.lineOpen = s.lineOpen → After s → After t
  commit  : ∀ (s : State) slot r v sch set, s.ft.find slot = some r → r.Unarmed → anyFull (s.bar sch.bar) set = false →
    ahead sch.fireOff sch.fireOn = true → Within s → Within (s.commit slot v sch set)
  retire  : ∀ (s : State) slot r o, s.ft.find slot = some r → Within s → Within ((s.dropIntervals slot r).retire slot o)
  unit    : ∀ (s : State) b u, u.nozzles.map (·.ivals) = (s.bar b).nozzles.map (·.ivals) →
    (BarsOk s → BarOk (s.setBar b u) b) → After s → After (s.setBar b u)
  fault   : ∀ (s : State) b, (s.bar b).state = .ready → After s → After (s.faultBar b)
  reset   : ∀ s : State, After s → After s.afterReset
  release : ∀ levels faultLines, After (State.atRelease levels faultLines)
  tick    : ∀ s : State, s.dueEvents = [] → After s → After s.tick

/-- An event leaves table and bars, T and the terms of the line. -/
structure State.Untouched (s t : State) : Prop where
  ft   : t.ft = s.ft
  bars : t.bars = s.bars
  T    : t.bpu.T = s.bpu.T
  line : t.lineOpen = s.lineOpen

theorem State.Untouched.refl (s : State) : s.Untouched s := ⟨rfl, rfl, rfl, rfl⟩

theorem State.Untouched.barsKept {s t : State} (h : s.Untouched t) (htable : TableOk s → TableOk t) : s.BarsKept t :=
  .of_bars h.bars fun hs => ⟨htable hs, by rw [h.ft]; exact .refl _⟩

theorem State.countGuard_barsKept (s : State) (counts : Bool) :
    s.BarsKept (s.countGuard counts) ∧ (s.countGuard counts).bpu.T = s.bpu.T := by
  unfold State.countGuard
  split
  · have hcounted : s.BarsKept { s with bpu := { s.bpu with G := satAdd Config.byteMax s.bpu.G 1 } } := .of_eq rfl rfl rfl id
    dsimp only
    split
    · refine ⟨hcounted.trans (State.halt_barsKept _), ?_⟩
      rcases State.halt_cases { s with bpu := { s.bpu with G := satAdd Config.byteMax s.bpu.G 1 } } with
        ⟨_, e⟩ | ⟨_, e⟩ <;> rw [e]
    · exact ⟨hcounted, rfl⟩
  · exact ⟨.refl s, rfl⟩

namespace KeptByBarEvents

variable {Within After : State → Prop} (k : KeptByBarEvents Within After)
include k

/-! ### The end of an event -/

theorem settle {s t : State} (h : After s) (hk : s.BarsKept t) : After t.settle :=
  k.settled _ (k.kept _ _ hk (k.within _ h))

theorem settleFrom {s t : State} (h : After s) (hk : s.BarsKept t) (hT : t.bpu.T = s.bpu.T) : After (t.settleFrom s) := by
  unfold State.settleFrom
  split
  · next hline => exact k.still _ _ hk hT hline h
  · exact k.settle h hk

theorem untouched {s t : State} (h : After s) (hu : s.Untouched t) (htable : TableOk s → TableOk t) : After t :=
  k.still _ _ (hu.barsKept htable) hu.T hu.line h

/-! ### The events of a record -/

section
variable {s : State} {slot : Nat} {r : Record} (hf : s.ft.find slot = some r)
include hf

theorem guardAndCommit (hr : r.Unarmed) {x : Record} {v : Verdict} {sch : Schedule} {set : List Nat}
    (hwindow : ahead sch.fireOff sch.fireOn = true) (h : Within s) : Within (s.guardAndCommit slot x v sch set) := by
  unfold State.guardAndCommit
  split
  · exact k.kept _ _ (State.setRecState_barsKept hf hr _) h
  · split
    · exact k.kept _ _ ((s.raise_barsKept _ _ _).trans
        (State.setRecState_barsKept (s := s.raise .valveFull (.bar sch.bar) (some (s.ft.handle slot))) hf hr _)) h
    · next hroom => exact k.commit s slot r v sch set hf hr (Bool.eq_false_iff.2 hroom) hwindow h

theorem arm {v : Verdict} {b : Bar} (hst : r.st = .committed v b) (h : Within s) : Within (s.arm slot r v b) := by
  have hr : r.Unarmed := fun _ _ harmed => nomatch hst.symm.trans harmed
  have hpass : ∀ o, Within (s.pass slot v b o) := fun o => k.kept _ _ (State.setRecState_barsKept hf hr _) h
  by_cases hready : (s.bar b).state = .ready
  · by_cases hwidth : nozzleCount (s.bar b).settings r ≤ (s.bar b).settings.maxNoz
    · by_cases hset : committedSet (s.bar b) r = []
      · rw [State.arm_masked hready hwidth hset]
        exact hpass _
      · rw [State.arm_told hready hwidth hset]
        obtain ⟨⟨late, hft⟩, -⟩ := s.armingTold_frame b slot r
        have hfind : (s.armingTold b slot r).ft.find slot = some (r.armedAs r.st late) := by
          rw [hft, FragTable.find_modRecord, hf]
          rfl
        exact k.guardAndCommit hfind hr (fireOffOf_ahead_fireOnOf _ _ _ _) (k.kept _ _ (s.armingTold_barsKept b slot r) h)
    · rw [State.arm_tooWide hready (not_le.1 hwidth)]
      exact hpass _
  · rw [State.arm_notReady hready]
    exact hpass _

/-- The event of the point a record awaits (R49 to R53). -/
theorem takePoint (h : Within s) : Within (s.takePoint slot r) := by
  rcases s.takePoint_cases slot r with ⟨hst, e⟩ | ⟨v, d, hst, e⟩ | ⟨v, b, hst, e⟩ | ⟨v, sch, hst, e⟩ | ⟨v, d, o, hst, e⟩ <;>
    rw [e]
  · exact k.kept _ _ (State.modUnarmed_barsKept hf (fun _ _ harmed => nomatch hst.symm.trans harmed) fun _ => rfl) h
  · exact k.kept _ _ (State.setRecState_barsKept hf (fun _ _ harmed => nomatch hst.symm.trans harmed) _) h
  · exact k.arm hf hst h
  · exact State.dropIntervals_eq hst ▸ k.retire s slot r .fired hf h
  · have hdrop : s.dropIntervals slot r = s :=
      State.dropIntervals_other fun _ _ harmed => nomatch hst.symm.trans harmed
    have hretire := k.retire s slot r o hf h
    rwa [hdrop] at hretire

end

theorem takeOverdue {s : State} (h : Within s) (slot : Nat) : Within (s.takeOverdue slot) :=
  State.takeOverdue_keeps (P := Within) (fun _ _ _ hf _ hu => k.takePoint hf hu) s slot h

/-! ### The belt -/

theorem takePart {s : State} (h : Within s) (x : AdvancePart) : Within (s.takePart x) := by
  cases x with
  | silence p => exact k.kept _ _ (s.goSilent_barsKept p) h
  | point slot =>
    change Within (s.takeReached slot)
    rcases s.takeReached_cases slot with e | ⟨_, _, _, _, e⟩ <;> rw [e]
    · exact h
    · exact k.takeOverdue h slot

theorem advance {s : State} (h : After s) : After s.advance := by
  have hnew : Within { s.atNewT with draws := s.atNewT.draws + 1 } :=
    k.kept _ _ (s.atNewT_barsKept.trans (.of_eq rfl rfl rfl id)) (k.within _ h)
  have hparts : Within s.atNewT.takeParts := foldl_keeps (P := Within) (fun _ x _ hu => k.takePart hu x) hnew
  exact k.settled _ (k.kept _ _ (State.switchIfReached_barsKept _) hparts)

theorem forwardCount {s : State} (h : After s) : After s.forwardCount := by
  unfold State.forwardCount
  split
  · have hsub : After { s with bpu := { s.bpu with sub := 0 } } :=
      k.untouched h ⟨rfl, rfl, rfl, rfl⟩ fun hs => hs.congr rfl rfl rfl rfl id
    unfold State.forwardStep
    split
    · exact k.advance hsub
    · exact k.settle hsub (.of_eq rfl rfl rfl id)
  · exact k.untouched h ⟨rfl, rfl, rfl, rfl⟩ fun hs => hs.congr rfl rfl rfl rfl id

theorem reverseCount {s : State} (h : After s) : After s.reverseCount := by
  unfold State.reverseCount
  split
  · exact k.untouched h ⟨rfl, rfl, rfl, rfl⟩ fun hs => hs.congr rfl rfl rfl rfl id
  · split
    · exact h
    · have hstep : s.BarsKept { s with bpu := { s.bpu with sub := s.bpu.encDiv - 1, P := s.bpu.P - 1 } } :=
        .of_eq rfl rfl rfl id
      unfold State.reverseStep
      dsimp only
      split
      · exact k.settle h (hstep.trans (State.halt_barsKept _))
      · exact k.settle h hstep

theorem decodeLevels {s : State} (h : After s) (l : Levels) : After (s.decodeLevels l) := by
  have href : After { s with bpu := { s.bpu with ref := l } } :=
    k.untouched h ⟨rfl, rfl, rfl, rfl⟩ fun hs => hs.congr rfl rfl rfl rfl id
  rcases s.decodeLevels_cases l with ⟨_, e⟩ | e | e | e | e <;> rw [e]
  · exact h
  · exact href
  · exact k.forwardCount href
  · exact k.reverseCount href
  · exact k.untouched href ⟨rfl, rfl, rfl, rfl⟩ fun hs => hs.congr rfl rfl rfl rfl id

theorem endWindow {s : State} (h : After s) : After s.endWindow := by
  have hclosed : s.BarsKept (State.reportStall { s with bpu := s.bpu.closeWindow } s.bpu.declaresStall) := by
    cases s.bpu.declaresStall
    · exact .of_eq rfl rfl rfl id
    · exact .of_eq rfl rfl rfl (by simp [State.reportStall])
  have hT : (State.reportStall { s with bpu := s.bpu.closeWindow } s.bpu.declaresStall).bpu.T = s.bpu.T := by
    rw [(State.reportStall_frame _ _).2.1]
    rfl
  obtain ⟨hcounted, hsame⟩ := State.countGuard_barsKept
    (State.reportStall { s with bpu := s.bpu.closeWindow } s.bpu.declaresStall) s.guardCounts
  exact k.settleFrom h (hclosed.trans hcounted) (hsame.trans hT)

/-! ### The Association Engine -/

theorem makeRecord {s : State} (h : After s) (hm : s.lc.mode ≠ .config) (d : Detection) (clipped : Bool) :
    After (s.makeRecord d clipped) := by
  unfold State.makeRecord
  cases hfree : s.ft.freeList with
  | nil =>
    rw [State.create_nil hfree]
    exact k.still _ _ (s.raise_barsKept _ _ _) rfl (by simp [State.lineOpen]) h
  | cons slot rest =>
    rw [State.create_cons hfree]
    exact k.settled _ (k.takeOverdue (k.kept _ _ (State.withNew_barsKept hm hfree rfl) (k.within _ h)) slot)

theorem noCandidate {s : State} (h : After s) (d : Detection) (clipped frozen : Bool) :
    After (s.noCandidate d clipped frozen) := by
  unfold State.noCandidate
  split
  · exact k.still s (s.countLate d) (.of_eq rfl rfl rfl (by simp [State.countLate])) rfl
      (by simp [State.countLate, State.lineOpen]) h
  · split
    · next hm => exact k.makeRecord h (by rw [hm]; decide) d clipped
    · exact h

/-- The end of a treatment at a record that is not ARMED (R72). -/
theorem complete {s t : State} (h : After s) {slot : Nat} {r : Record} (hk : s.BarsKept t)
    (hf : t.ft.find slot = some r) (hr : r.Unarmed) (redecide : Bool) : After (t.complete slot redecide) := by
  have hplaced : Within t := k.kept _ _ hk (k.within _ h)
  unfold State.complete
  dsimp only
  split
  · have hdecided := State.modUnarmed_barsKept hf hr (f := decideRecord t) fun _ => rfl
    exact k.settled _ (k.takeOverdue (k.kept _ _ hdecided hplaced) slot)
  · exact k.settled _ (k.takeOverdue hplaced slot)

theorem giveTo {s : State} (h : After s) {c : Live} (hc : c ∈ s.ft.live) (hst : c.record.st.takesEvidence = true)
    (d : Detection) (clipped frozen : Bool) : After (s.giveTo d clipped frozen c) := by
  unfold State.giveTo
  split
  · have hr := Record.unarmed_of_takesEvidence hst
    exact k.complete h (State.placeRecord_barsKept hc hr (r' := attached c.record d clipped) rfl)
      (FragTable.find_placeRecord _ _ _) hr _
  · exact k.noCandidate h d clipped frozen

theorem merge {s : State} (h : After s) {d : Detection} {c : Live} {cs : List Live} (hc : s.candidates d = c :: cs)
    (clipped : Bool) : After (s.merge d clipped c cs) := by
  rw [State.merge_eq]
  exact k.complete h (State.merged_barsKept hc clipped) (FragTable.find_placeRecord _ _ _) nofun _

theorem treat {s : State} (h : After s) (d : Detection) : After (s.treat d) := by
  unfold State.treat
  split
  · exact k.still s _ (.of_eq rfl rfl rfl id) rfl rfl h
  · have hgive : ∀ d', ∀ c ∈ s.candidates d', ∀ clipped frozen, After (s.giveTo d' clipped frozen c) :=
      fun d' c hc => k.giveTo h (List.mem_of_mem_filter (List.mem_of_mem_filter hc)) (List.mem_filter.1 hc).2 d'
    unfold State.matchAndTreat
    dsimp only
    split
    · exact k.noCandidate h _ _ _
    · next c hc => exact hgive _ c (by rw [hc]; exact List.mem_cons_self) _ _
    · next c cs _ hc =>
      split
      · exact k.merge h hc _
      · exact hgive _ _ (by rw [hc]; exact bestOf_mem _ _ c cs) _ _

theorem take {s : State} (h : After s) (p : Station) : After (s.take p) := by
  have hae : ∀ (u : State) ae, After u → After { u with ae := ae } := fun u ae hu =>
    k.still u _ (.of_eq rfl rfl rfl id) rfl rfl hu
  unfold State.take
  split
  · exact h
  · have hport : After (s.setPort p (s.port p).removeHead) := k.still s _ (.of_eq rfl rfl rfl id) rfl rfl h
    exact hae _ _ (k.treat (hae _ _ hport) _)

end KeptByBarEvents

end Sys2Proof.Machine
end

