-- ==== Sys2Proof/Proofs/BarInOrder.lean ====
section
/-! SUPPORT. A bar in order, said of the unit alone: its shape, and the condition its nozzles are open in; what the events of
one bar keep of both (R99, R118 to R126). -/

namespace Sys2Proof.Machine

/-! ### One nozzle -/

/-- What holds of a nozzle within an event too, before it is evaluated: at most four intervals (R112), and counters that run
only in their states and within MAXON (R123, R125, R126). -/
structure Nozzle.Shape (maxon : Nat) (n : Nozzle) : Prop where
  ivals   : n.ivals.length ≤ 4
  counter : n.st ≠ .opened → n.onTime = 0
  limit   : n.onTime ≤ maxon
  timer   : n.st ≠ .cooling → n.cool = 0

/-- The nozzle is OPEN exactly while its open condition holds, cooling apart (R122). -/
def Nozzle.Fits (go : Bool) (T : Pos) (n : Nozzle) : Prop :=
  n.st ≠ .cooling → (n.st = .opened ↔ go = true ∧ n.covered T = true)

theorem Nozzle.fits_iff (go : Bool) (T : Pos) (n : Nozzle) :
    n.Fits go T ↔ (n.st ≠ .cooling → (n.st = .opened ↔ go = true ∧ ∃ iv ∈ n.ivals, iv.covers T = true)) := by
  rw [Nozzle.Fits, Nozzle.covered, List.any_eq_true]

theorem nozzleOk_iff (go : Bool) (T : Pos) (maxon : Nat) (n : Nozzle) :
    NozzleOk go T maxon n ↔ n.Shape maxon ∧ n.Fits go T := by
  rw [Nozzle.fits_iff]
  exact ⟨fun h => ⟨⟨h.ivals, h.counter, h.limit, h.timer⟩, h.opens⟩,
    fun ⟨hs, hf⟩ => ⟨hf, hs.ivals, hs.counter, hs.limit, hs.timer⟩⟩

theorem Nozzle.eval_fits (n : Nozzle) (go : Bool) (T : Pos) : (n.eval go T).Fits go T := by
  intro hst
  rw [(n.eval_spec go T).2.2 hst, Nozzle.covered, Nozzle.covered, n.eval_ivals]

/-- Where the terms of the line or the bar fail a nozzle fits while it is not OPEN. -/
theorem Nozzle.fits_false {n : Nozzle} {T : Pos} : n.Fits false T ↔ n.st ≠ .opened := by
  unfold Nozzle.Fits
  cases n.st <;> simp

theorem Nozzle.atRelease_shape (maxon : Nat) : Nozzle.atRelease.Shape maxon :=
  ⟨Nat.zero_le _, fun _ => rfl, Nat.zero_le _, fun _ => rfl⟩

namespace Nozzle.Shape

variable {maxon : Nat} {n : Nozzle} (h : n.Shape maxon)
include h

theorem eval (go : Bool) (T : Pos) : (n.eval go T).Shape maxon := by
  have hcooling := (n.eval_spec go T).2.1
  refine ⟨by rw [n.eval_ivals]; exact h.ivals, fun hst => ?_, ?_, fun hst => ?_⟩
  · unfold Nozzle.eval at hst ⊢
    cases hn : n.st with
    | closed =>
      rw [hn] at hst
      dsimp only at hst ⊢
      split
      · rfl
      · exact h.counter (by rw [hn]; decide)
    | opened =>
      rw [hn] at hst
      dsimp only at hst ⊢
      split
      · next hgo => exact absurd hn (by rwa [if_pos hgo] at hst)
      · rfl
    | cooling => exact h.counter (by rw [hn]; decide)
  · rcases n.eval_onTime go T with e | e <;> rw [e]
    · exact h.limit
    · exact Nat.zero_le _
  · rw [n.eval_cool]
    exact h.timer fun hn => hst (hcooling.2 hn)

theorem without (hd : Handle) : (n.without hd).Shape maxon :=
  ⟨(List.length_filter_le _ _).trans h.ivals, h.counter, h.limit, h.timer⟩

theorem withInterval (iv : Interval) (hroom : n.ivals.length < 4) :
    Nozzle.Shape maxon { n with ivals := insertInterval iv n.ivals } :=
  ⟨by rw [length_insertInterval]; exact hroom, h.counter, h.limit, h.timer⟩

theorem faulted : n.faulted.Shape maxon := by
  refine ⟨Nat.zero_le _, fun _ => rfl, Nat.zero_le _, fun hst => h.timer fun hn => hst ?_⟩
  rw [Nozzle.faulted_st, hn]
  rfl

theorem tick (hroom : n.st = .opened → n.onTime < maxon) : n.tick.Shape maxon := by
  unfold Nozzle.tick
  split
  · next hn => exact ⟨h.ivals, fun hst => absurd hn hst, hroom hn, h.timer⟩
  · next hn => exact ⟨h.ivals, h.counter, h.limit, fun hst => absurd hn hst⟩
  · exact h

/-- The cut at MAXON (R125). -/
theorem cut : Nozzle.Shape maxon { n with st := .cooling, onTime := 0, cool := 0 } :=
  ⟨h.ivals, fun _ => rfl, Nat.zero_le _, fun _ => rfl⟩

/-- The end of cooling (R126). -/
theorem cooled (hn : n.st = .cooling) : Nozzle.Shape maxon { n with st := .closed, cool := 0 } :=
  ⟨h.ivals, fun _ => h.counter (by rw [hn]; decide), h.limit, fun _ => rfl⟩

/-- Another MAXON, at a nozzle that is not OPEN. -/
theorem withMaxon (hn : n.st ≠ .opened) (maxon' : Nat) : n.Shape maxon' :=
  ⟨h.ivals, h.counter, h.counter hn ▸ Nat.zero_le _, h.timer⟩

end Nozzle.Shape

theorem Nozzle.tick_fits {n : Nozzle} {go : Bool} {T : Pos} (h : n.Fits go T) : n.tick.Fits go T := by
  rw [Nozzle.tick_eq]
  exact h

/-! ### The shape of a bar -/

/-- What holds of a bar within an event too, before its nozzles are evaluated. -/
structure BarUnit.Shape (u : BarUnit) : Prop where
  state   : u.state = .disabled ↔ u.settings.enabled = false
  ranges  : SettingsOk u.settings
  count   : u.nozzles.length = 160 ∧ u.zones.length = 8
  nozzles : ∀ n ∈ u.nozzles, n.Shape u.settings.maxon
  zones   : ∀ z ∈ u.zones, z.first ≤ z.last ∧ z.last ≤ 159

/-- The bar with these terms of line and bar is in order. -/
structure BarUnit.InOrder (go : Bool) (T : Pos) (u : BarUnit) : Prop where
  shape : u.Shape
  fits  : ∀ n ∈ u.nozzles, n.Fits go T

theorem barOk_iff (s : State) (b : Bar) : BarOk s b ↔ (s.bar b).InOrder (s.barOpen (s.bar b)) s.bpu.T := by
  refine ⟨fun h => ?_, fun ⟨hs, hf⟩ => ⟨hs.state, hs.ranges, hs.count, fun n hn => ?_, hs.zones⟩⟩
  · have hn := fun n hn => (nozzleOk_iff _ _ _ n).1 (h.nozzles n hn)
    exact ⟨⟨h.state, h.ranges, h.count, fun n hmem => (hn n hmem).1, h.zones⟩,
      fun n hmem => s.mayOpen_eq b ▸ (hn n hmem).2⟩
  · rw [s.mayOpen_eq]
    exact (nozzleOk_iff _ _ _ n).2 ⟨hs.nozzles n hn, hf n hn⟩

theorem barOk_setBar_iff (s : State) (b : Bar) (u : BarUnit) :
    BarOk (s.setBar b u) b ↔ u.InOrder (s.barOpen u) s.bpu.T := by
  rw [barOk_iff, State.bar_setBar_same]
  rfl

theorem BarUnit.Shape.like {u v : BarUnit} (h : u.Shape) (hl : u.Like v) : v.Shape where
  state := by rw [hl.state, hl.settings]; exact h.state
  ranges := hl.settings ▸ h.ranges
  count := by rw [hl.nozzles, hl.zones]; exact h.count
  nozzles := by rw [hl.nozzles, hl.settings]; exact h.nozzles
  zones := hl.zones ▸ h.zones

theorem BarUnit.InOrder.like {go : Bool} {T : Pos} {u v : BarUnit} (h : u.InOrder go T) (hl : u.Like v) : v.InOrder go T :=
  ⟨h.shape.like hl, hl.nozzles ▸ h.fits⟩

namespace BarUnit.Shape

variable {u : BarUnit} (h : u.Shape)
include h

/-- A change of a bar's nozzles that keeps their shape. -/
theorem withNozzles {v : BarUnit} (hsettings : v.settings = u.settings) (hstate : v.state = u.state)
    (hzones : v.zones = u.zones) (hlen : v.nozzles.length = u.nozzles.length)
    (hn : ∀ n ∈ v.nozzles, n.Shape u.settings.maxon) : v.Shape where
  state := by rw [hstate, hsettings]; exact h.state
  ranges := hsettings ▸ h.ranges
  count := by rw [hlen, hzones]; exact h.count
  nozzles := by rw [hsettings]; exact hn
  zones := hzones ▸ h.zones

/-- Nozzles opened set FIRED flags and nothing else of a zone (R103). -/
theorem markFired (lanes : List Nat) : BarUnit.Shape { u with zones := markFired u.zones lanes } where
  state := h.state
  ranges := h.ranges
  count := ⟨h.count.1, (length_markFired _ _).trans h.count.2⟩
  nozzles := h.nozzles
  zones z hz := by
    obtain ⟨⟨x, i⟩, hx, rfl⟩ := List.mem_map.1 hz
    exact h.zones x (List.fst_mem_of_mem_zipIdx hx)

theorem evalWhere (which : Nat → Bool) (go : Bool) (T : Pos) : (u.evalWhere which go T).Shape := by
  refine (h.markFired _).withNozzles (v := u.evalWhere which go T) rfl rfl rfl (by simp) fun n hn => ?_
  rw [BarUnit.evalWhere_nozzles] at hn
  obtain ⟨⟨m, i⟩, hm, rfl⟩ := List.mem_map.1 hn
  have hshape := h.nozzles m (List.fst_mem_of_mem_zipIdx hm)
  dsimp only
  split
  · exact hshape.eval go T
  · exact hshape

theorem evalAll_inOrder (go : Bool) (T : Pos) : (u.evalAll go T).InOrder go T := by
  refine ⟨h.evalWhere _ go T, fun n hn => ?_⟩
  rw [BarUnit.evalAll_nozzles] at hn
  obtain ⟨m, -, rfl⟩ := List.mem_map.1 hn
  exact m.eval_fits go T

theorem without (hd : Handle) : (u.without hd).Shape := by
  refine h.withNozzles (v := u.without hd) rfl rfl rfl (by simp) fun n hn => ?_
  obtain ⟨m, hm, rfl⟩ := List.mem_map.1 hn
  exact (h.nozzles m hm).without hd

theorem place {set : List Nat} (iv : Interval) (hroom : anyFull u set = false) : (u.place set iv).Shape := by
  refine h.withNozzles (v := u.place set iv) rfl rfl rfl (by simp) fun n hn => ?_
  rw [BarUnit.place_nozzles] at hn
  obtain ⟨⟨m, i⟩, hm, rfl⟩ := List.mem_map.1 hn
  have hshape := h.nozzles m (List.fst_mem_of_mem_zipIdx hm)
  dsimp only
  split
  · next hi =>
    refine hshape.withInterval iv (not_le.1 fun hfull => ?_)
    obtain ⟨-, hnoz⟩ := (u.getElem?_nozzles i m).1 (List.mem_zipIdx_iff_getElem?.1 hm)
    have hany := (anyFull_iff u set).2 ⟨i, List.contains_iff_mem.1 hi, hnoz ▸ hfull⟩
    rw [hroom] at hany
    cases hany
  · exact hshape

/-- The fault of a READY bar (R119). -/
theorem faultNow (hready : u.state = .ready) : u.faultNow.Shape where
  state := by
    have hon : u.settings.enabled ≠ false := fun e => by
      rw [h.state.2 e] at hready
      cases hready
    simpa using hon
  ranges := h.ranges
  count := ⟨(List.length_map _).trans h.count.1, h.count.2⟩
  nozzles n hn := by
    obtain ⟨m, hm, rfl⟩ := List.mem_map.1 hn
    exact (h.nozzles m hm).faulted
  zones := h.zones

theorem cleared : u.cleared.Shape := by
  refine h.withNozzles (v := u.cleared) rfl rfl rfl (by simp) fun n hn => ?_
  obtain ⟨m, -, rfl⟩ := List.mem_map.1 hn
  exact Nozzle.atRelease_shape _

/-- A change of one nozzle that keeps its shape. -/
theorem modNozzle {i : Nat} {f : Nozzle → Nozzle}
    (hf : (u.nozzle i).Shape u.settings.maxon → (f (u.nozzle i)).Shape u.settings.maxon) :
    (u.modNozzle i f).Shape := by
  refine h.withNozzles (v := u.modNozzle i f) rfl rfl rfl (by simp) fun n hn => ?_
  obtain ⟨j, hj⟩ := List.mem_iff_getElem?.1 hn
  rw [BarUnit.modNozzle_nozzles, List.getElem?_modify] at hj
  obtain ⟨m, hm, rfl⟩ := Option.map_eq_some_iff.1 hj
  have hshape := h.nozzles m (List.mem_of_getElem? hm)
  split
  · next e =>
    obtain ⟨-, rfl⟩ := (u.getElem?_nozzles j m).1 hm
    exact e ▸ hf (e ▸ hshape)
  · exact hshape

/-- A zone written in range (R102). -/
theorem withZone {i : Nat} {z : Zone} (hz : z.first ≤ z.last ∧ z.last ≤ 159) :
    BarUnit.Shape { u with zones := u.zones.set i z } where
  state := h.state
  ranges := h.ranges
  count := ⟨h.count.1, (List.length_set).trans h.count.2⟩
  nozzles := h.nozzles
  zones x hx := (List.mem_or_eq_of_mem_set hx).elim (h.zones x) fun e => e ▸ hz

end BarUnit.Shape

/-! ### The events of one bar -/

namespace BarUnit.InOrder

variable {u : BarUnit} {go : Bool} {T : Pos} (h : u.InOrder go T)
include h

/-- No nozzle is OPEN where the terms of line or bar fail. -/
theorem not_opened (hgo : go = false) : ∀ n ∈ u.nozzles, n.st ≠ .opened := fun n hn =>
  Nozzle.fits_false.1 (hgo ▸ h.fits n hn)

/-- The cut at MAXON (R125). -/
theorem cut (i : Nat) : (u.cut i).InOrder go T := by
  have hcut := h.shape.modNozzle (i := i) (f := fun z => { z with st := .cooling, onTime := 0, cool := 0 }) fun hn => hn.cut
  refine ⟨hcut.like ⟨rfl, rfl, rfl, rfl⟩, fun n hn => ?_⟩
  obtain ⟨j, hj⟩ := List.mem_iff_getElem?.1 hn
  rw [BarUnit.cut_nozzles, List.getElem?_modify] at hj
  obtain ⟨m, hm, rfl⟩ := Option.map_eq_some_iff.1 hj
  split
  · exact fun hst => absurd rfl hst
  · exact h.fits m (List.mem_of_getElem? hm)

/-- The end of a nozzle's cooling (R126). -/
theorem coolingEnd {i : Nat} (hi : (u.nozzle i).st = .cooling) :
    ((u.modNozzle i fun z => { z with st := .closed, cool := 0 }).evalWhere (fun k => k == i) go T).InOrder go T := by
  have hcooled := h.shape.modNozzle (i := i) (f := fun z => { z with st := .closed, cool := 0 }) fun hn => hn.cooled hi
  refine ⟨hcooled.evalWhere _ go T, fun n hn => ?_⟩
  rw [BarUnit.evalWhere_nozzles] at hn
  obtain ⟨⟨m, j⟩, hm, rfl⟩ := List.mem_map.1 hn
  dsimp only
  split
  · exact m.eval_fits go T
  · next hne =>
    have hij : i ≠ j := fun e => hne (by simpa using e.symm)
    rw [List.mem_zipIdx_iff_getElem?, BarUnit.modNozzle_nozzles, List.getElem?_modify_ne _ _ hij] at hm
    exact h.fits m (List.mem_of_getElem? hm)

/-- One microsecond, no nozzle at MAXON. -/
theorem tick (hroom : ∀ n ∈ u.nozzles, n.st = .opened → n.onTime < u.settings.maxon) : u.tick.InOrder go T := by
  refine ⟨h.shape.withNozzles (v := u.tick) rfl rfl rfl (by simp) fun n hn => ?_, fun n hn => ?_⟩ <;>
    obtain ⟨m, hm, rfl⟩ := List.mem_map.1 hn
  · exact (h.shape.nozzles m hm).tick (hroom m hm)
  · exact Nozzle.tick_fits (h.fits m hm)

/-- A zone written in range (R102). -/
theorem withZone {i : Nat} {z : Zone} (hz : z.first ≤ z.last ∧ z.last ≤ 159) :
    BarUnit.InOrder go T { u with zones := u.zones.set i z } := ⟨h.shape.withZone hz, h.fits⟩

/-- A FAULTED bar made READY, its nozzles evaluated (R120). -/
theorem returned (hstate : u.state = .faulted) (go' : Bool) :
    (BarUnit.evalAll { u with state := .ready } go' T).InOrder go' T := by
  have hon : u.settings.enabled ≠ false := fun e => by
    rw [h.shape.state.2 e] at hstate
    cases hstate
  have hshape : BarUnit.Shape { u with state := .ready } :=
    ⟨by simpa using hon, h.shape.ranges, h.shape.count, h.shape.nozzles, h.shape.zones⟩
  exact hshape.evalAll_inOrder go' T

end BarUnit.InOrder

theorem barStateAfter_disabled_iff (before : BarState) (enabled : Bool) :
    barStateAfter before enabled = .disabled ↔ enabled = false := by
  cases before <;> cases enabled <;> simp [barStateAfter]

/-- Settings in range written to a bar without an OPEN nozzle, whose nozzles are then evaluated (R99). -/
theorem BarUnit.InOrder.configured {u : BarUnit} {T : Pos} (h : u.InOrder false T) {st : BarSettings} (hst : SettingsOk st)
    (go : Bool) :
    (BarUnit.evalAll { u with settings := st, state := barStateAfter u.state st.enabled } go T).InOrder go T := by
  have hshape : BarUnit.Shape { u with settings := st, state := barStateAfter u.state st.enabled } :=
    ⟨barStateAfter_disabled_iff _ _, hst, h.shape.count,
      fun n hn => (h.shape.nozzles n hn).withMaxon (h.not_opened rfl n hn) _, h.shape.zones⟩
  exact hshape.evalAll_inOrder go T

/-- The settings that SET_BAR writes are in range (R99, 7.1). -/
theorem settingsOf_ok {r : BarRequest} {st : BarSettings} (h : settingsOf r = some st) : SettingsOk st := by
  unfold settingsOf at h
  split at h
  · split at h
    · next hr =>
      simp only [Bool.and_eq_true, decide_eq_true_eq] at hr
      obtain ⟨⟨⟨⟨⟨⟨⟨⟨⟨hA, hA'⟩, hopen⟩, hclose⟩, hwiden⟩, hnoz⟩, hnoz'⟩, hmax⟩, hmax'⟩, hoff⟩ := hr
      cases h
      exact ⟨Nat.le_of_lt_succ r.E.isLt, ⟨hA, hA'⟩, ⟨hopen, hclose⟩,
        ⟨Nat.le_of_lt_succ r.mFront.isLt, Nat.le_of_lt_succ r.mBack.isLt⟩, hwiden, ⟨hnoz, hnoz'⟩, ⟨hmax, hmax'⟩, hoff⟩
    · cases h
  · cases h

/-- The zone that SET_ZONE writes is in range (R102). -/
theorem zoneOf_ok {r : ZoneRequest} {z : Zone} (h : zoneOf r = some z) : z.first ≤ z.last ∧ z.last ≤ 159 := by
  unfold zoneOf at h
  split at h
  · split at h
    · next hlanes =>
      cases h
      exact (lanesOk_iff _ _).1 hlanes
    · cases h
  · cases h

end Sys2Proof.Machine
end

