-- ==== Sys2Proof/Proofs/BarCommands.lean ====
section
/-! SUPPORT. Requests, events and steps keep what the events of records and of one bar keep (R113, R122). -/

namespace Sys2Proof.Machine

/-! ### What stays -/

theorem BarUnit.evalWhere_ivals (u : BarUnit) (which : Nat → Bool) (go : Bool) (T : Pos) :
    (u.evalWhere which go T).nozzles.map (·.ivals) = u.nozzles.map (·.ivals) := by
  rw [BarUnit.evalWhere_nozzles, List.map_map]
  calc u.nozzles.zipIdx.map _ = u.nozzles.zipIdx.map ((·.ivals) ∘ Prod.fst) :=
        List.map_congr_left fun ni _ => by
          dsimp only [Function.comp_apply]
          split
          · exact Nozzle.eval_ivals _ _ _
          · rfl
    _ = u.nozzles.map (·.ivals) := by rw [← List.map_map, List.zipIdx_map_fst]

theorem BarUnit.modNozzle_ivals (u : BarUnit) (i : Nat) {f : Nozzle → Nozzle} (hf : ∀ n, (f n).ivals = n.ivals) :
    (u.modNozzle i f).nozzles.map (·.ivals) = u.nozzles.map (·.ivals) := by
  refine List.ext_getElem? fun j => ?_
  rw [BarUnit.modNozzle_nozzles, List.getElem?_map, List.getElem?_map, List.getElem?_modify, Option.map_eq_map, Option.map_map]
  refine congrArg (fun g => Option.map g _) (funext fun n => ?_)
  dsimp only [Function.comp_apply]
  split
  · exact hf n
  · rfl

/-- Another unit with the same settings, zones, state and nozzles. -/
theorem State.setBar_barsKept (s : State) {b : Bar} {u : BarUnit} (h : (s.bar b).Like u) : s.BarsKept (s.setBar b u) := by
  refine ⟨fun c => ?_, fun hs => ⟨hs.congr rfl rfl rfl rfl id, .refl _⟩⟩
  rw [State.bar_setBar]
  split
  · next e => exact e ▸ h
  · exact .refl _

theorem BarUnit.startIfOwed_like (u : BarUnit) : u.Like u.startIfOwed := by
  unfold BarUnit.startIfOwed
  split <;> exact ⟨rfl, rfl, rfl, rfl⟩

/-- The record whose handle a request names (R38). -/
theorem find_of_checkHandle {ft : FragTable} {x : HandleField} {r : Record} (h : checkHandle ft x = .ok r) :
    ft.find x.slot.toNat = some r := by
  unfold checkHandle at h
  split at h
  · split at h
    · next hf =>
      split at h
      · cases h
        exact hf
      · cases h
    · cases h
  · cases h

/-- The record that INSERT creates, decided (R144). -/
theorem State.insert_barsKept {s : State} {slot : Nat} {rest : List Nat} {r : Record} {f : Record → Record}
    (hm : s.lc.mode ≠ .config) (hfree : s.ft.freeList = slot :: rest) (hb : r.bank = s.banks.active) (hr : r.Unarmed)
    (hf : ∀ r, (f r).bank = r.bank) : s.BarsKept ((s.withNew slot rest r).modRecord slot f) := by
  refine (State.withNew_barsKept hm hfree hb).trans (State.modRecord_barsKept hf fun hs x hx v sch hst => ?_)
  have hnew : ⟨slot, r⟩ ∈ (s.withNew slot rest r).ft.live := (mem_insertLive _ _ _).2 (.inl rfl)
  cases congrArg Live.record (hs.sound.unique hx hnew rfl)
  exact absurd hst (hr v sch)

theorem State.setOverride_barsKept (s : State) (slot : Nat) (d : Dest) : s.BarsKept (s.setOverride slot d) := by
  refine State.modRecord_barsKept (fun r => ?_) fun _ r _ v sch hst => ?_
  · dsimp only
    split <;> rfl
  · dsimp only
    rw [hst]

namespace KeptByBarEvents

variable {Within After : State → Prop} (k : KeptByBarEvents Within After) {s : State} (h : After s)
include k h

/-- A unit written that leaves the intervals, and is in order where it was. -/
theorem unitWritten {b : Bar} {u : BarUnit} (hivals : u.nozzles.map (·.ivals) = (s.bar b).nozzles.map (·.ivals))
    (hu : (s.bar b).InOrder (s.barOpen (s.bar b)) s.bpu.T → u.InOrder (s.barOpen u) s.bpu.T) : After (s.setBar b u) :=
  k.unit s b u hivals (fun hs => (barOk_setBar_iff s b u).2 (hu ((barOk_iff s b).1 (hs.bar b)))) h

/-- A unit written that differs in counts and bus alone. -/
theorem likeWritten {b : Bar} {u : BarUnit} (hl : (s.bar b).Like u) : After (s.setBar b u) :=
  k.still s _ (s.setBar_barsKept hl) rfl rfl h

/-! ### Requests -/

theorem setBarOp (r : BarRequest) : After (Machine.setBarOp r s).1 := by
  unfold Machine.setBarOp
  split
  · exact h
  · next hm =>
    split
    · next b st _ hst =>
      have hclosed : ∀ u, s.barOpen u = false := fun u => by
        simp [State.barOpen, State.lineOpen, State.running, not_not.1 hm]
      have hwritten : After (s.setBar b
          (BarUnit.evalAll { s.bar b with settings := st, state := barStateAfter (s.bar b).state st.enabled }
            (s.barOpen { s.bar b with settings := st, state := barStateAfter (s.bar b).state st.enabled }) s.bpu.T)) := by
        refine k.unitWritten h (BarUnit.evalWhere_ivals _ _ _ _) fun hu => ?_
        rw [hclosed] at hu
        rw [hclosed, hclosed]
        exact hu.configured (settingsOf_ok hst) false
      change After (s.configureBar b st)
      unfold State.configureBar State.faultIfActive
      dsimp only
      split
      · next hready => exact k.fault _ b hready.1 hwritten
      · exact hwritten
    · exact h

theorem setZoneOp (r : ZoneRequest) : After (Machine.setZoneOp r s).1 := by
  unfold Machine.setZoneOp
  split
  · exact h
  · split
    · next hz =>
      split
      · exact k.unitWritten h rfl fun hu => hu.withZone (zoneOf_ok hz)
      · exact h
    · exact h

theorem enableBarOp (bar : Byte) : After (Machine.enableBarOp bar s).1 := by
  unfold Machine.enableBarOp
  split
  · exact h
  · split
    · exact h
    · split
      · exact h
      · exact h
      · next hfaulted =>
        split
        · exact h
        · exact k.unitWritten h (BarUnit.evalWhere_ivals _ _ _ _) fun hu => hu.returned hfaulted _

theorem forgetOp (x : HandleField) : After (Machine.forgetOp x s).1 := by
  unfold Machine.forgetOp
  split
  · exact h
  · next r hr =>
    split
    · exact h
    · exact k.settled _ (k.retire s _ r .forgotten (find_of_checkHandle hr) (k.within _ h))

theorem insertOp (r : InsertRequest) : After (Machine.insertOp r s).1 := by
  unfold Machine.insertOp
  split
  · exact h
  · next hm =>
    split
    · exact h
    · split
      · exact h
      · split
        · exact h
        · next d _ _ _ =>
          cases hfree : s.ft.freeList with
          | nil =>
            rw [State.create_nil hfree]
            exact h
          | cons slot rest =>
            rw [State.create_cons hfree]
            have hrun : s.lc.mode ≠ .config := by rw [not_not.1 hm]; decide
            exact k.still s _ (State.insert_barsKept hrun hfree (r := { insertedRecord r d with bank := s.banks.active }) rfl
              nofun fun _ => rfl) rfl rfl h

theorem overrideOp (x : HandleField) (dest : Byte) : After (Machine.overrideOp x dest s).1 := by
  unfold Machine.overrideOp
  split
  · exact h
  · split
    · exact h
    · split
      · exact h
      · split
        · exact k.still s _ (s.setOverride_barsKept _ _) rfl rfl h
        · exact h

theorem startOp : After (Machine.startOp s).1 := by
  have hrun : After (s.withMode .run) := k.settleFrom h (.of_eq rfl rfl rfl nofun) rfl
  unfold Machine.startOp
  split
  · exact h
  · exact h
  · exact hrun
  · split
    · exact h
    · split
      · exact hrun
      · exact h

theorem stopOp : After (Machine.stopOp s).1 := by
  unfold Machine.stopOp
  split
  · exact h
  · have hdrain : s.BarsKept { s with lc := { s.lc with mode := .draining } } := .of_eq rfl rfl rfl nofun
    refine k.settleFrom h (hdrain.trans (State.drainIfEmpty_barsKept _)) ?_
    exact State.drainIfEmpty_keeps (P := fun u : State => u.bpu.T = s.bpu.T) rfl fun _ _ => rfl
  · exact h
  · exact h

theorem request {c : Instr} {kind : Byte} {op : State → Answer} (hc : requestOf c = some (kind, op)) :
    After (op s).1 := by
  have htable : TableOk s → TableOk (op s).1 := TableOk.keptByEvents.request hc
  have hsame : s.Untouched (op s).1 → After (op s).1 := fun hu => k.untouched h hu htable
  cases c with
  | setBar r => cases hc; exact k.setBarOp h r
  | setZone r => cases hc; exact k.setZoneOp h r
  | enableBar bar => cases hc; exact k.enableBarOp h bar
  | forget x => cases hc; exact k.forgetOp h x
  | insert r => cases hc; exact k.insertOp h r
  | start => cases hc; exact k.startOp h
  | stop => cases hc; exact k.stopOp h
  | reset => cases hc; exact k.reset s h
  | override x dest =>
    cases hc
    exact k.overrideOp h x dest
  | setStation _ | setTracking _ | setBelt _ | switchBank _ _ | writeClassmap _ _ _ _ | writeDestinations _
  | readPortCounters _ | readBank _ _ | lookup _ | find _ _ _ _ | scan _ _ | readTallies _ =>
    cases hc
    refine hsame ?_
    simp only [setStationOp, setTrackingOp, setBeltOp, switchBankOp, writeClassmapOp, writeDestinationsOp, writeBank,
      readPortCountersOp, readBankOp, lookupOp, findOp, scanOp, readTalliesOp]
    (repeat' split) <;> exact ⟨rfl, rfl, rfl, rfl⟩
  | enableGuard | clear | ackNotices _ | setMask _ | clearTallies | readStatus | readNotices | readFault =>
    cases hc
    exact hsame ⟨rfl, rfl, rfl, rfl⟩
  | _ => cases hc

/-! ### Every other command -/

omit h in
theorem link (u : State) (link : Link) (hu : After u) : After { u with link } :=
  k.still u _ (.of_eq rfl rfl rfl id) rfl rfl hu

theorem linkBytes (bytes : List Byte) : After (s.linkBytes bytes) :=
  State.linkBytes_keeps (P := After) (State.linkByte_keeps k.link fun _ _ _ hc _ hu => k.request hu hc) bytes s h

omit h in
theorem setPort (port : Station) (u : State) (x : Port) (hu : After u) : After (u.setPort port x) :=
  k.still u _ (.of_eq rfl rfl rfl id) rfl rfl hu

omit h in
theorem raise (port : Station) (u : State) (n : NoticeKind) (hu : After u) : After (u.raise n (.station port) none) :=
  k.still u _ (u.raise_barsKept _ _ _) rfl (by simp [State.lineOpen]) hu

theorem bpuChanged {bpu : Bpu} (hT : bpu.T = s.bpu.T) (hline : State.lineOpen { s with bpu } = s.lineOpen) :
    After { s with bpu } :=
  k.still s _ (.of_eq rfl rfl rfl id) hT hline h

theorem pinsChanged (pins : Pins) : After { s with pins } := k.still s _ (.of_eq rfl rfl rfl id) rfl rfl h

/-- The end of a nozzle's cooling, the nozzle evaluated (R126). -/
theorem coolingEnd {b : Bar} {n : Fin 160} (hn : ((s.bar b).nozzle n).st = .cooling) :
    After (s.setBar b (((s.bar b).modNozzle n fun z => { z with st := .closed, cool := 0 }).evalWhere (fun i => i == n.val)
      (s.barOpen ((s.bar b).modNozzle n fun z => { z with st := .closed, cool := 0 })) s.bpu.T)) :=
  k.unitWritten h ((BarUnit.evalWhere_ivals _ _ _ _).trans (BarUnit.modNozzle_ivals _ _ fun _ => rfl)) fun hu =>
    hu.coolingEnd hn

/-- Every command that is no request. -/
theorem event {c : Instr} (hc : requestOf c = none) {t : State} (he : Machine.exec c s = .next t) : After t := by
  cases c with
  | encoderTransition a b =>
    cases he
    have hpins := k.pinsChanged h { s.pins with levels := ⟨a, b⟩ }
    exact State.awake_keeps hpins fun _ => k.decodeLevels hpins _
  | lclkPulseStart =>
    cases he
    refine State.awake_keeps h fun _ => ?_
    split
    · exact k.bpuChanged h rfl rfl
    · exact h
  | lclkPulseEnd =>
    cases he
    refine State.awake_keeps h fun _ => ?_
    split
    · exact k.bpuChanged h rfl rfl
    · exact h
  | windowEnd => cases he; exact State.awake_keeps h fun _ => k.endWindow h
  | sync port f =>
    cases he
    exact State.awake_keeps h fun _ => State.portFrame_keeps (k.setPort port) (k.raise port) _
      (fun u => u.syncArrives_portEvent port f) h
  | detect port f =>
    cases he
    exact State.awake_keeps h fun _ => State.portFrame_keeps (k.setPort port) (k.raise port) _
      (fun u => u.detectArrives_portEvent port f) h
  | badFrame port length kind =>
    cases he
    exact State.awake_keeps h fun _ => State.portBytes_keeps_of (k.setPort port) (k.raise port) _ h
  | portStartMark port =>
    cases he
    exact State.awake_keeps h fun _ => State.portBytes_keeps_of (k.setPort port) (k.raise port) [sensorMark] h
  | assocTake =>
    cases he
    refine State.awake_keeps h fun _ => ?_
    split
    · split
      · exact k.take h _
      · exact h
    · exact h
  | maxonCut b n =>
    cases he
    refine State.awake_keeps h fun _ => ?_
    split
    · exact k.unitWritten h (BarUnit.modNozzle_ivals _ _ fun _ => rfl) fun hu => hu.cut n
    · exact h
  | coolingEnd b n =>
    cases he
    refine State.awake_keeps h fun _ => ?_
    dsimp only
    split
    · next hn => exact k.coolingEnd h hn
    · exact h
  | valveFrameStart b => cases he; exact State.awake_keeps h fun _ => k.likeWritten h (BarUnit.startIfOwed_like _)
  | valveFrameEnd b =>
    cases he
    refine State.awake_keeps h fun _ => ?_
    dsimp only
    split
    · have hended : (s.bar b).Like { s.bar b with bus := { (s.bar b).bus with sending := none } } := ⟨rfl, rfl, rfl, rfl⟩
      exact k.likeWritten h (hended.trans (BarUnit.startIfOwed_like _))
    · exact h
  | refreshExpiry b => cases he; exact State.awake_keeps h fun _ => k.likeWritten h ⟨rfl, rfl, rfl, rfl⟩
  | driverFault b =>
    cases he
    have hpins := k.pinsChanged h { s.pins with faultLines := s.pins.faultLines.set b true }
    refine State.awake_keeps hpins fun _ => ?_
    split
    · next hready => exact k.fault _ b hready hpins
    · exact hpins
  | faultLineInactive b => cases he; exact k.pinsChanged h _
  | resetPin =>
    cases he
    exact k.still (State.atRelease s.pins.levels s.pins.faultLines) _ (.of_eq rfl rfl rfl id) rfl rfl (k.release _ _)
  | resetPinAsserted =>
    cases he
    refine k.still s _ ⟨fun b => ?_, fun hs => ⟨hs.congr rfl rfl rfl rfl id, .refl _⟩⟩ rfl rfl h
    rw [State.bar, State.bar, PerBar.get_map]
    exact ⟨rfl, rfl, rfl, rfl⟩
  | overlongFrame length => cases he; exact State.awake_keeps h fun _ => k.linkBytes h _
  | garbledFrame kind body check =>
    cases he
    refine State.awake_keeps h fun _ => ?_
    split
    · exact State.linkFrame_keeps k.link (fun _ _ _ hr _ hu => k.request hu hr) _
        (fun _ hu => State.takeFrame_keeps k.link (fun _ _ _ hr _ hw => k.request hw hr) _ _ _ hu) h
    · exact k.linkBytes h _
  | replySent => cases he; exact State.awake_keeps h fun _ => k.link s _ h
  | startMark => cases he; exact State.awake_keeps h fun _ => k.linkBytes h [supervisorMark]
  | _ => cases hc

theorem exec {c : Instr} {t : State} (he : Machine.exec c s = .next t) : After t := by
  cases hc : requestOf c with
  | none => exact k.event h hc he
  | some x => exact exec_request_keeps (P := After) k.link (fun _ _ _ hr _ hu => k.request hu hr) hc h he

/-- Every step keeps the property: a command, an event that is due, or one microsecond with nothing due. -/
theorem step {t : State} (hs : Machine.step s = .next t) : After t := by
  have hqueue : ∀ pending draws, After { s with pending, draws } := fun _ _ =>
    k.still s _ (.of_eq rfl rfl rfl id) rfl rfl h
  unfold Machine.step at hs
  split at hs
  · exact k.exec (hqueue _ s.draws) hs
  · by_cases hdue : s.dueEvents = []
    · simp only [idle, hdue, chooseDue] at hs
      cases hs
      exact k.tick s hdue h
    · obtain ⟨c, -, hchosen⟩ := chooseDue_mem s.draws hdue
      simp only [idle, hchosen] at hs
      exact k.exec (hqueue s.pending _) hs

end KeptByBarEvents

end Sys2Proof.Machine
end

