-- ==== Sys2Proof/Proofs/BarsInOrder.lean ====
section
/-! SUPPORT. Settings in range and nozzles open in their condition under every event of a record or a bar; settles O58. -/

namespace Sys2Proof.Machine

/-- Every bar has its shape: what holds within an event, before the nozzles are evaluated. -/
def State.BarsShaped (s : State) : Prop := ∀ b, (s.bar b).Shape

theorem BarsOk.inOrder {s : State} (h : BarsOk s) (b : Bar) : (s.bar b).InOrder (s.barOpen (s.bar b)) s.bpu.T :=
  (barOk_iff s b).1 (h.bar b)

theorem BarsOk.shaped {s : State} (h : BarsOk s) : s.BarsShaped := fun b => (h.inOrder b).shape

theorem State.BarsShaped.settle {s : State} (h : s.BarsShaped) : BarsOk s.settle where
  bar b := by
    rw [barOk_iff, State.bar_settle]
    exact (h b).evalAll_inOrder _ _

theorem BarsOk.still {s t : State} (h : BarsOk s) (hk : s.BarsKept t) (hT : t.bpu.T = s.bpu.T)
    (hline : t.lineOpen = s.lineOpen) : BarsOk t where
  bar b := by
    have hlike := hk.bars b
    rw [barOk_iff, State.barOpen, hline, hlike.state, hT]
    exact (h.inOrder b).like hlike

/-- A bar written in order beside bars in order. -/
theorem BarsOk.setBar {s : State} (h : BarsOk s) {b : Bar} {u : BarUnit} (hu : BarOk (s.setBar b u) b) :
    BarsOk (s.setBar b u) where
  bar c := by
    by_cases hc : c = b
    · exact hc ▸ hu
    · rw [barOk_iff, State.bar_setBar, if_neg hc]
      exact h.inOrder c

section
variable {s : State} (h : s.BarsShaped)
include h

theorem State.BarsShaped.setBar {b : Bar} {u : BarUnit} (hu : u.Shape) : (s.setBar b u).BarsShaped := fun c => by
  rw [State.bar_setBar]
  split
  · exact hu
  · exact h c

theorem State.BarsShaped.dropIntervals (slot : Nat) (r : Record) : (s.dropIntervals slot r).BarsShaped := by
  unfold State.dropIntervals
  split
  · exact h.setBar ((h _).without _)
  · exact h

theorem State.BarsShaped.retired {slot : Nat} {r : Record} (hf : s.ft.find slot = some r) (o : RecOutcome) :
    ((s.dropIntervals slot r).retire slot o).BarsShaped := by
  obtain ⟨-, hbars, -⟩ := State.retire_frame (State.dropIntervals_find hf) o
  intro b
  rw [State.bar, hbars]
  exact h.dropIntervals slot r b

end

/-! ### The fault of a bar -/

/-- The drop of a record leaves every bar as it is (R52). -/
theorem State.dropArmed_bars (s : State) (x : AdvancePart) : (s.dropArmed x).bars = s.bars := by
  cases x with
  | silence p => rfl
  | point slot =>
    cases hf : s.ft.find slot with
    | none => simp only [State.dropArmed, hf]
    | some r =>
      cases hst : r.st with
      | armed v sch => exact (State.dropArmed_frame (l := ⟨slot, r⟩) hf hst).1
      | _ => simp only [State.dropArmed, hf, hst]

theorem State.dropAll_bars (s : State) (ls : List Live) : (s.dropAll ls).bars = s.bars :=
  foldl_keeps (P := fun u : State => u.bars = s.bars) (fun u x _ hu => (u.dropArmed_bars x).trans hu) rfl

theorem BarsOk.faultBar {s : State} (h : BarsOk s) {b : Bar} (hready : (s.bar b).state = .ready) :
    BarsOk (s.faultBar b) := by
  obtain ⟨order, -, e⟩ := s.faultBar_eq b
  rw [e]
  have hbars : (((s.faulting b).dropAll order).raise .driverFault (.bar b) none).bars = (s.faulting b).bars :=
    State.dropAll_bars _ _
  have hT : (((s.faulting b).dropAll order).raise .driverFault (.bar b) none).bpu.T = s.bpu.T :=
    ((s.faulting b).dropAll_partMove order).T
  have hfaulted : (s.bar b).faultNow.Shape := (h.shaped b).faultNow hready
  generalize ((s.faulting b).dropAll order).raise .driverFault (.bar b) none = w at hbars hT
  have hbar : ∀ c, w.bar c = (s.setBar b (s.bar b).faultNow).bar c := fun c => congrArg (PerBar.get · c) hbars
  unfold State.settleFrom
  split
  · next hline =>
    have hpart : BarsOk (s.setBar b (s.bar b).faultNow) := by
      refine h.setBar ((barOk_setBar_iff _ _ _).2 ⟨hfaulted, fun n hn => ?_⟩)
      rw [State.barOpen, BarUnit.faultNow_state, show (BarState.faulted == BarState.ready) = false from rfl, Bool.and_false]
      exact Nozzle.fits_false.2 (BarUnit.faultNow_nozzle hn).1
    refine ⟨fun c => ?_⟩
    rw [barOk_iff, State.barOpen, hline, hT, hbar]
    exact hpart.inOrder c
  · have hshaped : w.BarsShaped := fun c => by
      rw [hbar]
      exact h.shaped.setBar hfaulted c
    exact hshaped.settle

/-! ### Time and reset -/

/-- With nothing due no nozzle stands OPEN at MAXON, so one microsecond more stays within it (R125). -/
theorem BarsOk.tick {s : State} (h : BarsOk s) (hdue : s.dueEvents = []) : BarsOk s.tick := by
  refine State.awake_keeps h fun hr => ⟨fun b => ?_⟩
  have hbar : State.bar { s with bpu := s.bpu.tick, bars := s.bars.map BarUnit.tick } b = (s.bar b).tick :=
    PerBar.get_map _ _ _
  rw [barOk_iff, hbar]
  refine (h.inOrder b).tick fun n hn hopen => not_le.1 fun hmax => ?_
  obtain ⟨m, hm⟩ := List.mem_iff_getElem?.1 hn
  obtain ⟨hlen, rfl⟩ := ((s.bar b).getElem?_nozzles m n).1 hm
  have hcut := (State.maxonCut_due hr b ⟨m, (h.shaped b).count.1 ▸ hlen⟩).2 ⟨hopen, hmax⟩
  rw [hdue] at hcut
  cases hcut

theorem BarsOk.afterReset {s : State} (h : BarsOk s) : BarsOk s.afterReset where
  bar b := by
    rw [barOk_iff, s.afterReset_bar]
    refine ⟨(h.shaped b).cleared, fun n hn => ?_⟩
    obtain ⟨m, -, rfl⟩ := List.mem_map.1 hn
    exact fun _ => by simp [Nozzle.cleared, Nozzle.atRelease, Nozzle.covered]

/-- Bars in order between events, and shaped within one, are kept by the events of records and of one bar. -/
theorem BarsOk.keptByBarEvents : KeptByBarEvents State.BarsShaped BarsOk where
  within _ h := h.shaped
  settled _ h := h.settle
  kept _ _ hk h := fun b => (h b).like (hk.bars b)
  still _ _ hk hT hline h := h.still hk hT hline
  commit _ _ _ _ _ _ _ _ hroom _ h := h.setBar ((h _).place _ hroom)
  retire _ _ _ o hf h := h.retired hf o
  unit _ _ _ _ hu h := h.setBar (hu h)
  fault _ _ hready h := h.faultBar hready
  reset _ h := h.afterReset
  release levels faultLines := BarsOk.atRelease levels faultLines
  tick _ hdue h := h.tick hdue

/-- Settles O58: every event ends with the nozzles evaluated where T, the terms of the line or an interval changed, and
nothing is left due at a nozzle when a microsecond passes. -/
theorem step_keeps_nozzles_open_only_in_condition : Obligations.Step_keeps_nozzles_open_only_in_condition :=
  fun _ _ h hs => BarsOk.keptByBarEvents.step h hs

end Sys2Proof.Machine
end

