-- ==== Sys2Proof/Proofs/OwnersInOrder.lean ====
section
/-! SUPPORT. Every interval with its owner under every event of a record or a bar; settles O59. -/

namespace Sys2Proof.Machine

/-! ### Owners -/

/-- A live record ARMED at this bar owns the interval and carries its fire window (R113). -/
def Interval.OwnedAt (ft : FragTable) (b : Bar) (iv : Interval) : Prop :=
  ∃ sch, ft.Schedules iv.owner sch ∧ sch.bar = b ∧ sch.fireOn = iv.fireOn ∧ sch.fireOff = iv.fireOff

theorem ownersOk_iff (s : State) :
    OwnersOk s ↔ ∀ b iv, s.Holds b iv → ahead iv.fireOff iv.fireOn = true ∧ iv.OwnedAt s.ft b := by
  constructor
  · rintro h b iv ⟨n, hn, hiv⟩
    obtain ⟨l, hl, v, sch, hh, hst, hb, hon, hoff⟩ := h.owned b n hn iv hiv
    exact ⟨h.ordered b n hn iv hiv, sch, ⟨l, hl, v, hh, hst⟩, hb, hon, hoff⟩
  · refine fun h => ⟨fun b n hn iv hiv => (h b iv ⟨n, hn, hiv⟩).1, fun b n hn iv hiv => ?_⟩
    obtain ⟨-, sch, ⟨l, hl, v, hh, hst⟩, hb, hon, hoff⟩ := h b iv ⟨n, hn, hiv⟩
    exact ⟨l, hl, v, sch, hh, hst, hb, hon, hoff⟩

/-- An event after which every interval is one from before that has kept its owner. -/
theorem OwnersOk.of_holds {s t : State} (h : OwnersOk s)
    (hold : ∀ b iv, t.Holds b iv → s.Holds b iv ∧ (iv.OwnedAt s.ft b → iv.OwnedAt t.ft b)) : OwnersOk t :=
  (ownersOk_iff t).2 fun b iv hiv =>
    let ⟨hs, howned⟩ := hold b iv hiv
    let ⟨hwindow, hs⟩ := (ownersOk_iff s).1 h b iv hs
    ⟨hwindow, howned hs⟩

theorem Interval.OwnedAt.kept {ft ft' : FragTable} (hk : ft.KeepsArmed ft') {b : Bar} {iv : Interval}
    (h : iv.OwnedAt ft b) : iv.OwnedAt ft' b :=
  let ⟨sch, hsch, hrest⟩ := h
  ⟨sch, hk _ _ hsch, hrest⟩

/-! ### The intervals of the bars -/

theorem State.holds_iff (s : State) (b : Bar) (iv : Interval) :
    s.Holds b iv ↔ ∃ xs ∈ (s.bar b).nozzles.map (·.ivals), iv ∈ xs := by
  simp [State.Holds]

/-- Equal interval lists hold equal intervals. -/
theorem State.Holds.of_ivals {s t : State} {b : Bar} {iv : Interval}
    (h : (t.bar b).nozzles.map (·.ivals) = (s.bar b).nozzles.map (·.ivals)) (ht : t.Holds b iv) : s.Holds b iv := by
  rw [State.holds_iff] at ht ⊢
  exact h ▸ ht

theorem BarUnit.tick_ivals (u : BarUnit) : u.tick.nozzles.map (·.ivals) = u.nozzles.map (·.ivals) := by
  rw [BarUnit.tick_nozzles, List.map_map]
  exact List.map_congr_left fun n _ => by rw [Function.comp_apply, Nozzle.tick_eq]

theorem State.Holds.of_settle {s : State} {b : Bar} {iv : Interval} (h : s.settle.Holds b iv) : s.Holds b iv :=
  h.of_ivals (by rw [State.bar_settle]; exact BarUnit.evalWhere_ivals _ _ _ _)

theorem State.Holds.of_settleFrom {t s : State} {b : Bar} {iv : Interval} (h : (t.settleFrom s).Holds b iv) :
    t.Holds b iv := by
  unfold State.settleFrom at h
  split at h
  · exact h
  · exact h.of_settle

/-- The table and the owners agree between events and within them. -/
def State.OwnersInOrder (s : State) : Prop := TableOk s ∧ OwnersOk s

theorem State.OwnersInOrder.kept {s t : State} (h : s.OwnersInOrder) (hk : s.BarsKept t) : t.OwnersInOrder := by
  obtain ⟨ht, hkeep⟩ := hk.table h.1
  exact ⟨ht, h.2.of_holds fun b iv hiv => ⟨hiv.of_ivals (by rw [(hk.bars b).nozzles]), .kept hkeep⟩⟩

/-- An event on the bars alone that leaves every interval list. -/
theorem State.OwnersInOrder.of_ivals {s t : State} (h : s.OwnersInOrder) (htable : TableOk t) (hft : t.ft = s.ft)
    (hivals : ∀ b, (t.bar b).nozzles.map (·.ivals) = (s.bar b).nozzles.map (·.ivals)) : t.OwnersInOrder :=
  ⟨htable, h.2.of_holds fun b _ hiv => ⟨hiv.of_ivals (hivals b), fun ho => by rwa [hft]⟩⟩

theorem State.OwnersInOrder.setBar {s : State} (h : s.OwnersInOrder) {b : Bar} {u : BarUnit}
    (hivals : u.nozzles.map (·.ivals) = (s.bar b).nozzles.map (·.ivals)) : (s.setBar b u).OwnersInOrder := by
  refine h.of_ivals (h.1.congr rfl rfl rfl rfl id) rfl fun c => ?_
  rw [State.bar_setBar]
  split
  · next e => rw [e, hivals]
  · rfl

theorem State.OwnersInOrder.settle {s : State} (h : s.OwnersInOrder) : s.settle.OwnersInOrder :=
  h.of_ivals (h.1.quiet s.settle_quiet) rfl fun b => by
    rw [State.bar_settle]
    exact BarUnit.evalWhere_ivals _ _ _ _

/-! ### A commit and a retirement -/

/-- A commit places intervals that the record owns from then on (R113). -/
theorem State.OwnersInOrder.commit {s : State} (h : s.OwnersInOrder) {slot : Nat} {r : Record} (hf : s.ft.find slot = some r)
    (hr : r.Unarmed) (v : Verdict) {sch : Schedule} (set : List Nat) (hwindow : ahead sch.fireOff sch.fireOn = true) :
    (s.commit slot v sch set).OwnersInOrder := by
  have hkeep : s.ft.KeepsArmed (s.commit slot v sch set).ft :=
    ((State.setRecState_barsKept hf hr (.armed v sch)).table h.1).2
  refine ⟨TableOk.setRecState (h.1.quiet (s.setBar_quiet (by rfl))) slot _, (ownersOk_iff _).2 fun b iv hiv => ?_⟩
  have hbar : (s.commit slot v sch set).bar b =
      if b = sch.bar then (s.bar sch.bar).place set ⟨sch.fireOn, sch.fireOff, s.ft.handle slot⟩ else s.bar b :=
    s.bar_setBar sch.bar b _
  have hnew : iv = ⟨sch.fireOn, sch.fireOff, s.ft.handle slot⟩ ∧ b = sch.bar ∨ s.Holds b iv := by
    obtain ⟨n, hn, hmem⟩ := hiv
    rw [hbar] at hn
    split at hn
    · next e => exact (mem_place hn hmem).imp (fun hiv => ⟨hiv, e⟩) fun hold => e ▸ hold
    · exact .inr ⟨n, hn, hmem⟩
  rcases hnew with ⟨rfl, rfl⟩ | hold
  · refine ⟨hwindow, sch, ⟨⟨slot, { r with st := .armed v sch }⟩, ?_, v, rfl, rfl⟩, rfl, rfl, rfl⟩
    exact FragTable.mem_modRecord.2 (.inr ⟨rfl, r, FragTable.mem_of_find hf, rfl⟩)
  · obtain ⟨hw, howned⟩ := (ownersOk_iff s).1 h.2 b iv hold
    exact ⟨hw, howned.kept hkeep⟩

/-- The records of other slots keep their schedules when a slot is freed (R38). -/
theorem FragTable.Schedules.freeSlot {ft : FragTable} {hd : Handle} {sch : Schedule} (h : ft.Schedules hd sch) {slot : Nat}
    (hne : hd.slot ≠ slot) : (ft.freeSlot slot).Schedules hd sch := by
  obtain ⟨l, hl, v, rfl, hst⟩ := h
  have hslot : l.slot ≠ slot := hne
  refine ⟨l, (mem_removeSlot _ _ _).2 ⟨hl, hslot⟩, v, ?_, hst⟩
  rw [FragTable.handle, FragTable.handle, FragTable.gen, FragTable.gen, FragTable.freeSlot_gens]
  simp [hslot.symm]

/-- What the removal of a record's intervals leaves of the intervals (R54). -/
theorem State.Holds.of_dropIntervals {s : State} {slot : Nat} {r : Record} {b : Bar} {iv : Interval}
    (h : (s.dropIntervals slot r).Holds b iv) :
    s.Holds b iv ∧ ∀ v sch, r.st = .armed v sch → sch.bar = b → iv.owner ≠ s.ft.handle slot := by
  by_cases harmed : ∃ v sch, r.st = .armed v sch
  · obtain ⟨v, sch, hst⟩ := harmed
    obtain ⟨n, hn, hiv⟩ := h
    rw [State.dropIntervals_eq hst, State.bar_setBar] at hn
    split at hn
    · next e =>
      obtain ⟨m, hm, rfl⟩ := List.mem_map.1 hn
      obtain ⟨hold, howner⟩ := (m.mem_without _ iv).1 hiv
      exact ⟨⟨m, e ▸ hm, hold⟩, fun _ _ _ _ => howner⟩
    · next hne =>
      refine ⟨⟨n, hn, hiv⟩, fun v' sch' hst' e => absurd ?_ hne⟩
      cases hst.symm.trans hst'
      exact e.symm
  · rw [State.dropIntervals_other fun v sch hst => harmed ⟨v, sch, hst⟩] at h
    exact ⟨h, fun v sch hst => absurd ⟨v, sch, hst⟩ harmed⟩

/-- A record retires with its intervals gone: no other bar holds any of them, since its schedule names one bar (R113). -/
theorem State.OwnersInOrder.retired {s : State} (h : s.OwnersInOrder) {slot : Nat} {r : Record}
    (hf : s.ft.find slot = some r) (o : RecOutcome) : ((s.dropIntervals slot r).retire slot o).OwnersInOrder := by
  have hsame := s.dropIntervals_frame slot r
  have hdropped : TableOk (s.dropIntervals slot r) := by
    rw [hsame]
    exact h.1.congr rfl rfl rfl rfl id
  obtain ⟨hft, hbars, -⟩ := State.retire_frame (State.dropIntervals_find hf) o
  refine ⟨hdropped.retire slot o, h.2.of_holds fun b iv hiv => ?_⟩
  have hleft : (s.dropIntervals slot r).Holds b iv := hiv.of_ivals (by rw [State.bar, State.bar, hbars])
  obtain ⟨hold, hnot⟩ := hleft.of_dropIntervals
  refine ⟨hold, fun ⟨sch, hsch, hb, hrest⟩ => ⟨sch, ?_, hb, hrest⟩⟩
  rw [hft, hsame]
  refine hsch.freeSlot fun hslot => ?_
  obtain ⟨l, hl, v, hh, hst⟩ := hsch
  have hown : l.slot = slot := (congrArg Handle.slot hh).trans hslot
  have hrecord : l.record = r := h.1.sound.record_eq hl (hown ▸ hf)
  exact hnot v sch (hrecord ▸ hst) hb (hown ▸ hh.symm)

/-! ### The fault of a bar, and RESET -/

/-- The fault of a bar drops its own records, and those alone lose intervals (R52, R119). -/
theorem State.OwnersInOrder.faultBar {s : State} (h : s.OwnersInOrder) (b : Bar) : (s.faultBar b).OwnersInOrder := by
  refine ⟨TableOk.keptByEvents.faultBar h.1 b, h.2.of_holds fun c iv hiv => ?_⟩
  obtain ⟨order, hperm, e⟩ := s.faultBar_eq b
  rw [e] at hiv ⊢
  have hfaulting : (s.setBar b (s.bar b).faultNow).Holds c iv :=
    hiv.of_settleFrom.of_ivals (congrArg (fun bars => (PerBar.get bars c).nozzles.map (·.ivals))
      (State.dropAll_bars (s.faulting b) order))
  obtain ⟨n, hn, hmem⟩ := hfaulting
  rw [State.bar_setBar] at hn
  split at hn
  · rw [(BarUnit.faultNow_nozzle hn).2.2] at hmem
    cases hmem
  · next hne =>
    refine ⟨⟨n, hn, hmem⟩, fun ⟨sch, ⟨l, hl, v, hh, hst⟩, hb, hrest⟩ => ⟨sch, ?_, hb, hrest⟩⟩
    have hother : ∀ x ∈ order, x.slot ≠ l.slot := fun x hx hslot => by
      obtain ⟨hlive, v', sch', hst', hb'⟩ := (s.mem_liveAt b x).1 (hperm.mem_iff.1 hx)
      cases h.1.sound.unique hlive hl hslot
      cases hst.symm.trans hst'
      exact hne (hb.symm.trans hb')
    obtain ⟨hlive, hgen⟩ := (s.faulting b).dropAll_other hother
    have hft : ((((s.faulting b).dropAll order).raise .driverFault (.bar b) none).settleFrom s).ft =
        ((s.faulting b).dropAll order).ft := (State.settleFrom_frame _ s).2.2.1
    rw [hft]
    refine ⟨l, hlive.2 hl, v, ?_, hst⟩
    rw [← hh, FragTable.handle, FragTable.handle, hgen]
    rfl

theorem State.OwnersInOrder.afterReset {s : State} (h : s.OwnersInOrder) : s.afterReset.OwnersInOrder := by
  refine ⟨h.1.afterReset, h.2.of_holds fun b iv ⟨n, hn, hmem⟩ => ?_⟩
  rw [s.afterReset_bar] at hn
  obtain ⟨m, -, rfl⟩ := List.mem_map.1 hn
  cases hmem

/-- Table and owners in agreement are kept by the events of records and of one bar. -/
theorem OwnersOk.keptByBarEvents : KeptByBarEvents State.OwnersInOrder State.OwnersInOrder where
  within _ h := h
  settled _ h := h.settle
  kept _ _ hk h := h.kept hk
  still _ _ hk _ _ h := h.kept hk
  commit _ _ _ v _ set hf hr _ hwindow h := h.commit hf hr v set hwindow
  retire _ _ _ o hf h := h.retired hf o
  unit _ _ _ hivals _ h := h.setBar hivals
  fault _ b _ h := h.faultBar b
  reset _ h := h.afterReset
  release levels faultLines := ⟨TableOk.atRelease levels faultLines, OwnersOk.atRelease levels faultLines⟩
  tick s _ h := h.of_ivals (TableOk.keptByEvents.tick h.1) (State.awake_keeps (P := fun u => u.ft = s.ft) rfl fun _ => rfl)
    fun b => State.awake_keeps (P := fun u : State => (u.bar b).nozzles.map (·.ivals) = (s.bar b).nozzles.map (·.ivals)) rfl
      fun _ => by
        rw [State.bar, PerBar.get_map]
        exact BarUnit.tick_ivals _

/-- Settles O59: intervals come with a commit and go with their record, and no other event ends or moves a schedule. -/
theorem step_keeps_intervals_owned_by_armed_records : Obligations.Step_keeps_intervals_owned_by_armed_records :=
  fun _ _ htable howners hs => (OwnersOk.keptByBarEvents.step ⟨htable, howners⟩ hs).2

end Sys2Proof.Machine
end

