-- ==== Sys2Proof/Proofs/NozzleEvents.lean ====
section
/-! SUPPORT. The cut of a nozzle at MAXON and the end of its cooling, one nozzle evaluated at a time (R103, R125, R126);
settles O27. -/

namespace Sys2Proof.Machine

/-! ### A change of one nozzle -/

theorem BarUnit.nozzle_modNozzle {u : BarUnit} {i : Nat} (hi : i < u.nozzles.length) (f : Nozzle → Nozzle) :
    (u.modNozzle i f).nozzle i = f (u.nozzle i) := by
  simp [BarUnit.nozzle, hi]

theorem BarUnit.nozzle_modNozzle_ne (u : BarUnit) {i m : Nat} (h : m ≠ i) (f : Nozzle → Nozzle) :
    (u.modNozzle i f).nozzle m = u.nozzle m := by
  rw [BarUnit.nozzle, BarUnit.nozzle, BarUnit.modNozzle_nozzles, List.getD_eq_getElem?_getD, List.getD_eq_getElem?_getD,
    List.getElem?_modify_ne _ _ h.symm]

/-- A nozzle within the bar written anew. -/
theorem BarUnit.modNozzle_eq_set {u : BarUnit} {i : Nat} (hi : i < u.nozzles.length) (f : Nozzle → Nozzle) :
    u.nozzles.modify i f = u.nozzles.set i (f (u.nozzle i)) := by
  rw [List.modify_eq_set_getElem? , List.getElem?_eq_getElem hi, BarUnit.nozzle]
  simp [hi]

/-! ### One nozzle evaluated -/

/-- The nozzles that an evaluation of some of the bar's nozzles opens. -/
def BarUnit.openingAt (u : BarUnit) (which : Nat → Bool) (go : Bool) (T : Pos) : List Nat :=
  u.nozzles.zipIdx.filterMap fun ni => if which ni.2 && ni.1.willOpen go T then some ni.2 else none

theorem BarUnit.evalWhere_zones (u : BarUnit) (which : Nat → Bool) (go : Bool) (T : Pos) :
    (u.evalWhere which go T).zones = markFired u.zones (u.openingAt which go T) := rfl

section
variable {u : BarUnit} {i : Nat} (hi : i < u.nozzles.length) (go : Bool) (T : Pos)
include hi

theorem BarUnit.mem_openingAt (m : Nat) :
    m ∈ u.openingAt (fun j => j == i) go T ↔ m = i ∧ (u.nozzle i).willOpen go T = true := by
  simp only [BarUnit.openingAt, List.mem_filterMap, Prod.exists, Option.ite_none_right_eq_some, Option.some.injEq,
    Bool.and_eq_true, beq_iff_eq]
  constructor
  · rintro ⟨n, j, hmem, ⟨rfl, hopen⟩, rfl⟩
    obtain ⟨-, rfl⟩ := (u.getElem?_nozzles j n).1 (List.mem_zipIdx_iff_getElem?.1 hmem)
    exact ⟨rfl, hopen⟩
  · rintro ⟨rfl, hopen⟩
    exact ⟨u.nozzle m, m, List.mem_zipIdx_iff_getElem?.2 ((u.getElem?_nozzles m _).2 ⟨hi, rfl⟩), ⟨rfl, hopen⟩, rfl⟩

theorem BarUnit.nozzle_evalWhere (which : Nat → Bool) :
    (u.evalWhere which go T).nozzle i = if which i then (u.nozzle i).eval go T else u.nozzle i := by
  simp [BarUnit.nozzle, hi]

end

theorem BarUnit.evalWhere_bus (u : BarUnit) (which : Nat → Bool) (go : Bool) (T : Pos) :
    (u.evalWhere which go T).bus =
      { u.bus with
        owed := u.bus.owed || !(u.openingAt which go T).isEmpty ||
          u.nozzles.zipIdx.any fun ni => which ni.2 && ni.1.willClose go T } := rfl

section
variable {u : BarUnit} {i : Nat} (hi : i < u.nozzles.length) (hst : (u.nozzle i).st = .closed) {go : Bool} {T : Pos}
include hi hst

/-- A CLOSED nozzle whose condition holds opens: a frame is owed, and the zone that governs its lane is FIRED (R103, R122,
R123, R128). -/
theorem BarUnit.evalWhere_opens (h : go = true ∧ (u.nozzle i).covered T = true) :
    (u.evalWhere (fun j => j == i) go T).nozzle i = { u.nozzle i with st := .opened, onTime := 0 } ∧
    (u.evalWhere (fun j => j == i) go T).bus = { u.bus with owed := true } ∧
    ∀ j : Nat, (u.evalWhere (fun j => j == i) go T).zones[j]? =
      u.zones[j]?.map fun x => { x with fired := x.fired || governing u.zones i == some j } := by
  have hcond : (u.nozzle i).openCond go T = true := by simp [Nozzle.openCond, h, hst]
  have hwill : (u.nozzle i).willOpen go T = true := by simp [Nozzle.willOpen, hcond, hst]
  have hmem : ∀ m, m ∈ u.openingAt (fun j => j == i) go T ↔ m = i := fun m => by
    rw [BarUnit.mem_openingAt hi go T m, hwill, and_iff_left rfl]
  refine ⟨?_, ?_, fun j => ?_⟩
  · rw [BarUnit.nozzle_evalWhere hi, if_pos (beq_self_eq_true i)]
    simp [Nozzle.eval, hst, hcond]
  · rw [BarUnit.evalWhere_bus, (List.isEmpty_eq_false_iff_exists_mem).2 ⟨i, (hmem i).2 rfl⟩]
    simp
  · have hany : (u.openingAt (fun j => j == i) go T).any (fun lane => governing u.zones lane == some j) =
        (governing u.zones i == some j) := Bool.eq_iff_iff.2 (by simp [hmem])
    rw [BarUnit.evalWhere_zones, getElem?_markFired, hany]

/-- A CLOSED nozzle whose condition fails stays, and nothing else changes (R122). -/
theorem BarUnit.evalWhere_stays (h : ¬(go = true ∧ (u.nozzle i).covered T = true)) :
    (u.evalWhere (fun j => j == i) go T).nozzle i = u.nozzle i ∧
    (u.evalWhere (fun j => j == i) go T).bus = u.bus ∧ (u.evalWhere (fun j => j == i) go T).zones = u.zones := by
  have hcond : (u.nozzle i).openCond go T = false := by
    rw [Nozzle.openCond, Bool.eq_false_iff.2 fun hc => h (Bool.and_eq_true_iff.1 hc), Bool.false_and]
  have hopen : u.openingAt (fun j => j == i) go T = [] := List.eq_nil_iff_forall_not_mem.2 fun m hm => by
    have hwill := ((BarUnit.mem_openingAt hi go T m).1 hm).2
    simp [Nozzle.willOpen, hcond] at hwill
  have hclose : (u.nozzles.zipIdx.any fun ni => ni.2 == i && ni.1.willClose go T) = false := by
    refine List.any_eq_false.2 fun ⟨n, j⟩ hmem hc => ?_
    obtain ⟨hj, hwill⟩ := Bool.and_eq_true_iff.1 hc
    obtain ⟨-, hn⟩ := (u.getElem?_nozzles j n).1 (List.mem_zipIdx_iff_getElem?.1 hmem)
    have hj : j = i := eq_of_beq hj
    subst hj hn
    simp [Nozzle.willClose, hst] at hwill
  refine ⟨?_, ?_, ?_⟩
  · rw [BarUnit.nozzle_evalWhere hi, if_pos (beq_self_eq_true i)]
    simp [Nozzle.eval, hst, hcond]
  · rw [BarUnit.evalWhere_bus, hopen, hclose]
    simp
  · rw [BarUnit.evalWhere_zones, hopen, markFired_nil]

end

/-! ### The end of cooling -/

/-- A nozzle back from its cooling, before it is evaluated (R126). -/
def BarUnit.endCooling (u : BarUnit) (i : Nat) : BarUnit := u.modNozzle i fun z => { z with st := .closed, cool := 0 }

@[simp] theorem BarUnit.length_endCooling (u : BarUnit) (i : Nat) : (u.endCooling i).nozzles.length = u.nozzles.length := by
  simp [BarUnit.endCooling]

/-- The bar after a nozzle's cooling, the nozzle evaluated (R126). -/
def BarUnit.cooled (u : BarUnit) (i : Nat) (go : Bool) (T : Pos) : BarUnit :=
  (u.endCooling i).evalWhere (fun j => j == i) go T

theorem exec_coolingEnd {s : State} (hr : s.pins.inReset = false) {b : Bar} {n : Fin 160}
    (hst : ((s.bar b).nozzle n).st = .cooling) :
    exec (.coolingEnd b n) s = .next (s.setBar b ((s.bar b).cooled n (s.barOpen (s.bar b)) s.bpu.T)) :=
  congrArg Host.Outcome.next ((State.awake_of hr _).trans (if_pos hst))

/-- Settles O27: only the nozzle of the event is evaluated, and it is CLOSED when it is. The
other nozzles stay, each of the 160: the guard of their clause, read in `Fin 160`, is not used. -/
theorem cut_and_cooling_of_a_nozzle : Obligations.Cut_and_cooling_of_a_nozzle := by
  intro b n s hr hlen
  have hn : n.val < (s.bar b).nozzles.length := lt_of_lt_of_eq n.isLt hlen.symm
  refine ⟨fun hst => ?_, fun hst => ?_, fun hst => ?_, fun hst => ?_⟩
  · have hcut : exec (.maxonCut b n) s = .next (s.setBar b ((s.bar b).cut n)) :=
      congrArg Host.Outcome.next ((State.awake_of hr _).trans (if_pos hst))
    rw [hcut, BarUnit.cut, satAdd_eq_min, BarUnit.modNozzle, BarUnit.modNozzle_eq_set hn]
    rfl
  · exact congrArg Host.Outcome.next ((State.awake_of hr _).trans (if_neg hst))
  · have hmod : ((s.bar b).endCooling n).nozzle n = { (s.bar b).nozzle n with st := .closed, cool := 0 } :=
      BarUnit.nozzle_modNozzle hn _
    have hn' : n.val < ((s.bar b).endCooling n).nozzles.length := by simpa using hn
    have hst' := congrArg Nozzle.st hmod
    have hcond : (s.mayOpen b = true ∧ ∃ iv ∈ ((s.bar b).nozzle n).ivals, iv.covers s.bpu.T = true) ↔
        s.barOpen (s.bar b) = true ∧
          (((s.bar b).endCooling n).nozzle n).covered s.bpu.T = true := by
      rw [hmod, State.mayOpen_eq, Nozzle.covered, List.any_eq_true]
    refine ⟨_, exec_coolingEnd hr hst, fun m _ hne => ?_, fun h => ?_, fun h => ?_, fun c hc => ?_, rfl, rfl, rfl, rfl⟩
    · have hm : m.val < ((s.bar b).endCooling n).nozzles.length := by simp [hlen]
      have hne : m.val ≠ n.val := Fin.val_ne_of_ne hne
      rw [State.bar_setBar_same, BarUnit.cooled, BarUnit.nozzle_evalWhere hm, if_neg (by simpa using hne), BarUnit.endCooling,
        BarUnit.nozzle_modNozzle_ne _ hne]
    · obtain ⟨hnoz, hbus, hzones⟩ := BarUnit.evalWhere_opens hn' hst' (hcond.1 h)
      rw [State.bar_setBar_same]
      refine ⟨hnoz.trans (by rw [hmod]), hbus, length_markFired _ _, fun i x hx => ?_⟩
      exact (hzones i).trans (by rw [BarUnit.endCooling, BarUnit.modNozzle_zones, hx]; rfl)
    · obtain ⟨hnoz, hbus, hzones⟩ := BarUnit.evalWhere_stays hn' hst' (mt hcond.2 h)
      rw [State.bar_setBar_same]
      exact ⟨hnoz.trans hmod, hbus, hzones⟩
    · rw [State.bar_setBar, if_neg hc]
  · exact congrArg Host.Outcome.next ((State.awake_of hr _).trans (if_neg hst))

end Sys2Proof.Machine
end

