-- ==== Sys2Proof/Proofs/BarRequests.lean ====
section
/-! SUPPORT. The requests that write a bar and return it to READY (R99, R102, R118 to R120); settles O40 and O41. -/

namespace Sys2Proof.Machine

/-! ### What the bytes name (R162) -/

theorem barOf_of {x : Byte} {b : Bar} (h : x.toNat = barNo b) : barOf x = some b := by
  rw [barOf, h]
  cases b <;> rfl

theorem barOf_none {x : Byte} (h : 2 < x.toNat) : barOf x = none := by
  unfold barOf
  split <;> simp_all

theorem barOf_isSome {x : Byte} (h : x.toNat ≤ 2) : ∃ b, barOf x = some b := by
  have hcases : x.toNat = 0 ∨ x.toNat = 1 ∨ x.toNat = 2 := by omega
  rcases hcases with h | h | h
  exacts [⟨.bar0, barOf_of h⟩, ⟨.bar1, barOf_of h⟩, ⟨.bar2, barOf_of h⟩]

theorem keyOf_none {x : Byte} (h : 2 < x.toNat) : keyOf x = none := by
  unfold keyOf
  split <;> simp_all

theorem zoneOf_of {r : ZoneRequest} {key : ZoneKey} (hkey : keyOf r.key = some key) (hfirst : r.first.toNat ≤ r.last.toNat)
    (hlast : r.last.toNat ≤ 159) : zoneOf r = some ⟨r.first.toNat, r.last.toNat, key, false⟩ := by
  rw [zoneOf, hkey]
  exact if_pos ((lanesOk_iff _ _).2 ⟨hfirst, hlast⟩)

theorem zoneOf_none {r : ZoneRequest} (h : r.last.toNat < r.first.toNat ∨ 159 < r.last.toNat ∨ 2 < r.key.toNat) :
    zoneOf r = none := by
  unfold zoneOf
  split
  · next hkey =>
    refine if_neg fun hlanes => ?_
    obtain ⟨hfirst, hlast⟩ := (lanesOk_iff _ _).1 hlanes
    rcases h with h | h | h
    · omega
    · omega
    · rw [keyOf_none h] at hkey
      cases hkey
  · rfl

/-- The numeric settings of a SET_BAR are in range (R99). -/
def BarSettingsInRange (r : BarRequest) : Prop :=
  16 ≤ r.A.toNat ∧ r.A.toNat ≤ 4095 ∧ r.tOpen.toNat ≤ 20000 ∧ r.tClose.toNat ≤ 20000 ∧
    r.widen.toNat ≤ 3 ∧ 1 ≤ r.maxNoz.toNat ∧ r.maxNoz.toNat ≤ 64 ∧ 1000 ≤ r.maxon.toNat ∧
    r.maxon.toNat ≤ 100000 ∧ r.minoff.toNat ≤ 50000

/-- The settings that a SET_BAR in range writes. -/
def givenSettings (r : BarRequest) (on guard : Bool) : BarSettings where
  enabled := on
  E := r.E.toNat
  A := r.A.toNat
  tOpen := r.tOpen.toNat
  tClose := r.tClose.toNat
  mFront := r.mFront.toNat
  mBack := r.mBack.toNat
  widen := r.widen.toNat
  maxNoz := r.maxNoz.toNat
  guarded := guard
  maxon := r.maxon.toNat
  minoff := r.minoff.toNat

theorem settingsOf_of {r : BarRequest} {on guard : Bool} (hon : r.enabled.toNat = if on then 1 else 0)
    (hguard : r.guarded.toNat = if guard then 1 else 0) (hr : BarSettingsInRange r) :
    settingsOf r = some (givenSettings r on guard) := by
  rw [settingsOf, yesNo_of hon, yesNo_of hguard]
  refine if_pos ?_
  simp only [Bool.and_eq_true, decide_eq_true_eq, and_assoc]
  exact hr

theorem settingsOf_none {r : BarRequest} (h : 1 < r.enabled.toNat ∨ 1 < r.guarded.toNat ∨ ¬BarSettingsInRange r) :
    settingsOf r = none := by
  unfold settingsOf
  split
  · next on guard hon hguard =>
    refine if_neg fun hr => ?_
    simp only [Bool.and_eq_true, decide_eq_true_eq, and_assoc] at hr
    rcases h with h | h | h
    · rw [yesNo_none h] at hon
      cases hon
    · rw [yesNo_none h] at hguard
      cases hguard
    · exact h hr
  · rfl

/-! ### The bar written -/

/-- A bar without an OPEN nozzle, none of which may open, is left as it is (R122). -/
theorem BarUnit.evalAll_idle {u : BarUnit} {go : Bool} {T : Pos}
    (h : ∀ n ∈ u.nozzles, n.st ≠ .opened ∧ n.openCond go T = false) : u.evalAll go T = u := by
  have hnozzles : (u.evalAll go T).nozzles = u.nozzles := by
    rw [BarUnit.evalAll_nozzles]
    refine (List.map_congr_left fun n hn => ?_).trans (List.map_id' _)
    obtain ⟨hst, hcond⟩ := h n hn
    unfold Nozzle.eval
    split
    · simp [hcond]
    · next hopen => exact absurd hopen hst
    · rfl
  have hopening : u.opening go T = [] := List.eq_nil_iff_forall_not_mem.2 fun m hm => by
    obtain ⟨hlen, hwill⟩ := (u.mem_opening go T m).1 hm
    obtain ⟨-, hcond⟩ := h _ (List.mem_of_getElem? ((u.getElem?_nozzles m _).2 ⟨hlen, rfl⟩))
    simp [Nozzle.willOpen, hcond] at hwill
  have hclosing : (u.nozzles.zipIdx.any fun ni => ni.1.willClose go T) = false := by
    refine List.any_eq_false.2 fun ni hni hwill => (h ni.1 (List.fst_mem_of_mem_zipIdx hni)).1 ?_
    exact eq_of_beq (Bool.and_eq_true_iff.1 hwill).1
  have hzones : (u.evalAll go T).zones = u.zones := by rw [BarUnit.evalAll_zones, hopening, markFired_nil]
  have howed : (u.evalAll go T).bus.owed = u.bus.owed := by simp [BarUnit.evalAll_owed, hopening, hclosing]
  calc u.evalAll go T = { u with
        nozzles := (u.evalAll go T).nozzles
        zones := (u.evalAll go T).zones
        bus := { u.bus with owed := (u.evalAll go T).bus.owed } } := rfl
    _ = u := by rw [hnozzles, hzones, howed]

theorem barStateAfter_eq (before : BarState) (on : Bool) :
    barStateAfter before on = if on then (if before = .faulted then .faulted else .ready) else .disabled := by
  cases before <;> cases on <;> rfl

/-- A bar with other settings and the state that follows from them (R99). -/
def BarUnit.configure (u : BarUnit) (st : BarSettings) : BarUnit :=
  { u with settings := st, state := barStateAfter u.state st.enabled }

section
variable {s : State} (hm : s.lc.mode = .config) {b : Bar} {st : BarSettings}
include hm

/-- In CONFIG no nozzle may open (R122). -/
theorem State.configureBar_eq :
    s.configureBar b st = (s.setBar b (((s.bar b).configure st).evalAll false s.bpu.T)).faultIfActive b := by
  have hclosed : s.barOpen ((s.bar b).configure st) = false := by simp [State.barOpen, State.lineOpen, State.running, hm]
  rw [← hclosed]
  rfl

/-- SET_BAR at a bar whose line is inactive, or that is not READY afterwards. -/
theorem State.configureBar_quiet (hopen : ∀ n ∈ (s.bar b).nozzles, n.st ≠ .opened)
    (hline : s.pins.faultLines.get b = false ∨ st.enabled = false ∨ (s.bar b).state = .faulted) :
    s.configureBar b st = s.setBar b ((s.bar b).configure st) := by
  rw [State.configureBar_eq hm, BarUnit.evalAll_idle (u := (s.bar b).configure st) fun n hn => ⟨hopen n hn, rfl⟩,
    State.faultIfActive]
  refine if_neg ?_
  rw [State.bar_setBar_same]
  rintro ⟨hready, hactive⟩
  rcases hline with h | h | h
  · cases h.symm.trans hactive
  · rw [BarUnit.configure, barStateAfter_eq, h] at hready
    cases hready
  · rw [BarUnit.configure, barStateAfter_eq, h] at hready
    cases hst : st.enabled <;> simp [hst] at hready

/-- SET_BAR at a DISABLED bar whose line is active: the bar is faulted in the same event (R118, R119). -/
theorem State.configureBar_faults (hon : st.enabled = true) (hstate : (s.bar b).state = .disabled)
    (hactive : s.pins.faultLines.get b = true) :
    s.configureBar b st = State.faultBar (s.setBar b (((s.bar b).configure st).evalAll false s.bpu.T)) b := by
  rw [State.configureBar_eq hm, State.faultIfActive]
  refine if_pos ⟨?_, hactive⟩
  rw [State.bar_setBar_same, BarUnit.evalAll_state, BarUnit.configure, hstate, hon]
  rfl

end

/-- The fault of a bar with no live record (R119). -/
theorem State.faultBar_empty {s : State} (h : s.ft.live = []) (b : Bar) :
    s.faultBar b = ((s.faulting b).raise .driverFault (.bar b) none).settleFrom s := by
  obtain ⟨order, hperm, e⟩ := s.faultBar_eq b
  have hnone : s.liveAt b = [] := by rw [State.liveAt, h]; rfl
  rw [hnone, List.perm_nil] at hperm
  rw [e, hperm, State.dropAll_nil]

/-! ### SET_BAR -/

section
variable {r : BarRequest} {s : State}

theorem setBarOp_locked (h : s.lc.mode ≠ .config) : setBarOp r s = refuse s .wrongMode := if_pos h

variable (hm : s.lc.mode = .config)
include hm

theorem setBarOp_badValue (h : barOf r.bar = none ∨ settingsOf r = none) : setBarOp r s = refuse s .badValue := by
  rw [setBarOp, if_neg (not_not.2 hm)]
  rcases h with h | h
  · rw [h]
  · rw [h]
    cases barOf r.bar <;> rfl

theorem setBarOp_writes {b : Bar} {st : BarSettings} (hb : barOf r.bar = some b) (hst : settingsOf r = some st) :
    setBarOp r s = done (s.configureBar b st) := by
  rw [setBarOp, if_neg (not_not.2 hm), hb, hst]

end

/-- The event of a SET_BAR that faults the bar (R99, R118, R119). -/
theorem exec_setBar_faults {r : BarRequest} {b : Bar} {st : BarSettings} {s : State} (hs : Ready s) (hm : s.lc.mode = .config)
    (hlive : s.ft.live = []) (hb : barOf r.bar = some b) (hst : settingsOf r = some st) (hon : st.enabled = true)
    (hstate : (s.bar b).state = .disabled) (hactive : s.pins.faultLines.get b = true) :
    ∃ t, exec (.setBar r) s = .next t ∧ (t.bar b).state = .faulted ∧ (t.bar b).settings = st ∧
      (∀ n ∈ (t.bar b).nozzles, n.st ≠ .opened ∧ n.ivals = []) ∧ t.lc.pendingSet.getLsbD 10 = true ∧
      t.lc.mode = .config ∧ t.ft = s.ft ∧ t.link = (s.answered 10 .ok .empty).link := by
  have hop : setBarOp r (s.takenUp 10) = done ((s.takenUp 10).configureBar b st) :=
    setBarOp_writes (s := s.takenUp 10) hm hb hst
  rw [State.configureBar_faults (s := s.takenUp 10) hm hon hstate hactive] at hop
  set u := (s.takenUp 10).setBar b ((((s.takenUp 10).bar b).configure st).evalAll false (s.takenUp 10).bpu.T) with hu
  have hfault : u.faultBar b = ((u.faulting b).raise .driverFault (.bar b) none).settleFrom u :=
    State.faultBar_empty (s := u) hlive b
  obtain ⟨-, -, hft, -, hlc, hlink, -⟩ := State.settleFrom_frame ((u.faulting b).raise .driverFault (.bar b) none) u
  have hbar : (u.faultBar b).bar b = (u.bar b).faultNow := by
    rw [hfault]
    exact State.settleFrom_faulted (w := (u.faulting b).raise .driverFault (.bar b) none) rfl u
  have hub : u.bar b = (((s.takenUp 10).bar b).configure st).evalAll false (s.takenUp 10).bpu.T := State.bar_setBar_same _ _ _
  refine ⟨_, (request_ready hs (.setBar r) 10 (setBarOp r)).trans (congrArg Host.Outcome.next (State.carryOut_of hop)), ?_⟩
  change ((u.faultBar b).bar b).state = _ ∧ ((u.faultBar b).bar b).settings = _ ∧
    (∀ n ∈ ((u.faultBar b).bar b).nozzles, _) ∧ (u.faultBar b).lc.pendingSet.getLsbD 10 = true ∧
    (u.faultBar b).lc.mode = _ ∧ (u.faultBar b).ft = _ ∧ (u.faultBar b).link.form 10 .ok .empty = _
  rw [hbar, hfault, hft, hlc, hlink, State.raise_lc]
  refine ⟨rfl, ?_, fun n hn => ?_, (LineControl.raise_driverFault _ _ _ _).1, ?_, rfl, rfl⟩
  · rw [BarUnit.faultNow_settings, hub]
    rfl
  · obtain ⟨hclosed, -, hempty⟩ := BarUnit.faultNow_nozzle hn
    exact ⟨hclosed, hempty⟩
  · rw [LineControl.raise_mode]
    exact hm

/-- Settles O40. -/
theorem set_bar_writes_settings_and_state : Obligations.SET_BAR_writes_settings_and_state := by
  refine ⟨fun r b on guard s hs => ⟨fun hm => request_answered hs rfl (setBarOp_locked hm), fun hm => ?_⟩,
    fun r b st s hs hm hlive hb => exec_setBar_faults hs hm hlive (barOf_of hb)⟩
  refine ⟨fun hbad => request_answered hs rfl (setBarOp_badValue hm ?_), fun hb hon hguard hrange hline hopen => ?_⟩
  · exact hbad.imp barOf_none settingsOf_none
  · have hquiet := State.configureBar_quiet (s := { s with link := s.link.takeUp 10 }) (st := givenSettings r on guard) hm
      hopen hline
    rw [BarUnit.configure, barStateAfter_eq] at hquiet
    refine request_answered hs rfl ?_
    rw [setBarOp_writes (s := { s with link := s.link.takeUp 10 }) hm (barOf_of hb) (settingsOf_of hon hguard hrange), hquiet]
    rfl

/-! ### SET_ZONE -/

theorem keyOf_of {x : Byte} {key : ZoneKey} (h : x.toNat = match key with | .off => 0 | .watch => 1 | .normal => 2) :
    keyOf x = some key := by
  rw [keyOf, h]
  cases key <;> rfl

section
variable {r : ZoneRequest} {s : State}

theorem setZoneOp_halted (h : s.lc.mode = .halted) : setZoneOp r s = refuse s .wrongMode := if_pos h

variable (hm : s.lc.mode ≠ .halted)
include hm

theorem setZoneOp_badValue (h : barOf r.bar = none ∨ (∃ b, barOf r.bar = some b ∧ (s.bar b).zones[r.zone.toNat]? = none) ∨
    zoneOf r = none) : setZoneOp r s = refuse s .badValue := by
  rw [setZoneOp, if_neg hm]
  rcases h with hb | ⟨b, hb, hzone⟩ | hz
  · rw [hb]
  · rw [hb]
    cases zoneOf r with
    | none => rfl
    | some z => simp only [hzone]
  · rw [hz]
    cases barOf r.bar <;> rfl

theorem setZoneOp_writes {b : Bar} {z old : Zone} (hb : barOf r.bar = some b) (hz : zoneOf r = some z)
    (hold : (s.bar b).zones[r.zone.toNat]? = some old) :
    setZoneOp r s =
      (s.setBar b { s.bar b with zones := (s.bar b).zones.set r.zone.toNat z }, .ok, .fired old.fired) := by
  rw [setZoneOp, if_neg hm, hb, hz]
  simp only [hold]

end

/-! ### ENABLE_BAR -/

theorem enableBarOp_badValue {bar : Byte} {s : State} (h : 2 < bar.toNat) : enableBarOp bar s = refuse s .badValue := by
  rw [enableBarOp, barOf_none h]

section
variable {bar : Byte} {b : Bar} {s : State} (hb : barOf bar = some b)
include hb

theorem enableBarOp_halted (hm : s.lc.mode = .halted) : enableBarOp bar s = refuse s .wrongMode := by
  rw [enableBarOp, hb]
  exact if_pos hm

variable (hm : s.lc.mode ≠ .halted)
include hm

theorem enableBarOp_of :
    enableBarOp bar s =
      match (s.bar b).state with
      | .disabled => refuse s .badValue
      | .ready => done s
      | .faulted => if s.pins.faultLines.get b then refuse s .faulted else done (s.returnToReady b) := by
  rw [enableBarOp, hb]
  exact if_neg hm

theorem enableBarOp_disabled (hst : (s.bar b).state = .disabled) : enableBarOp bar s = refuse s .badValue := by
  rw [enableBarOp_of hb hm, hst]

theorem enableBarOp_ready (hst : (s.bar b).state = .ready) : enableBarOp bar s = done s := by
  rw [enableBarOp_of hb hm, hst]

theorem enableBarOp_active (hst : (s.bar b).state = .faulted) (hline : s.pins.faultLines.get b = true) :
    enableBarOp bar s = refuse s .faulted := by
  rw [enableBarOp_of hb hm, hst]
  exact if_pos hline

theorem enableBarOp_returns (hst : (s.bar b).state = .faulted) (hline : s.pins.faultLines.get b = false) :
    enableBarOp bar s = done (s.returnToReady b) := by
  rw [enableBarOp_of hb hm, hst]
  exact if_neg (by rw [hline]; decide)

end

/-- A FAULTED bar without open nozzles and intervals returns to READY as it is (R120). -/
theorem State.returnToReady_eq {s : State} {b : Bar} (h : ∀ n ∈ (s.bar b).nozzles, n.st ≠ .opened ∧ n.ivals = []) :
    s.returnToReady b = s.setBar b { s.bar b with state := .ready } := by
  unfold State.returnToReady
  dsimp only
  rw [BarUnit.evalAll_idle (u := { s.bar b with state := .ready }) fun n hn => ?_]
  obtain ⟨hst, hnone⟩ := h n hn
  exact ⟨hst, by simp [Nozzle.openCond, Nozzle.covered, hnone]⟩

/-- Settles O41. -/
theorem set_zone_and_enable_bar : Obligations.SET_ZONE_and_ENABLE_BAR := by
  intro r bar b s hs hzones
  refine ⟨fun hm => ⟨request_answered hs rfl (setZoneOp_halted hm), fun hbar => ?_⟩,
    fun hbar => request_answered hs rfl (enableBarOp_badValue hbar), fun hm => ⟨fun hbad => ?_, ?_, fun hbar => ?_⟩⟩
  · obtain ⟨c, hc⟩ := barOf_isSome hbar
    exact request_answered hs rfl (enableBarOp_halted hc hm)
  · refine request_answered hs rfl (setZoneOp_badValue (s := { s with link := s.link.takeUp 11 }) hm ?_)
    rcases hbad with hbar | ⟨hbar, hzone⟩ | hz
    · exact .inl (barOf_none hbar)
    · exact .inr (.inl ⟨b, barOf_of hbar, List.getElem?_eq_none (hzones.trans_le hzone)⟩)
    · exact .inr (.inr (zoneOf_none hz))
  · intro key old hbar hold hfirst hlast hkey
    exact request_answered hs rfl (setZoneOp_writes (s := { s with link := s.link.takeUp 11 }) hm (barOf_of hbar)
      (zoneOf_of (keyOf_of hkey) hfirst hlast) hold)
  · have hb := barOf_of hbar
    refine ⟨fun hst => request_answered hs rfl (enableBarOp_disabled hb hm hst),
      fun hst => request_answered hs rfl (enableBarOp_ready hb hm hst),
      fun hst hline => request_answered hs rfl (enableBarOp_active hb hm hst hline), fun hst hline hidle => ?_⟩
    refine request_answered hs rfl ((enableBarOp_returns (s := { s with link := s.link.takeUp 12 }) hb hm hst hline).trans ?_)
    exact congrArg done (State.returnToReady_eq (s := { s with link := s.link.takeUp 12 }) hidle)

end Sys2Proof.Machine
end

