-- ==== Sys2Proof/Proofs/ValveBus.lean ====
section
/-! SUPPORT. The frames of a Valve Bus and its refresh timer (R127 to R129); settles O28. -/

namespace Sys2Proof.Machine

theorem State.setBar_self (s : State) (b : Bar) : s.setBar b (s.bar b) = s := by cases b <;> rfl

/-! ### A frame that starts or waits (R128) -/

/-- On an idle bus the debt alone decides. -/
theorem BarUnit.startIfOwed_idle {u : BarUnit} (hidle : u.bus.sending = none) :
    u.startIfOwed = if u.bus.owed then u.startFrame else u := by
  rw [BarUnit.startIfOwed, hidle, Option.isNone_none, Bool.and_true]

/-- Without a debt, or behind a frame in progress, nothing starts and the debt stands. -/
theorem BarUnit.startIfOwed_waits {u : BarUnit} (h : u.bus.owed = false ∨ u.bus.sending ≠ none) : u.startIfOwed = u := by
  refine if_neg fun hstart => ?_
  obtain ⟨howed, hidle⟩ := Bool.and_eq_true_iff.1 hstart
  rcases h with h | h
  · exact absurd (h.symm.trans howed) (by decide)
  · exact h (Option.isNone_iff_eq_none.1 hidle)

/-- A bar whose Valve Bus has sent its frame to the end, before the next one starts (R128). -/
def BarUnit.sent (u : BarUnit) : BarUnit := { u with bus := { u.bus with sending := none } }

/-- The frame owed at the end of another starts from the states of that moment (R128; entry 17). -/
theorem BarUnit.startIfOwed_sent (u : BarUnit) : u.sent.startIfOwed = if u.bus.owed then u.startFrame else u.sent :=
  BarUnit.startIfOwed_idle rfl

/-! ### The events of the bus -/

section
variable {s : State} (hr : s.pins.inReset = false) (b : Bar)
include hr

theorem exec_valveFrameStart : exec (.valveFrameStart b) s = .next (s.setBar b (s.bar b).startIfOwed) :=
  congrArg Host.Outcome.next (State.awake_of hr _)

theorem exec_valveFrameEnd (hsending : (s.bar b).bus.sending ≠ none) :
    exec (.valveFrameEnd b) s = .next (s.setBar b (s.bar b).sent.startIfOwed) :=
  congrArg Host.Outcome.next ((State.awake_of hr _).trans (if_pos (Option.isSome_iff_ne_none.2 hsending)))

theorem exec_valveFrameEnd_idle (hidle : (s.bar b).bus.sending = none) : exec (.valveFrameEnd b) s = .next s :=
  congrArg Host.Outcome.next ((State.awake_of hr _).trans (if_neg (by rw [hidle]; decide)))

end

/-- Settles O28. The expiry of the refresh timer is taken whatever the timer holds (entry 2). -/
theorem valve_Bus_frames : Obligations.Valve_Bus_frames := by
  intro b s hr
  refine ⟨fun howed hidle => ?_, fun hwaits => ?_, fun hsending => ?_, exec_valveFrameEnd_idle hr b,
    congrArg Host.Outcome.next (State.awake_of hr _)⟩
  · rw [exec_valveFrameStart hr, BarUnit.startIfOwed_idle hidle, if_pos howed]
    rfl
  · rw [exec_valveFrameStart hr, BarUnit.startIfOwed_waits hwaits, State.setBar_self]
  · rw [exec_valveFrameEnd hr b hsending, BarUnit.startIfOwed_sent]
    rfl

end Sys2Proof.Machine
end

