-- ==== Sys2Proof/Proofs/LineModes.lean ====
section
/-! SUPPORT. START and STOP in each mode, and the nozzles through a change of mode (R122, R148, R150, R151); settles O46. -/

namespace Sys2Proof.Machine

/-! ### The nozzles through a change of mode (R122) -/

/-- The bars of `t` are those of `s`, their nozzles at most evaluated: in order where they were, no interval changed. -/
def State.BarsEvaluated (s t : State) : Prop :=
  (s.Evaluated → t.Evaluated) ∧
    ∀ b, t.bar b = { s.bar b with nozzles := (t.bar b).nozzles, zones := (t.bar b).zones, bus := (t.bar b).bus } ∧
      ∀ m, ((t.bar b).nozzle m).ivals = ((s.bar b).nozzle m).ivals

/-- An event that changes neither the bars, T nor the terms of the line leaves the nozzles in order. -/
theorem State.Evaluated.still {s t : State} (h : s.Evaluated) (hbars : t.bars = s.bars) (hT : t.bpu.T = s.bpu.T)
    (hline : t.lineOpen = s.lineOpen) : t.Evaluated := by
  intro b
  have hbar : t.bar b = s.bar b := congrArg (PerBar.get · b) hbars
  rw [State.mayOpen_eq, State.barOpen, hbar, hT, hline, ← State.barOpen, ← State.mayOpen_eq]
  exact h b

/-- An event that leaves bars and T, its nozzles evaluated at its end where the terms of the line changed. -/
theorem State.settleFrom_barsEvaluated {u s : State} (hbars : u.bars = s.bars) (hT : u.bpu.T = s.bpu.T) :
    s.BarsEvaluated (u.settleFrom s) := by
  have hbar : ∀ b, u.bar b = s.bar b := fun b => congrArg (PerBar.get · b) hbars
  unfold State.settleFrom
  split
  · next hline => exact ⟨fun h => h.still hbars hT hline, fun b => by rw [hbar]; exact ⟨rfl, fun _ => rfl⟩⟩
  · refine ⟨fun _ => u.settle_evaluated, fun b => ⟨?_, fun m => ?_⟩⟩
    · rw [State.bar_settle, hbar]
      rfl
    · rw [State.nozzle_settle_ivals, hbar]

/-- The state in another mode, before its nozzles are evaluated. -/
def State.inMode (s : State) (m : Mode) : State := { s with lc := { s.lc with mode := m } }

/-- Between RUN and DRAINING the terms of the line stay, so no nozzle is evaluated (R122). -/
theorem State.settleFrom_inMode {s : State} {m : Mode} (hs : s.lc.mode = .run ∨ s.lc.mode = .draining)
    (hm : m = .run ∨ m = .draining) : (s.inMode m).settleFrom s = s.inMode m := by
  have hrun : (s.inMode m).running = s.running := ((State.running_iff _).2 hm).trans ((State.running_iff s).2 hs).symm
  refine if_pos ?_
  rw [State.lineOpen, State.lineOpen, hrun]
  rfl

/-- The raise of DRAINED: its bit joins the pending set, and the condition stays (R154, R156). -/
theorem State.completeDrain_lineControl (s : State) :
    s.completeDrain.lc.mode = .config ∧ s.completeDrain.lc.pendingSet = s.lc.pendingSet ||| 32768 ∧
    s.completeDrain.lc.condition = s.lc.condition := ⟨rfl, rfl, rfl⟩

/-! ### START and STOP carried out (R148, R150) -/

section
variable {s : State}

theorem startOp_halted (hm : s.lc.mode = .halted) : startOp s = refuse s .wrongMode := by
  simp only [startOp, hm]

theorem startOp_run (hm : s.lc.mode = .run) : startOp s = done s := by
  simp only [startOp, hm]

theorem startOp_draining (hm : s.lc.mode = .draining) : startOp s = done (s.inMode .run) := by
  simp only [startOp, hm, State.withMode]
  exact congrArg done (State.settleFrom_inMode (.inr hm) (.inl rfl))

theorem startOp_belt (hm : s.lc.mode = .config) (hdepth : s.bpu.revMax < s.bpu.depth) : startOp s = refuse s .belt := by
  simp only [startOp, hm, if_pos hdepth]

theorem startOp_geometry (hm : s.lc.mode = .config) (hdepth : s.bpu.depth ≤ s.bpu.revMax) (hgeo : s.geometryOk = false) :
    startOp s = refuse s .geometry := by
  simp only [startOp, hm, if_neg (not_lt.2 hdepth), hgeo, Bool.false_eq_true, if_false]

theorem startOp_config (hm : s.lc.mode = .config) (hdepth : s.bpu.depth ≤ s.bpu.revMax) (hgeo : s.geometryOk = true) :
    startOp s = done ((s.inMode .run).settleFrom s) := by
  simp only [startOp, hm, if_neg (not_lt.2 hdepth), hgeo, if_true]
  rfl

theorem stopOp_halted (hm : s.lc.mode = .halted) : stopOp s = refuse s .wrongMode := by
  simp only [stopOp, hm]

theorem stopOp_draining (hm : s.lc.mode = .draining) : stopOp s = done s := by
  simp only [stopOp, hm]

theorem stopOp_config (hm : s.lc.mode = .config) : stopOp s = done s := by
  simp only [stopOp, hm]

theorem stopOp_run (hm : s.lc.mode = .run) : stopOp s = done ((s.inMode .draining).drainIfEmpty.settleFrom s) := by
  simp only [stopOp, hm]
  rfl

/-- STOP with a record live: the line drains (R150). -/
theorem stopOp_drains (hm : s.lc.mode = .run) (hlive : s.ft.liveCount ≠ 0) : stopOp s = done (s.inMode .draining) := by
  have hdrain : (s.inMode .draining).drainIfEmpty = s.inMode .draining := if_neg fun h => hlive h.2
  rw [stopOp_run hm, hdrain, State.settleFrom_inMode (.inl hm) (.inr rfl)]

/-- STOP with no record live: the drain completes in the same event (R150, R151). -/
theorem stopOp_empty (hm : s.lc.mode = .run) (hlive : s.ft.liveCount = 0) :
    stopOp s = done ((s.inMode .draining).completeDrain.settleFrom s) := by
  have hdrain : (s.inMode .draining).drainIfEmpty = (s.inMode .draining).completeDrain := if_pos ⟨rfl, hlive⟩
  rw [stopOp_run hm, hdrain]

end

/-! ### The events -/

/-- The event of a ready part's request: what its operation gives, with the reply formed. -/
theorem request_of {s t : State} (hs : Ready s) {c : Instr} {kind : Byte} {op : State → Answer} {code : ReplyCode}
    {body : ReplyBody} (h : op (s.takenUp kind) = (t, code, body)) :
    request c kind op s = .next { t with link := t.link.form kind code body } :=
  (request_ready hs c kind op).trans (congrArg Host.Outcome.next (State.carryOut_of h))

/-- START in CONFIG within REV_MAX and with the geometry (R148). -/
theorem exec_start_config {s : State} (hs : Ready s) (hm : s.lc.mode = .config) (hdepth : s.bpu.depth ≤ s.bpu.revMax)
    (hgeo : s.geometryOk = true) :
    ∃ t, exec .start s = .next t ∧ t.lc = { s.lc with mode := .run } ∧ t.bpu = s.bpu ∧ t.ft = s.ft ∧ t.ports = s.ports ∧
      t.banks = s.banks ∧ t.tracking = s.tracking ∧ s.BarsEvaluated t ∧ t.link = (s.answered 19 .ok .empty).link := by
  obtain ⟨hbpu, hports, hft, hbanks, hlc, hlink, -, htracking, -⟩ :=
    State.settleFrom_frame ((s.takenUp 19).inMode .run) (s.takenUp 19)
  exact ⟨_, request_of hs (startOp_config (s := s.takenUp 19) hm hdepth hgeo), hlc, hbpu, hft, hports, hbanks, htracking,
    State.settleFrom_barsEvaluated (u := (s.takenUp 19).inMode .run) (s := s.takenUp 19) rfl rfl,
    congrArg (Link.form · 19 .ok .empty) hlink⟩

/-- STOP in RUN with no record live (R150, R151). -/
theorem exec_stop_empty {s : State} (hs : Ready s) (hm : s.lc.mode = .run) (hlive : s.ft.liveCount = 0) :
    ∃ t, exec .stop s = .next t ∧ t.lc.mode = .config ∧ t.lc.pendingSet = s.lc.pendingSet ||| 32768 ∧
      t.lc.condition = s.lc.condition ∧ t.bpu = { s.bpu with G := 0 } ∧ t.ft = s.ft ∧ t.banks = s.banks ∧
      (∀ p, t.port p = { s.port p with queue := [], hold := false }) ∧ s.BarsEvaluated t ∧
      t.link = (s.answered 20 .ok .empty).link := by
  set u := ((s.takenUp 20).inMode .draining).completeDrain
  obtain ⟨hbpu, hports, hft, hbanks, hlc, hlink, -⟩ := State.settleFrom_frame u (s.takenUp 20)
  obtain ⟨hmode, hpending, hcondition⟩ := State.completeDrain_lineControl ((s.takenUp 20).inMode .draining)
  refine ⟨_, request_of hs (stopOp_empty (s := s.takenUp 20) hm hlive), (congrArg LineControl.mode hlc).trans hmode,
    (congrArg LineControl.pendingSet hlc).trans hpending, (congrArg LineControl.condition hlc).trans hcondition, hbpu, hft,
    hbanks, fun p => ?_, State.settleFrom_barsEvaluated (u := u) (s := s.takenUp 20) rfl rfl,
    congrArg (Link.form · 20 .ok .empty) hlink⟩
  exact (congrArg (PerStation.get · p) hports).trans (PerStation.get_map Port.emptied s.ports p)

/-- Settles O46. -/
theorem start_and_STOP_by_mode : Obligations.START_and_STOP_by_mode := by
  intro s hs
  refine ⟨fun hm => ?halted, fun hm => ?run, fun hm => ?draining, fun hm => ?config⟩
  case halted => exact ⟨request_answered hs rfl (startOp_halted hm), request_answered hs rfl (stopOp_halted hm)⟩
  case run =>
    exact ⟨request_answered hs rfl (startOp_run hm), fun hlive => request_answered hs rfl (stopOp_drains hm hlive),
      exec_stop_empty hs hm⟩
  case draining => exact ⟨request_answered hs rfl (stopOp_draining hm), request_answered hs rfl (startOp_draining hm)⟩
  case config =>
    exact ⟨request_answered hs rfl (stopOp_config hm), fun hdepth => request_answered hs rfl (startOp_belt hm hdepth),
      fun hdepth => ⟨fun hgeo => request_answered hs rfl (startOp_geometry hm hdepth hgeo), exec_start_config hs hm hdepth⟩⟩

end Sys2Proof.Machine
end

