-- ==== Sys2Proof/Proofs/OffLink.lean ====
section
/-! SUPPORT. The events that leave the Supervisor Link and the queue of waiting commands alone: the relation OffLink; and
what every command keeps that these and the link's own events keep; settles O2. -/

namespace Sys2Proof.Machine

/-! ### The relation -/

/-- An event leaves the Supervisor Link and the queue of waiting commands as they are. -/
structure State.OffLink (s t : State) : Prop where
  link  : t.link = s.link
  queue : t.pending = s.pending

theorem State.OffLink.refl (s : State) : s.OffLink s := ⟨rfl, rfl⟩

theorem State.OffLink.trans {s t u : State} (h : s.OffLink t) (k : t.OffLink u) : s.OffLink u :=
  ⟨k.link.trans h.link, k.queue.trans h.queue⟩

/-- An event that begins from other values than link and queue. -/
theorem State.OffLink.after {s t u : State} (k : t.OffLink u) (hlink : t.link = s.link) (hqueue : t.pending = s.pending) :
    s.OffLink u := .trans ⟨hlink, hqueue⟩ k

theorem State.settle_offLink (s : State) : s.OffLink s.settle := ⟨rfl, rfl⟩

theorem State.settleFrom_offLink (t s : State) : t.OffLink (t.settleFrom s) := by
  unfold State.settleFrom
  split
  · exact .refl t
  · exact t.settle_offLink

theorem State.halt_offLink (s : State) : s.OffLink s.halt := by
  rcases s.halt_cases with ⟨_, e⟩ | ⟨_, e⟩ <;> rw [e]
  · exact .refl s
  · exact ⟨rfl, rfl⟩

/-! ### The events of records -/

theorem State.drainIfEmpty_offLink (s : State) : s.OffLink s.drainIfEmpty :=
  State.drainIfEmpty_keeps (.refl s) fun _ _ => ⟨rfl, rfl⟩

theorem State.retire_offLink (s : State) (slot : Nat) (o : RecOutcome) : s.OffLink (s.retire slot o) := by
  rcases s.retire_cases slot o with ⟨_, e⟩ | ⟨r, _, e⟩ <;> rw [e]
  · exact .refl s
  · exact (State.drainIfEmpty_offLink _).after rfl rfl

theorem State.reportWatch_offLink (s : State) (b : Bar) (slot : Nat) (set : List Nat) :
    s.OffLink (s.reportWatch b slot set) := by
  unfold State.reportWatch
  split <;> exact ⟨rfl, rfl⟩

theorem State.reportLate_offLink (s : State) (b : Bar) (slot : Nat) (late : Bool) :
    s.OffLink (s.reportLate b slot late) := by
  unfold State.reportLate
  split <;> exact ⟨rfl, rfl⟩

theorem State.guardAndCommit_offLink (s : State) (slot : Nat) (r : Record) (v : Verdict) (sch : Schedule)
    (set : List Nat) : s.OffLink (s.guardAndCommit slot r v sch set) := by
  unfold State.guardAndCommit
  split
  · exact ⟨rfl, rfl⟩
  · split <;> exact ⟨rfl, rfl⟩

theorem State.arm_offLink (s : State) (slot : Nat) (r : Record) (v : Verdict) (b : Bar) :
    s.OffLink (s.arm slot r v b) := by
  unfold State.arm
  dsimp only
  split
  · exact ⟨rfl, rfl⟩
  · split
    · exact ⟨rfl, rfl⟩
    · split
      · exact ⟨rfl, rfl⟩
      · exact ((s.reportWatch_offLink _ _ _).trans (State.reportLate_offLink _ _ _ _)).trans
          (State.guardAndCommit_offLink _ _ _ _ _ _)

theorem State.takePoint_offLink (s : State) (slot : Nat) (r : Record) : s.OffLink (s.takePoint slot r) := by
  rcases s.takePoint_cases slot r with ⟨_, e⟩ | ⟨v, d, _, e⟩ | ⟨v, b, _, e⟩ | ⟨v, sch, _, e⟩ | ⟨v, d, o, _, e⟩ <;> rw [e]
  · exact ⟨rfl, rfl⟩
  · exact ⟨rfl, rfl⟩
  · exact s.arm_offLink slot r v b
  · exact (State.retire_offLink _ _ _).after rfl rfl
  · exact s.retire_offLink slot o

theorem State.takeOverdue_offLink (s : State) (slot : Nat) : s.OffLink (s.takeOverdue slot) :=
  State.takeOverdue_keeps (P := s.OffLink) (fun t k r _ _ h => h.trans (t.takePoint_offLink k r)) s slot (.refl s)

/-! ### A T advance and the encoder -/

theorem State.takePart_offLink (s : State) (x : AdvancePart) : s.OffLink (s.takePart x) := by
  cases x with
  | silence p =>
    change s.OffLink (s.goSilent p)
    rcases s.goSilent_cases p with ⟨_, e⟩ | ⟨_, e⟩ <;> rw [e] <;> exact ⟨rfl, rfl⟩
  | point slot =>
    change s.OffLink (s.takeReached slot)
    rcases s.takeReached_cases slot with e | ⟨_, _, _, _, e⟩ <;> rw [e]
    · exact .refl s
    · exact s.takeOverdue_offLink slot

/-- What every part of a list leaves alone, the whole list leaves alone. -/
theorem State.foldl_offLink {f : State → AdvancePart → State} (h : ∀ (s : State) x, s.OffLink (f s x))
    (parts : List AdvancePart) (s : State) : s.OffLink (parts.foldl f s) :=
  foldl_keeps (P := s.OffLink) (fun t x _ ht => ht.trans (h t x)) (.refl s)

theorem State.atNewT_offLink (s : State) : s.OffLink s.atNewT := by
  unfold State.atNewT
  rcases State.endStall_cases { s with bpu := s.bpu.advance } with ⟨_, e⟩ | ⟨_, e⟩ <;> rw [e] <;> exact ⟨rfl, rfl⟩

theorem State.switchIfReached_offLink (s : State) : s.OffLink s.switchIfReached := by
  rcases s.switchIfReached_cases with ⟨_, e⟩ | ⟨_, _, _, e⟩ <;> rw [e] <;> exact ⟨rfl, rfl⟩

theorem State.advance_offLink (s : State) : s.OffLink s.advance := by
  have hparts : s.atNewT.OffLink s.atNewT.takeParts :=
    (State.foldl_offLink State.takePart_offLink _ _).after rfl rfl
  exact ((s.atNewT_offLink.trans hparts).trans (State.switchIfReached_offLink _)).trans (State.settle_offLink _)

theorem State.forwardCount_offLink (s : State) : s.OffLink s.forwardCount := by
  unfold State.forwardCount State.forwardStep
  split
  · split
    · exact (State.advance_offLink _).after rfl rfl
    · exact ⟨rfl, rfl⟩
  · exact ⟨rfl, rfl⟩

theorem State.reverseStep_offLink (s : State) : s.OffLink s.reverseStep := by
  unfold State.reverseStep
  dsimp only
  split
  · exact ((State.halt_offLink _).trans (State.settle_offLink _)).after rfl rfl
  · exact ⟨rfl, rfl⟩

theorem State.reverseCount_offLink (s : State) : s.OffLink s.reverseCount := by
  unfold State.reverseCount
  split
  · exact ⟨rfl, rfl⟩
  · split
    · exact .refl s
    · exact (State.reverseStep_offLink _).after rfl rfl

theorem State.decodeLevels_offLink (s : State) (l : Levels) : s.OffLink (s.decodeLevels l) := by
  rcases s.decodeLevels_cases l with ⟨_, e⟩ | e | e | e | e <;> rw [e]
  · exact .refl s
  · exact ⟨rfl, rfl⟩
  · exact (State.forwardCount_offLink _).after rfl rfl
  · exact (State.reverseCount_offLink _).after rfl rfl
  · exact ⟨rfl, rfl⟩

theorem State.endWindow_offLink (s : State) : s.OffLink s.endWindow := by
  change s.OffLink (s.windowClosed.settleFrom s)
  refine State.OffLink.trans ?_ (State.settleFrom_offLink _ _)
  rcases s.windowClosed_cases with ⟨_, _, e⟩ | ⟨_, _, e⟩ | ⟨_, _, e⟩ | ⟨_, _, e⟩ <;> rw [e] <;> exact ⟨rfl, rfl⟩

/-! ### The Sensor Links and the Association Engine -/

theorem State.portBytes_offLink (s : State) (p : Station) (bytes : List Byte) : s.OffLink (s.portBytes p bytes) :=
  State.portBytes_keeps_of (P := s.OffLink) (fun _ _ hu => hu.trans ⟨rfl, rfl⟩) (fun _ _ hu => hu.trans ⟨rfl, rfl⟩) bytes
    (.refl s)

theorem State.portFrame_offLink (s : State) (p : Station) (bytes : List Byte) {taken : State → State}
    (ht : ∀ u, State.PortEvent p u (taken u)) : s.OffLink (s.portFrame p bytes taken) :=
  State.portFrame_keeps (P := s.OffLink) (fun _ _ hu => hu.trans ⟨rfl, rfl⟩) (fun _ _ hu => hu.trans ⟨rfl, rfl⟩) bytes ht
    (.refl s)

theorem State.create_offLink {s s' : State} {r : Record} {slot : Nat} (h : s.create r = some (slot, s')) :
    s.OffLink s' := by
  unfold State.create at h
  split at h <;> cases h
  exact ⟨rfl, rfl⟩

theorem State.noCandidate_offLink (s : State) (d : Detection) (clipped frozen : Bool) :
    s.OffLink (s.noCandidate d clipped frozen) := by
  unfold State.noCandidate
  split
  · exact ⟨rfl, rfl⟩
  · split
    · unfold State.makeRecord
      split
      · next hc => exact ((State.create_offLink hc).trans (State.takeOverdue_offLink _ _)).trans (State.settle_offLink _)
      · exact ⟨rfl, rfl⟩
    · exact .refl s

theorem State.complete_offLink (s : State) (slot : Nat) (redecide : Bool) : s.OffLink (s.complete slot redecide) := by
  unfold State.complete
  refine State.OffLink.trans (State.OffLink.trans ?_ (State.takeOverdue_offLink _ _)) (State.settle_offLink _)
  split <;> exact ⟨rfl, rfl⟩

theorem State.giveTo_offLink (s : State) (d : Detection) (clipped frozen : Bool) (c : Live) :
    s.OffLink (s.giveTo d clipped frozen c) := by
  unfold State.giveTo
  split
  · exact (State.complete_offLink _ _ _).after rfl rfl
  · exact s.noCandidate_offLink _ _ _

theorem State.absorbPart_offLink (s : State) (x : AdvancePart) : s.OffLink (s.absorbPart x) := by
  cases x with
  | silence p => exact .refl s
  | point slot =>
    change s.OffLink (s.absorb slot)
    rcases s.absorb_cases slot with ⟨_, e⟩ | ⟨_, _, e⟩ <;> rw [e] <;> exact ⟨rfl, rfl⟩

theorem State.merge_offLink (s : State) (d : Detection) (clipped : Bool) (c : Live) (cs : List Live) :
    s.OffLink (s.merge d clipped c cs) := by
  have habsorbed := State.foldl_offLink State.absorbPart_offLink (orderParts s.draws (cs.map fun l => .point l.slot))
    { s with draws := s.draws + 1 }
  exact (State.complete_offLink _ _ _).after habsorbed.link habsorbed.queue

theorem State.treat_offLink (s : State) (d : Detection) : s.OffLink (s.treat d) := by
  unfold State.treat
  split
  · exact ⟨rfl, rfl⟩
  · unfold State.matchAndTreat
    dsimp only
    split
    · exact s.noCandidate_offLink _ _ _
    · exact s.giveTo_offLink _ _ _ _
    · split
      · exact s.merge_offLink _ _ _ _
      · exact s.giveTo_offLink _ _ _ _

theorem State.take_offLink (s : State) (p : Station) : s.OffLink (s.take p) := by
  unfold State.take
  split
  · exact .refl s
  · next d _ _ =>
    have htreat := State.treat_offLink
      { (s.setPort p (s.port p).removeHead) with ae := { pointer := nextStation p, free := false } } d
    exact ⟨htreat.link, htreat.queue⟩

/-! ### The bars -/

theorem State.dropArmed_offLink (s : State) (x : AdvancePart) : s.OffLink (s.dropArmed x) := by
  unfold State.dropArmed
  split
  · exact .refl s
  · split
    · exact .refl s
    · split
      · exact (State.takeOverdue_offLink _ _).after rfl rfl
      · exact .refl s

theorem State.faultBar_offLink (s : State) (b : Bar) : s.OffLink (s.faultBar b) := by
  have hdropped := State.foldl_offLink State.dropArmed_offLink (orderParts s.draws ((s.armedAt b).map .point))
    { (s.setBar b (s.bar b).faultNow) with draws := s.draws + 1 }
  exact (State.settleFrom_offLink _ s).after hdropped.link hdropped.queue

theorem State.faultIfActive_offLink (s : State) (b : Bar) : s.OffLink (s.faultIfActive b) := by
  unfold State.faultIfActive
  split
  · exact s.faultBar_offLink b
  · exact .refl s

/-! ### Requests -/

theorem setBarOp_offLink (r : BarRequest) (s : State) : s.OffLink (setBarOp r s).1 := by
  unfold setBarOp
  split
  · exact .refl s
  · split
    · next b _ _ _ => exact (State.faultIfActive_offLink _ b).after rfl rfl
    · exact .refl s

theorem forgetOp_offLink (h : HandleField) (s : State) : s.OffLink (forgetOp h s).1 := by
  unfold forgetOp
  split
  · exact .refl s
  · next r _ =>
    split
    · exact .refl s
    · have hdropped : s.OffLink (s.dropIntervals h.slot.toNat r) := by
        unfold State.dropIntervals
        split <;> exact ⟨rfl, rfl⟩
      exact (hdropped.trans (State.retire_offLink _ _ _)).trans (State.settle_offLink _)

theorem insertOp_offLink (r : InsertRequest) (s : State) : s.OffLink (insertOp r s).1 := by
  unfold insertOp
  split
  · exact .refl s
  · split
    · exact .refl s
    · split
      · exact .refl s
      · split
        · exact .refl s
        · split
          · exact .refl s
          · next hc => exact (State.create_offLink hc).trans ⟨rfl, rfl⟩

theorem startOp_offLink (s : State) : s.OffLink (startOp s).1 := by
  have hrun : s.OffLink (s.withMode .run) := (State.settleFrom_offLink _ _).after rfl rfl
  unfold startOp
  split
  · exact .refl s
  · exact .refl s
  · exact hrun
  · split
    · exact .refl s
    · split
      · exact hrun
      · exact .refl s

theorem stopOp_offLink (s : State) : s.OffLink (stopOp s).1 := by
  unfold stopOp
  split
  · exact .refl s
  · exact ((State.drainIfEmpty_offLink _).trans (State.settleFrom_offLink _ _)).after rfl rfl
  · exact .refl s
  · exact .refl s

theorem writeBank_offLink (bank : Byte) (change : Option (BankData → BankData)) (s : State) :
    s.OffLink (writeBank bank change s).1 := by
  unfold writeBank
  repeat' split
  all_goals exact ⟨rfl, rfl⟩

/-- No request's operation touches the link or the queue: the link alone takes the request and forms its reply (R135). -/
theorem request_offLink {c : Instr} {kind : Byte} {op : State → Answer} (hc : requestOf c = some (kind, op)) (s : State) :
    s.OffLink (op s).1 := by
  cases c with
  | setBar r => cases hc; exact setBarOp_offLink r s
  | forget h => cases hc; exact forgetOp_offLink h s
  | insert r => cases hc; exact insertOp_offLink r s
  | start => cases hc; exact startOp_offLink s
  | stop => cases hc; exact stopOp_offLink s
  | writeClassmap bank station first entries => cases hc; exact writeBank_offLink _ _ s
  | writeDestinations r => cases hc; exact writeBank_offLink _ _ s
  | setBelt r => cases hc; unfold setBeltOp; (repeat' split) <;> exact ⟨rfl, rfl⟩
  | setStation r => cases hc; unfold setStationOp; (repeat' split) <;> exact ⟨rfl, rfl⟩
  | setTracking r => cases hc; unfold setTrackingOp; (repeat' split) <;> exact ⟨rfl, rfl⟩
  | setZone r => cases hc; unfold setZoneOp; (repeat' split) <;> exact ⟨rfl, rfl⟩
  | enableBar bar => cases hc; unfold enableBarOp; (repeat' split) <;> exact ⟨rfl, rfl⟩
  | switchBank target c => cases hc; unfold switchBankOp; (repeat' split) <;> exact ⟨rfl, rfl⟩
  | override h dest => cases hc; unfold overrideOp; (repeat' split) <;> exact ⟨rfl, rfl⟩
  | readPortCounters port => cases hc; unfold readPortCountersOp; split <;> exact ⟨rfl, rfl⟩
  | readBank bank sect => cases hc; unfold readBankOp; (repeat' split) <;> exact ⟨rfl, rfl⟩
  | lookup h => cases hc; unfold lookupOp; split <;> exact ⟨rfl, rfl⟩
  | find c1 c2 first last => cases hc; unfold findOp; split <;> exact ⟨rfl, rfl⟩
  | scan start count => cases hc; unfold scanOp; split <;> exact ⟨rfl, rfl⟩
  | readTallies block => cases hc; unfold readTalliesOp; split <;> exact ⟨rfl, rfl⟩
  | enableGuard | reset | clear | readStatus | readNotices | ackNotices _ | setMask _ | readFault | clearTallies =>
    cases hc; exact ⟨rfl, rfl⟩
  | _ => cases hc

/-! ### Every command -/

/-- A property kept by the events off the link and by the link's own: a byte, a frame or a request taken, a reply sent, and
the links cut off by the RESET pin (R133 to R137, R146). -/
structure KeptByLink (P : State → Prop) : Prop where
  off     : ∀ s t : State, s.OffLink t → P s → P t
  byte    : ∀ (s : State) b, P s → P (s.linkByte b)
  frame   : ∀ (s : State) kind body check, P s → P (s.takeFrame kind body check)
  request : ∀ (s : State) c kind op, requestOf c = some (kind, op) → P s → P (s.takeRequest kind op)
  sent    : ∀ s : State, P s → P { s with link := s.link.sent }
  cut     : ∀ s t : State, t.link = ⟨.hunting, none, []⟩ → t.pending = s.pending → P s → P t

namespace KeptByLink

variable {P : State → Prop} (k : KeptByLink P)
include k

theorem bytes {s : State} (h : P s) (bytes : List Byte) : P (s.linkBytes bytes) :=
  State.linkBytes_keeps (P := P) k.byte bytes s h

/-- A frame on the link, where its taking keeps the property and its bytes do (R133; entry 4). -/
theorem linkFrame {s : State} (h : P s) (bytes : List Byte) {taken : State → State} (ht : P (taken s)) :
    P (s.linkFrame bytes taken) := by
  unfold State.linkFrame
  split
  · exact ht
  · exact k.bytes h bytes

/-- Every command that is no request. -/
theorem event {c : Instr} (hc : requestOf c = none) {s t : State} (h : P s) (he : Machine.exec c s = .next t) : P t := by
  have hoff : ∀ {u : State}, s.OffLink u → P u := fun q => k.off _ _ q h
  cases c with
  | overlongFrame length => cases he; exact State.awake_keeps h fun _ => k.bytes h _
  | garbledFrame kind body check =>
    cases he
    refine State.awake_keeps h fun _ => ?_
    split
    · exact k.linkFrame h _ (k.frame s kind body check h)
    · exact k.bytes h _
  | startMark => cases he; exact State.awake_keeps h fun _ => k.byte s _ h
  | replySent => cases he; exact State.awake_keeps h fun _ => k.sent s h
  | resetPin => cases he; exact k.cut s _ rfl rfl h
  | resetPinAsserted => cases he; exact k.cut s _ rfl rfl h
  | encoderTransition a b =>
    cases he
    exact State.awake_keeps (hoff ⟨rfl, rfl⟩) fun _ => 
      hoff ((State.decodeLevels_offLink _ _).after rfl rfl)
  | windowEnd => cases he; exact State.awake_keeps h fun _ => hoff s.endWindow_offLink
  | sync port f =>
    cases he
    exact State.awake_keeps h fun _ => hoff (s.portFrame_offLink port _ fun u => u.syncArrives_portEvent port f)
  | detect port f =>
    cases he
    exact State.awake_keeps h fun _ => hoff (s.portFrame_offLink port _ fun u => u.detectArrives_portEvent port f)
  | badFrame port length kind => cases he; exact State.awake_keeps h fun _ => hoff (s.portBytes_offLink port _)
  | portStartMark port => cases he; exact State.awake_keeps h fun _ => hoff (s.portBytes_offLink port [sensorMark])
  | assocTake =>
    cases he
    refine State.awake_keeps h fun _ => ?_
    split
    · split
      · exact hoff (s.take_offLink _)
      · exact h
    · exact h
  | driverFault b =>
    cases he
    refine State.awake_keeps (hoff ⟨rfl, rfl⟩) fun _ => ?_
    split
    · exact hoff ((State.faultBar_offLink _ b).after rfl rfl)
    · exact hoff ⟨rfl, rfl⟩
  | faultLineInactive b => cases he; exact hoff ⟨rfl, rfl⟩
  | valveFrameStart b | refreshExpiry b => cases he; exact State.awake_keeps h fun _ => hoff ⟨rfl, rfl⟩
  | lclkPulseStart | lclkPulseEnd | maxonCut b n =>
    cases he
    exact State.awake_keeps h fun _ => hoff (by split <;> exact ⟨rfl, rfl⟩)
  | coolingEnd b n | valveFrameEnd b =>
    cases he
    exact State.awake_keeps h fun _ => hoff (by dsimp only; split <;> exact ⟨rfl, rfl⟩)
  | _ => cases hc

/-- Every command that is a request (R135; entry 23). -/
theorem requested {c : Instr} {kind : Byte} {op : State → Answer} (hc : requestOf c = some (kind, op)) {s t : State}
    (h : P s) (he : Machine.exec c s = .next t) : P t := by
  rcases exec_requestOf hc s with e | e <;> rw [e] at he <;> cases he
  · exact State.awake_keeps h fun _ => k.linkFrame h _ (k.request s c kind op hc h)
  · exact State.awake_keeps h fun _ => k.bytes h _

theorem exec {c : Instr} {s t : State} (h : P s) (he : Machine.exec c s = .next t) : P t := by
  cases hc : requestOf c with
  | none => exact k.event hc h he
  | some x => exact k.requested (kind := x.1) (op := x.2) hc h he

end KeptByLink

/-! ### The queue of waiting commands -/

/-- The queue is what it was through every event of the link (entry 21). -/
theorem keptByLink_pending (q : List Instr) : KeptByLink fun s => s.pending = q := by
  have hlink : ∀ (s : State) link, s.pending = q → { s with link }.pending = q := fun _ _ h => h
  have hops : ∀ c kind op, requestOf c = some (kind, op) → ∀ s : State, s.pending = q → (op s).1.pending = q :=
    fun c kind op hc s h => (request_offLink hc s).queue.trans h
  exact
    { off := fun _ _ hoff h => hoff.queue.trans h
      byte := State.linkByte_keeps (P := fun s => s.pending = q) hlink hops
      frame := fun _ kind body check h => State.takeFrame_keeps (P := fun s => s.pending = q) hlink hops kind body check h
      request := fun _ c kind op hc h => State.takeRequest_keeps (P := fun s => s.pending = q) hlink (hops c kind op hc) h
      sent := fun _ h => h
      cut := fun _ _ _ hq h => hq.trans h }

/-- No command stops the part (entry 18). -/
theorem exec_next (c : Instr) (s : State) : ∃ t, exec c s = .next t := by
  cases c with
  | writeClassmap bank station first entries =>
    rcases exec_requestOf (c := .writeClassmap bank station first entries) rfl s with e | e <;> exact ⟨_, e⟩
  | writeDestinations r =>
    rcases exec_requestOf (c := .writeDestinations r) rfl s with e | e <;> exact ⟨_, e⟩
  | _ => exact ⟨_, rfl⟩

/-- Settles O2. -/
theorem every_command_answers_and_keeps_the_queue : Obligations.Every_command_answers_and_keeps_the_queue := by
  intro c s
  obtain ⟨t, ht⟩ := exec_next c s
  exact ⟨t, ht, (keptByLink_pending s.pending).exec rfl ht⟩

end Sys2Proof.Machine
end

