-- ==== Sys2Proof/Proofs/LinkInOrder.lean ====
section
/-! SUPPORT. The receiving side of the Supervisor Link, byte by byte, and the reply queue in order under every step (R133 to
R137); settles O55. -/

namespace Sys2Proof.Machine

/-! ### One byte -/

/-- The state with another receiving side of the link. -/
def State.linkRx (s : State) (rx : Rx) : State := { s with link := { s.link with rx } }

theorem State.linkRx_self {s : State} {rx : Rx} (h : s.link.rx = rx) : s.linkRx rx = s := by
  rw [← h]
  rfl

section
variable {s : State}

theorem State.linkByte_mark (h : s.link.rx = .hunting) : s.linkByte supervisorMark = s.linkRx (.collecting []) := by
  rw [State.linkByte, h]
  exact if_pos rfl

theorem State.linkByte_noise (h : s.link.rx = .hunting) {b : Byte} (hb : b ≠ supervisorMark) : s.linkByte b = s := by
  rw [State.linkByte, h]
  exact if_neg hb

theorem State.linkByte_collecting {got : List Byte} (h : s.link.rx = .collecting got) (b : Byte) :
    s.linkByte b = s.linkCollected (got ++ [b]) := by
  rw [State.linkByte, h]

theorem State.linkByte_first (h : s.link.rx = .collecting []) (b : Byte) : s.linkByte b = s.linkRx (.collecting [b]) :=
  State.linkByte_collecting h b

variable {hi lo : Byte}

/-- Beyond the longest body a length is answered at once (R133). -/
theorem State.linkCollected_overlong (hlong : 132 < (halfOf hi lo).toNat) (rest : List Byte) :
    s.linkCollected (hi :: lo :: rest) = s.frameReply 0 .badLength := if_pos hlong

section
variable (hfit : (halfOf hi lo).toNat ≤ 132)
include hfit

/-- Short of the whole frame the bytes are collected (R133). -/
theorem State.linkCollected_short {rest : List Byte} (hlen : rest.length ≠ (halfOf hi lo).toNat + 3) :
    s.linkCollected (hi :: lo :: rest) = s.linkRx (.collecting (hi :: lo :: rest)) :=
  (if_neg (not_lt.2 hfit)).trans (if_neg hlen)

/-- The last byte of a frame hands it on (R133, R134). -/
theorem State.linkCollected_whole (kind : Byte) {body : List Byte} (hlen : body.length = (halfOf hi lo).toNat)
    (hiCheck loCheck : Byte) :
    s.linkCollected (hi :: lo :: kind :: (body ++ [hiCheck, loCheck])) = s.takeFrame kind body (halfOf hiCheck loCheck) := by
  refine (if_neg (not_lt.2 hfit)).trans ((if_pos (by simp [hlen])).trans ?_)
  simp [List.take_left' hlen, List.drop_left' hlen, lastHalf]

theorem State.linkByte_second (h : s.link.rx = .collecting [hi]) : s.linkByte lo = s.linkRx (.collecting [hi, lo]) :=
  (State.linkByte_collecting h lo).trans (State.linkCollected_short hfit (by simp))

theorem State.linkByte_short {rest : List Byte} (h : s.link.rx = .collecting (hi :: lo :: rest))
    (hlen : rest.length + 1 < (halfOf hi lo).toNat + 3) (b : Byte) :
    s.linkByte b = s.linkRx (.collecting (hi :: lo :: (rest ++ [b]))) :=
  (State.linkByte_collecting h b).trans
    (State.linkCollected_short hfit (rest := rest ++ [b]) (by rw [List.length_append, List.length_singleton]; omega))

theorem State.linkByte_whole {kind : Byte} {body : List Byte} {hiCheck : Byte}
    (h : s.link.rx = .collecting (hi :: lo :: kind :: (body ++ [hiCheck]))) (hlen : body.length = (halfOf hi lo).toNat)
    (b : Byte) : s.linkByte b = s.takeFrame kind body (halfOf hiCheck b) := by
  have hgot : hi :: lo :: kind :: (body ++ [hiCheck]) ++ [b] = hi :: lo :: kind :: (body ++ [hiCheck, b]) := by simp
  rw [State.linkByte_collecting h, hgot]
  exact State.linkCollected_whole hfit kind hlen hiCheck b

end

theorem State.linkByte_overlong (h : s.link.rx = .collecting [hi]) (hlong : 132 < (halfOf hi lo).toNat) :
    s.linkByte lo = s.frameReply 0 .badLength :=
  (State.linkByte_collecting h lo).trans (State.linkCollected_overlong hlong [])

end

/-! ### Replies -/

/-- A BUSY or framing reply finds a place below 15 replies, and at 15 unless the last place is kept (R136). -/
theorem Link.hasRoom_iff (l : Link) :
    l.hasRoom = true ↔
      l.replies.length < 15 ∨ l.replies.length = 15 ∧ ∀ k, l.inProgress ≠ some { kind := k, formed := false } := by
  have hcap : Config.replyCap = 16 := rfl
  unfold Link.hasRoom
  rcases l.inProgress with _ | ⟨k, _ | _⟩ <;> simp <;> omega

section
variable {l : Link} (h : LinkOk l)
include h

/-- Another receiving side that collects only what is not a whole frame yet (R133). -/
theorem LinkOk.withRx {rx : Rx} (hrx : ∀ hi lo rest, rx = .collecting (hi :: lo :: rest) →
    (halfOf hi lo).toNat ≤ 132 ∧ rest.length < (halfOf hi lo).toNat + 3) : LinkOk { l with rx } :=
  ⟨h.room, h.own, h.formed, hrx⟩

theorem LinkOk.hunting : LinkOk l.hunting := h.withRx nofun

/-- A reply that is not that of the request in progress (R136). -/
theorem LinkOk.answer (kind : Byte) (code : ReplyCode) : LinkOk (l.answer kind code) := by
  rcases l.answer_cases kind code with ⟨hroom, e⟩ | ⟨_, e⟩ <;> rw [e]
  · have hlen : l.replies.length < 16 := by have := l.hasRoom_iff.1 hroom; omega
    exact ⟨by simpa using hlen, by simpa using h.own, h.formed, h.collected⟩
  · exact h

/-- The reply of a request taken up in an idle link, formed (R135, R137). -/
theorem LinkOk.form (hidle : l.inProgress = none) (hroom : l.replies.length < 16) (kind : Byte) (code : ReplyCode)
    (body : ReplyBody) : LinkOk ((l.takeUp kind).form kind code body) where
  room := by simpa using hroom
  own := by
    have hnone := h.own
    rw [hidle] at hnone
    simpa using hnone
  formed r hr := by cases hr; rfl
  collected := nofun

/-- The head reply sent; the request in progress ends where it was its own (R135, R136). -/
theorem LinkOk.sent : LinkOk l.sent := by
  unfold Link.sent
  split
  · exact h
  · next r rest hr =>
    have hroom := h.room
    have hown := h.own
    rw [hr] at hroom hown
    cases ho : r.own with
    | true =>
      refine ⟨Nat.le_of_succ_le hroom, ?_, nofun, h.collected⟩
      cases hp : l.inProgress <;> simp_all
    | false =>
      refine ⟨Nat.le_of_succ_le hroom, ?_, h.formed, h.collected⟩
      simpa [ho] using hown

end

section
variable {s : State} (h : LinkOk s.link)
include h

theorem LinkOk.frameReply (kind : Byte) (code : ReplyCode) : LinkOk (s.frameReply kind code).link :=
  h.hunting.answer kind code

theorem LinkOk.takeRequest {c : Instr} {kind : Byte} {op : State → Answer} (hc : requestOf c = some (kind, op)) :
    LinkOk (s.takeRequest kind op).link := by
  rcases s.takeRequest_cases kind op with ⟨_, e⟩ | ⟨_, _, e⟩ | ⟨hidle, hroom, e⟩ <;> rw [e]
  · exact h.frameReply kind .busy
  · exact h.hunting
  · have hlink := (request_offLink hc { s with link := s.link.takeUp kind }).link
    change LinkOk (Link.form _ _ _ _)
    rw [hlink]
    exact h.form hidle hroom kind _ _

theorem LinkOk.takeFrame (kind : Byte) (body : List Byte) (check : Half) : LinkOk (s.takeFrame kind body check).link := by
  rcases s.takeFrame_cases kind body check with ⟨code, e⟩ | ⟨c, k, op, _, hc, e⟩ <;> rw [e]
  · exact h.frameReply kind code
  · exact h.takeRequest hc

/-- Bytes that at most complete a frame: an overlong length or a whole frame is taken, anything less is collected (R133). -/
theorem LinkOk.linkCollected {got : List Byte}
    (hgot : ∀ hi lo rest, got = hi :: lo :: rest → (halfOf hi lo).toNat ≤ 132 → rest.length ≤ (halfOf hi lo).toNat + 3) :
    LinkOk (s.linkCollected got).link := by
  match got with
  | [] => exact h.withRx nofun
  | [b] => exact h.withRx nofun
  | hi :: lo :: rest =>
    by_cases hlong : 132 < (halfOf hi lo).toNat
    · rw [State.linkCollected_overlong hlong]
      exact h.frameReply 0 .badLength
    · by_cases hlen : rest.length = (halfOf hi lo).toNat + 3
      · have htaken : s.linkCollected (hi :: lo :: rest) = s.takeFrame _ _ _ := (if_neg hlong).trans (if_pos hlen)
        rw [htaken]
        exact h.takeFrame _ _ _
      · rw [State.linkCollected_short (not_lt.1 hlong) hlen]
        refine h.withRx fun hi' lo' rest' e => ?_
        cases e
        exact ⟨not_lt.1 hlong, lt_of_le_of_ne (hgot hi lo rest rfl (not_lt.1 hlong)) hlen⟩

theorem LinkOk.linkByte (b : Byte) : LinkOk (s.linkByte b).link := by
  cases hrx : s.link.rx with
  | hunting =>
    by_cases hb : b = supervisorMark
    · rw [hb, State.linkByte_mark hrx]
      exact h.withRx nofun
    · rw [State.linkByte_noise hrx hb]
      exact h
  | collecting got =>
    rw [State.linkByte_collecting hrx]
    refine h.linkCollected fun hi lo rest e hfit => ?_
    match got with
    | [] => cases e
    | [_] => cases e; exact Nat.zero_le _
    | hi' :: lo' :: rest' =>
      simp only [List.cons_append, List.cons.injEq] at e
      obtain ⟨rfl, rfl, rfl⟩ := e
      have hshort := (h.collected hi' lo' rest' hrx).2
      rw [List.length_append, List.length_singleton]
      omega

end

theorem keptByLink_linkOk : KeptByLink fun s => LinkOk s.link where
  off _ _ hoff h := hoff.link ▸ h
  byte _ b h := h.linkByte b
  frame _ kind body check h := h.takeFrame kind body check
  request _ _ _ _ hc h := h.takeRequest hc
  sent _ h := h.sent
  cut _ _ hlink _ _ := hlink ▸ ⟨Nat.zero_le _, rfl, nofun, nofun⟩

/-- Settles O55. -/
theorem step_keeps_the_link_in_order : Obligations.Step_keeps_the_link_in_order := fun _ _ h hs =>
  step_keeps (P := fun s => LinkOk s.link) (fun _ _ _ hu he => keptByLink_linkOk.exec hu he)
    (fun _ hu => State.awake_keeps (P := fun s => LinkOk s.link) hu fun _ => hu) (fun _ _ hu => hu) (fun _ _ hu => hu) h hs

end Sys2Proof.Machine
end

