-- ==== Sys2Proof/Proofs/FramesTaken.lean ====
section
/-! SUPPORT. Frames and requests at a receiving side that stands at its start, their replies at a full queue, and the
replies sent (R133 to R136); settles O30 and O31. -/

namespace Sys2Proof.Machine

/-! ### What a frame does at its start -/

theorem toNat_append_byte {w : Nat} (x : BitVec w) (b : Byte) : (x ++ b).toNat = 256 * x.toNat + b.toNat := by
  rw [BitVec.toNat_append, ← Nat.shiftLeft_add_eq_or_of_lt b.isLt, Nat.shiftLeft_eq]
  omega

theorem halfOf_toNat (hi lo : Byte) : (halfOf hi lo).toNat = 256 * hi.toNat + lo.toNat := toNat_append_byte hi lo

/-- A well-formed request command is its request (R163; entry 23). -/
theorem exec_of_wellFormed {c : Instr} (hw : wellFormed c = true) {kind : Byte} {op : State → Answer}
    (hc : requestOf c = some (kind, op)) (s : State) : exec c s = request c kind op s := by
  cases c with
  | writeClassmap bank station first entries => cases hc; exact if_pos (of_decide_eq_true hw)
  | writeDestinations r => cases hc; exact if_pos (of_decide_eq_true hw)
  | _ => cases hc <;> rfl

/-- At its start the receiving side takes a frame's bytes as those that follow the start mark (R133; entry 4). -/
theorem State.linkBytes_incoming {s : State} (hst : s.link.rx.atStart = true) (bytes : List Byte) :
    s.linkBytes (s.link.rx.incoming (supervisorMark :: bytes)) = (s.linkRx (.collecting [])).linkBytes bytes := by
  rcases (Rx.atStart_iff _).1 hst with h | h
  · rw [h]
    exact congrArg (List.foldl State.linkByte · bytes) (State.linkByte_mark h)
  · rw [h, State.linkRx_self h]
    rfl

section
variable {s : State} (hr : s.pins.inReset = false)
include hr

theorem exec_startMark : exec .startMark s = .next (s.linkByte supervisorMark) :=
  congrArg Host.Outcome.next (State.awake_of hr _)

theorem exec_replySent : exec .replySent s = .next { s with link := s.link.sent } :=
  congrArg Host.Outcome.next (State.awake_of hr _)

variable (hst : s.link.rx.atStart = true)
include hst

/-- An overlong length at the start of a frame (R133). -/
theorem exec_overlongFrame {length : Half} (hlong : 132 < length.toNat) :
    exec (.overlongFrame length) s = .next (s.frameReply 0 .badLength) := by
  refine congrArg Host.Outcome.next ((State.awake_of hr _).trans ((State.linkBytes_incoming hst _).trans ?_))
  exact State.linkByte_overlong (s := s.linkRx (.collecting [length.extractLsb' 8 8])) rfl
    (by rw [halfOf_extract]; exact hlong)

theorem exec_garbledFrame {body : List Byte} (hlen : body.length ≤ 132) (kind : Byte) (check : Half) :
    exec (.garbledFrame kind body check) s = .next (s.takeFrame kind body check) :=
  congrArg Host.Outcome.next
    ((State.awake_of hr _).trans ((if_pos hlen).trans (State.linkFrame_start hst _ _)))

/-- A well-formed request at the start of a frame is taken as the request it is (R135). -/
theorem exec_takesRequest {c : Instr} (hw : wellFormed c = true) {kind : Byte} {op : State → Answer}
    (hc : requestOf c = some (kind, op)) : exec c s = .next (s.takeRequest kind op) := by
  rw [exec_of_wellFormed hw hc]
  exact congrArg Host.Outcome.next ((State.awake_of hr _).trans (State.linkFrame_start hst _ _))

end

/-- A request that finds another in progress, or a full reply queue, is not carried out (R135, R136). -/
theorem State.takeRequest_busy {s : State} {x : InProgress} (hx : s.link.inProgress = some x) (kind : Byte)
    (op : State → Answer) : s.takeRequest kind op = s.frameReply kind .busy := by
  rw [State.takeRequest, hx]

theorem State.takeRequest_lost {s : State} (hx : s.link.inProgress = none) (hfull : 16 ≤ s.link.replies.length)
    (kind : Byte) (op : State → Answer) : s.takeRequest kind op = s.linkRx .hunting := by
  rw [State.takeRequest, hx]
  exact if_neg (not_lt.2 hfull)

/-! ### A frame that is answered and handed to no block -/

section
variable {s : State}

theorem State.frameReply_room (h : s.link.hasRoom = true) (kind : Byte) (code : ReplyCode) :
    s.frameReply kind code =
      { s with
        link := { s.link with rx := .hunting, replies := s.link.replies ++ [⟨kind, code, .empty, false⟩] } } :=
  congrArg (fun link => { s with link }) (if_pos (c := s.link.hunting.hasRoom = true) h)

theorem State.frameReply_full (h : ¬s.link.hasRoom = true) (kind : Byte) (code : ReplyCode) :
    s.frameReply kind code = s.linkRx .hunting :=
  congrArg (fun link => { s with link }) (if_neg (c := s.link.hunting.hasRoom = true) h)

/-- The tests of R134, in their order. -/
theorem State.takeFrame_badCheck {kind : Byte} {body : List Byte} {check : Half} (h : check ≠ requestCheck kind body) :
    s.takeFrame kind body check = s.frameReply kind .badCheck := by
  rw [State.takeFrame, frameFault, if_pos h]

theorem knownKind_iff (kind : Byte) : knownKind kind = true ↔ 1 ≤ kind.toNat ∧ kind.toNat ≤ 29 := by
  rw [knownKind, Bool.and_eq_true, decide_eq_true_eq, decide_eq_true_eq]

variable {kind : Byte} {body : List Byte}

theorem State.takeFrame_unknown (hk : knownKind kind = false) :
    s.takeFrame kind body (requestCheck kind body) = s.frameReply kind .unknown := by
  rw [State.takeFrame, frameFault, if_neg (not_not.2 rfl), hk]
  rfl

theorem State.takeFrame_badLength (hk : knownKind kind = true) (hl : lengthOk kind body = false) :
    s.takeFrame kind body (requestCheck kind body) = s.frameReply kind .badLength := by
  rw [State.takeFrame, frameFault, if_neg (not_not.2 rfl), hk, hl]
  rfl

end

/-! ### The reply that has been sent -/

theorem Link.sent_own {l : Link} {r : Reply} {rest : List Reply} (h : l.replies = r :: rest) (ho : r.own = true) :
    l.sent = { l with replies := rest, inProgress := none } := by
  simp [Link.sent, h, ho]

theorem Link.sent_other {l : Link} {r : Reply} {rest : List Reply} (h : l.replies = r :: rest) (ho : r.own = false) :
    l.sent = { l with replies := rest } := by
  simp [Link.sent, h, ho]

/-- Settles O30. -/
theorem framing_faults_and_sent_replies : Obligations.Framing_faults_and_sent_replies := by
  refine ⟨fun s hr => ⟨fun h => ?_, fun h => ?_, fun hi lo rest h hfit hlen => ?_, ?_⟩, fun s hr => ⟨fun h => ?_, ?_⟩⟩
  · rw [exec_startMark hr, State.linkByte_mark h]
    rfl
  · rw [exec_startMark hr, State.linkByte_first h]
    rfl
  · rw [exec_startMark hr, State.linkByte_short hfit h hlen]
    rfl
  · intro room reply hroom hfull answered answer
    have hreply : ∀ kind code, s.frameReply kind code = answered kind code := fun kind code => by
      by_cases hr : room
      · rw [State.frameReply_room (s.link.hasRoom_iff.2 hr)]
        simp only [answered, hroom hr]
      · rw [State.frameReply_full (fun h => hr (s.link.hasRoom_iff.1 h))]
        simp only [answered, hfull hr, List.append_nil, State.linkRx]
    have hanswer : ∀ kind code, Host.Outcome.next (s.frameReply kind code) = answer kind code := fun kind code =>
      congrArg Host.Outcome.next (hreply kind code)
    refine ⟨hreply, fun hi h => ?_, fun hst => ⟨fun length hlong => ?_, fun kind body check hlen => ⟨fun hc => ?_, ?_, ?_⟩⟩⟩
    · have hlong : 132 < (halfOf hi supervisorMark).toNat := by
        rw [halfOf_toNat]
        exact Nat.lt_add_left _ (by decide)
      rw [exec_startMark hr, State.linkByte_overlong h hlong, hanswer]
    · rw [exec_overlongFrame hr hst hlong, hanswer]
    · rw [exec_garbledFrame hr hst hlen, State.takeFrame_badCheck hc, hanswer]
    · rintro rfl hk
      have hunknown : knownKind kind = false := by
        rw [← Bool.not_eq_true, knownKind_iff]
        omega
      rw [exec_garbledFrame hr hst hlen, State.takeFrame_unknown hunknown, hanswer]
    · rintro rfl hmin hmax hl
      rw [exec_garbledFrame hr hst hlen, State.takeFrame_badLength ((knownKind_iff kind).2 ⟨hmin, hmax⟩) hl, hanswer]
  · rw [exec_replySent hr, Link.sent, h]
  · exact fun r rest h => ⟨fun ho => by rw [exec_replySent hr, Link.sent_own h ho],
      fun ho => by rw [exec_replySent hr, Link.sent_other h ho]⟩

/-- Settles O31. -/
theorem request_answered_BUSY_or_lost : Obligations.Request_answered_BUSY_or_lost := by
  intro c kind op s hr hst hw hc
  rw [exec_takesRequest hr hst hw hc]
  refine ⟨fun x hx => ⟨fun hroom => ?_, fun hfull => ?_⟩, fun hx hfull => ?_⟩
  · have hplace : s.link.hasRoom = true := by
      rw [Link.hasRoom_iff, hx]
      exact hroom.imp_right fun ⟨hlen, hformed⟩ => ⟨hlen, fun k e => by cases e; cases hformed⟩
    rw [State.takeRequest_busy hx, State.frameReply_room hplace]
  · have hplace : ¬s.link.hasRoom = true := by
      rw [Link.hasRoom_iff, hx]
      rintro (hlen | ⟨hlen, hformed⟩)
      · omega
      · rcases hfull with hmore | ⟨_, hf⟩
        · omega
        · exact hformed x.kind (by rw [← hf])
    rw [State.takeRequest_busy hx, State.frameReply_full hplace]
    rfl
  · rw [State.takeRequest_lost hx hfull]
    rfl

end Sys2Proof.Machine
end

