-- ==== Sys2Proof/Proofs/Refusals.lean ====
section
/-! SUPPORT. What every request's operation answers: a refusal that changes nothing, or OK, whatever the link holds (R137);
settles O32. -/

namespace Sys2Proof.Machine

/-- Two answers to one request, from states that differ in their links alone: both refuse with one code and leave the state
they were given, or both are OK (R137). -/
def AnsweredAlike (s t : State) (a b : Answer) : Prop :=
  (∃ code, a = refuse s code ∧ b = refuse t code) ∨ a.2.1 = .ok ∧ b.2.1 = .ok

namespace AnsweredAlike

variable {s t : State}

theorem refused (code : ReplyCode) : AnsweredAlike s t (refuse s code) (refuse t code) := .inl ⟨code, rfl, rfl⟩

theorem accepted {u v : State} {x y : ReplyBody} : AnsweredAlike s t (u, .ok, x) (v, .ok, y) := .inr ⟨rfl, rfl⟩

/-- One check that both states pass or both fail. -/
theorem check {p q : Prop} [Decidable p] [Decidable q] (hpq : p ↔ q) {a b a' b' : Answer} (h : p → AnsweredAlike s t a b)
    (h' : ¬p → AnsweredAlike s t a' b') : AnsweredAlike s t (if p then a else a') (if q then b else b') := by
  by_cases hp : p
  · rw [if_pos hp, if_pos (hpq.1 hp)]
    exact h hp
  · rw [if_neg hp, if_neg (hpq.not.1 hp)]
    exact h' hp

end AnsweredAlike

/-! ### Operation by operation -/

section
open AnsweredAlike

variable (s : State) (link : Link)

theorem setBeltOp_alike (r : BeltRequest) : AnsweredAlike s { s with link } (setBeltOp r s) (setBeltOp r { s with link }) :=
  check Iff.rfl (fun _ => refused _) fun _ => check Iff.rfl (fun _ => accepted) fun _ => refused _

theorem setTrackingOp_alike (r : TrackingRequest) :
    AnsweredAlike s { s with link } (setTrackingOp r s) (setTrackingOp r { s with link }) :=
  check Iff.rfl (fun _ => refused _) fun _ => check Iff.rfl (fun _ => accepted) fun _ => refused _

theorem setStationOp_alike (r : StationRequest) :
    AnsweredAlike s { s with link } (setStationOp r s) (setStationOp r { s with link }) := by
  refine check Iff.rfl (fun _ => refused _) fun _ => ?_
  split
  · exact check Iff.rfl (fun _ => refused _) fun _ => check Iff.rfl (fun _ => refused _) fun _ => accepted
  · exact refused _

theorem readPortCountersOp_alike (port : Byte) :
    AnsweredAlike s { s with link } (readPortCountersOp port s) (readPortCountersOp port { s with link }) := by
  unfold readPortCountersOp
  split
  · exact accepted
  · exact refused _

theorem writeBank_alike (bank : Byte) (change : Option (BankData → BankData)) :
    AnsweredAlike s { s with link } (writeBank bank change s) (writeBank bank change { s with link }) := by
  refine check Iff.rfl (fun _ => refused _) fun _ => ?_
  dsimp only
  split
  · split
    · exact refused _
    · exact accepted
  · exact refused _

theorem readBankOp_alike (bank sect : Byte) :
    AnsweredAlike s { s with link } (readBankOp bank sect s) (readBankOp bank sect { s with link }) := by
  unfold readBankOp
  dsimp only
  split
  · split
    · exact accepted
    · exact refused _
  · exact refused _

theorem switchBankOp_alike (target : Byte) (c : Pos) :
    AnsweredAlike s { s with link } (switchBankOp target c s) (switchBankOp target c { s with link }) := by
  refine check Iff.rfl (fun _ => refused _) fun _ => ?_
  split
  · exact refused _
  · exact check Iff.rfl (fun _ => refused _) fun _ => check Iff.rfl (fun _ => refused _) fun _ =>
      check Iff.rfl (fun _ => accepted) fun _ => check Iff.rfl (fun _ => accepted) fun _ => refused _

theorem setBarOp_alike (r : BarRequest) :
    AnsweredAlike s { s with link } (setBarOp r s) (setBarOp r { s with link }) := by
  refine check Iff.rfl (fun _ => refused _) fun _ => ?_
  split
  · exact accepted
  · exact refused _

theorem setZoneOp_alike (r : ZoneRequest) :
    AnsweredAlike s { s with link } (setZoneOp r s) (setZoneOp r { s with link }) := by
  refine check Iff.rfl (fun _ => refused _) fun _ => ?_
  split
  · dsimp only [State.bar]
    split
    · exact accepted
    · exact refused _
  · exact refused _

theorem enableBarOp_alike (bar : Byte) :
    AnsweredAlike s { s with link } (enableBarOp bar s) (enableBarOp bar { s with link }) := by
  unfold enableBarOp
  split
  · exact refused _
  · refine check Iff.rfl (fun _ => refused _) fun _ => ?_
    dsimp only [State.bar]
    split
    · exact refused _
    · exact accepted
    · exact check Iff.rfl (fun _ => refused _) fun _ => accepted

theorem lookupOp_alike (h : HandleField) :
    AnsweredAlike s { s with link } (lookupOp h s) (lookupOp h { s with link }) := by
  unfold lookupOp
  dsimp only
  split
  · exact refused _
  · exact accepted

theorem findOp_alike (c1 c2 : Pos) (first last : Byte) :
    AnsweredAlike s { s with link } (findOp c1 c2 first last s) (findOp c1 c2 first last { s with link }) :=
  check Iff.rfl (fun _ => refused _) fun _ => accepted

theorem scanOp_alike (start : Pos) (count : Byte) :
    AnsweredAlike s { s with link } (scanOp start count s) (scanOp start count { s with link }) :=
  check Iff.rfl (fun _ => accepted) fun _ => refused _

theorem overrideOp_alike (h : HandleField) (dest : Byte) :
    AnsweredAlike s { s with link } (overrideOp h dest s) (overrideOp h dest { s with link }) := by
  unfold overrideOp
  dsimp only
  split
  · exact refused _
  · refine check Iff.rfl (fun _ => refused _) fun _ => ?_
    split
    · exact refused _
    · exact check Iff.rfl (fun _ => accepted) fun _ => refused _

theorem forgetOp_alike (h : HandleField) :
    AnsweredAlike s { s with link } (forgetOp h s) (forgetOp h { s with link }) := by
  unfold forgetOp
  dsimp only
  split
  · exact refused _
  · exact check Iff.rfl (fun _ => refused _) fun _ => accepted

theorem insertOp_alike (r : InsertRequest) :
    AnsweredAlike s { s with link } (insertOp r s) (insertOp r { s with link }) := by
  refine check Iff.rfl (fun _ => refused _) fun _ => ?_
  dsimp only
  split
  · exact refused _
  · refine check Iff.rfl (fun _ => refused _) fun _ => check Iff.rfl (fun _ => refused _) fun _ => ?_
    dsimp only [State.create]
    cases s.ft.freeList with
    | nil => exact refused _
    | cons slot rest => exact accepted

theorem startOp_alike : AnsweredAlike s { s with link } (startOp s) (startOp { s with link }) := by
  unfold startOp
  dsimp only
  split
  · exact refused _
  · exact accepted
  · exact accepted
  · exact check Iff.rfl (fun _ => refused _) fun _ => check Iff.rfl (fun _ => accepted) fun _ => refused _

theorem stopOp_alike : AnsweredAlike s { s with link } (stopOp s) (stopOp { s with link }) := by
  unfold stopOp
  dsimp only
  split
  · exact refused _
  · exact accepted
  · exact accepted
  · exact accepted

theorem readTalliesOp_alike (block : Byte) :
    AnsweredAlike s { s with link } (readTalliesOp block s) (readTalliesOp block { s with link }) := by
  unfold readTalliesOp
  split
  · exact accepted
  · exact refused _

end

/-- What a request answers does not depend on the link, and a refusal changes nothing (R137). -/
theorem request_alike {c : Instr} {kind : Byte} {op : State → Answer} (hc : requestOf c = some (kind, op)) (s : State)
    (link : Link) : AnsweredAlike s { s with link } (op s) (op { s with link }) := by
  cases c with
  | setBelt r => cases hc; exact setBeltOp_alike s link r
  | setStation r => cases hc; exact setStationOp_alike s link r
  | readPortCounters port => cases hc; exact readPortCountersOp_alike s link port
  | setTracking r => cases hc; exact setTrackingOp_alike s link r
  | writeClassmap bank station first entries => cases hc; exact writeBank_alike s link _ _
  | writeDestinations r => cases hc; exact writeBank_alike s link _ _
  | readBank bank sect => cases hc; exact readBankOp_alike s link bank sect
  | switchBank target c => cases hc; exact switchBankOp_alike s link target c
  | setBar r => cases hc; exact setBarOp_alike s link r
  | setZone r => cases hc; exact setZoneOp_alike s link r
  | enableBar bar => cases hc; exact enableBarOp_alike s link bar
  | lookup h => cases hc; exact lookupOp_alike s link h
  | find c1 c2 first last => cases hc; exact findOp_alike s link c1 c2 first last
  | scan start count => cases hc; exact scanOp_alike s link start count
  | override h dest => cases hc; exact overrideOp_alike s link h dest
  | forget h => cases hc; exact forgetOp_alike s link h
  | insert r => cases hc; exact insertOp_alike s link r
  | start => cases hc; exact startOp_alike s link
  | stop => cases hc; exact stopOp_alike s link
  | readTallies block => cases hc; exact readTalliesOp_alike s link block
  | enableGuard | reset | clear | readStatus | readNotices | ackNotices _ | setMask _ | readFault | clearTallies =>
    cases hc; exact .accepted
  | _ => cases hc

/-- Settles O32. -/
theorem refused_request_changes_nothing : Obligations.Refused_request_changes_nothing := by
  intro c kind op s hc
  have halike := request_alike hc s (s.link.takeUp kind)
  refine ⟨fun hcode => ?_, fun hs hw => ?_⟩
  · rcases halike with ⟨code, e, _⟩ | ⟨hok, _⟩
    · rw [e]
      exact ⟨rfl, rfl⟩
    · exact absurd hok hcode
  · have hcarried : exec c s = .next (s.carryOut kind op) := (exec_of_wellFormed hw hc s).trans (request_ready hs c kind op)
    refine ⟨hcarried, fun hcode => hcarried.trans (congrArg Host.Outcome.next ?_)⟩
    rcases halike with ⟨code, e, ht⟩ | ⟨hok, _⟩
    · rw [e]
      exact s.carryOut_same kind op code .empty ht
    · exact absurd hok hcode

end Sys2Proof.Machine
end

