-- ==== Sys2Proof/Proofs/RequestFrames.lean ====
section
/-! SUPPORT. The frames of the supervisor's requests: every body read back as its request, and the bytes of a frame at the
receiving side (R133, R134, R163); settles O49. -/

namespace Sys2Proof.Machine

/-! ### Bodies read back -/

theorem readPairs_bytes (xs : List ClassRow) : readPairs (xs.flatMap ClassRow.bytes) = xs := by
  induction xs with
  | nil => rfl
  | cons x xs ih => exact congrArg (x :: ·) ih

/-- A body of triples is read back as far as its count, with what follows them. -/
theorem readTriples_bytes (xs : List DestRow) (rest : List Byte) :
    readTriples xs.length (xs.flatMap DestRow.bytes ++ rest) = (xs, rest) := by
  induction xs with
  | nil => rfl
  | cons x xs ih => exact congrArg (fun t : List DestRow × List Byte => (x :: t.1, t.2)) ih

theorem decodeRequest_triples {bank : Byte} {rest : List Byte} {rows : List DestRow} {s1 s0 m1 m0 d c : Byte}
    (h : readTriples 16 rest = (rows, [s1, s0, m1, m0, d, c])) :
    decodeRequest 7 (bank :: rest) = some (.writeDestinations ⟨bank, rows, halfOf s1 s0, halfOf m1 m0, d, c⟩) := by
  change (match readTriples 16 rest with
    | (rows, [s1, s0, m1, m0, d, c]) => some (Instr.writeDestinations ⟨bank, rows, halfOf s1 s0, halfOf m1 m0, d, c⟩)
    | _ => none) = _
  rw [h]

/-- Every well-formed request is read back from its kind and body (R134, R163). -/
theorem decodeRequest_requestFrame {c : Instr} (hw : wellFormed c = true) {kind : Byte} {body : List Byte}
    (hf : requestFrame c = some (kind, body)) : decodeRequest kind body = some c := by
  cases c with
  | writeDestinations r =>
    cases hf
    have hlen : r.rows.length = 16 := of_decide_eq_true hw
    have hrows := readTriples_bytes r.rows
      (halfBytes r.minScore ++ (halfBytes r.minMargin ++ [r.degradedDest, r.conflictDest]))
    rw [hlen] at hrows
    refine (decodeRequest_triples hrows).trans ?_
    rw [halfOf_extract, halfOf_extract]
  | writeClassmap bank station first entries =>
    cases hf
    change some _ = some _
    rw [readPairs_bytes]
  | setBelt r | ackNotices kinds | setMask kinds | lookup h | forget h | override h dest =>
    cases hf
    change some _ = some _
    rw [halfOf_extract]
  | setStation r =>
    cases hf
    change some _ = some _
    rw [halfOf_extract, halfOf_extract]
  | setTracking r =>
    cases hf
    change some _ = some _
    rw [halfOf_extract, halfOf_extract, halfOf_extract]
  | setBar r =>
    cases hf
    change some _ = some _
    simp only [halfOf_extract, wordOf_extract]
  | switchBank target c | scan start count =>
    cases hf
    change some _ = some _
    rw [wordOf_extract]
  | find c1 c2 first last =>
    cases hf
    change some _ = some _
    rw [wordOf_extract, wordOf_extract]
  | insert r =>
    cases hf
    change some _ = some _
    rw [wordOf_extract, wordOf_extract]
  | _ => cases hf <;> rfl

/-! ### The frame of a request -/

theorem knownKind_requestFrame {c : Instr} {kind : Byte} {body : List Byte} (hf : requestFrame c = some (kind, body)) :
    knownKind kind = true := by
  cases c <;> cases hf <;> rfl

/-- The body of every well-formed request has a length its kind allows (R133, R163). -/
theorem bodyFits (c : Instr) : Laws.BodyFits.Statement c := by
  cases c with
  | setBelt r => exact Laws.BodyFits.setBelt r
  | enableGuard => exact Laws.BodyFits.enableGuard
  | setStation r => exact Laws.BodyFits.setStation r
  | readPortCounters port => exact Laws.BodyFits.readPortCounters port
  | setTracking r => exact Laws.BodyFits.setTracking r
  | writeClassmap bank station first entries => exact Laws.BodyFits.writeClassmap bank station first entries
  | writeDestinations r => exact Laws.BodyFits.writeDestinations r
  | readBank bank sect => exact Laws.BodyFits.readBank bank sect
  | switchBank target c => exact Laws.BodyFits.switchBank target c
  | setBar r => exact Laws.BodyFits.setBar r
  | setZone r => exact Laws.BodyFits.setZone r
  | enableBar bar => exact Laws.BodyFits.enableBar bar
  | lookup h => exact Laws.BodyFits.lookup h
  | find c1 c2 first last => exact Laws.BodyFits.find c1 c2 first last
  | scan start count => exact Laws.BodyFits.scan start count
  | override h dest => exact Laws.BodyFits.override h dest
  | forget h => exact Laws.BodyFits.forget h
  | insert r => exact Laws.BodyFits.insert r
  | start => exact Laws.BodyFits.start
  | stop => exact Laws.BodyFits.stop
  | reset => exact Laws.BodyFits.reset
  | clear => exact Laws.BodyFits.clear
  | readStatus => exact Laws.BodyFits.readStatus
  | readNotices => exact Laws.BodyFits.readNotices
  | ackNotices kinds => exact Laws.BodyFits.ackNotices kinds
  | setMask kinds => exact Laws.BodyFits.setMask kinds
  | readFault => exact Laws.BodyFits.readFault
  | readTallies block => exact Laws.BodyFits.readTallies block
  | clearTallies => exact Laws.BodyFits.clearTallies
  | _ => exact nofun

/-- Every well-formed request passes the tests of R134 as the frame laid out for it (R163). -/
theorem frameFault_requestFrame {c : Instr} (hw : wellFormed c = true) {kind : Byte} {body : List Byte}
    (hf : requestFrame c = some (kind, body)) : frameFault kind body (requestCheck kind body) = none := by
  rw [frameFault, if_neg (not_not.2 rfl), knownKind_requestFrame hf, (bodyFits c hw kind body hf).1]
  rfl

/-- The commands with a frame are those with an operation (R163). -/
theorem requestOf_of_requestFrame {c : Instr} {kind : Byte} {body : List Byte}
    (hf : requestFrame c = some (kind, body)) : ∃ op, requestOf c = some (kind, op) := by
  cases c <;> cases hf <;> exact ⟨_, rfl⟩

/-! ### The bytes of a frame -/

section
variable {s : State}

/-- A frame that is taken makes the receiving side hunt, whatever it has collected (R133). -/
theorem State.takeFrame_linkRx (rx : Rx) (kind : Byte) (body : List Byte) (check : Half) :
    (s.linkRx rx).takeFrame kind body check = s.takeFrame kind body check := rfl

/-- A frame handed on as the request it spells (R134, R135). -/
theorem State.takeFrame_request {c : Instr} (hw : wellFormed c = true) {kind : Byte} {body : List Byte}
    (hf : requestFrame c = some (kind, body)) {op : State → Answer} (hc : requestOf c = some (kind, op)) :
    s.takeFrame kind body (requestCheck kind body) = s.takeRequest kind op := by
  rw [State.takeFrame, frameFault_requestFrame hw hf, decodeRequest_requestFrame hw hf, Option.bind_some, hc]

/-- Several bytes short of the whole frame (R133). -/
theorem State.linkBytes_short {hi lo : Byte} (hfit : (halfOf hi lo).toNat ≤ 132) {rest : List Byte}
    (h : s.link.rx = .collecting (hi :: lo :: rest)) (bytes : List Byte)
    (hlen : rest.length + bytes.length < (halfOf hi lo).toNat + 3) :
    s.linkBytes bytes = s.linkRx (.collecting (hi :: lo :: (rest ++ bytes))) := by
  induction bytes generalizing s rest with
  | nil => rw [List.append_nil, State.linkRx_self h]; rfl
  | cons b bs ih =>
    rw [List.length_cons] at hlen
    change (s.linkByte b).linkBytes bs = _
    rw [State.linkByte_short hfit h (by omega)]
    refine (ih (s := s.linkRx _) rfl (by rw [List.length_append, List.length_singleton]; omega)).trans ?_
    rw [List.append_assoc, List.singleton_append]
    rfl

/-- The bytes of a whole frame at a hunting receiving side are the frame taken (R133). -/
theorem State.linkBytes_frame (hh : s.link.rx = .hunting) {body : List Byte} (hlen : body.length ≤ 132) (kind : Byte)
    (check : Half) : s.linkBytes (frameBytes kind body check) = s.takeFrame kind body check := by
  have hn : (BitVec.ofNat 16 body.length).toNat = body.length := by
    rw [BitVec.toNat_ofNat]
    omega
  rw [← halfOf_extract (BitVec.ofNat 16 body.length)] at hn
  set hi := (BitVec.ofNat 16 body.length).extractLsb' 8 8 with hhi
  set lo := (BitVec.ofNat 16 body.length).extractLsb' 0 8 with hlo
  have hfit : (halfOf hi lo).toNat ≤ 132 := hn.le.trans hlen
  set hiCheck := check.extractLsb' 8 8 with hhc
  set loCheck := check.extractLsb' 0 8 with hlc
  have hsplit : frameBytes kind body check =
      [supervisorMark, hi, lo] ++ (kind :: (body ++ [hiCheck])) ++ [loCheck] := by
    simp [frameBytes, bytes2, halfBytes, hhi, hlo, hhc, hlc]
  have hhead : s.linkBytes [supervisorMark, hi, lo] = s.linkRx (.collecting [hi, lo]) := by
    change ((s.linkByte supervisorMark).linkByte hi).linkByte lo = _
    rw [State.linkByte_mark hh, State.linkByte_first (s := s.linkRx (.collecting [])) rfl]
    exact State.linkByte_second (s := s.linkRx (.collecting [hi])) hfit rfl
  have hrest := State.linkBytes_short (s := s.linkRx (.collecting [hi, lo])) hfit (rest := []) rfl
    (kind :: (body ++ [hiCheck])) (by simp [hn])
  have hlast := State.linkByte_whole
    (s := s.linkRx (.collecting (hi :: lo :: kind :: (body ++ [hiCheck])))) hfit rfl hn.symm loCheck
  rw [hsplit, State.linkBytes, List.foldl_append, List.foldl_append]
  change ((s.linkBytes _).linkBytes _).linkByte _ = _
  rw [hhead, hrest]
  exact hlast.trans (by rw [halfOf_extract, State.takeFrame_linkRx])

end

/-- A well-formed request inside a frame cut short: its bytes are taken for the missing ones (R133; entry 4). -/
theorem State.linkFrame_inside {s : State} {b : Byte} {got : List Byte} (h : s.link.rx = .collecting (b :: got))
    (bytes : List Byte) (taken : State → State) : s.linkFrame bytes taken = s.linkBytes bytes := by
  rw [State.linkFrame, h]
  rfl

/-- The WRITE_DESTINATIONS body (R163). -/
theorem requestFrame_writeDestinations (w : DestinationsRequest) :
    requestFrame (.writeDestinations w) =
      some (7, [w.bank] ++ w.rows.flatMap (fun e => [e.dest, e.rank, e.attr]) ++ halfBytes w.minScore ++
        halfBytes w.minMargin ++ [w.degradedDest, w.conflictDest]) := by
  simp only [requestFrame, List.append_assoc, List.singleton_append]
  rfl

/-- Settles O49. -/
theorem request_frames_decode_to_their_request : Obligations.Request_frames_decode_to_their_request := by
  refine ⟨fun c kind body hw hf => ⟨⟨frameFault_requestFrame hw hf, decodeRequest_requestFrame hw hf⟩, fun s hr => ?frame⟩,
    fun s b => ⟨fun hr => exec_startMark hr, fun h => ⟨State.linkByte_mark h, State.linkByte_noise h⟩,
      fun got h => ⟨fun hnil => ?_, fun hi hone => ?_, fun hi lo rest hmore hfit => ⟨fun hlen => ?_, ?_⟩⟩⟩,
    fun r st tr w br z ir h a b c d x y kinds entries kind body => ?layouts⟩
  case frame =>
    obtain ⟨op, hc⟩ := requestOf_of_requestFrame hf
    have hbytes : requestBytes c = frameBytes kind body (requestCheck kind body) := by rw [requestBytes, hf]
    refine ⟨fun hh => ?_, fun b got h => ?_⟩
    · rw [exec_takesRequest hr (by rw [hh]; rfl) hw hc, ← State.takeFrame_request hw hf hc]
      exact congrArg Host.Outcome.next (State.linkBytes_frame hh (bodyFits c hw kind body hf).2 kind _).symm
    · rw [exec_of_wellFormed hw hc, request, State.awake_of hr, State.linkFrame_inside h, hbytes]
      rfl
  case layouts =>
    exact ⟨rfl, rfl, rfl, rfl, rfl, rfl, rfl, requestFrame_writeDestinations w, rfl, rfl, rfl, rfl, rfl, rfl, rfl, rfl, rfl,
      rfl, rfl, rfl, rfl, rfl, rfl, rfl, rfl⟩
  · cases hnil
    exact State.linkByte_first h b
  · cases hone
    exact ⟨State.linkByte_overlong h, fun hfit => State.linkByte_second hfit h⟩
  · cases hmore
    exact State.linkByte_short hfit h hlen b
  · rintro kind body hiCheck rfl hlen
    cases hmore
    exact State.linkByte_whole hfit h hlen b

end Sys2Proof.Machine
end

