-- ==== Sys2Proof/Proofs/ReplyBodies.lean ====
section
/-! SUPPORT. The bodies of the replies: their lengths and layouts, the numbers of the enumerations and the order of bytes
(R162, R163; entry 25); settles O51. -/

namespace Sys2Proof.Machine

/-! ### Lengths -/

/-- An optional part takes its presence byte and its width (R162). -/
theorem length_optBytes {α : Type} {width : Nat} {f : α → List Byte} (h : ∀ x, (f x).length = width) (x : Option α) :
    (optBytes width f x).length = width + 1 := by
  cases x with
  | none => simp [optBytes]
  | some x => simp [optBytes, h]

/-- Unused places fill up to the width (R163). -/
theorem length_padTo {width : Nat} {bs : List Byte} (h : bs.length ≤ width) : (padTo width bs).length = width := by
  rw [padTo, List.length_append, List.length_replicate]
  omega

/-- Parts of one length each. -/
theorem length_flatMap_of {α : Type} {n : Nat} {f : α → List Byte} (h : ∀ x, (f x).length = n) (xs : List α) :
    (xs.flatMap f).length = n * xs.length := by
  simp [List.length_flatMap, h, Nat.mul_comm]

theorem length_wordBytes (w : BitVec 32) : (wordBytes w).length = 4 := rfl
theorem length_handleBytes (h : Handle) : (Handle.bytes h).length = 3 := rfl

theorem length_evidenceBytes (pe : Station × Entry) : (evidenceBytes pe).length = 8 := by
  have harea := length_optBytes (width := 2) (f := bytes2) (fun _ => rfl) pe.2.area
  have hmetal := length_optBytes (width := 1) (f := fun m => [yesByte m]) (fun _ => rfl) pe.2.metal
  simp only [evidenceBytes, List.length_cons, List.length_append, harea, hmetal]

/-- A record holds at most one entry of each station (R138). -/
theorem length_evidenceEntries (r : Record) : r.evidenceEntries.length ≤ 4 := List.length_filterMap_le _ _

theorem length_summaryBytes (x : Summary) : x.bytes.length = 17 := by
  have hverdict := length_optBytes (width := 2) (f := fun v : Nat × Dest => [byte v.1, byte v.2.no]) (fun _ => rfl)
    x.verdict
  simp only [Summary.bytes, List.length_cons, List.length_append, hverdict, length_handleBytes, length_wordBytes]

theorem length_recordBytes (h : Handle) (r : Record) : (recordBytes h r).length = 79 := by
  have hevidence : (padTo 32 (r.evidenceEntries.flatMap evidenceBytes)).length = 32 := by
    refine length_padTo ?_
    rw [length_flatMap_of length_evidenceBytes]
    have := length_evidenceEntries r
    omega
  have hverdict := length_optBytes (width := 5)
    (f := fun v : Verdict => [byte v.material] ++ bytes2 v.top ++ bytes2 v.margin) (fun _ => rfl) r.st.verdict
  have hdest := length_optBytes (width := 1) (f := fun d : Dest => [byte d.no]) (fun _ => rfl)
  have hschedule := length_optBytes (width := 11) (f := Schedule.bytes) (fun _ => rfl) r.st.schedule
  have houtcome := length_optBytes (width := 1) (f := fun o : RecOutcome => [byte o.no]) (fun _ => rfl) r.st.outcome
  simp only [recordBytes, List.length_append, List.length_cons, List.length_nil, hevidence, hverdict, hdest, hschedule,
    houtcome, length_handleBytes, length_wordBytes, Flags.bytes]

theorem length_statusBytes (r : StatusReport) : r.bytes.length = 68 := by
  have hswitch := length_optBytes (width := 5) (f := fun w : Switch => [byte w.target.no] ++ wordBytes w.c) (fun _ => rfl)
    r.switch
  have hbar : ∀ b : BarReport, b.bytes.length = 9 := fun _ => rfl
  have hbytes2 : ∀ n, (bytes2 n).length = 2 := fun _ => rfl
  simp only [StatusReport.bytes, List.length_append, List.length_cons, List.length_nil, hswitch, hbar, hbytes2,
    length_wordBytes]

theorem length_captureBytes (c : Option Capture) : (captureBytes c).length = 13 := by
  refine length_optBytes (fun c => ?_) c
  have hhandle := length_optBytes (f := Handle.bytes) length_handleBytes c.handle
  have hsource : c.source.bytes.length = 2 := by cases c.source <;> rfl
  simp only [List.length_append, List.length_cons, List.length_nil, hsource, hhandle, length_wordBytes]

theorem length_foundBytes (more : Bool) {hs : List Handle} (h : hs.length ≤ 16) :
    (ReplyBody.found more hs).bytes.length = 50 := by
  have hpad : (padTo 48 (hs.flatMap Handle.bytes)).length = 48 := by
    refine length_padTo ?_
    rw [length_flatMap_of length_handleBytes]
    omega
  simp only [ReplyBody.bytes, List.length_cons, hpad]

theorem length_scannedBytes (more : Bool) {xs : List Summary} (h : xs.length ≤ 16) :
    (ReplyBody.scanned more xs).bytes.length = 274 := by
  have hpad : (padTo 272 (xs.flatMap Summary.bytes)).length = 272 := by
    refine length_padTo ?_
    rw [length_flatMap_of length_summaryBytes]
    omega
  simp only [ReplyBody.bytes, List.length_cons, hpad]

theorem length_destTableBytes {t : DestTable} (h : t.rows.length = 16) : t.bytes.length = 54 := by
  have hrows := length_flatMap_of (f := DestEntry.bytes) (n := 3) (fun _ => rfl) t.rows
  rw [DestTable.bytes, List.length_append, hrows, h]
  rfl

/-! ### Numbers and their bytes -/

theorem extract_toNat {n : Nat} (w : BitVec n) (start : Nat) :
    (w.extractLsb' start 8).toNat = w.toNat / 2 ^ start % 256 := by
  rw [BitVec.extractLsb'_toNat, Nat.shiftRight_eq_div_pow]

theorem halfBytes_toNat (h : Half) : (halfBytes h).map (·.toNat) = [h.toNat / 256, h.toNat % 256] := by
  have hlt := h.isLt
  simp only [halfBytes, List.map_cons, List.map_nil, extract_toNat]
  congr 1
  · omega
  · simp

theorem wordBytes_toNat (w : BitVec 32) :
    (wordBytes w).map (·.toNat) = [w.toNat / 16777216, w.toNat / 65536 % 256, w.toNat / 256 % 256, w.toNat % 256] := by
  have hlt := w.isLt
  simp only [wordBytes, List.map_cons, List.map_nil, extract_toNat]
  congr 1
  · omega
  · simp

theorem wordOf_toNat (b3 b2 b1 b0 : Byte) :
    (wordOf b3 b2 b1 b0).toNat = 16777216 * b3.toNat + 65536 * b2.toNat + 256 * b1.toNat + b0.toNat := by
  rw [wordOf, toNat_append_byte, toNat_append_byte, toNat_append_byte]
  omega

theorem foldl_check_toNat (bs : List Byte) (acc : Half) :
    (bs.foldl (fun acc b => acc + b.setWidth 16) acc).toNat = (acc.toNat + (bs.map (·.toNat)).sum) % 65536 := by
  induction bs generalizing acc with
  | nil =>
    have := acc.isLt
    simp only [List.foldl_nil, List.map_nil, List.sum_nil]
    omega
  | cons b bs ih =>
    have hb : (b.setWidth 16).toNat = b.toNat := BitVec.toNat_setWidth_of_le (by decide)
    rw [List.foldl_cons, ih, BitVec.toNat_add, hb, List.map_cons, List.sum_cons]
    omega

theorem checkSum_toNat (bs : List Byte) : (checkSum bs).toNat = (bs.map (·.toNat)).sum % 65536 := by
  rw [checkSum, foldl_check_toNat]
  simp

/-! ### Layouts -/

theorem evidenceBytes_eq (pe : Station × Entry) :
    evidenceBytes pe =
      [byte (stationNo pe.1), byte pe.2.cls, byte pe.2.conf] ++ optBytes 2 bytes2 pe.2.area ++
        optBytes 1 (fun m => [yesByte m]) pe.2.metal := by
  simp [evidenceBytes]

theorem summaryBytes_eq (y : Summary) :
    y.bytes =
      Handle.bytes y.handle ++ [byte y.state.no] ++ wordBytes y.X ++ wordBytes y.Xt ++ [byte y.first, byte y.last] ++
        optBytes 2 (fun v : Nat × Dest => [byte v.1, byte v.2.no]) y.verdict := rfl

theorem captureBytes_some (cap : Capture) :
    captureBytes (some cap) =
      [1, byte cap.kind.no] ++ wordBytes cap.time ++ cap.source.bytes ++ optBytes 3 Handle.bytes cap.handle ++
        [byte cap.later] := by
  simp only [List.append_assoc]
  rfl

/-- Settles O51. -/
theorem reply_bodies_have_the_table_lengths : Obligations.Reply_bodies_have_the_table_lengths := by
  refine ⟨length_recordBytes, length_statusBytes, fun _ => rfl, length_captureBytes, fun more _ => length_foundBytes more,
    fun more _ => length_scannedBytes more, fun xs h => ?_, rfl, fun _ => rfl, length_handleBytes, fun _ _ => rfl,
    fun _ => rfl, fun _ => length_destTableBytes, fun xs h => ?_, ?numbers, ?values, ?layouts⟩
  · exact (length_flatMap_of (f := ClassEntry.bytes) (n := 2) (fun _ => rfl) xs).trans (by rw [h])
  · exact (length_flatMap_of (f := bytes4) (n := 4) (fun _ => rfl) xs).trans (by rw [h])
  case numbers => exact ⟨rfl, rfl, rfl, rfl, rfl, rfl, rfl, rfl, rfl, rfl, fun _ _ _ _ _ => rfl, rfl, rfl⟩
  case values =>
    exact fun h w n b3 b2 b1 b0 bs => ⟨halfBytes_toNat h, wordBytes_toNat w, rfl, rfl, rfl, rfl, rfl, halfOf_toNat b1 b0,
      wordOf_toNat b3 b2 b1 b0, checkSum_toNat bs⟩
  case layouts =>
    intro optional handle padded h r x t c cap rows hs xs counts more pending mask reply
    have hopt : ∀ {α : Type} (width : Nat) (f : α → List Byte) (y : Option α),
        optBytes width f y = optional width (y.map f) := fun width f y => by cases y <;> rfl
    refine ⟨rfl, rfl, ?destinations, rfl, rfl, ?record, rfl, ?scanned, ?status, rfl, rfl, rfl, ?capture, rfl, ?frame⟩
    case destinations =>
      simp only [ReplyBody.bytes, DestTable.bytes, List.append_assoc]
      rfl
    case record =>
      have hevidence : evidenceBytes = fun pe : Station × Entry =>
          [byte (stationNo pe.1), byte pe.2.cls, byte pe.2.conf] ++ optional 2 (pe.2.area.map bytes2) ++
            optional 1 (pe.2.metal.map fun m => [yesByte m]) := funext fun pe => by rw [evidenceBytes_eq, hopt, hopt]
      simp only [ReplyBody.bytes, recordBytes, hopt, hevidence, List.append_assoc]
      rfl
    case scanned =>
      have hsummary : Summary.bytes = fun y : Summary =>
          handle y.handle ++ [byte y.state.no] ++ wordBytes y.X ++ wordBytes y.Xt ++ [byte y.first, byte y.last] ++
            optional 2 (y.verdict.map fun v => [byte v.1, byte v.2.no]) :=
        funext fun y => (summaryBytes_eq y).trans (by rw [hopt]; rfl)
      simp only [ReplyBody.bytes, hsummary]
      rfl
    case status =>
      simp only [ReplyBody.bytes, StatusReport.bytes, hopt, List.append_assoc]
      rfl
    case capture =>
      refine (captureBytes_some cap).trans ?_
      rw [hopt]
      cases cap.source <;> rfl
    case frame =>
      simp only [Reply.bytes, List.append_assoc]
      rfl

end Sys2Proof.Machine
end

