-- ==== Sys2Proof/Proofs/LineChanges.lean ====
section
/-! SUPPORT. The changes of Line Control, and that each keeps it in order (R152, R154, R155, R157, R158, R160). -/

namespace Sys2Proof.Machine

/-! ### The changes of Line Control -/

/-- One change of Line Control: a notice other than HALTED raised (R156), a halt (R152), another mode where neither is
HALTED (R148, R150, R151), a tally (R48), CLEAR (R155), another pending set or mask (R157), the tallies cleared (R160),
RESET (R153), and the release of the RESET pin (R161). -/
inductive LineEvent : LineControl → LineControl → Prop
  | raised (lc : LineControl) (time : Pos) (k : NoticeKind) (src : Source) (h : Option Handle) :
      k ≠ .halted → LineEvent lc (lc.raise time k src h)
  | halted (lc : LineControl) (time : Pos) :
      LineEvent lc { lc.raise time .halted .none none with mode := .halted, faultLine := true }
  | moded (lc : LineControl) (m : Mode) : lc.mode ≠ .halted → m ≠ .halted → LineEvent lc { lc with mode := m }
  | tallied (lc : LineControl) (o : RecOutcome) (material : Nat) :
      LineEvent lc { lc with tallies := lc.tallies.bump o material }
  | cleared (lc : LineControl) :
      LineEvent lc { lc with condition := if lc.mode = .halted then .halted else .normal, capture := none }
  | pended (lc : LineControl) (p : NoticeSet) : LineEvent lc (lc.setPending p)
  | masked (lc : LineControl) (m : NoticeSet) : LineEvent lc (lc.withMask m)
  | zeroed (lc : LineControl) : LineEvent lc { lc with tallies := Tallies.zero }
  | reset (lc : LineControl) : LineEvent lc lc.afterReset
  | released (lc : LineControl) : LineEvent lc .atRelease

/-- The class of a notice is HALTED for HALTED alone (R156). -/
theorem NoticeKind.level_eq_halted_iff (k : NoticeKind) : k.level = .halted ↔ k = .halted := by cases k <;> decide

/-- The condition is HALTED after a notice where it was before or where the notice has that class (R154). -/
theorem Condition.worse_eq_halted_iff (c d : Condition) : c.worse d = .halted ↔ c = .halted ∨ d = .halted := by
  cases c <;> cases d <;> decide

theorem Condition.worse_eq_normal {c d : Condition} (h : c.worse d = .normal) : c = .normal ∧ d = .normal := by
  cases c <;> cases d <;> simp [Condition.worse] at h ⊢

/-- The other outcomes keep their tallies (R160). -/
theorem Tallies.get_set_other (t : Tallies) {o o' : RecOutcome} (h : o' ≠ o) (x : List Nat) : (t.set o x).get o' = t.get o' := by
  cases o <;> cases o' <;> simp [Tallies.set, Tallies.get] at h ⊢

/-- A tally stays within its width when one is added (R160). -/
theorem Tallies.bump_le {t : Tallies} {o' : RecOutcome} (h : ∀ n ∈ t.get o', n ≤ 4294967295) (o : RecOutcome) (m : Nat) :
    ∀ n ∈ (t.bump o m).get o', n ≤ 4294967295 := by
  by_cases ho : o' = o
  · subst ho
    rw [Tallies.bump, Tallies.get_set_same]
    intro n hn
    obtain ⟨i, hi, rfl⟩ := List.getElem_of_mem hn
    rw [List.getElem_modify]
    split
    · exact satAdd_le _ _ _
    · exact h _ (List.getElem_mem _)
  · rwa [Tallies.bump, Tallies.get_set_other _ ho]

/-- The capture after a notice counts its later faults within a byte, and keeps the class of its first (R158). -/
theorem captureNext_ok {c : Option Capture} (hc : ∀ x, c = some x → x.later ≤ 255 ∧ x.kind.level ≠ .normal) (time : Pos)
    {k : NoticeKind} (hk : k.level ≠ .normal) (src : Source) (h : Option Handle) :
    (captureNext c time k src h).later ≤ 255 ∧ (captureNext c time k src h).kind.level ≠ .normal := by
  cases c with
  | none => exact ⟨Nat.zero_le _, hk⟩
  | some x => exact ⟨satAdd_le _ _ _, (hc x rfl).2⟩

namespace LineOk

variable {lc : LineControl} (h : LineOk lc)
include h

/-- Another pending set and mask, ATTN set again (R157). -/
theorem withNotices (p m : NoticeSet) : LineOk { lc with pendingSet := p, mask := m, attn := attnOf p m } :=
  ⟨attnOf_iff p m, h.faultLine, h.condition, h.capture, h.later, h.tallies⟩

/-- What a notice does to the capture is in order, whatever its class (R158). -/
theorem raise_capture (time : Pos) (k : NoticeKind) (src : Source) (hd : Option Handle) :
    ((lc.raise time k src hd).condition = .normal → (lc.raise time k src hd).capture = none) ∧
    ∀ c, (lc.raise time k src hd).capture = some c → c.later ≤ 255 ∧ c.kind.level ≠ .normal := by
  obtain ⟨-, -, -, -, -, -, hcond, hcap⟩ := lc.raise_spec time k src hd
  rw [hcond, hcap]
  split
  · next hk =>
    rw [hk, Condition.worse_normal]
    exact ⟨h.capture, h.later⟩
  · next hk =>
    refine ⟨fun hn => absurd (Condition.worse_eq_normal hn).2 hk, fun c hc => ?_⟩
    cases hc
    exact captureNext_ok h.later time hk src hd

/-- A notice raised with a mode and a FAULT line that fit it (R152, R154, R156 to R158). -/
theorem raise_with (time : Pos) (k : NoticeKind) (src : Source) (hd : Option Handle) {m : Mode} {f : Bool}
    (hf : f = true ↔ m = .halted) (hm : lc.condition = .halted ∨ k = .halted ↔ m = .halted) :
    LineOk { lc.raise time k src hd with mode := m, faultLine := f } := by
  obtain ⟨hpend, hattn, -, hmask, -, htallies, hcond, -⟩ := lc.raise_spec time k src hd
  obtain ⟨hcapture, hlater⟩ := h.raise_capture time k src hd
  exact
    { attn := by rw [hpend, hattn, hmask]; exact attnOf_iff _ _
      faultLine := hf
      condition := by rw [hcond, Condition.worse_eq_halted_iff, k.level_eq_halted_iff]; exact hm
      capture := hcapture
      later := hlater
      tallies := by rw [htallies]; exact h.tallies }

/-- Every change keeps Line Control in order (R152, R154, R155, R157, R158, R160). -/
theorem event {lc' : LineControl} (e : LineEvent lc lc') : LineOk lc' := by
  cases e with
  | raised time k src hd hk =>
    have hraised := h.raise_with time k src hd h.faultLine (by rw [or_iff_left hk]; exact h.condition)
    rwa [← lc.raise_mode time k src hd, ← lc.raise_faultLine time k src hd] at hraised
  | halted time => exact h.raise_with time .halted .none none (by decide) (by simp)
  | moded m hm hm' =>
    exact ⟨h.attn, h.faultLine.trans (iff_of_false hm hm'), h.condition.trans (iff_of_false hm hm'), h.capture, h.later,
      h.tallies⟩
  | tallied o material =>
    refine ⟨h.attn, h.faultLine, h.condition, h.capture, h.later, fun o' => ?_⟩
    obtain ⟨hlen, hle⟩ := h.tallies o'
    exact ⟨(Tallies.length_get_bump _ _ _ _).trans hlen, Tallies.bump_le hle o material⟩
  | cleared => exact ⟨h.attn, h.faultLine, by dsimp only; split <;> simp [*], fun _ => rfl, nofun, h.tallies⟩
  | pended p => exact h.withNotices p lc.mask
  | masked m => exact h.withNotices lc.pendingSet m
  | zeroed => exact ⟨h.attn, h.faultLine, h.condition, h.capture, h.later, LineOk.atRelease.tallies⟩
  | reset =>
    exact ⟨by simp, by simp, by simp, fun _ => rfl, nofun, h.tallies⟩
  | released => exact .atRelease

/-- So does every run of changes. -/
theorem events {lc' : LineControl} (e : Relation.ReflTransGen LineEvent lc lc') : LineOk lc' := by
  induction e with
  | refl => exact h
  | tail _ e ih => exact ih.event e

end LineOk

end Sys2Proof.Machine
end

