-- ==== Sys2Proof/Proofs/LineMoves.lean ====
section
/-! SUPPORT. What an event can do to Line Control, said once: the relation LineMoves, under the events of records, the belt,
the Sensor Links and the Association Engine. -/

namespace Sys2Proof.Machine

/-! ### The relation -/

/-- An event brings Line Control from one state to the other by changes of `LineEvent`, in turn. -/
def State.LineMoves (s t : State) : Prop := Relation.ReflTransGen LineEvent s.lc t.lc

theorem State.LineMoves.of_eq {s t : State} (h : t.lc = s.lc) : s.LineMoves t := by
  rw [State.LineMoves, h]

theorem State.LineMoves.refl (s : State) : s.LineMoves s := .of_eq rfl

theorem State.LineMoves.trans {s t u : State} (h : s.LineMoves t) (k : t.LineMoves u) : s.LineMoves u :=
  Relation.ReflTransGen.trans h k

/-- One change. -/
theorem State.LineMoves.of_event {s t : State} (h : LineEvent s.lc t.lc) : s.LineMoves t := .single h

/-- An event that begins from other values than those of Line Control. -/
theorem State.LineMoves.after {s t u : State} (k : t.LineMoves u) (h : t.lc = s.lc) : s.LineMoves u := .trans (.of_eq h) k

/-- A move keeps Line Control in order. -/
theorem State.LineMoves.lineOk {s t : State} (h : s.LineMoves t) (hs : LineOk s.lc) : LineOk t.lc := hs.events h

theorem State.raise_lineMoves (s : State) {k : NoticeKind} (hk : k ≠ .halted) (src : Source) (h : Option Handle) :
    s.LineMoves (s.raise k src h) := .of_event (.raised _ _ _ _ _ hk)

theorem State.settle_lineMoves (s : State) : s.LineMoves s.settle := .of_eq rfl

theorem State.settleFrom_lineMoves (t s : State) : t.LineMoves (t.settleFrom s) := by
  obtain ⟨-, -, -, -, hlc, -⟩ := t.settleFrom_frame s
  exact .of_eq hlc

theorem State.halt_lineMoves (s : State) : s.LineMoves s.halt := by
  rcases s.halt_cases with ⟨_, e⟩ | ⟨_, e⟩ <;> rw [e]
  · exact .refl s
  · exact .of_event (.halted _ _)

/-! ### The events of records -/

/-- A drain that completes raises DRAINED and leaves DRAINING for CONFIG (R151). -/
theorem State.drainIfEmpty_lineMoves (s : State) : s.LineMoves s.drainIfEmpty :=
  State.drainIfEmpty_keeps (.refl s) fun hm _ =>
    (s.raise_lineMoves (by decide) .none none).trans (.of_event (.moded _ .config (by simp [hm]) (by decide)))

theorem State.retire_lineMoves (s : State) (slot : Nat) (o : RecOutcome) : s.LineMoves (s.retire slot o) := by
  rcases s.retire_cases slot o with ⟨_, e⟩ | ⟨r, _, e⟩ <;> rw [e]
  · exact .refl s
  · exact .trans (.of_event (.tallied _ o r.st.material)) (State.drainIfEmpty_lineMoves _)

theorem State.reportWatch_lineMoves (s : State) (b : Bar) (slot : Nat) (set : List Nat) :
    s.LineMoves (s.reportWatch b slot set) := by
  unfold State.reportWatch
  split
  · exact s.raise_lineMoves (by decide) _ _
  · exact .refl s

theorem State.reportLate_lineMoves (s : State) (b : Bar) (slot : Nat) (late : Bool) :
    s.LineMoves (s.reportLate b slot late) := by
  unfold State.reportLate
  split
  · exact .after (State.raise_lineMoves _ (by decide) _ _) rfl
  · exact .refl s

theorem State.guardAndCommit_lineMoves (s : State) (slot : Nat) (r : Record) (v : Verdict) (sch : Schedule)
    (set : List Nat) : s.LineMoves (s.guardAndCommit slot r v sch set) := by
  unfold State.guardAndCommit
  split
  · exact .of_eq rfl
  · split
    · exact (s.raise_lineMoves (k := .valveFull) (by decide) (.bar sch.bar) (some (s.ft.handle slot))).trans (.of_eq rfl)
    · exact .of_eq rfl

theorem State.arm_lineMoves (s : State) (slot : Nat) (r : Record) (v : Verdict) (b : Bar) :
    s.LineMoves (s.arm slot r v b) := by
  unfold State.arm
  dsimp only
  split
  · exact .of_eq rfl
  · split
    · exact .of_eq rfl
    · split
      · exact .of_eq rfl
      · exact ((s.reportWatch_lineMoves _ _ _).trans (State.reportLate_lineMoves _ _ _ _)).trans
          (State.guardAndCommit_lineMoves _ _ _ _ _ _)

theorem State.takePoint_lineMoves (s : State) (slot : Nat) (r : Record) : s.LineMoves (s.takePoint slot r) := by
  rcases s.takePoint_cases slot r with ⟨_, e⟩ | ⟨v, d, _, e⟩ | ⟨v, b, _, e⟩ | ⟨v, sch, _, e⟩ | ⟨v, d, o, _, e⟩ <;> rw [e]
  · exact .of_eq rfl
  · exact .of_eq rfl
  · exact s.arm_lineMoves slot r v b
  · exact (State.retire_lineMoves _ _ _).after rfl
  · exact s.retire_lineMoves slot o

theorem State.takeOverdue_lineMoves (s : State) (slot : Nat) : s.LineMoves (s.takeOverdue slot) :=
  State.takeOverdue_keeps (P := s.LineMoves) (fun t k r _ _ h => h.trans (t.takePoint_lineMoves k r)) s slot (.refl s)

/-- What every part of a list moves, the whole list moves. -/
theorem State.foldl_lineMoves {f : State → AdvancePart → State} (h : ∀ (s : State) x, s.LineMoves (f s x))
    (parts : List AdvancePart) (s : State) : s.LineMoves (parts.foldl f s) :=
  foldl_keeps (P := s.LineMoves) (fun t x _ ht => ht.trans (h t x)) (.refl s)

/-! ### The belt -/

theorem State.takePart_lineMoves (s : State) (x : AdvancePart) : s.LineMoves (s.takePart x) := by
  cases x with
  | silence p =>
    change s.LineMoves (s.goSilent p)
    rcases s.goSilent_cases p with ⟨_, e⟩ | ⟨_, e⟩ <;> rw [e]
    · exact .refl s
    · exact .after (State.raise_lineMoves _ (by decide) _ _) rfl
  | point slot =>
    change s.LineMoves (s.takeReached slot)
    rcases s.takeReached_cases slot with e | ⟨_, _, _, _, e⟩ <;> rw [e]
    · exact .refl s
    · exact s.takeOverdue_lineMoves slot

theorem State.endStall_lineMoves (s : State) : s.LineMoves s.endStall := by
  rcases s.endStall_cases with ⟨_, e⟩ | ⟨_, e⟩ <;> rw [e]
  · exact .refl s
  · exact .after (State.raise_lineMoves _ (by decide) _ _) rfl

theorem State.atNewT_lineMoves (s : State) : s.LineMoves s.atNewT := by
  have hstall := State.endStall_lineMoves { s with bpu := s.bpu.advance }
  exact (hstall.after rfl).trans (.of_eq rfl)

theorem State.switchIfReached_lineMoves (s : State) : s.LineMoves s.switchIfReached := by
  rcases s.switchIfReached_cases with ⟨_, e⟩ | ⟨_, _, _, e⟩ <;> rw [e]
  · exact .refl s
  · exact .after (State.raise_lineMoves _ (by decide) _ _) rfl

theorem State.advance_lineMoves (s : State) : s.LineMoves s.advance := by
  have hparts : s.atNewT.LineMoves s.atNewT.takeParts :=
    (State.foldl_lineMoves State.takePart_lineMoves _ _).after rfl
  exact ((s.atNewT_lineMoves.trans hparts).trans (State.switchIfReached_lineMoves _)).trans (State.settle_lineMoves _)

theorem State.forwardCount_lineMoves (s : State) : s.LineMoves s.forwardCount := by
  unfold State.forwardCount State.forwardStep
  split
  · split
    · exact (State.advance_lineMoves _).after rfl
    · exact .of_eq rfl
  · exact .of_eq rfl

theorem State.reverseStep_lineMoves (s : State) : s.LineMoves s.reverseStep := by
  unfold State.reverseStep
  dsimp only
  split
  · exact ((State.halt_lineMoves _).trans (State.settle_lineMoves _)).after rfl
  · exact .of_eq rfl

theorem State.reverseCount_lineMoves (s : State) : s.LineMoves s.reverseCount := by
  unfold State.reverseCount
  split
  · exact .of_eq rfl
  · split
    · exact .refl s
    · exact (State.reverseStep_lineMoves _).after rfl

theorem State.decodeLevels_lineMoves (s : State) (l : Levels) : s.LineMoves (s.decodeLevels l) := by
  rcases s.decodeLevels_cases l with ⟨_, e⟩ | e | e | e | e <;> rw [e]
  · exact .refl s
  · exact .of_eq rfl
  · exact (State.forwardCount_lineMoves _).after rfl
  · exact (State.reverseCount_lineMoves _).after rfl
  · exact .of_eq rfl

theorem State.endWindow_lineMoves (s : State) : s.LineMoves s.endWindow := by
  change s.LineMoves (s.windowClosed.settleFrom s)
  refine State.LineMoves.trans ?_ (State.settleFrom_lineMoves _ _)
  rcases s.windowClosed_cases with ⟨_, _, e⟩ | ⟨_, _, e⟩ | ⟨_, _, e⟩ | ⟨_, _, e⟩ <;> rw [e]
  · exact .of_eq rfl
  · exact .after (State.raise_lineMoves _ (by decide) _ _) rfl
  · exact .of_eq rfl
  · exact .of_event (.halted _ _)

/-! ### The Sensor Links -/

/-- A port written and a notice of its station raised. -/
theorem State.setPort_raise_lineMoves (s : State) (p : Station) (x : Port) {k : NoticeKind} (hk : k ≠ .halted) :
    s.LineMoves ((s.setPort p x).raise k (.station p) none) := (State.raise_lineMoves _ hk _ _).after rfl

theorem State.handleSync_lineMoves (l : Pos) (p : Station) (s : State) (x : Port) :
    s.LineMoves (s.handleSync l p x) := by
  unfold State.handleSync
  split
  · split
    · exact .of_eq rfl
    · exact s.setPort_raise_lineMoves _ _ (by decide)
  · exact s.setPort_raise_lineMoves _ _ (by decide)

theorem State.handleDetect_lineMoves (f : DetectFrame) (p : Station) (s : State) (x : Port) :
    s.LineMoves (s.handleDetect f p x) := by
  unfold State.handleDetect
  split
  · split
    · split
      · dsimp only [State.enqueue]
        split
        · exact .of_eq rfl
        · exact s.setPort_raise_lineMoves _ _ (by decide)
      · exact s.setPort_raise_lineMoves _ _ (by decide)
    · exact .of_eq rfl
  · exact .of_eq rfl

/-- The arrival of a frame moves Line Control where its handling does (R17). -/
theorem State.arrive_lineMoves (s : State) (p : Station) (seq : Byte) (sound : Bool) {handle : State → Port → State}
    (hh : ∀ x, s.LineMoves (handle s x)) : s.LineMoves (s.arrive p seq sound handle) := by
  unfold State.arrive
  dsimp only
  split
  · exact .of_eq rfl
  · split
    · split
      · exact .of_eq rfl
      · exact hh _
    · exact .of_eq rfl

theorem State.syncArrives_lineMoves (s : State) (p : Station) (f : SyncFrame) : s.LineMoves (s.syncArrives p f) :=
  s.arrive_lineMoves p _ _ (State.handleSync_lineMoves _ p s)

theorem State.detectArrives_lineMoves (s : State) (p : Station) (f : DetectFrame) : s.LineMoves (s.detectArrives p f) :=
  s.arrive_lineMoves p _ _ (State.handleDetect_lineMoves f p s)

theorem State.portByte_lineMoves (s : State) (p : Station) (b : Byte) : s.LineMoves (s.portByte p b) := by
  rcases s.portByte_cases p b with e | ⟨rx, e⟩ | e | ⟨f, e⟩ | ⟨f, e⟩ <;> rw [e]
  · exact .refl s
  · exact .of_eq rfl
  · unfold State.badFrameArrives
    dsimp only
    split <;> exact .of_eq rfl
  · exact s.syncArrives_lineMoves p f
  · exact s.detectArrives_lineMoves p f

theorem State.portBytes_lineMoves (s : State) (p : Station) (bytes : List Byte) : s.LineMoves (s.portBytes p bytes) :=
  State.portBytes_keeps (P := s.LineMoves) p (fun t b ht => ht.trans (t.portByte_lineMoves p b)) bytes s (.refl s)

theorem State.portFrame_lineMoves (s : State) (p : Station) (bytes : List Byte) {taken : State → State}
    (ht : s.LineMoves (taken s)) : s.LineMoves (s.portFrame p bytes taken) := by
  unfold State.portFrame
  split
  · exact ht
  · exact s.portBytes_lineMoves p bytes

/-! ### The Association Engine -/

theorem State.create_lineMoves {s s' : State} {r : Record} {slot : Nat} (h : s.create r = some (slot, s')) :
    s.LineMoves s' := by
  unfold State.create at h
  split at h <;> cases h
  exact .of_eq rfl

theorem State.noCandidate_lineMoves (s : State) (d : Detection) (clipped frozen : Bool) :
    s.LineMoves (s.noCandidate d clipped frozen) := by
  unfold State.noCandidate
  split
  · exact s.setPort_raise_lineMoves _ _ (by decide)
  · split
    · unfold State.makeRecord
      split
      · next hc =>
        exact ((State.create_lineMoves hc).trans (State.takeOverdue_lineMoves _ _)).trans (State.settle_lineMoves _)
      · exact s.raise_lineMoves (by decide) _ _
    · exact .refl s

theorem State.complete_lineMoves (s : State) (slot : Nat) (redecide : Bool) : s.LineMoves (s.complete slot redecide) := by
  have hdecided : s.LineMoves (if redecide then s.modRecord slot (decideRecord s) else s) := by
    split <;> exact .of_eq rfl
  exact (hdecided.trans (State.takeOverdue_lineMoves _ _)).trans (State.settle_lineMoves _)

theorem State.giveTo_lineMoves (s : State) (d : Detection) (clipped frozen : Bool) (c : Live) :
    s.LineMoves (s.giveTo d clipped frozen c) := by
  unfold State.giveTo
  split
  · exact (State.complete_lineMoves _ _ _).after rfl
  · exact s.noCandidate_lineMoves _ _ _

theorem State.absorbPart_lineMoves (s : State) (x : AdvancePart) : s.LineMoves (s.absorbPart x) := by
  cases x with
  | silence p => exact .refl s
  | point slot =>
    change s.LineMoves (s.absorb slot)
    rcases s.absorb_cases slot with ⟨_, e⟩ | ⟨_, _, e⟩ <;> rw [e] <;> exact .of_eq rfl

theorem State.merge_lineMoves (s : State) (d : Detection) (clipped : Bool) (c : Live) (cs : List Live) :
    s.LineMoves (s.merge d clipped c cs) := by
  have habsorbed : s.LineMoves (s.absorbed cs) := (State.foldl_lineMoves State.absorbPart_lineMoves _ _).after rfl
  rw [State.merge_eq]
  exact habsorbed.trans ((State.complete_lineMoves _ _ _).after rfl)

theorem State.treat_lineMoves (s : State) (d : Detection) : s.LineMoves (s.treat d) := by
  unfold State.treat
  split
  · exact .of_eq rfl
  · unfold State.matchAndTreat
    dsimp only
    split
    · exact s.noCandidate_lineMoves _ _ _
    · exact s.giveTo_lineMoves _ _ _ _
    · split
      · exact s.merge_lineMoves _ _ _ _
      · exact s.giveTo_lineMoves _ _ _ _

theorem State.take_lineMoves (s : State) (p : Station) : s.LineMoves (s.take p) := by
  unfold State.take
  split
  · exact .refl s
  · next d _ _ =>
    have htreat := State.treat_lineMoves
      { (s.setPort p (s.port p).removeHead) with ae := { pointer := nextStation p, free := false } } d
    exact (htreat.after rfl).trans (.of_eq rfl)

/-! ### The bars -/

theorem State.dropArmed_lineMoves (s : State) (x : AdvancePart) : s.LineMoves (s.dropArmed x) := by
  unfold State.dropArmed
  split
  · exact .refl s
  · split
    · exact .refl s
    · split
      · exact (State.takeOverdue_lineMoves _ _).after rfl
      · exact .refl s

theorem State.faultBar_lineMoves (s : State) (b : Bar) : s.LineMoves (s.faultBar b) := by
  have hdropped := State.foldl_lineMoves State.dropArmed_lineMoves (orderParts s.draws ((s.armedAt b).map .point))
    { (s.setBar b (s.bar b).faultNow) with draws := s.draws + 1 }
  exact ((hdropped.after rfl).trans (State.raise_lineMoves _ (by decide) _ _)).trans (State.settleFrom_lineMoves _ s)

end Sys2Proof.Machine
end

