-- ==== Sys2Proof/Proofs/LineInOrder.lean ====
section
/-! SUPPORT. Requests and every other command move Line Control by its changes alone; settles O52. -/

namespace Sys2Proof.Machine

/-! ### Requests -/

theorem setBarOp_lineMoves (r : BarRequest) (s : State) : s.LineMoves (setBarOp r s).1 := by
  unfold setBarOp
  split
  · exact .refl s
  · split
    · next b st _ _ =>
      change s.LineMoves (s.configureBar b st)
      unfold State.configureBar State.faultIfActive
      dsimp only
      split
      · exact (State.faultBar_lineMoves _ b).after rfl
      · exact .of_eq rfl
    · exact .refl s

theorem forgetOp_lineMoves (h : HandleField) (s : State) : s.LineMoves (forgetOp h s).1 := by
  unfold forgetOp
  split
  · exact .refl s
  · next r _ =>
    split
    · exact .refl s
    · have hdropped : s.LineMoves (s.dropIntervals h.slot.toNat r) := by
        unfold State.dropIntervals
        split <;> exact .of_eq rfl
      exact (hdropped.trans (State.retire_lineMoves _ _ _)).trans (State.settle_lineMoves _)

theorem insertOp_lineMoves (r : InsertRequest) (s : State) : s.LineMoves (insertOp r s).1 := by
  unfold insertOp
  split
  · exact .refl s
  · split
    · exact .refl s
    · split
      · exact .refl s
      · split
        · exact .refl s
        · split
          · exact .refl s
          · next hc => exact (State.create_lineMoves hc).trans (.of_eq rfl)

/-- START enters RUN from CONFIG and DRAINING alone (R148). -/
theorem startOp_lineMoves (s : State) : s.LineMoves (startOp s).1 := by
  have hrun : s.lc.mode ≠ .halted → s.LineMoves (s.withMode .run) := fun hm =>
    .trans (.of_event (.moded _ .run hm (by decide))) (State.settleFrom_lineMoves _ s)
  unfold startOp
  split
  · exact .refl s
  · exact .refl s
  · next hm => exact hrun (by rw [hm]; decide)
  · next hm =>
    split
    · exact .refl s
    · split
      · exact hrun (by rw [hm]; decide)
      · exact .refl s

/-- STOP enters DRAINING from RUN alone, and the drain may complete at once (R150, R151). -/
theorem stopOp_lineMoves (s : State) : s.LineMoves (stopOp s).1 := by
  unfold stopOp
  split
  · exact .refl s
  · next hm =>
    have hdraining : LineEvent s.lc { s.lc with mode := .draining } := .moded _ _ (by rw [hm]; decide) (by decide)
    exact .trans (.of_event hdraining) ((State.drainIfEmpty_lineMoves _).trans (State.settleFrom_lineMoves _ s))
  · exact .refl s
  · exact .refl s

/-- Every request's operation moves Line Control by its changes. -/
theorem request_lineMoves {c : Instr} {kind : Byte} {op : State → Answer} (hc : requestOf c = some (kind, op)) (s : State) :
    s.LineMoves (op s).1 := by
  cases c with
  | setBar r => cases hc; exact setBarOp_lineMoves r s
  | forget h => cases hc; exact forgetOp_lineMoves h s
  | insert r => cases hc; exact insertOp_lineMoves r s
  | start => cases hc; exact startOp_lineMoves s
  | stop => cases hc; exact stopOp_lineMoves s
  | reset => cases hc; exact .of_event (.reset s.lc)
  | clear => cases hc; exact .of_event (.cleared s.lc)
  | ackNotices kinds => cases hc; exact .of_event (.pended s.lc _)
  | setMask kinds => cases hc; exact .of_event (.masked s.lc kinds)
  | clearTallies => cases hc; exact .of_event (.zeroed s.lc)
  | setBelt _ | setStation _ | setTracking _ | setZone _ | enableBar _ | writeClassmap _ _ _ _ | writeDestinations _
  | switchBank _ _ | override _ _ | readPortCounters _ | readBank _ _ | lookup _ | find _ _ _ _ | scan _ _
  | readTallies _ =>
    cases hc
    refine .of_eq ?_
    simp only [setBeltOp, setStationOp, setTrackingOp, setZoneOp, enableBarOp, writeClassmapOp, writeDestinationsOp,
      writeBank, switchBankOp, overrideOp, readPortCountersOp, readBankOp, lookupOp, findOp, scanOp, readTalliesOp]
    (repeat' split) <;> rfl
  | enableGuard | readStatus | readNotices | readFault => cases hc; exact .of_eq rfl
  | _ => cases hc

/-! ### Every command -/

section
variable {s u : State} (hu : s.LineMoves u)
include hu

theorem State.LineMoves.request {c : Instr} {kind : Byte} {op : State → Answer} (hc : requestOf c = some (kind, op)) :
    s.LineMoves (op u).1 := hu.trans (request_lineMoves hc u)

theorem State.LineMoves.link (link : Link) : s.LineMoves { u with link } := hu.trans (.of_eq rfl)

end

theorem State.linkBytes_lineMoves (s : State) (bytes : List Byte) : s.LineMoves (s.linkBytes bytes) :=
  State.linkBytes_keeps (P := s.LineMoves)
    (State.linkByte_keeps (fun _ link hu => hu.link link) fun _ _ _ hc _ hu => hu.request hc) bytes s (.refl s)

theorem State.takeFrame_lineMoves (s : State) (kind : Byte) (body : List Byte) (check : Half) :
    s.LineMoves (s.takeFrame kind body check) :=
  State.takeFrame_keeps (P := s.LineMoves) (fun _ link hu => hu.link link) (fun _ _ _ hc _ hu => hu.request hc) kind body
    check (.refl s)

/-- What an event does outside reset, it does to Line Control in reset or out of it. -/
theorem State.awake_lineMoves {s : State} {f : State → State} (h : s.LineMoves (f s)) : s.LineMoves (s.awake f) :=
  State.awake_keeps (P := s.LineMoves) (.refl s) fun _ => h

/-- Every command that is no request. -/
theorem event_lineMoves {c : Instr} (hc : requestOf c = none) {s t : State} (he : exec c s = .next t) : s.LineMoves t := by
  cases c with
  | encoderTransition a b =>
    cases he
    exact (State.awake_lineMoves (State.decodeLevels_lineMoves _ _)).after rfl
  | windowEnd => cases he; exact State.awake_lineMoves s.endWindow_lineMoves
  | sync port f =>
    cases he
    exact State.awake_lineMoves (s.portFrame_lineMoves port _ (s.syncArrives_lineMoves port f))
  | detect port f =>
    cases he
    exact State.awake_lineMoves (s.portFrame_lineMoves port _ (s.detectArrives_lineMoves port f))
  | badFrame port length kind => cases he; exact State.awake_lineMoves (s.portBytes_lineMoves port _)
  | portStartMark port => cases he; exact State.awake_lineMoves (s.portByte_lineMoves port _)
  | assocTake =>
    cases he
    refine State.awake_lineMoves ?_
    split
    · split
      · exact s.take_lineMoves _
      · exact .refl s
    · exact .refl s
  | driverFault b =>
    cases he
    refine State.LineMoves.after (State.awake_lineMoves ?_) rfl
    split
    · exact State.faultBar_lineMoves _ b
    · exact .refl _
  | overlongFrame length => cases he; exact State.awake_lineMoves (s.linkBytes_lineMoves _)
  | garbledFrame kind body check =>
    cases he
    refine State.awake_lineMoves ?_
    split
    · unfold State.linkFrame
      split
      · exact s.takeFrame_lineMoves kind body check
      · exact s.linkBytes_lineMoves _
    · exact s.linkBytes_lineMoves _
  | startMark => cases he; exact State.awake_lineMoves (s.linkBytes_lineMoves [supervisorMark])
  | resetPin => cases he; exact .of_event (.released s.lc)
  | resetPinAsserted | faultLineInactive _ => cases he; exact .of_eq rfl
  | replySent | valveFrameStart _ | refreshExpiry _ => cases he; exact State.awake_lineMoves (.of_eq rfl)
  | lclkPulseStart | lclkPulseEnd | maxonCut _ _ =>
    cases he
    exact State.awake_lineMoves (by split <;> exact .of_eq rfl)
  | coolingEnd _ _ | valveFrameEnd _ =>
    cases he
    exact State.awake_lineMoves (by dsimp only; split <;> exact .of_eq rfl)
  | _ => cases hc

/-- Every command moves Line Control by its changes alone. -/
theorem exec_lineMoves {c : Instr} {s t : State} (he : exec c s = .next t) : s.LineMoves t := by
  cases hc : requestOf c with
  | none => exact event_lineMoves hc he
  | some x =>
    exact exec_request_keeps (P := s.LineMoves) (fun _ link hu => hu.link link) (fun _ _ _ hr _ hu => hu.request hr) hc
      (.refl s) he

/-- Every step moves Line Control by its changes alone; time does not change it. -/
theorem step_lineMoves {s t : State} (hs : step s = .next t) : s.LineMoves t :=
  step_keeps (P := s.LineMoves) (fun _ _ _ hu he => hu.trans (exec_lineMoves he))
    (fun _ hu => hu.trans (State.awake_lineMoves (.of_eq rfl))) (fun _ _ hu => hu.trans (.of_eq rfl))
    (fun _ _ hu => hu.trans (.of_eq rfl)) (.refl s) hs

/-- Settles O52: a step changes Line Control by `LineEvent` alone, and each of its changes keeps the order. -/
theorem step_keeps_Line_Control_in_order : Obligations.Step_keeps_Line_Control_in_order := fun _ _ h hs =>
  (step_lineMoves hs).lineOk h

end Sys2Proof.Machine
end

