-- ==== Sys2Proof/Proofs/GeometryCheck.lean ====
section
/-! SUPPORT. The geometry check, condition by condition (R149); settles O47. -/

namespace Sys2Proof.Machine

/-! ### Rising lists -/

theorem strictlyRising_iff (xs : List Nat) : strictlyRising xs = true ↔ xs.Pairwise (· < ·) := by
  rw [← List.isChain_iff_pairwise]
  induction xs with
  | nil => exact iff_of_true rfl .nil
  | cons a rest ih =>
    cases rest with
    | nil => exact iff_of_true rfl (.singleton a)
    | cons b rest => rw [strictlyRising, Bool.and_eq_true, decide_eq_true_eq, ih, List.isChain_cons_cons]

/-- In a list in the order of a rank, its pairs are those whose ranks stand in that order. -/
theorem pairwise_iff_of_rank {α : Type} {R : α → α → Prop} {rank : α → Nat} {xs : List α}
    (hrank : xs.Pairwise fun a b => rank a < rank b) :
    xs.Pairwise R ↔ ∀ a ∈ xs, ∀ b ∈ xs, rank a < rank b → R a b := by
  refine ⟨fun h a ha b hb hlt => ?_, fun h => hrank.imp_of_mem fun ha hb hlt => h _ ha _ hb hlt⟩
  obtain ⟨i, hi, rfl⟩ := List.getElem_of_mem ha
  obtain ⟨j, hj, rfl⟩ := List.getElem_of_mem hb
  rcases lt_trichotomy i j with hij | rfl | hij
  · exact List.pairwise_iff_getElem.1 h i j hi hj hij
  · exact absurd hlt (lt_irrefl _)
  · exact absurd hlt (List.pairwise_iff_getElem.1 hrank j i hj hi hij).not_gt

/-! ### Bars and stations -/

/-- f is the lowest-numbered enabled bar (R42). -/
theorem State.lowBar_eq_some_iff (s : State) (f : Bar) :
    s.lowBar = some f ↔
      (s.bar f).settings.enabled = true ∧ ∀ b, (s.bar b).settings.enabled = true → barNo f ≤ barNo b := by
  refine ⟨fun h => ⟨State.lowBar_enabled h, fun b hb => ?_⟩, fun h => State.lowBar_eq h.1 h.2⟩
  obtain ⟨rest, hrest⟩ := List.head?_eq_some_iff.1 h
  have hpair := s.enabledBars_pairwise
  have hmem := (s.mem_enabledBars b).2 hb
  rw [hrest] at hpair hmem
  rcases List.mem_cons.1 hmem with rfl | hmem
  · exact le_refl _
  · exact ((List.pairwise_cons.1 hpair).1 b hmem).le

/-- The reaches of the enabled bars rise with their numbers (R149). -/
theorem State.enabledBars_rising_iff (s : State) :
    strictlyRising (s.enabledBars.map fun b => (s.bar b).settings.E) = true ↔
      ∀ b c, (s.bar b).settings.enabled = true → (s.bar c).settings.enabled = true → barNo b < barNo c →
        (s.bar b).settings.E < (s.bar c).settings.E := by
  simp only [strictlyRising_iff, List.pairwise_map, pairwise_iff_of_rank s.enabledBars_pairwise, s.mem_enabledBars]
  exact ⟨fun h b c hb hc => h b hb c hc, fun h b hb c hc => h b c hb hc⟩

/-- D_max is the D_s of one enabled station, where one is enabled, and no enabled station has a larger one (R42). -/
theorem State.dMax_spec {s : State} (hon : ∃ p, (s.port p).enabled = true) :
    ∃ p, (s.port p).enabled = true ∧ (s.port p).D = s.dMax ∧ ∀ q, (s.port q).enabled = true → (s.port q).D ≤ s.dMax := by
  have hmem : ∀ p, p ∈ (stations.filter fun p => (s.port p).enabled).toFinset ↔ (s.port p).enabled = true := fun p => by
    simp [mem_stations]
  obtain ⟨p, hp⟩ := hon
  obtain ⟨m, hm, hmax⟩ := Finset.exists_max_image _ (fun p => (s.port p).D) ⟨p, (hmem p).2 hp⟩
  have hle : ∀ q, (s.port q).enabled = true → (s.port q).D ≤ (s.port m).D := fun q hq => hmax q ((hmem q).2 hq)
  have hD : s.dMax = (s.port m).D := State.dMax_eq ⟨m, (hmem m).1 hm, rfl⟩ hle
  exact ⟨m, (hmem m).1 hm, hD.symm, hD ▸ hle⟩

/-- A bound holds with D_max where it holds station by station (R149). -/
theorem State.room_dMax_iff {s : State} (hon : ∃ p, (s.port p).enabled = true) (n lead settle : Int) :
    n ≤ lead - s.dMax - settle ↔ ∀ p, (s.port p).enabled = true → n ≤ lead - (s.port p).D - settle := by
  obtain ⟨p, hp, hD, hmax⟩ := s.dMax_spec hon
  constructor
  · intro h q hq
    have := hmax q hq
    omega
  · intro h
    have := h p hp
    omega

/-! ### The check -/

/-- The check fails where no bar is enabled (R149). -/
theorem State.exists_lowBar_of_geometryOk {s : State} (h : s.geometryOk = true) : ∃ f, s.lowBar = some f := by
  unfold State.geometryOk at h
  split at h
  · cases h
  · next f hf => exact ⟨f, hf⟩

/-- The check as it is worked out for the lowest enabled bar f, with D_max (R149). -/
theorem State.geometryOk_of_lowBar {s : State} {f : Bar} (hf : s.lowBar = some f) :
    s.geometryOk = true ↔
      (∃ p, (s.port p).enabled = true) ∧
      strictlyRising (s.enabledBars.map fun b => (s.bar b).settings.E) = true ∧
      (∀ p, (s.port p).enabled = true → (s.port p).D < (s.bar f).settings.E) ∧
      (∀ b, (s.bar b).settings.enabled = true → (s.bar f).settings.lead ≤ (s.bar b).settings.lead) ∧
      2 * (s.tracking.lMax : Int) ≤ (s.bar f).settings.lead - s.dMax - s.tracking.settle := by
  simp [State.geometryOk, hf, and_assoc, mem_stations, s.mem_enabledBars, imp_iff_not_or]

/-- The check for the lowest enabled bar f in signed whole numbers, D_max said station by station (R149). -/
theorem State.geometryOk_iff_of_lowBar {s : State} {f : Bar} (hf : s.lowBar = some f) :
    s.geometryOk = true ↔
      (∃ p, (s.port p).enabled = true) ∧
      (∀ b c, (s.bar b).settings.enabled = true → (s.bar c).settings.enabled = true → barNo b < barNo c →
        ((s.bar b).settings.E : Int) < (s.bar c).settings.E) ∧
      (∀ p, (s.port p).enabled = true → ((s.port p).D : Int) < (s.bar f).settings.E) ∧
      (∀ b, (s.bar b).settings.enabled = true → (s.bar f).settings.lead ≤ (s.bar b).settings.lead) ∧
      ∀ p, (s.port p).enabled = true →
        2 * (s.tracking.lMax : Int) ≤ (s.bar f).settings.lead - (s.port p).D - s.tracking.settle := by
  rw [State.geometryOk_of_lowBar hf]
  refine and_congr_right fun hon => ?_
  rw [State.room_dMax_iff hon, s.enabledBars_rising_iff]
  simp only [Int.ofNat_lt]

/-- Settles O47: the bar f of the statement is the lowest enabled bar of the check, the only one there can be. -/
theorem geometry_check : Obligations.Geometry_check := by
  intro s on E A
  constructor
  · intro h
    obtain ⟨f, hf⟩ := State.exists_lowBar_of_geometryOk h
    obtain ⟨hfon, hlow⟩ := (s.lowBar_eq_some_iff f).1 hf
    obtain ⟨hon, hrest⟩ := (State.geometryOk_iff_of_lowBar hf).1 h
    exact ⟨hon, f, hfon, hlow, hrest⟩
  · rintro ⟨hon, f, hfon, hlow, hrest⟩
    have hf : s.lowBar = some f := (s.lowBar_eq_some_iff f).2 ⟨hfon, hlow⟩
    exact (State.geometryOk_iff_of_lowBar hf).2 ⟨hon, hrest⟩

end Sys2Proof.Machine
end

section

namespace Sys2Proof.Machine

/-- Settles O1: of the two cases of `step`, a queue with a front command selects the first (entry 21). -/
theorem step_runs_the_front_command : Obligations.Step_runs_the_front_command := by
  intro c rest s hp
  simp only [step, hp]

end Sys2Proof.Machine
end
